-- ==== Sys2Proof/Word.lean ====
section
/-! DEFINITION. The word types of the part (R4, R21, R27, R71, R219) and the numbers that name its
dies, tiles, contexts and ports. -/

namespace Sys2Proof

/-- A PE word (R21), and the wider and narrower words the spec's tables use. -/
abbrev W128 := BitVec 128
abbrev W64 := BitVec 64
abbrev W32 := BitVec 32
abbrev W16 := BitVec 16
abbrev Byte := BitVec 8

/-- A global virtual address: peer package in [79:72] (R27). -/
abbrev VA := BitVec 80

/-- A 42-bit package physical address (R219). -/
abbrev PA := BitVec 42

/-- A die, 0 to 7 (R15). -/
abbrev DieId := Fin 8

/-- A context number on its tile, 0 to 31 (R72). -/
abbrev CtxId := Fin 32

/-- A logical tile of a die: tile (x, y) is number 8 * y + x (R14, R17). -/
structure TileId where
  die : DieId
  n : Fin 64
  deriving DecidableEq, Repr

end Sys2Proof
end

