-- ==== Sys2Proof/Syntax.lean ====
section
/-! DEFINITION. The instructions and steps of the part: one constructor of `Instr` per row of the opcode
table. A row that is held in a PE slot carries the slot's decoded fields (R89); a row that is a step of the
part itself carries what names the occurrence: the tile, context, port, access, residency or die it belongs
to, and the choices the manual leaves to firmware, to the host or to other packages (log 7). -/

namespace Sys2Proof

/-- Type codes (R91); code F is reserved everywhere. -/
inductive Ty where
  | i8 | i16 | i32 | i64 | n8 | n16 | n32 | n64 | f32 | f16 | bf16 | e4m3 | e5m2 | w128 | bx
  deriving DecidableEq, Repr

/-- Predicate modes (R89): none, fire on true, fire on false. -/
inductive PMode where
  | none | onTrue | onFalse
  deriving DecidableEq, Repr

/-- Immediate use (R89, R90): none, replaces R, replaces L. -/
inductive ImmUse where
  | none | forR | forL
  deriving DecidableEq, Repr

/-- Collar sides (R87). -/
inductive Side where
  | n | e | s | w
  deriving DecidableEq, Repr

/-- The operand sides of a slot (R93). -/
inductive OpSide where
  | l | r | p
  deriving DecidableEq, Repr

/-- Broadcast forms of a target (R44, R93). -/
inductive Bcast where
  | single | row | col
  deriving DecidableEq, Repr

/-- A target (R93): absent, an operand side of a slot, a write entry or egress port, or an exit. -/
inductive Target where
  | none
  | operand (o : OpSide) (side : Side) (row : BitVec 2) (col : BitVec 4) (slot : BitVec 3) (b : Bcast)
  | output (index : BitVec 6)
  | exit (index : BitVec 6)
  deriving DecidableEq, Repr

/-- The decoded fields of an instruction slot besides its opcode (R89). `aux` is F5[7:5], the rounding mode
or what the entry says; `idx` is F5[4:0]. -/
structure Slot where
  mode : BitVec 6
  t0 : Target
  t1 : Target
  imm : W32
  pmode : PMode
  immuse : ImmUse
  ty : Ty
  aux : BitVec 3
  idx : BitVec 5
  deriving DecidableEq, Repr

/-- Atomic operations (R286, R287) with their operands. -/
inductive AtomOp where
  | add | and_ | or_ | xor_ | min | max | swap
  deriving DecidableEq, Repr

/-- A tile that a send or a task record of another package names (R312): tile (x, y), y above x, on a die of the residency
in a plain group. -/
structure Spot where
  group : W16
  die : DieId
  xy : BitVec 6
  deriving DecidableEq, Repr

/-- What another package asks of this one over a data plain (R237, R314, R315): accesses of 8 bytes or less
to address bits [71:0], pushed elements, and the data of a send whose handle was reserved. -/
inductive RemoteReq where
  | load (lvl : Bool) (addr : BitVec 72) (n : Nat) (reply : Nat)
  | ldpq (lvl : Bool) (addr : BitVec 72) (reply : Nat)
  | store (lvl : Bool) (addr : BitVec 72) (bytes : List Byte) (poison : Bool) (reply : Nat)
  | empty (lvl : Bool) (addr : BitVec 72) (reply : Nat)
  | atomic (lvl : Bool) (addr : BitVec 72) (ty : Ty) (op : AtomOp) (v : W64) (reply : Nat)
  | cas (lvl : Bool) (addr : BitVec 72) (ty : Ty) (cmp new : W64) (reply : Nat)
  /-- The requester has given up a load (R225). -/
  | withdraw (reply : Nat)
  /-- Bytes of a send for a handle (R314, R315), with the type and operation they accumulate under. -/
  | sendData (spot : Spot) (h : Fin 64) (offset : Nat) (bytes : List Byte) (poison : Bool) (acctype : BitVec 4)
      (accop : BitVec 3) (reply : Nat)
  | taskNotice (spot : Spot) (record : BitVec 256) (reply : Nat)
  deriving DecidableEq, Repr

/-- What comes back from another package (R237, R278, R281, R290): the bytes read, an empty word that LDPQ found, a
plain acknowledgement, a trap cause and subcode, the grant of a handle reservation, or a load that found the deferred-read
table full (R225). -/
inductive RemoteAnswer where
  | data (v : W64) (poison : Bool)
  | missing
  | ack
  | fault (cause sub : Byte)
  | granted (size : Nat)
  | retry
  deriving DecidableEq, Repr

/-- A message of the plain sequence order that another package sent (R254, R256). -/
inductive ForeignMsg where
  | fence
  | barrier (member : Fin 16) (pvi : BitVec 12) (group : W16) (b : Fin 16)
  | memberUp (member : Fin 16)
  | memberDown (member : Fin 16)
  | atomic (member : Fin 16) (pvi : BitVec 12) (q : RemoteReq)
  | task (member : Fin 16) (pvi : BitVec 12) (spot : Spot) (record : BitVec 256) (reply : Nat)
  deriving DecidableEq, Repr

/-- Where an uncorrectable SRAM error lies (R195, R216, R231): an 8-byte word of operand memory or of a weight plane, an
accumulator word, or a scratchpad word. -/
inductive SramSite where
  | operand (word : Nat)
  | plane (active : Bool) (word : Nat)
  | acc (a : Fin 4) (word : Nat)
  | scratch (word : Nat)
  deriving DecidableEq, Repr

/-- Why a tile is fenced (R439). -/
inductive FenceCause where
  | ecc | margin | silent
  deriving DecidableEq, Repr

/-- A read of a register by the host (R9): through a VI's window, or of the management space, of 4 or 8 bytes. -/
inductive RegRead where
  | window (vi : Fin 64) (off n : Nat)
  | management (off n : Nat)
  deriving DecidableEq, Repr

/-- A flit that a die keeps for a member (R434): the request it is part of, and which part. -/
structure Flit where
  member : Fin 16
  id : Nat
  part : Nat
  deriving DecidableEq, Repr

/-- What is measured of the coolant and the supply (R462): the inlet in 0.1 °C, the flow in 0.1 L/min, the supply in 0.1 V. -/
structure Rating where
  tin : W16
  flow : Nat
  supply : Nat
  deriving DecidableEq, Repr

/-- What a boot stage meets (R456, R403): success, or the failure code of the stage. The images offered at
stages 1, 3 and 5 carry their 256-byte header and payload. -/
inductive BootInput where
  | image (header payload : List Byte)
  | pass
  | fail (code : Byte)
  deriving DecidableEq, Repr

/-- A write to a register with no behaviour of its own (R9, R324, R384, R404, R457): a Herelo window offset
of a VI, or an offset of the management space. -/
inductive RegWrite where
  | window (vi : Fin 64) (off : Nat) (v : W64)
  | management (off : Nat) (v : W64)
  deriving DecidableEq, Repr

/-- The opcode table's rows. -/
inductive Instr where
  /-- NOP (R107). Consumes its operand set and emits nothing, absorbing any token kind. -/
  | nop (f : Slot)
  /-- IADD (R155). Lane-wise integer add, wrapping or saturating with .sat. -/
  | iadd (f : Slot)
  /-- ISUB (R155). Lane-wise integer subtract, wrapping or saturating. -/
  | isub (f : Slot)
  /-- IMUL (R155). Lane-wise integer multiply, wrapping or saturating. -/
  | imul (f : Slot)
  /-- IMULH (R155). Lane-wise high half of the exact product. -/
  | imulh (f : Slot)
  /-- IMAD (R158). Packed multiply-add into a wider integer lane. -/
  | imad (f : Slot)
  /-- IDIV (R155). Truncating integer division, all ones on division by zero. -/
  | idiv (f : Slot)
  /-- IREM (R155). Integer remainder with sign of dividend, dividend on division by zero. -/
  | irem (f : Slot)
  /-- INEG (R155). Lane-wise negation, wrapping or saturating. -/
  | ineg (f : Slot)
  /-- IABS (R155). Lane-wise absolute value of signed lanes. -/
  | iabs (f : Slot)
  /-- IMIN (R154). Lane-wise lesser value by the type's signedness. -/
  | imin (f : Slot)
  /-- IMAX (R154). Lane-wise greater value by the type's signedness. -/
  | imax (f : Slot)
  /-- AND (R154). Bitwise AND of L and R. -/
  | bitAnd (f : Slot)
  /-- OR (R154). Bitwise OR of L and R. -/
  | bitOr (f : Slot)
  /-- XOR (R154). Bitwise XOR of L and R. -/
  | bitXor (f : Slot)
  /-- ANDN (R154). Bitwise L AND NOT R. -/
  | bitAndn (f : Slot)
  /-- NOT (R154). Bitwise complement of L. -/
  | bitNot (f : Slot)
  /-- SHL (R156). Shift left by an unsigned count, 0 when the count reaches the width. -/
  | shl (f : Slot)
  /-- SHR (R156). Logical shift right. -/
  | shr (f : Slot)
  /-- SAR (R156). Arithmetic shift right of signed lanes. -/
  | sar (f : Slot)
  /-- ROL (R156). Rotate left by count modulo width. -/
  | rol (f : Slot)
  /-- CLZ (R156). Counts leading zero bits of each lane. -/
  | clz (f : Slot)
  /-- CTZ (R156). Counts trailing zero bits of each lane. -/
  | ctz (f : Slot)
  /-- POPC (R156). Counts set bits of each lane. -/
  | popc (f : Slot)
  /-- BFX (R157). Extracts a bit field, zero- or sign-extended by type. -/
  | bfx (f : Slot)
  /-- BFI (R157). Packed insert of a value into a bit field of a destination. -/
  | bfi (f : Slot)
  /-- SEXT (R157). Sign-extends each lane from bit R-1. -/
  | sext (f : Slot)
  /-- ZEXT (R157). Zero-extends each lane from bit R-1. -/
  | zext (f : Slot)
  /-- MOVI (R159). Emits R once its trigger L has arrived. -/
  | movi (f : Slot)
  /-- MOVHI (R159). Replaces one 32-bit chunk of L with R[31:0]. -/
  | movhi (f : Slot)
  /-- LEA (R160). Address arithmetic L + R×2^s, keeping the peer field for w128. -/
  | lea (f : Slot)
  /-- MOV (R159). Emits L unchanged, predicates included. -/
  | mov (f : Slot)
  /-- NUL (R159). Emits a null token, clearing poison, passing faults and end-of-run. -/
  | nul (f : Slot)
  /-- LANE (R161). Extracts lane R[0] of L into lane 0. -/
  | lane (f : Slot)
  /-- INS (R161). Inserts R[0] into lane j of L. -/
  | ins (f : Slot)
  /-- SPLAT (R161). Copies lane j of L into every lane. -/
  | splat (f : Slot)
  /-- SHUF (R162). Selects lanes of L by 4-bit selectors in R. -/
  | shuf (f : Slot)
  /-- PACK (R163). Narrows lanes of L and R into one word with saturation or rounding. -/
  | pack (f : Slot)
  /-- UNPK (R163). Widens half of L's lanes. -/
  | unpk (f : Slot)
  /-- REDL (R164). Tree reduction of L's lanes into lane 0. -/
  | redl (f : Slot)
  /-- PERM (R162). Two-word interleave or even/odd selection. -/
  | perm (f : Slot)
  /-- FADD (R166). Correctly rounded floating-point add. -/
  | fadd (f : Slot)
  /-- FSUB (R166). Correctly rounded floating-point subtract. -/
  | fsub (f : Slot)
  /-- FMUL (R166). Correctly rounded floating-point multiply. -/
  | fmul (f : Slot)
  /-- FMA (R167). Packed fused multiply-add into f32 with one rounding. -/
  | fma (f : Slot)
  /-- FNMA (R167). Packed fused z − x·y into f32 with one rounding. -/
  | fnma (f : Slot)
  /-- FDIV (R166). Correctly rounded floating-point division. -/
  | fdiv (f : Slot)
  /-- FSQRT (R166). Correctly rounded square root. -/
  | fsqrt (f : Slot)
  /-- FRCP (R166). Correctly rounded reciprocal. -/
  | frcp (f : Slot)
  /-- FRSQ (R166). Correctly rounded reciprocal square root. -/
  | frsq (f : Slot)
  /-- FEXP2 (R166). Correctly rounded 2^L. -/
  | fexp2 (f : Slot)
  /-- FLOG2 (R166). Correctly rounded log2 L. -/
  | flog2 (f : Slot)
  /-- FMIN (R169). Lesser operand with −0 below +0 and NaN handling. -/
  | fmin (f : Slot)
  /-- FMAX (R169). Greater operand with −0 below +0 and NaN handling. -/
  | fmax (f : Slot)
  /-- FABS (R169). Clears the sign bit. -/
  | fabs (f : Slot)
  /-- FNEG (R169). Inverts the sign bit. -/
  | fneg (f : Slot)
  /-- FRND (R170). Rounds to an integral value in the rounding mode. -/
  | frnd (f : Slot)
  /-- FSCALE (R170). Rounded L × 2^R. -/
  | fscale (f : Slot)
  /-- FCLASS (R169). One-hot class of each lane. -/
  | fclass (f : Slot)
  /-- FDOT4 (R168). Four-term dot product in f32 with fixed pairwise order. -/
  | fdot4 (f : Slot)
  /-- FREDS (R168). Tree sum of L's lanes plus R[0] in f32. -/
  | freds (f : Slot)
  /-- CVT (R172). Lane-wise conversion between types with saturation and hi selection. -/
  | cvt (f : Slot)
  /-- QBLK (R173). Quantises one quarter of a BX block given the block maximum. -/
  | qblk (f : Slot)
  /-- DQBLK (R174). Converts a bx quarter to floating point. -/
  | dqblk (f : Slot)
  /-- MXPK (R175). Packs one quarter of an MX block with its E8M0 scale. -/
  | mxpk (f : Slot)
  /-- MXUNPK (R175). Unpacks MX elements to floating point. -/
  | mxunpk (f : Slot)
  /-- HSTEP (R176). One add-subtract stage of a Walsh–Hadamard butterfly. -/
  | hstep (f : Slot)
  /-- ICMP (R178). Integer compare giving a predicate or a lane mask. -/
  | icmp (f : Slot)
  /-- FCMP (R178). Floating-point compare giving a predicate or a lane mask. -/
  | fcmp (f : Slot)
  /-- SEL (R179). Steers R to target0 or target1 by predicate L. -/
  | sel (f : Slot)
  /-- PAND (R180). Predicate AND. -/
  | pand (f : Slot)
  /-- POR (R180). Predicate OR. -/
  | por (f : Slot)
  /-- PNOT (R180). Predicate NOT. -/
  | pnot (f : Slot)
  /-- TESTP (R180). Predicate from lane-wise L AND R tests. -/
  | testp (f : Slot)
  /-- LD (R278). Relaxed load from S or G, possibly forwarded or deferred. -/
  | ld (f : Slot)
  /-- ST (R279). Relaxed store, performed at commit (block) or at firing (stream). -/
  | st (f : Slot)
  /-- LDA (R280). Acquire load at a scope. -/
  | lda (f : Slot)
  /-- STL (R280). Release store at a scope. -/
  | stl (f : Slot)
  /-- EMPTY (R282). Sets P words empty at commit as a release. -/
  | empty (f : Slot)
  /-- PREF (R283). Loads a translation and asks for line allocation, never faulting. -/
  | pref (f : Slot)
  /-- ACCRD (R208). Reads one accumulator word under R196 ordering. -/
  | accrd (f : Slot)
  /-- ACCWR (R208). Writes one accumulator word through the write buffer at commit. -/
  | accwr (f : Slot)
  /-- FENCE (R284). Acquire, release or full fence performed at commit. -/
  | fence (f : Slot)
  /-- SEQF (R285). Sends a sequenced fence message into S_pkg or S_plain. -/
  | seqf (f : Slot)
  /-- LDPQ (R281). Reads a P word without waiting, reporting presence. -/
  | ldpq (f : Slot)
  /-- AMO (R286). Atomic read-modify-write at the home, relaxed or sequenced. -/
  | amo (f : Slot)
  /-- CAS (R287). Compare-and-swap at the home, relaxed or sequenced. -/
  | cas (f : Slot)
  /-- BAR_INIT (R292). Sets a barrier's expected count and scope at commit. -/
  | barInit (f : Slot)
  /-- BAR_ARR (R293). Arrives at a barrier at commit as a release. -/
  | barArr (f : Slot)
  /-- BAR_SYNC (R294). Arrives if needed and waits for the phase to complete. -/
  | barSync (f : Slot)
  /-- CWAIT (R297). Fires when a completion counter is below n, as a join. -/
  | cwait (f : Slot)
  /-- HWAIT (R300). Fires when a handle is full and moves it to draining. -/
  | hwait (f : Slot)
  /-- HREL (R299). Binds a draining handle and makes it free at commit. -/
  | hrel (f : Slot)
  /-- HQRY (R301). Returns a snapshot of a handle's state. -/
  | hqry (f : Slot)
  /-- WAITDEP (R376). Fires when every producer has triggered or ended. -/
  | waitdep (f : Slot)
  /-- TRIG (R375). Marks the residency triggered at commit. -/
  | trig (f : Slot)
  /-- STRM (R305). Issues a two-loop stream engine operation at commit. -/
  | strm (f : Slot)
  /-- STRMPB (R306). Issues a stream operation described by a parameter block. -/
  | strmpb (f : Slot)
  /-- SEND (R312). Issues a send of one row into a destination handle. -/
  | send (f : Slot)
  /-- SENDPB (R313). Issues a multi-row send described by a parameter block. -/
  | sendpb (f : Slot)
  /-- MMA (R210). Issues a matrix multiply-accumulate to the matrix queue. -/
  | mma (f : Slot)
  /-- MMALD (R209). Issues a load of the shadow weight plane. -/
  | mmald (f : Slot)
  /-- ACCZ (R211). Issues zeroing of an accumulator tile. -/
  | accz (f : Slot)
  /-- ACCDRN (R212). Issues a drain of an accumulator tile. -/
  | accdrn (f : Slot)
  /-- OMCLAIM (R213). Claims operand slots at commit. -/
  | omclaim (f : Slot)
  /-- OMREL (R213). Puts owned operand slots into releasing at commit. -/
  | omrel (f : Slot)
  /-- PFIRE (R214). Issues arming of a stream section on named sides. -/
  | pfire (f : Slot)
  /-- CFGLD (R316). Issues a load of an image into shadow planes. -/
  | cfgld (f : Slot)
  /-- CFGSW (R317). Issues a swap of active and shadow planes. -/
  | cfgsw (f : Slot)
  /-- CFGWR (R318). Issues a write of one configuration field to a tile's plane. -/
  | cfgwr (f : Slot)
  /-- ENGQ (R303). Returns a snapshot of an engine queue's state. -/
  | engq (f : Slot)
  /-- ENGQ_SET (R303). Sets an engine queue's mode and clears its stall counter at commit. -/
  | engqSet (f : Slot)
  /-- BR (R361). Fires a branch exit, conditionally with .c. -/
  | br (f : Slot)
  /-- CONT (R362). Fires the while-back exit and tells the sequencer whether to continue. -/
  | cont (f : Slot)
  /-- HALT (R364). Fires a halt exit. -/
  | halt (f : Slot)
  /-- HALT_RES (R364). Halts the context and stops the whole residency at commit. -/
  | haltRes (f : Slot)
  /-- LAUNCH (R369). Reads a swarm descriptor and reserves a pending-launch record. -/
  | launch (f : Slot)
  /-- YIELD (R368). Holds the context's successor request at commit. -/
  | yield (f : Slot)
  /-- SPAWN (R366). Reserves and at commit creates child contexts. -/
  | spawn (f : Slot)
  /-- JOIN (R367). Waits until named children are done and frees them. -/
  | join (f : Slot)
  /-- CALLX (R363). Fires an indirect exit with an entry word. -/
  | callx (f : Slot)
  /-- TAGQ (R377). Returns tag and throttle snapshot, clearing the throttle with .clr. -/
  | tagq (f : Slot)
  /-- TQPUT (R378). Reserves and at commit appends a task record. -/
  | tqput (f : Slot)
  /-- TQGET (R379). Takes the newest ready task record and enters its block. -/
  | tqget (f : Slot)
  /-- TQSTEAL (R380). Steals the oldest ready record from another tile. -/
  | tqsteal (f : Slot)
  /-- DREC (R182). Recodes a bx quarter into the digit token of one position. -/
  | drec (f : Slot)
  /-- DCUT (R182). Cuts a digit stream after d digits. -/
  | dcut (f : Slot)
  /-- DADD (R183). Joins two partial digit tokens. -/
  | dadd (f : Slot)
  /-- DMUL (R183). Weighted digit times i32 for four elements. -/
  | dmul (f : Slot)
  /-- DVAL (R183). Adds weighted digits into prefix values. -/
  | dval (f : Slot)
  /-- MERGE (R186). Merges two sorted streams run by run, L winning ties. -/
  | merge (f : Slot)
  /-- EOSE (R187). Reduces each run and emits its result at end-of-run. -/
  | eose (f : Slot)
  /-- EOST (R188). Cuts a stream into runs of n tokens. -/
  | eost (f : Slot)
  /-- TRAP (R418). Commits and then raises SYSCALL with its service number. -/
  | trap (f : Slot)
  /-- ERET_RS (R420). Restores the trapped image and resumes, re-arming a stopped section. -/
  | eretRs (f : Slot)
  /-- ERET_NB (R419). Resumes like ERET.rs with breakpoints of the first instance ignored. -/
  | eretNb (f : Slot)
  /-- ERET_AB (R420). Aborts the swarm from the handler. -/
  | eretAb (f : Slot)
  /-- ERET_DR (R420). Resumes while completing stopped engine operations and closing the section. -/
  | eretDr (f : Slot)
  /-- SRD (R397). Reads a special register into a word. -/
  | srd (f : Slot)
  /-- SWR (R397). Writes s.fpf or an argument register at commit. -/
  | swr (f : Slot)
  /-- BKPT (R419). Raises BREAKPOINT exact at its instance. -/
  | bkpt (f : Slot)
  /-- XLINV_PG (R399). Invalidates translations of a range of 64 KiB units in scope. -/
  | xlinvPg (f : Slot)
  /-- XLINV_ALL (R399). Invalidates every translation entry of the VI in scope. -/
  | xlinvAll (f : Slot)
  /-- XLINV_RNG (R399). Reloads range buffers from the VI's range table in scope. -/
  | xlinvRng (f : Slot)
  /-- ERRQ (R423). Takes the oldest error-queue record and writes it to memory at commit. -/
  | errq (f : Slot)
  /-- PCLR (R421). Emits L with its poison bit cleared. -/
  | pclr (f : Slot)
  /-- CTXSAVE (R422). Writes the trapped image to memory at commit. -/
  | ctxsave (f : Slot)
  /-- CTXREST (R422). Reads an image and replaces the trapped image's RW fields if acceptable. -/
  | ctxrest (f : Slot)
  /-- PREEMPT_STOP (R424). Pre-empts a residency of the VI and holds it stopped. -/
  | preemptStop (f : Slot)
  /-- PREEMPT_RES (R424). Returns a stopped residency to placement. -/
  | preemptRes (f : Slot)
  /-- PREEMPT_AB (R424). Aborts the swarm of a named residency. -/
  | preemptAb (f : Slot)
  /-- PREEMPT_BE (R424). Returns a stopped residency to placement as best-effort. -/
  | preemptBe (f : Slot)
  /-- CFGCHK (R401). Checks an image under R103 without placing it. -/
  | cfgchk (f : Slot)
  /-- CONFIG_COMMAND (R84). A configuration command writes one 16-bit field of one element. -/
  | configCommand (elem : BitVec 12) (field : BitVec 4) (value : W16)
  /-- CLEAR_COMMAND (R85). A field-15 command clears an element and discards its held tokens. -/
  | clearCommand (elem : BitVec 12)
  /-- TOKEN_DELIVERY (R44). A token reaches a slot's matching store or a block output. -/
  | tokenDelivery (t : TileId) (k : Nat)
  /-- BLOCK_REQUEST (R48). The sequencer serves a request to enter a block, fetching and placing its image. -/
  | blockRequest (t : TileId) (c : CtxId)
  /-- IMAGE_FETCH_DONE (R48). A context-store miss completes and the image is kept or refused. -/
  | imageFetchDone (t : TileId) (a : VA)
  /-- INSTANCE_SPAWN (R49). An instance is spawned with a tag and stamp and its read entries resolve. -/
  | instanceSpawn (t : TileId) (c : CtxId)
  /-- LOOP_SPAWN (R64). The sequencer spawns the next loop iteration when window, tags and table allow. -/
  | loopSpawn (t : TileId) (c : CtxId)
  /-- COMMIT (R52). The oldest complete instance commits registers, stores, engine issues and PC. -/
  | commit (t : TileId) (c : CtxId)
  /-- TRAP_EXACT (R53). A faulted instance becomes oldest, younger instances squash and the trap is raised. -/
  | trapExact (t : TileId) (c : CtxId)
  /-- STREAM_EGRESS (R58). An egress port takes a beat's token in beat order or traps on a fault. -/
  | streamEgress (t : TileId) (port : Fin 64)
  /-- HOME_ACCESS (R224). A load or write is performed at its home under its class and presence. -/
  | homeAccess (id : Nat)
  /-- LOAD_RETRY (R225). A load returned for retry is resent after at least 64 cycles. -/
  | loadRetry (id : Nat)
  /-- REMOTE_TIMEOUT (R348). A remote request's 2^22-cycle timeout expires. -/
  | remoteTimeout (id : Nat)
  /-- REMOTE_REQUEST_ARRIVAL (R237). A remote request is checked and translated at the target package. -/
  | remoteRequestArrival (member : Fin 16) (pvi : BitVec 12) (q : RemoteReq)
  /-- REMOTE_REPLY (R237). A remote reply or fault returns to the requester. -/
  | remoteReply (id : Nat) (r : RemoteAnswer)
  /-- PAGE_WALK (R240). The walker pool performs a translation walk judging each entry. -/
  | pageWalk (t : TileId) (va : VA)
  /-- SCRUB_STEP (R231). The scrubber corrects one idle word of a bank. -/
  | scrubStep (t : TileId) (bank : Fin 32)
  /-- MATRIX_OP_START (R205). A matrix-queue operation starts once its conditions hold. -/
  | matrixOpStart (t : TileId)
  /-- KSTEP (R197). One K-step accumulates a product into the accumulator tile. -/
  | kstep (t : TileId)
  /-- ENGINE_OP_COMPLETE (R260). An engine operation completes and decrements its counter or marks its handle. -/
  | engineOpComplete (t : TileId) (op : Nat)
  /-- ACC_WRITE_APPLY (R196). The accumulator write buffer applies an ACCWR once older operations complete. -/
  | accWriteApply (t : TileId)
  /-- STREAM_OP_START (R309). A stream operation starts when queue order, activity and stream allow. -/
  | streamOpStart (t : TileId)
  /-- MEMORY_PORT_SLOT (R310). The memory port gives a cycle to a stream by its slot table. -/
  | memoryPortSlot (t : TileId)
  /-- SEND_START (R314). A send starts filling a free handle. -/
  | sendStart (t : TileId) (op : Nat)
  /-- HANDLE_RESERVE (R315). A remote send's handle reservation is served at the receiving tile. -/
  | handleReserve (spot : Spot) (h : Fin 64) (member : Fin 16) (pvi : BitVec 12) (bytes reply : Nat)
  /-- HANDLE_FILL_TIMEOUT (R315). A filling handle with no data for 2^22 cycles becomes free. -/
  | handleFillTimeout (t : TileId) (h : Fin 64)
  /-- TASK_PUT (R82). A task record named by an operation is put when queue room exists. -/
  | taskPut (t : TileId) (op : Nat)
  /-- CONFIG_PLANE_SWAP (R317). The planes swap once no instance, section or token uses them. -/
  | configPlaneSwap (t : TileId)
  /-- PASS_TOKEN_VISIT (R255). The Pass token holder sends up to 8 queued messages and passes it on. -/
  | passTokenVisit (plain : Bool)
  /-- SEQUENCED_MESSAGE_ACT (R255). A member acts on a sequenced message in number order. -/
  | sequencedMessageAct (d : DieId) (plain : Bool)
  /-- PLAIN_RELAY (R256). Die 0 queues carried plain messages and relays received ones over the ring. -/
  | plainRelay (foreign : Option ForeignMsg)
  /-- FLIT_RESEND (R434). A data-plain flit is resent on CRC failure or after 4,096 cycles. -/
  | flitResend (d : DieId) (f : Flit)
  /-- TOKEN_LOSS_REGENERATE (R436). A lost Pass token is regenerated by the lowest live member. -/
  | tokenLossRegenerate (plain : Bool) (silent : BitVec 16)
  /-- STEAL_REQUEST (R349). The victim's queue hardware marks its head in transit and sends it. -/
  | stealRequest (t : TileId) (c : CtxId)
  /-- STEAL_ARRIVAL (R349). A stolen record enters the steal buffer and is acknowledged. -/
  | stealArrival (t : TileId) (c : CtxId)
  /-- STEAL_ACK (R349). The acknowledgement empties the victim's entry. -/
  | stealAck (t : TileId) (k : Nat)
  /-- HALT_RES_STOP (R364). The residency stop reaches a tile and halts its contexts. -/
  | haltResStop (t : TileId)
  /-- DESCRIPTOR_TAKE (R326). The home scheduler takes a descriptor when its record ring has room. -/
  | descriptorTake (d : DieId) (q : Nat)
  /-- RECORD_WRITE (R327). A record is written to the record ring when there is room. -/
  | recordWrite (q : Nat)
  /-- BEST_EFFORT_CHOICE (R340). The scheduler chooses and places the next best-effort swarm. -/
  | bestEffortChoice (d : DieId)
  /-- QUANTUM_EXPIRY (R341). A best-effort occupant of the blocked head's region is pre-empted after a quantum. -/
  | quantumExpiry (d : DieId)
  /-- INTERVAL_START (R335). An admitted residency starts at its interval, pre-empting best-effort occupants. -/
  | intervalStart (d : DieId) (k : Nat)
  /-- EARLY_START (R335). An admitted residency starts early in its free planned region. -/
  | earlyStart (d : DieId) (k : Nat)
  /-- RESIDENCY_START (R75). A residency is placed and creates its initial contexts. -/
  | residencyStart (r : Nat)
  /-- COSTART_RESERVATION (R77). A die announces a co-start reservation in S_pkg. -/
  | costartReservation (d : DieId) (w : Nat)
  /-- RESIDENCY_END (R75). A residency ends when contexts, sections, operations and records are done. -/
  | residencyEnd (r : Nat)
  /-- SWARM_END (R351). A swarm ends, leaves the plan and writes its ended record. -/
  | swarmEnd (w : Nat)
  /-- SWARM_ABORT (R79). The supervisor aborts a swarm and every residency stops. -/
  | swarmAbort (w : Nat)
  /-- DEPENDENCE_RELEASE (R342). A bounded swarm is admitted once its last producer triggers or ends. -/
  | dependenceRelease (w : Nat)
  /-- TRIGGER_NOTICE (R375). A triggered notice reaches every die scheduler. -/
  | triggerNotice (d : DieId) (r : Nat)
  /-- LAUNCH_RECORD_TAKE (R343). The scheduler takes a pending launch record as a descriptor. -/
  | launchRecordTake (d : DieId)
  /-- BUDGET_OVERRUN (R336). A residency's budget counter exceeds its limit and it is stopped. -/
  | budgetOverrun (r : Nat)
  /-- WATCHDOG_EXPIRY (R346). The watchdog reaches 2^24 and the residency stops with DEADLOCK. -/
  | watchdogExpiry (r : Nat)
  /-- HORIZON_BOUNDARY (R337). A pending floor or rho takes effect at a horizon boundary. -/
  | horizonBoundary (d : DieId)
  /-- DEFERRED_RECORD_DELIVERY (R412). A deferred or beat-exact record reaches its context at a boundary. -/
  | deferredRecordDelivery (t : TileId) (c : CtxId)
  /-- TRAP_DELIVERY (R411). A trap is delivered, saving the trapped image and entering the handler. -/
  | trapDelivery (t : TileId) (c : CtxId)
  /-- ERROR_QUEUE_STORE (R413). A record that cannot reach a context is stored in the error queue. -/
  | errorQueueStore (d : DieId)
  /-- ENGINE_ELEMENT_FAULT (R466). An engine operation stops at a faulting element and stays in flight. -/
  | engineElementFault (t : TileId) (op : Nat)
  /-- PREEMPTION_REQUEST (R427). Pre-emption of a residency begins at each tile. -/
  | preemptionRequest (r : Nat)
  /-- PREEMPTION_CUTOFF (R427). At the cutoff, undrained sections and unfinished operations stop. -/
  | preemptionCutoff (r : Nat)
  /-- PREEMPTION_LAST_ISSUE (R426). Control state is written and the tiles are free for another residency. -/
  | preemptionLastIssue (r : Nat)
  /-- RESIDENCY_RESUME (R431). A saved residency is restored and respawned. -/
  | residencyResume (r : Nat)
  /-- PARITY_ERROR (R432). A parity error reloads the image and replays affected work. -/
  | parityError (t : TileId) (elem : BitVec 12)
  /-- REGISTER_ECC_ERROR (R433). An uncorrectable register error poisons it and raises ECC_DEFERRED. -/
  | registerEccError (t : TileId) (c : CtxId) (g : Fin 128)
  /-- SRAM_UNCORRECTABLE (R216). An uncorrectable operand or plane error poisons the affected accumulator words. -/
  | sramUncorrectable (t : TileId) (site : SramSite)
  /-- TILE_FENCE (R18). A failed tile is fenced and its residency stopped. -/
  | tileFence (t : TileId) (cause : FenceCause)
  /-- CLOCK_STRETCH (R30). A supply sag stretches the tile's clock. -/
  | clockStretch (t : TileId) (cycles : Nat)
  /-- STRETCH_EXCESS (R438). Excess stretching caps digit rate or becomes a margin loss. -/
  | stretchExcess (t : TileId)
  /-- MARGIN (R437). Slack measurement announces a lower floor and records MARGIN. -/
  | margin (d : DieId) (floorKHz : W32)
  /-- THERMAL_STOP (R462). Junction reaching 105 °C pre-empts and holds every residency on the die. -/
  | thermalStop (d : DieId)
  /-- THERMAL_RESUME (R462). Placement resumes once junction falls below 95 °C. -/
  | thermalResume (d : DieId)
  /-- RETENTION_ENTRY (R460). Firmware moves an idle requested tile into retention. -/
  | retentionEntry (t : TileId)
  /-- RETENTION_EXIT (R460). A tile leaves retention when needed or its request clears. -/
  | retentionExit (t : TileId)
  /-- DIE_BOOT (R456). After power-on or reset a die passes its six boot stages. -/
  | dieBoot (d : DieId) (b : BootInput)
  /-- QTAIL_WRITE (R325). Writing QTAIL rings the doorbell or sets tailerr. -/
  | qtailWrite (vi : Fin 64) (q : BitVec 14) (v : W64)
  /-- QCFG_ENABLE (R324). Setting en in QCFG enables a queue or sets cfgerr. -/
  | qcfgEnable (vi : Fin 64) (q : BitVec 14) (v : W64)
  /-- QCFG_DISABLE (R324). Clearing en stops the scheduler taking descriptors from the queue. -/
  | qcfgDisable (vi : Fin 64) (q : BitVec 14) (v : W64)
  /-- QCHEAD_WRITE (R324). Writing chead frees record ring room or sets cherr. -/
  | qcheadWrite (vi : Fin 64) (q : BitVec 14) (v : W64)
  /-- HOST_MEMORY_ACCESS (R324). A host access through the Herelo window is translated and performed. -/
  | hostMemoryAccess (vi : Fin 64) (va : VA) (len : Nat) (data : Option (List Byte))
  /-- VI_ENABLE (R385). Setting en in VCTL enables a VI or sets range or over. -/
  | viEnable (vi : Fin 64) (v : W64)
  /-- VI_DISABLE (R385). Clearing en disables an idle VI or sets busy. -/
  | viDisable (vi : Fin 64) (v : W64)
  /-- ATTEST_REQUEST (R404). Writing ATCTL[0] starts a signed attestation report. -/
  | attestRequest (vi : Fin 64)
  /-- ATTEST_DONE (R404). The signed report stands and done is set. -/
  | attestDone (vi : Fin 64)
  /-- MCFG_RHO (R458). Writing rho announces a pending digit-rate fraction. -/
  | mcfgRho (d : DieId) (v : BitVec 2)
  /-- MCFG_RST (R457). Writing 1 to rst resets the die. -/
  | mcfgRst (d : DieId)
  /-- MCFG_SMODE (R458). Writing smode sets the stack mode for the next reset. -/
  | mcfgSmode (d : DieId) (v : Bool)
  /-- MPOOL_WRITE (R459). Writing MPOOL moves or grows the save pool when allowed. -/
  | mpoolWrite (d : DieId) (v : W64)
  /-- MRET_WRITE (R460). Writing MRET requests or cancels retention of tiles. -/
  | mretWrite (d : DieId) (v : W64)
  /-- REGISTER_WRITE (R9). A write to a register with no behaviour of its own. -/
  | registerWrite (w : RegWrite)
  /-- DIGIT_RATE_CAP (R461). The power manager caps the digit rate, then best-effort collar issue, to keep measured module power within the 3,200 W envelope. -/
  | digitRateCap (d : DieId) (quarters : Fin 5) (collar : Bool)
  /-- RATED_LIMITS_EXCURSION (R462). Coolant inlet, coolant flow or supply voltage leaves its rated range and the part caps to rho. -/
  | ratedLimitsExcursion (m : Rating)
  /-- UCIE_MODULE_LOSS (R28). A UCIe module is trained down or lost, and Herelo continues on the remaining modules. -/
  | ucieModuleLoss (m : Fin 4)
  /-- POWER_GATING (R254). A die or tile is power-gated, which is announced in S_pkg and decides the fate of steals in transit. -/
  | powerGating (d : DieId) (tile : Option (Fin 64))
  deriving DecidableEq, Repr

end Sys2Proof
end

