-- ==== Sys2Proof/Machine/Elements.lean ====
section
/-! DEFINITION. Element addresses (R87): which element of the collar or of an image's header a configuration
command names, how many fields it has, and which side's plane holds it. -/

namespace Sys2Proof

/-- Header entry kinds (R87). -/
inductive EntryKind where
  | read | write | exit | lsid
  deriving DecidableEq, Repr

/-- The two ways an element address is illegal (R87). -/
inductive ElemError where
  | class111 | index
  deriving DecidableEq, Repr

/-- The element that an address names (R87). -/
inductive Elem where
  | slot (side : Side) (row : BitVec 2) (col : BitVec 4) (k : BitVec 3)
  | route (box : BitVec 2) (entry : BitVec 6)
  | converter (egress : Bool) (port : BitVec 6)
  | ingress (port : BitVec 6)
  | egress (port : BitVec 6)
  | entry (kind : EntryKind) (index : BitVec 5)
  | binding (n : BitVec 4)
  | slotTable (entry : BitVec 6)
  deriving DecidableEq, Repr

def Side.code : Side → BitVec 2
  | .n => 0 | .e => 1 | .s => 2 | .w => 3

def Side.ofCode (c : BitVec 2) : Side :=
  match c.toNat with
  | 0 => .n | 1 => .e | 2 => .s | _ => .w

def EntryKind.ofCode (c : BitVec 3) : Option EntryKind :=
  match c.toNat with
  | 0 => some .read | 1 => some .write | 2 => some .exit | 3 => some .lsid | _ => none

def EntryKind.code : EntryKind → BitVec 3
  | .read => 0 | .write => 1 | .exit => 2 | .lsid => 3

/-- R87, with the two ways an address is illegal. -/
def decodeElem (a : BitVec 12) : Except ElemError Elem :=
  if !a.getLsbD 11 then
    .ok (.slot (Side.ofCode (a.extractLsb' 9 2)) (a.extractLsb' 7 2) (a.extractLsb' 3 4) (a.extractLsb' 0 3))
  else
    let top := a.extractLsb' 6 2
    let low := a.extractLsb' 0 6
    match (a.extractLsb' 8 3).toNat with
    | 0 => .ok (.route top low)
    | 1 => if a.getLsbD 6 then .error .index else .ok (.converter (a.getLsbD 7) low)
    | 2 => if top == 0 then .ok (.ingress low) else .error .index
    | 3 => if top == 0 then .ok (.egress low) else .error .index
    | 4 =>
      match EntryKind.ofCode (a.extractLsb' 5 3) with
      | none => .error .index
      | some .exit => if a.getLsbD 4 then .error .index else .ok (.entry .exit (a.extractLsb' 0 5))
      | some k => .ok (.entry k (a.extractLsb' 0 5))
    | 5 => if a.extractLsb' 4 4 == 0 then .ok (.binding (a.extractLsb' 0 4)) else .error .index
    | 6 => if top == 0 then .ok (.slotTable low) else .error .index
    | _ => .error .class111

/-- The element at an address with the index bits that must be 0 left out of account: where it lies, legal or not
(log 77, DEDUCED). -/
def looseElem (a : BitVec 12) : Except ElemError Elem :=
  let keep : BitVec 12 := match (a.extractLsb' 8 4).toNat with
    | 9 => 0xFBF
    | 10 | 11 | 14 => 0xF3F
    | 13 => 0xF0F
    | _ => 0xFFF
  decodeElem (a &&& keep)

/-- The fields that a class defines: the column "Fields" of R87. -/
def Elem.fieldCount : Elem → Nat
  | .slot .. => 6
  | .route .. => 2
  | .converter .. => 1
  | .ingress .. => 3
  | .egress .. => 1
  | .entry .read _ => 3
  | .entry .exit _ => 9
  | .entry _ _ => 1
  | .binding _ => 1
  | .slotTable _ => 1

/-- Port p lies on side p div 16 (R87). -/
def portSide (p : BitVec 6) : Side := Side.ofCode (p.extractLsb' 4 2)

/-- The plane that holds an element (R87); a binding stands with the port that its F0 names, and header
entries stand in no plane. -/
def Elem.side (f0 : W16) : Elem → Option Side
  | .slot side _ _ _ => some side
  | .route b _ => some (Side.ofCode b)
  | .converter _ p => some (portSide p)
  | .ingress p => some (portSide p)
  | .egress p => some (portSide p)
  | .entry _ _ => none
  | .binding _ => some (portSide (f0.extractLsb' 8 6))
  | .slotTable e => some (Side.ofCode (e.extractLsb' 4 2))

/-- The address of a slot element. -/
def slotAddr (side : Side) (row : BitVec 2) (col : BitVec 4) (k : BitVec 3) : BitVec 12 :=
  (0 : BitVec 1) ++ (side.code ++ (row ++ (col ++ k)))

/-- Whether a command may write this field of this element (R84, R85, R87). -/
def commandOk (a : BitVec 12) (field : BitVec 4) : Bool :=
  match decodeElem a with
  | .ok el => field != 15 && field.toNat < el.fieldCount
  | .error _ => false

end Sys2Proof
end

