-- ==== Sys2Proof/Machine/Forms.lean ====
section
/-! DEFINITION. What a slot's fields may hold: the form of every instruction (the tables of R107, R154, R161,
R165, R171, R177, R181, R184, R206, R272, R358, R396, R398, R400, R416) and the check of one slot by it, which
is step 5 of R103 for instruction slots. -/

namespace Sys2Proof

/-- The kind an instruction's LSID is configured with (R102). -/
inductive LsidKind where
  | load | store | engine
  deriving DecidableEq, Repr

/-- Where an instruction carries its LSID: nowhere, in F5[4:0], or in F0[4:0] (R272, R358). -/
inductive LsidAt where
  | nowhere | index | mode
  deriving DecidableEq, Repr

/-- The type in which an entry reads an operand (R464): a type, or none (trigger and predicate operands). -/
inductive ReadTy where
  | ty (t : Ty)
  | any
  deriving DecidableEq, Repr

/-- Which targets an entry gives its instruction: any data target, write entries only (R288), none, exits in
target0 with target1 absent, or exits in both (R358). -/
inductive TargetForm where
  | data | writes | none | exit0 | exit01
  deriving DecidableEq, Repr

/-- The form of an instruction: what its entry fixes about the fields of its slot. -/
structure Form where
  needsL : Bool := true
  needsR : Bool := false
  tys : List Ty
  modeOk : BitVec 6 → Ty → Bool := fun m _ => m == 0
  rounds : Ty → Bool := fun _ => false
  auxOk : BitVec 3 → Bool := fun a => a == 0
  idxOk : BitVec 5 → Bool := fun i => i == 0
  immR : Bool := false
  immL : Bool := false
  immFixed : W32 → Bool := fun v => v == 0
  targets : TargetForm := .data
  lsid : LsidAt := .nowhere
  kind : LsidKind := .load
  readL : Ty → ReadTy := .ty
  readR : Ty → ReadTy := .ty
  emits : BitVec 6 → Ty → Ty := fun _ t => t
  inStream : Bool := false
  inBlock : Bool := true

/-- Type groups of R154, R161 and R165. -/
def Ty.ints : List Ty := [.i8, .i16, .i32, .i64, .n8, .n16, .n32, .n64]
def Ty.signed : List Ty := [.i8, .i16, .i32, .i64]
def Ty.floats : List Ty := [.f32, .f16, .bf16]
def Ty.floats8 : List Ty := [.f32, .f16, .bf16, .e4m3, .e5m2]
def Ty.lanes : List Ty := Ty.ints ++ Ty.floats8
def Ty.bits : List Ty := Ty.ints ++ [.w128]
def Ty.all : List Ty := Ty.lanes ++ [.w128, .bx]
def Ty.fields : List Ty := [.i16, .n16, .i32, .n32, .i64, .n64]

/-- Lane width and lane count of a type (R119). -/
def Ty.laneWidth : Ty → Nat
  | .i32 | .n32 | .f32 => 32
  | .i64 | .n64 => 64
  | .w128 | .bx => 128
  | _ => 16

def Ty.lanesOf (t : Ty) : Nat := 128 / t.laneWidth

/-- Width of the value a lane holds (R119, R120). -/
def Ty.valueWidth : Ty → Nat
  | .i8 | .n8 | .e4m3 | .e5m2 => 8
  | t => t.laneWidth

/-- Types of 8-bit, and the signed integer types. -/
def Ty.isSigned : Ty → Bool
  | .i8 | .i16 | .i32 | .i64 => true
  | _ => false

def Ty.isInt (t : Ty) : Bool := Ty.ints.contains t
def Ty.isFloat (t : Ty) : Bool := Ty.floats8.contains t

/-- Type codes (R91). -/
def Ty.code : Ty → BitVec 4
  | .i8 => 0 | .i16 => 1 | .i32 => 2 | .i64 => 3 | .n8 => 4 | .n16 => 5 | .n32 => 6 | .n64 => 7
  | .f32 => 8 | .f16 => 9 | .bf16 => 10 | .e4m3 => 11 | .e5m2 => 12 | .w128 => 13 | .bx => 14

def Ty.ofCode (c : BitVec 4) : Option Ty :=
  match c.toNat with
  | 0 => some .i8 | 1 => some .i16 | 2 => some .i32 | 3 => some .i64
  | 4 => some .n8 | 5 => some .n16 | 6 => some .n32 | 7 => some .n64
  | 8 => some .f32 | 9 => some .f16 | 10 => some .bf16 | 11 => some .e4m3
  | 12 => some .e5m2 | 13 => some .w128 | 14 => some .bx
  | _ => none

/-- The wider type of IMAD's sum (R158). -/
def Ty.imadWide : Ty → Ty
  | .i8 | .i16 => .i32
  | .n8 | .n16 => .n32
  | .i32 => .i64
  | .n32 => .n64
  | t => t

/-- The results of PACK and UNPK (R163). -/
def Ty.packed (bf : Bool) : Ty → Ty
  | .i32 => .i16 | .n32 => .n16 | .i64 => .i32 | .n64 => .n32
  | .f32 => if bf then .bf16 else .f16
  | t => t

def Ty.unpacked : Ty → Ty
  | .i8 => .i32 | .n8 => .n32 | .i16 => .i32 | .n16 => .n32 | .i32 => .i64 | .n32 => .n64
  | .f16 | .bf16 => .f32
  | t => t

/-- The conversion pairs of R98, and those CVT adds between integer types (R172). -/
def Ty.converts (a b : Ty) : Bool :=
  (a != b) && ((a.isFloat && b.isFloat) || (a.isInt && b == .f32) || (a == .f32 && b.isInt))

def Ty.cvtPair (a b : Ty) : Bool := Ty.converts a b || (a != b && a.isInt && b.isInt)

/-- CVT's mode (R171, R172): target code, sat with an 8-bit float target only, hi with unequal lane counts. -/
def cvtModeOk (m : BitVec 6) (t : Ty) : Bool :=
  match Ty.ofCode (m.extractLsb' 0 4) with
  | none => false
  | some u => Ty.cvtPair t u && (!m.getLsbD 4 || u == .e4m3 || u == .e5m2) &&
      (!m.getLsbD 5 || t.lanesOf != u.lanesOf)

/-- The special-register numbers of R118. -/
def specialNumbers : List Nat :=
  [0, 1, 2, 3, 4, 5, 8, 9, 10, 11, 12, 13, 14, 15, 0x10, 0x11, 0x12, 0x18, 0x19, 0x1A, 0x1B, 0x1C]

def srdOk (v : W32) : Bool := specialNumbers.contains v.toNat
def swrOk (v : W32) : Bool := v == 0x10 || (8 ≤ v.toNat && v.toNat < 16)

/-- Building blocks of the table below. -/
def Form.calc (r : Bool) (tys : List Ty) : Form :=
  { needsR := r, tys := tys, immR := r, immL := r, inStream := true }

def Form.mask (f : Form) (bits : BitVec 6) : Form := { f with modeOk := fun m _ => m &&& ~~~ bits == 0 }

def Form.rounding (f : Form) : Form := { f with rounds := fun t => Ty.floats8.contains t }

def Form.memory (r : Bool) (tys : List Ty) (k : LsidKind) (tg : TargetForm) : Form :=
  { needsR := r, tys := tys, immFixed := fun _ => true, targets := tg, lsid := .index, kind := k,
    idxOk := fun _ => true, readL := fun _ => .ty .w128 }

def Form.engine (r : Bool) (t : Ty) (trig : Bool) : Form :=
  { needsR := r, tys := [t], auxOk := fun _ => true, idxOk := fun _ => true, targets := .none, lsid := .index,
    kind := .engine, immR := t == .n32 && r, readL := fun _ => if trig then .any else .ty .w128,
    readR := fun _ => if t == .n32 then .ty .n32 else .ty .w128 }

def Form.control (r : Bool) (t : Ty) (tg : TargetForm) : Form :=
  { needsR := r, tys := [t], targets := tg, readL := fun _ => .any, immR := r && t == .n32,
    readR := fun _ => if t == .n32 then .ty .n32 else .ty .w128 }

def Form.withLsid (f : Form) (k : LsidKind) : Form := { f with lsid := .index, kind := k, idxOk := fun _ => true }

def Form.modeLsid (f : Form) (k : LsidKind) : Form :=
  { f with lsid := .mode, kind := k, modeOk := fun m _ => !m.getLsbD 5 }

def Form.reads (f : Form) (l r : Ty → ReadTy) : Form := { f with readL := l, readR := r }

/-- The integer, lane, floating-point, conversion, compare, digit and stream groups. -/
def Form.iadd : Form := (Form.calc true Ty.ints).mask 1
def Form.pred (r : Bool) : Form := { Form.calc r [.w128] with immL := false, readL := fun _ => .any, readR := fun _ => .any }

/-- The form of the instructions of R107, R154-R188 (the value-only instructions). NOP's L reads no type: R464 gives
none for an operand that is only absorbed (log 77, DESIGN CHOICE). MXPK's R reads f32 as QBLK's does, for the largest magnitude
of the block: R175 names no type (log 77, DEDUCED). -/
def Instr.calcForm : Instr → Option Form
  | .nop _ => some { tys := [.w128], targets := .none, inStream := true, readL := fun _ => .any }
  | .iadd _ | .isub _ | .imul _ => some Form.iadd
  | .imulh _ | .idiv _ | .irem _ | .imin _ | .imax _ | .sext _ | .zext _ => some (Form.calc true Ty.ints)
  | .imad _ => some { (Form.calc true [.i8, .n8, .i16, .n16, .i32, .n32]).mask 1 with
      readR := fun t => .ty t.imadWide, emits := fun _ t => t.imadWide }
  | .ineg _ => some ((Form.calc false Ty.ints).mask 1)
  | .iabs _ => some ((Form.calc false Ty.signed).mask 1)
  | .bitAnd _ | .bitOr _ | .bitXor _ | .bitAndn _ | .shl _ | .shr _ | .rol _ => some (Form.calc true Ty.bits)
  | .bitNot _ | .clz _ | .ctz _ | .popc _ => some (Form.calc false Ty.bits)
  | .sar _ => some (Form.calc true Ty.signed)
  | .bfx _ | .bfi _ => some (Form.calc true Ty.fields)
  | .movi _ => some ((Form.calc true Ty.all).reads (fun _ => .any) .ty)
  | .movhi _ => some ((Form.calc true [.w128]).mask 3)
  | .lea _ => some (((Form.calc true [.n32, .n64, .w128]).mask 7).reads .ty
      (fun t => if t == .w128 then .ty .i64 else .ty t))
  | .mov _ | .nul _ => some (Form.calc false Ty.all)
  | .lane _ | .shuf _ => some (Form.calc true Ty.lanes)
  | .ins _ => some { Form.calc true Ty.lanes with modeOk := fun m t => m.toNat < t.lanesOf }
  | .splat _ => some { Form.calc false Ty.lanes with modeOk := fun m t => m.toNat < t.lanesOf }
  | .pack _ => some { Form.calc true [.i32, .n32, .i64, .n64, .f32] with
      modeOk := fun m t => m == 0 || (m == 1 && t == .f32), rounds := fun t => t == .f32,
      emits := fun m t => t.packed (m.getLsbD 0) }
  | .unpk _ => some { (Form.calc false [.i8, .n8, .i16, .n16, .i32, .n32, .f16, .bf16]).mask 1 with
      emits := fun _ t => t.unpacked }
  | .redl _ => some { (Form.calc false (Ty.ints ++ Ty.floats)).rounding with modeOk := fun m _ => m.toNat < 3 }
  | .perm _ => some ((Form.calc true Ty.lanes).mask 3)
  | .fadd _ | .fsub _ | .fmul _ | .fdiv _ => some (Form.calc true Ty.floats).rounding
  | .fma _ | .fnma _ => some { (Form.calc true Ty.floats8).rounding with
      readR := fun _ => .ty .f32, emits := fun _ _ => .f32 }
  | .fsqrt _ | .frcp _ | .frsq _ | .fexp2 _ | .flog2 _ => some (Form.calc false Ty.floats).rounding
  | .fmin _ | .fmax _ => some (Form.calc true Ty.floats)
  | .fabs _ | .fneg _ => some (Form.calc false Ty.floats)
  | .frnd _ => some ((Form.calc false Ty.floats).rounding.mask 1)
  | .fscale _ => some { (Form.calc true Ty.floats).rounding with
      readR := fun t => if t == .f32 then .ty .i32 else .ty .i16 }
  | .fclass _ => some { Form.calc false Ty.floats8 with emits := fun _ t => if t == .f32 then .n32 else .n16 }
  | .fdot4 _ => some { (Form.calc true Ty.floats8).rounding with emits := fun _ _ => .f32 }
  | .freds _ => some { (Form.calc true Ty.floats8).rounding with
      readR := fun _ => .ty .f32, emits := fun _ _ => .f32 }
  | .cvt _ => some { Form.calc false Ty.lanes with
      rounds := fun _ => true
      modeOk := cvtModeOk
      emits := fun m t => (Ty.ofCode (m.extractLsb' 0 4)).getD t }
  | .qblk _ => some { (Form.calc true Ty.floats).rounding with
      modeOk := fun m t => !m.getLsbD 5 && (!m.getLsbD 4 || t == .f32),
      readR := fun _ => .ty .f32, emits := fun _ _ => .bx }
  | .dqblk _ => some { (Form.calc false Ty.floats).rounding with
      modeOk := fun m t => m == 0 || (m == 1 && t == .f32), readL := fun _ => .ty .bx }
  | .mxpk _ => some { (Form.calc true Ty.floats).rounding with
      modeOk := fun m t => !m.getLsbD 5 && (m.extractLsb' 0 3).toNat ≤ 4 && (!m.getLsbD 4 || t == .f32) &&
        (!m.getLsbD 3 || (m.extractLsb' 0 3).toNat ≤ 1),
      readR := fun _ => .ty .f32, emits := fun _ _ => .w128 }
  | .mxunpk _ => some { (Form.calc false Ty.floats).rounding with
      modeOk := fun m t => !m.getLsbD 5 && !m.getLsbD 3 && (m.extractLsb' 0 3).toNat ≤ 4 && (!m.getLsbD 4 || t == .f32),
      readL := fun _ => .ty .w128 }
  | .hstep f => some { (Form.calc (f.mode.getLsbD 3) Ty.floats).rounding with
      modeOk := fun m t => m == 8 || (m.toNat < 3 && 2 ^ m.toNat < t.lanesOf) }
  | .icmp _ => some { Form.calc true Ty.ints with
      modeOk := fun m _ => m.toNat < 16 && (m.extractLsb' 0 3).toNat < 6 }
  | .fcmp _ => some { Form.calc true Ty.floats8 with modeOk := fun m _ => m.toNat < 16 }
  | .sel _ => some { Form.calc true Ty.all with immL := false, readL := fun _ => .any }
  | .pand _ | .por _ => some (Form.pred true)
  | .pnot _ => some (Form.pred false)
  | .testp _ => some ((Form.calc true Ty.bits).mask 3)
  | .drec _ => some { Form.calc false [.bx] with modeOk := fun m _ => m.toNat < 6 }
  | .dcut _ => some { Form.calc false [.bx] with modeOk := fun m _ => 1 ≤ m.toNat && m.toNat ≤ 6 }
  | .dadd _ => some { Form.calc true [.bx] with immR := false, immL := false }
  | .dmul _ => some { (Form.calc true [.i32]).mask 7 with immL := false, readL := fun _ => .ty .bx }
  | .dval _ => some { (Form.calc true [.i16]).mask 3 with immR := false, readR := fun _ => .ty .bx }
  | .merge _ => some { (Form.calc true [.i32, .n32, .i64, .n64, .f32]).mask 1 with
      immR := false, immL := false, inBlock := false }
  | .eose _ => some { (Form.calc false (Ty.ints ++ Ty.floats)).rounding with
      modeOk := fun m _ => m.toNat < 8 && (m.extractLsb' 0 2).toNat < 3, inBlock := false }
  | .eost _ => some { Form.calc true Ty.all with readR := fun _ => .ty .n32, inBlock := false }
  | .pclr _ => some { tys := [.w128], inStream := true }
  | .srd _ => some { tys := [.w128], immFixed := srdOk, readL := fun _ => .any, inStream := true }
  | _ => none

/-- The form of the memory, atomic, synchronisation, engine and matrix instructions (R206, R272). -/
def Instr.memForm : Instr → Option Form
  | .ld _ => some { Form.memory false (Ty.lanes ++ [.w128]) .load .data with
      modeOk := fun m t => m.toNat < 4 && (!m.getLsbD 1 || t != .w128), inStream := true }
  | .st _ => some { Form.memory true (Ty.lanes ++ [.w128]) .store .none with
      modeOk := fun m t => m.toNat < 4 && (!m.getLsbD 1 || t != .w128), inStream := true }
  | .lda _ => some { Form.memory false (Ty.lanes ++ [.w128]) .load .data with
      modeOk := fun m t => m.toNat < 16 && (!m.getLsbD 1 || t != .w128) && (m.getLsbD 0 || m.toNat < 4),
      inStream := true }
  | .stl _ => some { Form.memory true (Ty.lanes ++ [.w128]) .store .none with
      modeOk := fun m t => m.toNat < 16 && (!m.getLsbD 1 || t != .w128) && (m.getLsbD 0 || m.toNat < 4),
      inStream := true }
  | .empty _ => some ((Form.memory false [.i64, .n64, .w128] .store .none).mask 1)
  | .pref _ => some { Form.memory false [.w128] .load .none with inStream := true }
  | .accrd _ => some { Form.memory false [.f32, .w128] .load .data with
      modeOk := fun m _ => m.toNat < 4, immFixed := fun v => v == 0, readL := fun _ => .ty .n32 }
  | .accwr _ => some { Form.memory true [.f32, .w128] .store .none with
      modeOk := fun m _ => m.toNat < 4, immFixed := fun v => v == 0, immR := true, immL := true,
      readL := fun _ => .ty .n32 }
  | .fence _ => some { Form.memory false [.w128] .store .none with
      modeOk := fun m _ => m.toNat < 16 && (m.extractLsb' 0 2).toNat < 3, readL := fun _ => .any }
  | .seqf _ => some { (Form.memory false [.w128] .store .none).mask 1 with readL := fun _ => .any }
  | .ldpq _ => some { (Form.memory false [.i64, .n64, .w128] .load .data).mask 1 with inStream := true }
  | .amo _ => some { Form.memory true [.i32, .i64, .n32, .n64, .f32] .store .writes with
      modeOk := fun m t => (m.extractLsb' 0 3).toNat < 7 && (m.getLsbD 3 || m.toNat < 16) &&
        (t != .f32 || (m.extractLsb' 0 3).toNat == 0 || 4 ≤ (m.extractLsb' 0 3).toNat) }
  | .cas _ => some { Form.memory true [.i32, .i64, .n32, .n64] .store .writes with
      modeOk := fun m _ => (m.extractLsb' 0 3).toNat == 0 && (m.getLsbD 3 || m.toNat < 16) }
  | .barInit _ => some { (Form.control true .n32 .none).modeLsid .store with
      auxOk := fun a => a.toNat < 4, idxOk := fun i => i.toNat < 16 }
  | .barArr _ => some { (Form.control false .w128 .none).modeLsid .store with idxOk := fun i => i.toNat < 16 }
  | .barSync _ => some { (Form.control false .w128 .data).modeLsid .load with idxOk := fun i => i.toNat < 16 }
  | .cwait _ => some { (Form.control true .n32 .data).modeLsid .load with idxOk := fun i => i.toNat < 8 }
  | .hwait _ => some { (Form.control false .w128 .data).modeLsid .load with
      auxOk := fun a => a.toNat < 2, idxOk := fun _ => true }
  | .hrel _ => some { (Form.control true .w128 .none).modeLsid .store with
      auxOk := fun a => a.toNat < 2, idxOk := fun _ => true }
  | .hqry _ => some { Form.control false .w128 .data with
      auxOk := fun a => a.toNat < 2, idxOk := fun _ => true, inStream := true, emits := fun _ _ => .n32 }
  | .waitdep _ => some ((Form.control false .w128 .data).modeLsid .load)
  | .trig _ => some ((Form.control false .w128 .none).modeLsid .store)
  | .strm _ => some ((Form.engine true .w128 false).mask 1)
  | .strmpb _ | .send _ | .sendpb _ | .mma _ | .accdrn _ | .cfgld _ => some (Form.engine false .w128 false)
  | .mmald _ => some (Form.engine true .n32 true)
  | .accz _ => some { Form.engine false .w128 true with modeOk := fun m _ => m.toNat < 4 }
  | .omclaim _ => some { (Form.engine true .n32 true).mask 1 with auxOk := fun a => a == 0 }
  | .omrel _ => some { Form.engine true .n32 true with auxOk := fun a => a == 0 }
  | .pfire _ => some ((Form.engine true .n32 true).mask 1)
  | .cfgsw _ => some { Form.engine false .w128 true with modeOk := fun m _ => m.toNat < 16 }
  | .cfgwr _ => some ((Form.engine false .w128 false).mask 1)
  | .engq _ => some { Form.memory false [.n32] .load .data with
      modeOk := fun m _ => m.toNat < 3, readL := fun _ => .any }
  | .engqSet _ => some { (Form.control true .n32 .none).withLsid .store with
      modeOk := fun m _ => 4 ≤ m.toNat && m.toNat < 7 }
  | _ => none

/-- The form of the control, context, launch, task and system instructions (R358, R396, R398, R400, R416). -/
def Instr.ctlForm : Instr → Option Form
  | .br f => some { (Form.control false .w128 (if f.mode.getLsbD 0 then .exit01 else .exit0)).mask 1 with
      kind := .load }
  | .cont _ => some (Form.control false .w128 .exit0)
  | .callx _ => some { Form.control false .w128 .exit0 with readL := fun _ => .ty .w128 }
  | .halt _ => some (Form.control false .w128 .exit0)
  | .haltRes _ => some { Form.control false .w128 .exit0 with modeOk := fun m _ => m == 1 }
  | .launch _ => some { (Form.control false .w128 .data).withLsid .engine with
      readL := fun _ => .ty .w128, emits := fun _ _ => .n32 }
  | .yield _ => some ((Form.control true .n32 .data).withLsid .engine)
  | .spawn _ => some { (Form.control true .w128 .data).withLsid .engine with
      readL := fun _ => .ty .w128, emits := fun _ _ => .n32 }
  | .join _ => some ((Form.control true .n32 .data).withLsid .load)
  | .tagq f => some { (Form.control false .w128 .data).mask 1 with
      lsid := if f.mode.getLsbD 0 then .index else .nowhere, kind := .store,
      idxOk := fun i => f.mode.getLsbD 0 || i == 0, emits := fun _ _ => .n32, inStream := !f.mode.getLsbD 0 }
  | .tqput _ => some { (Form.control true .w128 .data).withLsid .engine with
      readL := fun _ => .ty .w128, emits := fun _ _ => .n32 }
  | .tqget f => some ((Form.control false .w128 (if f.mode.getLsbD 0 then .exit01 else .exit0)).mask 1)
  | .tqsteal _ => some (Form.control true .n32 .exit01)
  | .trap _ => some { (Form.control false .w128 .none).withLsid .store with
      modeOk := fun _ _ => true, readL := fun _ => .ty .w128 }
  | .eretRs _ => some { (Form.control false .w128 .exit0).withLsid .engine with modeOk := fun m _ => m == 0 }
  | .eretNb _ => some { (Form.control false .w128 .exit0).withLsid .engine with modeOk := fun m _ => m == 1 }
  | .eretAb _ => some { (Form.control false .w128 .exit0).withLsid .engine with modeOk := fun m _ => m == 2 }
  | .eretDr _ => some { (Form.control false .w128 .exit0).withLsid .engine with modeOk := fun m _ => m == 3 }
  | .swr _ => some { (Form.control false .w128 .none).withLsid .store with
      immFixed := swrOk, readL := fun _ => .ty .w128 }
  | .bkpt _ => some ((Form.control false .w128 .none).withLsid .store)
  | .xlinvPg _ => some { Form.engine true .n32 false with
      modeOk := fun m _ => (m.extractLsb' 0 2).toNat == 0 && m.toNat < 12 }
  | .xlinvAll _ => some { Form.engine false .w128 true with
      modeOk := fun m _ => (m.extractLsb' 0 2).toNat == 1 && m.toNat < 12 }
  | .xlinvRng _ => some { Form.engine false .w128 true with
      modeOk := fun m _ => (m.extractLsb' 0 2).toNat == 2 && m.toNat < 12 }
  | .errq _ => some { ((Form.control false .w128 .data).withLsid .store).mask 1 with
      readL := fun _ => .ty .w128, emits := fun _ _ => .n32 }
  | .ctxsave _ => some { (Form.control false .w128 .none).withLsid .store with readL := fun _ => .ty .w128 }
  | .ctxrest _ => some { (Form.control false .w128 .data).withLsid .engine with
      readL := fun _ => .ty .w128, emits := fun _ _ => .n32 }
  | .preemptStop _ => some { Form.engine false .n32 false with
      modeOk := fun m _ => m == 0, readL := fun _ => .ty .n32 }
  | .preemptRes _ => some { Form.engine false .n32 false with
      modeOk := fun m _ => m == 1, readL := fun _ => .ty .n32 }
  | .preemptAb _ => some { Form.engine false .n32 false with
      modeOk := fun m _ => m == 2, readL := fun _ => .ty .n32 }
  | .preemptBe _ => some { Form.engine false .n32 false with
      modeOk := fun m _ => m == 3, readL := fun _ => .ty .n32 }
  | .cfgchk _ => some { (Form.control false .w128 .data).withLsid .load with
      readL := fun _ => .ty .w128, emits := fun _ _ => .n32 }
  | _ => none

/-- The form of an instruction that is held in a slot; `none` for the part's own steps. -/
def Instr.form (i : Instr) : Option Form := i.calcForm <|> i.memForm <|> i.ctlForm

/-- An immediate whose bits break the "Legal" column of R149, for the type in which the operand is read. A
trigger or predicate operand is filled as the slot's type. -/
def immLegal (t : Ty) (v : W32) : Bool :=
  let hi8 := v.extractLsb' 8 24
  let hi16 := v.extractLsb' 16 16
  match t with
  | .i8 | .n8 => hi8 == 0 || (v.getLsbD 7 && hi8 == BitVec.allOnes 24)
  | .i16 | .n16 => hi16 == 0 || (v.getLsbD 15 && hi16 == BitVec.allOnes 16)
  | .f16 | .bf16 => hi16 == 0
  | .e4m3 | .e5m2 => hi8 == 0
  | .bx => false
  | _ => true

def ReadTy.orSlot (r : ReadTy) (t : Ty) : Ty :=
  match r with
  | .ty u => u
  | .any => t

/-- Immediate use (R90, R148, R149). -/
def Form.immOk (f : Form) (s : Slot) : Bool :=
  match s.immuse with
  | .none => f.immFixed s.imm
  | .forR => f.immR && immLegal ((f.readR s.ty).orSlot s.ty) s.imm
  | .forL => f.immL && immLegal ((f.readL s.ty).orSlot s.ty) s.imm

/-- The checks on one slot, in order, each with a name: those of step 5 of R103, then `targetShape` of step 6. An immediate
is at fault in its low half, in its high half, or in immuse; a target in the first or the second. -/
inductive SlotError where
  | notASlot | typeCode | mode | rounding | auxiliary | index | immediate | immediateHigh | immuse | target | target1 | targetShape
  deriving DecidableEq, Repr

/-- Which half of an illegal immediate is at fault: the high one where another would do beside this low one. -/
def immHalf (ok : W32 → Bool) (v : W32) : SlotError :=
  let low := v.extractLsb' 0 16
  if ok ((0 : W16) ++ low) || ok (BitVec.allOnes 16 ++ low) then .immediateHigh else .immediate

/-- What is wrong with a slot's immediate. -/
def Form.immError (f : Form) (s : Slot) : SlotError :=
  match s.immuse with
  | .none => immHalf f.immFixed s.imm
  | .forR => if f.immR then immHalf (immLegal ((f.readR s.ty).orSlot s.ty)) s.imm else .immuse
  | .forL => if f.immL then immHalf (immLegal ((f.readL s.ty).orSlot s.ty)) s.imm else .immuse

/-- A broadcast target has its unused coordinate 0 (R44, R93). -/
def Target.shapeOk : Target → Bool
  | .operand _ _ row col _ b => (b != .row || col == 0) && (b != .col || row == 0)
  | _ => true

/-- The target fields that an entry does not use are reserved (R89). -/
def Form.targetsOk (f : Form) (s : Slot) : Bool :=
  match f.targets with
  | .none => s.t0 == .none && s.t1 == .none
  | .exit0 => s.t1 == .none
  | _ => true

/-- A target that names an operand side of a slot. -/
def Target.isOperand : Target → Bool
  | .operand .. => true
  | _ => false

/-- The rules of R94 that one slot shows: a second target needs a first, the two name no operand side twice, and a
broadcast has its unused coordinate 0. -/
def Slot.shapeOk (s : Slot) : Bool :=
  (s.t0 != .none || s.t1 == .none) && (s.t0 != s.t1 || !s.t0.isOperand) && s.t0.shapeOk && s.t1.shapeOk

/-- The checks of step 5. Of several that fail the first of this order is reported, after the reserved codes that
decoding meets (log 77, DESIGN CHOICE). -/
def Form.check5 (f : Form) (s : Slot) : Option SlotError :=
  if !f.modeOk s.mode s.ty then some .mode
  else if !f.tys.contains s.ty then some .typeCode
  else if f.rounds s.ty && 4 < s.aux.toNat then some .rounding
  else if !f.rounds s.ty && !f.auxOk s.aux then some .auxiliary
  else if !f.idxOk s.idx then some .index
  else if !f.immOk s then some (f.immError s)
  else if !f.targetsOk s then some (if f.targets == .none && s.t0 != .none then .target else .target1)
  else none

def Form.check (f : Form) (s : Slot) : Option SlotError :=
  match f.check5 s with
  | some e => some e
  | none => if s.shapeOk then none else some .targetShape

/-- The slot of an instruction held in one. -/
def Instr.slot : Instr → Option Slot
  | .nop f => some f
  | .iadd f => some f
  | .isub f => some f
  | .imul f => some f
  | .imulh f => some f
  | .imad f => some f
  | .idiv f => some f
  | .irem f => some f
  | .ineg f => some f
  | .iabs f => some f
  | .imin f => some f
  | .imax f => some f
  | .bitAnd f => some f
  | .bitOr f => some f
  | .bitXor f => some f
  | .bitAndn f => some f
  | .bitNot f => some f
  | .shl f => some f
  | .shr f => some f
  | .sar f => some f
  | .rol f => some f
  | .clz f => some f
  | .ctz f => some f
  | .popc f => some f
  | .bfx f => some f
  | .bfi f => some f
  | .sext f => some f
  | .zext f => some f
  | .movi f => some f
  | .movhi f => some f
  | .lea f => some f
  | .mov f => some f
  | .nul f => some f
  | .lane f => some f
  | .ins f => some f
  | .splat f => some f
  | .shuf f => some f
  | .pack f => some f
  | .unpk f => some f
  | .redl f => some f
  | .perm f => some f
  | .fadd f => some f
  | .fsub f => some f
  | .fmul f => some f
  | .fma f => some f
  | .fnma f => some f
  | .fdiv f => some f
  | .fsqrt f => some f
  | .frcp f => some f
  | .frsq f => some f
  | .fexp2 f => some f
  | .flog2 f => some f
  | .fmin f => some f
  | .fmax f => some f
  | .fabs f => some f
  | .fneg f => some f
  | .frnd f => some f
  | .fscale f => some f
  | .fclass f => some f
  | .fdot4 f => some f
  | .freds f => some f
  | .cvt f => some f
  | .qblk f => some f
  | .dqblk f => some f
  | .mxpk f => some f
  | .mxunpk f => some f
  | .hstep f => some f
  | .icmp f => some f
  | .fcmp f => some f
  | .sel f => some f
  | .pand f => some f
  | .por f => some f
  | .pnot f => some f
  | .testp f => some f
  | .ld f => some f
  | .st f => some f
  | .lda f => some f
  | .stl f => some f
  | .empty f => some f
  | .pref f => some f
  | .accrd f => some f
  | .accwr f => some f
  | .fence f => some f
  | .seqf f => some f
  | .ldpq f => some f
  | .amo f => some f
  | .cas f => some f
  | .barInit f => some f
  | .barArr f => some f
  | .barSync f => some f
  | .cwait f => some f
  | .hwait f => some f
  | .hrel f => some f
  | .hqry f => some f
  | .waitdep f => some f
  | .trig f => some f
  | .strm f => some f
  | .strmpb f => some f
  | .send f => some f
  | .sendpb f => some f
  | .mma f => some f
  | .mmald f => some f
  | .accz f => some f
  | .accdrn f => some f
  | .omclaim f => some f
  | .omrel f => some f
  | .pfire f => some f
  | .cfgld f => some f
  | .cfgsw f => some f
  | .cfgwr f => some f
  | .engq f => some f
  | .engqSet f => some f
  | .br f => some f
  | .cont f => some f
  | .halt f => some f
  | .haltRes f => some f
  | .launch f => some f
  | .yield f => some f
  | .spawn f => some f
  | .join f => some f
  | .callx f => some f
  | .tagq f => some f
  | .tqput f => some f
  | .tqget f => some f
  | .tqsteal f => some f
  | .drec f => some f
  | .dcut f => some f
  | .dadd f => some f
  | .dmul f => some f
  | .dval f => some f
  | .merge f => some f
  | .eose f => some f
  | .eost f => some f
  | .trap f => some f
  | .eretRs f => some f
  | .eretNb f => some f
  | .eretAb f => some f
  | .eretDr f => some f
  | .srd f => some f
  | .swr f => some f
  | .bkpt f => some f
  | .xlinvPg f => some f
  | .xlinvAll f => some f
  | .xlinvRng f => some f
  | .errq f => some f
  | .pclr f => some f
  | .ctxsave f => some f
  | .ctxrest f => some f
  | .preemptStop f => some f
  | .preemptRes f => some f
  | .preemptAb f => some f
  | .preemptBe f => some f
  | .cfgchk f => some f
  | _ => none

/-- The first check of step 5 that an instruction fails, if any, and the first of all. -/
def Instr.slotError5 (i : Instr) : Option SlotError :=
  match i.form, i.slot with
  | some f, some s => f.check5 s
  | _, _ => some .notASlot

def Instr.slotError (i : Instr) : Option SlotError :=
  match i.form, i.slot with
  | some f, some s => f.check s
  | _, _ => some .notASlot

/-! ### What an image's mode allows (R103 step 5) -/

/-- Instructions a stream image may hold, and those only it may (R148, R206, R274, R359, R396, R416). The matrix
instructions fail step 6 instead. -/
def streamHolds (i : Instr) : Bool := ((i.form).map fun f => f.inStream || !f.inBlock).getD false

def isMatrixGroup : Instr → Bool
  | .accrd _ | .accwr _ | .mma _ | .mmald _ | .accz _ | .accdrn _ | .omclaim _ | .omrel _ | .pfire _ => true
  | _ => false

/-- The field of a slot that is illegal in an image of a mode, if one is. -/
def Instr.modeField (i : Instr) (stream : Bool) : Option (BitVec 4) :=
  if stream then
    if isMatrixGroup i then none
    else if !streamHolds i then some 0
    else if (i.slot.map fun f => f.idx != 0).getD false then some 5 else none
  else if (i.form.map (·.inBlock)).getD true then none else some 0

end Sys2Proof
end

