-- ==== Sys2Proof/WellFormed.lean ====
section
/-! DEFINITION. Which instructions are well formed: the check of step 5 of R103 on a slot, from the forms of
`Machine/Forms.lean`. -/

namespace Sys2Proof

/-- A well-formed instruction: a slot whose fields its entry accepts, or a configuration command. -/
def Instr.wf : Instr → Bool
  | .configCommand a field _ => commandOk a field
  | .clearCommand a => (decodeElem a).toBool
  | i => i.slotError == none

end Sys2Proof
end

