-- ==== Sys2Proof/Decode.lean ====
section
/-! DEFINITION. From bits to instructions and back: the slot encoding (R89-R93), the opcode map (R106), the
configuration command (R84, R85) and the element addresses (R87), decoded totally with every rejection named;
then the encoder. -/

namespace Sys2Proof

/-- Why bits are no instruction: one name for each check of steps 4 to 6 of R103 that a word shows by itself. -/
inductive DecodeError where
  /-- The input is neither a command of 4 bytes nor a slot of 12. -/
  | length
  /-- An opcode that the opcode map leaves unassigned (R106). -/
  | opcode
  /-- Reserved codes of F5 (R89, R91). -/
  | pmode | immuse | typeCode
  /-- A reserved value in target 0 or 1 (R93). -/
  | target0 | target1
  /-- Bits in a target that is not valid (R94). -/
  | unused0 | unused1
  /-- A check of the instruction's entry. -/
  | slot (e : SlotError)
  /-- An instruction that the mode of its image does not allow (R103 step 5). -/
  | imageMode
  /-- A clear command with a value (R85). -/
  | clearValue
  /-- A class 111 address, a non-zero index bit, or a field number the class does not define (R85, R87). -/
  | elemClass | elemIndex | fieldNumber
  deriving DecidableEq, Repr

/-- The six fields of a slot (R89). -/
structure Fields where
  f0 : W16
  f1 : W16
  f2 : W16
  f3 : W16
  f4 : W16
  f5 : W16
  deriving DecidableEq, Repr

/-! ### Targets and slots -/

def Bcast.code : Bcast → BitVec 2
  | .single => 0 | .row => 1 | .col => 2

def Bcast.ofCode (c : BitVec 2) : Option Bcast :=
  match c.toNat with
  | 0 => some .single | 1 => some .row | 2 => some .col | _ => none

/-- The layout of R93; the flag tells a reserved value from bits in a target that is not valid. -/
def decodeTarget (reserved unused : DecodeError) (v : W16) : Except DecodeError Target :=
  let operand (o : OpSide) : Except DecodeError Target :=
    match Bcast.ofCode (v.extractLsb' 0 2) with
    | none => .error reserved
    | some b => .ok (.operand o (Side.ofCode (v.extractLsb' 11 2)) (v.extractLsb' 9 2) (v.extractLsb' 5 4)
        (v.extractLsb' 2 3) b)
  if !v.getLsbD 15 then (if v == 0 then .ok .none else .error unused)
  else
    match (v.extractLsb' 13 2).toNat with
    | 0 => operand .l
    | 1 => operand .r
    | 2 => operand .p
    | _ =>
      if v.extractLsb' 0 5 != 0 then .error reserved
      else match (v.extractLsb' 11 2).toNat with
        | 0 => .ok (.output (v.extractLsb' 5 6))
        | 1 => .ok (.exit (v.extractLsb' 5 6))
        | _ => .error reserved

def OpSide.code : OpSide → BitVec 2
  | .l => 0 | .r => 1 | .p => 2

def encodeTarget : Target → W16
  | .none => 0
  | .operand o side row col slot b => (1 : BitVec 1) ++ (o.code ++ (side.code ++ (row ++ (col ++ (slot ++ b.code)))))
  | .output i => (7 : BitVec 3) ++ ((0 : BitVec 2) ++ (i ++ (0 : BitVec 5)))
  | .exit i => (7 : BitVec 3) ++ ((1 : BitVec 2) ++ (i ++ (0 : BitVec 5)))

def PMode.code : PMode → BitVec 2
  | .none => 0 | .onTrue => 1 | .onFalse => 2

def PMode.ofCode (c : BitVec 2) : Option PMode :=
  match c.toNat with
  | 0 => some .none | 1 => some .onTrue | 2 => some .onFalse | _ => Option.none

def ImmUse.code : ImmUse → BitVec 2
  | .none => 0 | .forR => 1 | .forL => 2

def ImmUse.ofCode (c : BitVec 2) : Option ImmUse :=
  match c.toNat with
  | 0 => some .none | 1 => some .forR | 2 => some .forL | _ => Option.none

/-- The fields of a slot besides its opcode (R89), rejecting reserved codes by name. -/
def decodeFields (v : Fields) : Except DecodeError Slot :=
  match PMode.ofCode (v.f5.extractLsb' 14 2), ImmUse.ofCode (v.f5.extractLsb' 12 2),
      Ty.ofCode (v.f5.extractLsb' 8 4) with
  | none, _, _ => .error .pmode
  | _, none, _ => .error .immuse
  | _, _, none => .error .typeCode
  | some p, some u, some t =>
    match decodeTarget .target0 .unused0 v.f1 with
    | .error e => .error e
    | .ok t0 =>
      match decodeTarget .target1 .unused1 v.f2 with
      | .error e => .error e
      | .ok t1 => .ok {
          mode := v.f0.extractLsb' 0 6, t0 := t0, t1 := t1, imm := v.f4 ++ v.f3, pmode := p, immuse := u,
          ty := t, aux := v.f5.extractLsb' 5 3, idx := v.f5.extractLsb' 0 5 }

def encodeFields (opcode : BitVec 10) (s : Slot) : Fields where
  f0 := opcode ++ s.mode
  f1 := encodeTarget s.t0
  f2 := encodeTarget s.t1
  f3 := s.imm.extractLsb' 0 16
  f4 := s.imm.extractLsb' 16 16
  f5 := s.pmode.code ++ (s.immuse.code ++ (s.ty.code ++ (s.aux ++ s.idx)))

/-! ### The opcode map -/

/-- Opcodes whose instructions F0 mode tells apart (R303, R358, R398, R416). -/
def haltOf (s : Slot) : Instr := if s.mode.getLsbD 0 then .haltRes s else .halt s

def engqOf (s : Slot) : Instr := if s.mode.getLsbD 2 then .engqSet s else .engq s

def eretOf (s : Slot) : Instr :=
  match (s.mode.extractLsb' 0 2).toNat with
  | 0 => .eretRs s | 1 => .eretNb s | 2 => .eretAb s | _ => .eretDr s

def xlinvOf (s : Slot) : Instr :=
  match (s.mode.extractLsb' 0 2).toNat with
  | 0 => .xlinvPg s | 1 => .xlinvAll s | _ => .xlinvRng s

def preemptOf (s : Slot) : Instr :=
  match (s.mode.extractLsb' 0 2).toNat with
  | 0 => .preemptStop s | 1 => .preemptRes s | 2 => .preemptAb s | _ => .preemptBe s

/-- R106, group "no operation", from code 0x000. -/
def groupNoOperation : List (Slot → Instr) :=
  [.nop]

/-- R106, group "integer and address", from code 0x010. -/
def groupIntegerAndAddress : List (Slot → Instr) :=
  [.iadd, .isub, .imul, .imulh, .imad, .idiv, .irem, .ineg, .iabs, .imin, .imax, .bitAnd, .bitOr,
   .bitXor, .bitAndn, .bitNot, .shl, .shr, .sar, .rol, .clz, .ctz, .popc, .bfx, .bfi, .sext, .zext,
   .movi, .movhi, .lea, .mov, .nul]

/-- R106, group "lane", from code 0x040. -/
def groupLane : List (Slot → Instr) :=
  [.lane, .ins, .splat, .shuf, .pack, .unpk, .redl, .perm]

/-- R106, group "floating point", from code 0x080. -/
def groupFloatingPoint : List (Slot → Instr) :=
  [.fadd, .fsub, .fmul, .fma, .fnma, .fdiv, .fsqrt, .frcp, .frsq, .fexp2, .flog2, .fmin, .fmax, .fabs,
   .fneg, .frnd, .fscale, .fclass, .fdot4, .freds]

/-- R106, group "conversion", from code 0x100. -/
def groupConversion : List (Slot → Instr) :=
  [.cvt, .qblk, .dqblk, .mxpk, .mxunpk, .hstep]

/-- R106, group "compare and select", from code 0x140. -/
def groupCompareAndSelect : List (Slot → Instr) :=
  [.icmp, .fcmp, .sel, .pand, .por, .pnot, .testp]

/-- R106, group "memory", from code 0x180. -/
def groupMemory : List (Slot → Instr) :=
  [.ld, .st, .lda, .stl, .empty, .pref, .accrd, .accwr, .fence, .seqf, .ldpq]

/-- R106, group "atomics", from code 0x200. -/
def groupAtomics : List (Slot → Instr) :=
  [.amo, .cas]

/-- R106, group "synchronisation", from code 0x240. -/
def groupSynchronisation : List (Slot → Instr) :=
  [.barInit, .barArr, .barSync, .cwait, .hwait, .hrel, .hqry, .waitdep, .trig]

/-- R106, group "engines", from code 0x280. -/
def groupEngines : List (Slot → Instr) :=
  [.strm, .strmpb, .send, .sendpb, .mma, .mmald, .accz, .accdrn, .omclaim, .omrel, .pfire, .cfgld,
   .cfgsw, .cfgwr, engqOf]

/-- R106, group "control", from code 0x300. -/
def groupControl : List (Slot → Instr) :=
  [.br, .cont, haltOf, .launch, .yield, .spawn, .join, .callx]

/-- R106, group "tags and tasks", from code 0x340. -/
def groupTagsAndTasks : List (Slot → Instr) :=
  [.tagq, .tqput, .tqget, .tqsteal]

/-- R106, group "digit", from code 0x380. -/
def groupDigit : List (Slot → Instr) :=
  [.drec, .dcut, .dadd, .dmul, .dval]

/-- R106, group "stream", from code 0x390. -/
def groupStream : List (Slot → Instr) :=
  [.merge, .eose, .eost]

/-- R106, group "system", from code 0x3C0. -/
def groupSystem : List (Slot → Instr) :=
  [.trap, eretOf, .srd, .swr, .bkpt, xlinvOf, .errq, .pclr, .ctxsave, .ctxrest, preemptOf, .cfgchk]

/-- R106: each group with its first code. -/
def opcodeGroups : List (Nat × List (Slot → Instr)) :=
  [(0x000, groupNoOperation),
   (0x010, groupIntegerAndAddress),
   (0x040, groupLane),
   (0x080, groupFloatingPoint),
   (0x100, groupConversion),
   (0x140, groupCompareAndSelect),
   (0x180, groupMemory),
   (0x200, groupAtomics),
   (0x240, groupSynchronisation),
   (0x280, groupEngines),
   (0x300, groupControl),
   (0x340, groupTagsAndTasks),
   (0x380, groupDigit),
   (0x390, groupStream),
   (0x3C0, groupSystem)]

def findOpcode (c : Nat) : List (Nat × List (Slot → Instr)) → Option (Slot → Instr)
  | [] => none
  | (base, l) :: rest => if base ≤ c && c < base + l.length then l[c - base]? else findOpcode c rest

/-- The instruction that an opcode names with a slot's fields (R106); none for an unassigned value. -/
def instrOf (opcode : BitVec 10) (s : Slot) : Option Instr :=
  (findOpcode opcode.toNat opcodeGroups).map fun mk => mk s

/-- The fields with the bits of a target that is not valid left out of account. -/
def Fields.loose (v : Fields) : Fields :=
  { v with f1 := if v.f1.getLsbD 15 then v.f1 else 0, f2 := if v.f2.getLsbD 15 then v.f2 else 0 }

/-- Bits in a target field that the instruction's entry does not use (R89). -/
def Instr.unusedBits (i : Instr) (v : Fields) : Option DecodeError :=
  match i.form.map Form.targets with
  | some .none => if v.f1 != 0 then some .unused0 else if v.f2 != 0 then some .unused1 else none
  | some .exit0 => if v.f2 != 0 then some .unused1 else none
  | _ => none

/-- An instruction slot by step 5 of R103: its opcode, its reserved codes, then the checks of its entry. Where several fail,
this order decides which field is reported (log 77, DESIGN CHOICE). -/
def decodeStep5 (v : Fields) : Except DecodeError Instr :=
  match findOpcode (v.f0.extractLsb' 6 10).toNat opcodeGroups with
  | none => .error .opcode
  | some mk =>
    match decodeFields v.loose with
    | .error e => .error e
    | .ok s =>
      let i := mk s
      match i.slotError5 with
      | some e => .error (.slot e)
      | none => match i.unusedBits v with
        | some e => .error e
        | none => .ok i

/-- An instruction slot: step 5, then the rules of R94 that its own fields show. -/
def decodeSlot (v : Fields) : Except DecodeError Instr :=
  match decodeStep5 v with
  | .error e => .error e
  | .ok i =>
    if v.f1 != v.loose.f1 then .error .unused0
    else if v.f2 != v.loose.f2 then .error .unused1
    else match i.slotError with
      | some e => .error (.slot e)
      | none => .ok i

/-- A configuration command (R84, R85) with the checks of step 4 of R103 that need no image. -/
def decodeCommand (w : W32) : Except DecodeError Instr :=
  let a := w.extractLsb' 20 12
  let field := w.extractLsb' 16 4
  let value := w.extractLsb' 0 16
  match decodeElem a with
  | .error .class111 => .error .elemClass
  | .error .index => .error .elemIndex
  | .ok el =>
    if field == 15 then (if value == 0 then .ok (.clearCommand a) else .error .clearValue)
    else if field.toNat < el.fieldCount then .ok (.configCommand a field value)
    else .error .fieldNumber

/-- The field of an element that a rejected word is reported against (R104). -/
def DecodeError.field : DecodeError → BitVec 4
  | .opcode | .slot .mode | .slot .notASlot | .length | .imageMode => 0
  | .target0 | .unused0 | .slot .target | .slot .targetShape => 1
  | .target1 | .unused1 | .slot .target1 => 2
  | .slot .immediate => 3
  | .slot .immediateHigh => 4
  | .clearValue => 15
  | .elemClass | .elemIndex | .fieldNumber => 0
  | _ => 5

/-! ### Memory words -/

/-- The little-endian value of bytes (R4), and the bytes of a value. -/
def bytesToNat : List Byte → Nat
  | [] => 0
  | b :: rest => b.toNat + 256 * bytesToNat rest

def natToBytes : Nat → Nat → List Byte
  | 0, _ => []
  | n + 1, v => BitVec.ofNat 8 v :: natToBytes n (v / 256)

def fieldsOfNat (w : Nat) : Fields where
  f0 := BitVec.ofNat 16 w
  f1 := BitVec.ofNat 16 (w / 2 ^ 16)
  f2 := BitVec.ofNat 16 (w / 2 ^ 32)
  f3 := BitVec.ofNat 16 (w / 2 ^ 48)
  f4 := BitVec.ofNat 16 (w / 2 ^ 64)
  f5 := BitVec.ofNat 16 (w / 2 ^ 80)

def Fields.toBytes (v : Fields) : List Byte :=
  [v.f0, v.f1, v.f2, v.f3, v.f4, v.f5].flatMap fun f => [f.extractLsb' 0 8, f.extractLsb' 8 8]

/-- The decoder over bytes: a configuration command is 4 bytes (R84), the six fields of a slot are 12, in field
order, each little-endian. -/
def decode (bs : List Byte) : Except DecodeError Instr :=
  if bs.length == 4 then decodeCommand (BitVec.ofNat 32 (bytesToNat bs))
  else if bs.length == 12 then decodeSlot (fieldsOfNat (bytesToNat bs))
  else .error .length

/-! ### The encoder -/

/-- The opcode of an instruction that is held in a slot (R106). -/
def Instr.opcode : Instr → BitVec 10
  | .nop _ => 0x000
  | .iadd _ => 0x010
  | .isub _ => 0x011
  | .imul _ => 0x012
  | .imulh _ => 0x013
  | .imad _ => 0x014
  | .idiv _ => 0x015
  | .irem _ => 0x016
  | .ineg _ => 0x017
  | .iabs _ => 0x018
  | .imin _ => 0x019
  | .imax _ => 0x01A
  | .bitAnd _ => 0x01B
  | .bitOr _ => 0x01C
  | .bitXor _ => 0x01D
  | .bitAndn _ => 0x01E
  | .bitNot _ => 0x01F
  | .shl _ => 0x020
  | .shr _ => 0x021
  | .sar _ => 0x022
  | .rol _ => 0x023
  | .clz _ => 0x024
  | .ctz _ => 0x025
  | .popc _ => 0x026
  | .bfx _ => 0x027
  | .bfi _ => 0x028
  | .sext _ => 0x029
  | .zext _ => 0x02A
  | .movi _ => 0x02B
  | .movhi _ => 0x02C
  | .lea _ => 0x02D
  | .mov _ => 0x02E
  | .nul _ => 0x02F
  | .lane _ => 0x040
  | .ins _ => 0x041
  | .splat _ => 0x042
  | .shuf _ => 0x043
  | .pack _ => 0x044
  | .unpk _ => 0x045
  | .redl _ => 0x046
  | .perm _ => 0x047
  | .fadd _ => 0x080
  | .fsub _ => 0x081
  | .fmul _ => 0x082
  | .fma _ => 0x083
  | .fnma _ => 0x084
  | .fdiv _ => 0x085
  | .fsqrt _ => 0x086
  | .frcp _ => 0x087
  | .frsq _ => 0x088
  | .fexp2 _ => 0x089
  | .flog2 _ => 0x08A
  | .fmin _ => 0x08B
  | .fmax _ => 0x08C
  | .fabs _ => 0x08D
  | .fneg _ => 0x08E
  | .frnd _ => 0x08F
  | .fscale _ => 0x090
  | .fclass _ => 0x091
  | .fdot4 _ => 0x092
  | .freds _ => 0x093
  | .cvt _ => 0x100
  | .qblk _ => 0x101
  | .dqblk _ => 0x102
  | .mxpk _ => 0x103
  | .mxunpk _ => 0x104
  | .hstep _ => 0x105
  | .icmp _ => 0x140
  | .fcmp _ => 0x141
  | .sel _ => 0x142
  | .pand _ => 0x143
  | .por _ => 0x144
  | .pnot _ => 0x145
  | .testp _ => 0x146
  | .ld _ => 0x180
  | .st _ => 0x181
  | .lda _ => 0x182
  | .stl _ => 0x183
  | .empty _ => 0x184
  | .pref _ => 0x185
  | .accrd _ => 0x186
  | .accwr _ => 0x187
  | .fence _ => 0x188
  | .seqf _ => 0x189
  | .ldpq _ => 0x18A
  | .amo _ => 0x200
  | .cas _ => 0x201
  | .barInit _ => 0x240
  | .barArr _ => 0x241
  | .barSync _ => 0x242
  | .cwait _ => 0x243
  | .hwait _ => 0x244
  | .hrel _ => 0x245
  | .hqry _ => 0x246
  | .waitdep _ => 0x247
  | .trig _ => 0x248
  | .strm _ => 0x280
  | .strmpb _ => 0x281
  | .send _ => 0x282
  | .sendpb _ => 0x283
  | .mma _ => 0x284
  | .mmald _ => 0x285
  | .accz _ => 0x286
  | .accdrn _ => 0x287
  | .omclaim _ => 0x288
  | .omrel _ => 0x289
  | .pfire _ => 0x28A
  | .cfgld _ => 0x28B
  | .cfgsw _ => 0x28C
  | .cfgwr _ => 0x28D
  | .engq _ => 0x28E
  | .engqSet _ => 0x28E
  | .br _ => 0x300
  | .cont _ => 0x301
  | .halt _ => 0x302
  | .haltRes _ => 0x302
  | .launch _ => 0x303
  | .yield _ => 0x304
  | .spawn _ => 0x305
  | .join _ => 0x306
  | .callx _ => 0x307
  | .tagq _ => 0x340
  | .tqput _ => 0x341
  | .tqget _ => 0x342
  | .tqsteal _ => 0x343
  | .drec _ => 0x380
  | .dcut _ => 0x381
  | .dadd _ => 0x382
  | .dmul _ => 0x383
  | .dval _ => 0x384
  | .merge _ => 0x390
  | .eose _ => 0x391
  | .eost _ => 0x392
  | .trap _ => 0x3C0
  | .eretRs _ => 0x3C1
  | .eretNb _ => 0x3C1
  | .eretAb _ => 0x3C1
  | .eretDr _ => 0x3C1
  | .srd _ => 0x3C2
  | .swr _ => 0x3C3
  | .bkpt _ => 0x3C4
  | .xlinvPg _ => 0x3C5
  | .xlinvAll _ => 0x3C5
  | .xlinvRng _ => 0x3C5
  | .errq _ => 0x3C6
  | .pclr _ => 0x3C7
  | .ctxsave _ => 0x3C8
  | .ctxrest _ => 0x3C9
  | .preemptStop _ => 0x3CA
  | .preemptRes _ => 0x3CA
  | .preemptAb _ => 0x3CA
  | .preemptBe _ => 0x3CA
  | .cfgchk _ => 0x3CB
  | _ => 0

def commandWord (a : BitVec 12) (field : BitVec 4) (value : W16) : W32 := a ++ (field ++ value)

/-- The bytes of a well-formed instruction; the part's own steps have none. -/
def encode : Instr → List Byte
  | .configCommand a field value => natToBytes 4 (commandWord a field value).toNat
  | .clearCommand a => natToBytes 4 (commandWord a 15 0).toNat
  | i =>
    match i.slot with
    | some s => (encodeFields i.opcode s).toBytes
    | none => []

/-- The bytes of an instruction whose bits are numbered as the opcode table numbers them: 32 bits for a command,
otherwise the 96 bits of a slot, any above `nbits` being 0. -/
def tableBytes (nbits w : Nat) : List Byte :=
  if nbits == 32 then natToBytes 4 w else natToBytes 12 (w % 2 ^ nbits)

/-- What this decoder reads from a row's word. -/
def decodeTableWord (nbits w : Nat) : Option Instr :=
  match decode (tableBytes nbits w) with
  | .ok i => some i
  | .error _ => none

end Sys2Proof
end

