-- ==== Sys2Proof/Machine/State.lean ====
section
/-! DEFINITION. The state of the part: everything the manual names, as plain data. `State.mem` is the package's
memory, `State.pk` everything else the manual names, and `agenda`, `cur`, `cmd`, `freeCount` and `nextId` are
the model's own (log 1). Every field's default is its value at `State.reset` (log 4). -/

namespace Sys2Proof.Machine

/-! ### Tokens and work -/

/-- Token kinds (R38). -/
inductive TokKind where
  | data | pred | null | eor | digit
  deriving DecidableEq, Repr

/-- A token without its tag and destination (R38). -/
structure Token where
  kind : TokKind := .data
  poison : Bool := false
  val : W128 := 0
  deriving DecidableEq, Repr

/-- The work a token belongs to: a block instance by its sequence number, or a beat of a stream section by its
index, named by the pair of image and tag (R67). -/
structure Work where
  ctx : CtxId := 0
  img : VA := 0
  stream : Bool := false
  n : Nat := 0
  deriving DecidableEq, Repr

/-- A token in links and latches: its producer's element, its target, its work (R44). -/
structure Transit where
  src : BitVec 12
  tgt : Target
  work : Work
  tok : Token
  deriving DecidableEq, Repr

/-- A matching-store entry (R45). -/
structure MatchEntry where
  elem : BitVec 12
  work : Work
  l : Option Token := none
  r : Option Token := none
  p : Option Token := none
  deriving DecidableEq, Repr

/-- What a run-aware slot holds between firings (R185-R188): the next beat of each input, the output position,
the accumulator of EOSE with its poison and flags, the count of EOST and whether its last token was inserted. -/
structure RunState where
  elem : BitVec 12
  ctx : CtxId
  img : VA
  posL : Nat := 0
  posR : Nat := 0
  posP : Nat := 0
  out : Nat := 0
  acc : Option W128 := none
  poison : Bool := false
  flags : BitVec 5 := 0
  count : Nat := 0
  inserted : Bool := false
  deriving DecidableEq, Repr

/-! ### Configuration -/

/-- A configured element: fields F0-F8, configured, blocked (R85, R104), and the image that wrote it (R88). -/
structure ElemState where
  f : Vector W16 9 := Vector.replicate 9 0
  configured : Bool := false
  blocked : Bool := false
  /-- The step of R103 that blocked it, and the field reported (R104). -/
  step : Nat := 0
  badField : BitVec 4 := 0
  img : Option VA := none
  deriving DecidableEq, Repr

/-- An image (R19, R48): its address, its VI, its header and its command words. -/
structure Image where
  addr : VA
  vi : Fin 64
  hdr : BitVec 512
  cmds : List W32
  deriving DecidableEq, Repr

/-- What stands in a plane, in order of arrival (R426): an image as it was read, with the sides it still holds, or a
CFGWR word. -/
inductive PlaneWrite where
  | image (i : Image) (sides : BitVec 4)
  | word (w : W32)
  deriving DecidableEq, Repr

/-- The planes of the four sides, active or shadow (R19, R87): elements by address. -/
structure CfgPlane where
  elems : List (Nat × ElemState) := []
  log : List PlaneWrite := []
  deriving DecidableEq, Repr

/-- A configuration command on its way to a plane (R84, R86). -/
structure CfgCommand where
  word : W32
  active : Bool
  img : Option VA
  deriving DecidableEq, Repr

/-! ### Memory accesses in flight -/

/-- What an access does at its home (R224, R244). -/
inductive AccKind where
  | ld | lda (scope : BitVec 2) | ldpq
  | st | stl (scope : BitVec 2)
  | empty
  | fence (kind scope : BitVec 2)
  | seqf (plain : Bool)
  | amo (op : AtomOp) (seq plain : Bool)
  | cas (seq plain : Bool)
  | arrive (b : Fin 16) (scope : BitVec 2)
  | trig
  /-- What a commit hands over once the writes before it are acknowledged (R261, R262, R372, R381). -/
  | launch (ticket : W32) (desc : BitVec 1024) (deps : List W64)
  | tqput (record : BitVec 256)
  | spawned (mask : BitVec 32)
  | hrel (h : Fin 64)
  /-- One event of an accumulating send: a read-modify-write (R246, R314). -/
  | accum (op : BitVec 3) (ty : BitVec 4)
  /-- All the data of a remote send stand in a handle (R315). -/
  | landed (h : Fin 64)
  deriving DecidableEq, Repr

/-- Where an access stands on its way (R225, R237, R255). -/
inductive AccSt where
  | waiting | deferred | retry (cycles : Nat) | remote (cycles : Nat) | sent | done
  deriving DecidableEq, Repr

/-- Where an access goes (R217, R219, R234): the scratchpad, an offset of a die,
another package, an accumulator word (R196), or nowhere. -/
inductive Place where
  | scratch (off : Nat) (p : Bool)
  | home (die : DieId) (off : Nat) (p : Bool) (scope : BitVec 2)
  | remote (member : Fin 16)
  | acc (a : Fin 4) (index : Nat)
  | none
  deriving DecidableEq, Repr

/-- The writes that happen-before an event (R252): every one up to number `upto`, and of a word those up to the number listed
for it. -/
structure Floor where
  upto : Nat := 0
  words : List (Nat × Nat) := []
  deriving DecidableEq, Repr

/-- A release (R251): its scope, the tile of its agent, none where that is in another package, and what happens-before what
acquires from it. -/
structure Release where
  scope : BitVec 2
  tile : Option TileId
  floor : Floor
  deriving DecidableEq, Repr

/-- An access not yet performed: its tile and work, its place in program order (R245), what it does and to
what, and where its result goes. -/
structure Access where
  id : Nat
  tile : TileId
  work : Work
  lsid : Nat := 0
  kind : AccKind
  va : VA := 0
  place : Place := .none
  n : Nat := 0
  ty : Ty := .w128
  v : Bool := false
  /-- The level at which it is made, which a request to another package carries (R235). -/
  lvl : Bool := false
  elem : BitVec 12 := 0
  t0 : Target := .none
  t1 : Target := .none
  data : W128 := 0
  st : AccSt := .waiting
  block : VA := 0
  iter : Nat := 0
  /-- Words already performed, by offset: of a load, with their value and poison (R225, R246); of a store, with
  whether the write was dropped. -/
  got : List (Nat × W64 × Bool) := []
  /-- The releases among the writes that a load has read from so far (R248, R251). -/
  heard : List Release := []
  /-- What a sequenced operation's message found in its order (R258), and cycles since the first sending of a load to another
  package that its home sent back (R225). -/
  floor : Floor := {}
  age : Nat := 0
  /-- Who asked, when another package did: its member number and its name for the reply (R237). -/
  origin : Option (Fin 16 × Nat) := none
  /-- The VI that such a request is for. -/
  vi : Option (Fin 64) := none
  /-- Its data is poisoned (R311). -/
  poison : Bool := false
  /-- Bytes that the forwarding table gave a load to another package when it was sent (R60), by their place in it. -/
  fwd : List (Nat × Byte) := []
  /-- The engine operation whose access it is (R246, R259); and the tile and residency of that operation, where the place
  is another tile's scratchpad. -/
  op : Option Nat := none
  owner : Option (TileId × Option Nat) := none
  /-- The residency whose program made it. -/
  res : Option Nat := none
  deriving DecidableEq, Repr

/-! ### What agents know of package memory (R247-R253) -/

/-- A state that a word has left (R247): the writes that began and ended it, its bytes, whether it is poisoned and full, and
the releases that gave it bytes, by byte. -/
structure PastState where
  word : Nat
  first : Nat
  next : Nat
  value : W64
  bad : Bool := false
  full : Bool := false
  rels : List (Nat × List Release) := []
  deriving DecidableEq, Repr

/-- The coherence order of package memory (R247): the writes so far, the write that began the state each word has, and the
states that words have left. `rels` has the releases that gave a byte. -/
structure History where
  writes : Nat := 0
  born : List (Nat × Nat) := []
  rels : List (Nat × List Release) := []
  past : List PastState := []
  deriving DecidableEq, Repr

/-- What a context's events so far mean for those that follow (R251-R253): the writes that happen-before them, the releases
that loads have read, for an acquire fence, and the release fences, by scope. -/
structure View where
  floor : Floor := {}
  heard : List Release := []
  fences : List (BitVec 2 × Floor) := []
  deriving DecidableEq, Repr

/-- The same by place in program order: `view` holds for every event to come, a mark of `ahead` for those behind its sequence
number and LSID alone. -/
structure Track where
  view : View := {}
  ahead : List (Nat × Nat × View) := []
  deriving DecidableEq, Repr

/-! ### Requests at LSIDs, and engine commands -/

/-- The two-loop pattern of STRM and the four-loop block of STRMPB, parsed (R305, R306). -/
structure StreamCmd where
  space : Bool := false
  base : VA := 0
  kind : BitVec 3 := 0
  esize : BitVec 3 := 0
  stream : Fin 16 := 0
  slot : Fin 16 := 0
  spoff : Nat := 0
  eor : Bool := false
  eos : Bool := false
  sc : Bool := false
  n : List Nat := []
  s : List Int := []
  ixw : BitVec 2 := 0
  ixoff : Nat := 0
  ixsh : Nat := 0
  task : Option (Nat × BitVec 6) := none
  deriving DecidableEq, Repr

/-- A send (R312, R313). -/
structure SendCmd where
  acctype : BitVec 4 := 0
  accop : BitVec 3 := 0
  peer : BitVec 8 := 0
  die : DieId := 0
  x : BitVec 3 := 0
  y : BitVec 3 := 0
  handle : Fin 64 := 0
  units : Nat := 1
  src : Nat := 0
  rows : Nat := 1
  stride : Int := 0
  task : Option (BitVec 256) := none
  deriving DecidableEq, Repr

/-- An engine operation's command: what its instruction gave it (R205, R302). -/
inductive EngineCmd where
  | strm (c : StreamCmd)
  | strmpb (block : VA)
  | send (c : SendCmd)
  | sendpb (block : VA)
  | mma (d : W128)
  | mmald (d : W32)
  | accz (a : Fin 4)
  | accdrn (d : W128)
  | pfire (tiles : Bool) (d : W32)
  | cfgld (block : VA)
  | cfgsw (sides : BitVec 4)
  | cfgwr (active : Bool) (word : W32) (x y : BitVec 3)
  | xlinv (form scope : BitVec 2) (va : VA) (count : Nat)
  | preempt (op : BitVec 2) (handle : W32)
  deriving DecidableEq, Repr

/-- The fields of a context save area's image (R415), which are also a live context's committed state. -/
structure CtxImage where
  g : Vector W128 128 := Vector.replicate 128 0
  gpois : BitVec 128 := 0
  /-- Pending registers, each with the access whose reply fills it (R288). -/
  pend : List (Nat × Nat) := []
  pc : VA := 0
  cnt : Vector (Fin 64) 8 := Vector.replicate 8 0
  thr : W32 := 0
  lvl : Bool := false
  seqn : Nat := 0
  alloc : Nat := 32
  fpf : BitVec 5 := 0
  yld : W32 := 0
  yldWaits : BitVec 32 := 0
  done : BitVec 32 := 0
  lpk : BitVec 2 := 0
  lpn : W32 := 0
  lpi : W32 := 0
  arg : Vector W64 8 := Vector.replicate 8 0
  stl : Option (BitVec 256) := none
  rs : List W64 := []
  ra : List W64 := []
  deriving DecidableEq, Repr

/-- A fault record (R408). -/
structure FaultRec where
  elap : W64 := 0
  plseq : W64 := 0
  pkseq : W64 := 0
  va : VA := 0
  block : VA := 0
  itb : BitVec 48 := 0
  coord : W16 := 0
  rh : W32 := 0
  vi : Fin 64 := 0
  cls : BitVec 2 := 0
  ovf : Bool := false
  lvl : Bool := false
  ty : BitVec 3 := 0
  tx : BitVec 3 := 0
  die : DieId := 0
  ctx : CtxId := 0
  kind : Byte := 0
  sub : Byte := 0
  cause : Byte := 0
  /-- The operation it stopped, or that armed the section it stopped: no field of the record (R420, R466). -/
  op : Option Nat := none
  deriving DecidableEq, Repr

/-- What an instance's LSID has received (R50-R52): a null, a fault token, a load's access or a wait that has
fired, or a request that commit performs. -/
inductive LsidVal where
  | null
  | fault (t : Token)
  | loaded (access : Nat)
  | waited
  /-- A store, EMPTY, ACCWR, fence, sequenced fence or atomic, performed from commit on. -/
  | access (a : Access)
  | barInit (b : Fin 16) (scope : BitVec 2) (e : Nat)
  | barArr (b : Fin 16)
  | barSync (b : Fin 16) (fired : Bool) (tok : Token)
  | hwaited (h : Fin 64)
  | hrel (h : Fin 64) (base size : Nat)
  | joined (mask : BitVec 32)
  | trig
  | engine (c : EngineCmd) (ctr : Fin 8)
  | omClaim (wait : Bool) (mask : W16)
  | omRel (mask : W16)
  | engqSet (q mode : BitVec 2)
  /-- With the dependence list read at firing (R374), and its cost in the parent's child window of each die, none for
  best-effort work (R344, R370). -/
  | launch (ticket : W32) (desc : BitVec 1024) (deps : List W64) (queued : Bool) (costs : List Nat)
  | yield (cycles : W32)
  | spawn (mask : BitVec 32) (alloc : Nat) (entry : W64) (arg : W128)
  | tagqClr
  | tqput (record : BitVec 256) (queued : Bool)
  | trap (service : BitVec 6) (arg : VA)
  | eret (op : BitVec 2)
  | swr (reg : BitVec 6) (v : W64)
  | ctxsave (va : VA)
  | ctxrest (image : Option CtxImage)
  | errq (va : VA) (taken : Option FaultRec)
  deriving DecidableEq, Repr

/-- A write entry's value (R51, R288): a token, or the placeholder of an atomic's reply, by its LSID. -/
inductive WriteVal where
  | tok (t : Token)
  | pending (lsid : BitVec 5)
  deriving DecidableEq, Repr

/-- A loop that the sequencer unrolls (R64, R65): its block, its kind (1 iterate, 2 while), its count, the sequence
number of the first instance spawned in it, and an instance whose commit further iterations wait for (R61). -/
structure LoopRun where
  img : VA
  kind : BitVec 2
  n : W32
  first : Nat
  hold : Option Nat := none
  deriving DecidableEq, Repr

/-- A live block instance (R49-R56, R64, R65). -/
structure Inst where
  ctx : CtxId
  img : VA
  seq : Nat
  iter : Nat := 0
  /-- The loop that it is an iteration of. -/
  loop : Option LoopRun := none
  stamp : Nat := 0
  /-- The read entries that have delivered (R49). -/
  reads : List Nat := []
  writes : List (Nat × WriteVal) := []
  lsids : List (Nat × LsidVal) := []
  /-- Tokens that fired an exit, in order, with the exit (R54); a task record taken with it (R379). -/
  exits : List (Nat × Token) := []
  exitFault : Option (Nat × Token) := none
  taskArgs : Option (BitVec 256 × Bool) := none
  /-- A second token, which keeps the instance from committing (R43). -/
  second : Option Token := none
  conts : List Bool := []
  /-- The exit was fired by TQGET or TQSTEAL: its successor is requested after the commit (R354). -/
  late : Bool := false
  /-- Words of a block that an instruction reads when it fires, each one event (R246, R369): by LSID and place, with
  their poison. -/
  pieces : List (Nat × Nat × W64 × Bool) := []
  /-- HALT.res has fired (R364). -/
  haltRes : Bool := false
  flags : BitVec 5 := 0
  /-- The first instance after ERET.nb (R419). -/
  skipBkpt : Bool := false
  /-- A request was sent that is not to be sent again (R380). -/
  requested : Bool := false
  /-- LSIDs of BAR.SYNCs whose arrival was dropped for want of a scope (R293). -/
  barDropped : List Nat := []
  deriving DecidableEq, Repr

/-! ### Contexts -/

/-- States of a context number (R72), with the context stopped in a trap (R407). -/
inductive CtxSt where
  | free | live | saved | halted | held
  deriving DecidableEq, Repr

/-- A request to enter a block (R48): its address, the instance whose exit asked for it, whether its image has
been placed, and the seq after which it may be served. -/
structure BlockReq where
  va : VA
  after : Option Nat := none
  placed : Bool := false
  afterCommit : Bool := false
  /-- Its place among the tile's waiting requests. -/
  stamp : Option Nat := none
  deriving DecidableEq, Repr

/-- A context's record at a barrier (R291). -/
structure BarRec where
  q : W16 := 0
  o : Bool := true
  deriving DecidableEq, Repr

/-- A context (R71, R72, R395, R412, R415). -/
structure Ctx where
  st : CtxSt := .free
  cur : CtxImage := {}
  /-- The trapped image and its fault record while a trap is being handled (R411, R415). -/
  trapped : Option (CtxImage × FaultRec) := none
  tcause : BitVec 18 := 0
  tblock : VA := 0
  tinfo : BitVec 80 := 0
  tval : VA := 0
  precs : List FaultRec := []
  /-- A trap raised and not yet delivered (R53, R411). -/
  raised : Option FaultRec := none
  parent : Option CtxId := none
  req : Option BlockReq := none
  /-- The loop that the sequencer is in, which may be ahead of the committed state. -/
  loop : Option LoopRun := none
  nbSkip : Bool := false
  bar : Vector BarRec 16 := Vector.replicate 16 {}
  stealFrom : Option (Fin 64) := none
  /-- What the record in the steal buffer brings its taker (R381), and what completed operations bring, by counter (R262). -/
  stlFloor : Floor := {}
  joins : List (Nat × Floor) := []
  /-- Stopped: no delivery succeeded and the supervisor must act (R407), or the residency holds it. -/
  stopped : Bool := false
  track : Track := {}
  deriving DecidableEq, Repr

/-! ### Engines, handles, barriers, task queues -/

/-- An operation of an engine queue (R205, R302): its identity in issue order, what it does, and how far it is. -/
structure Op where
  id : Nat
  ctx : CtxId
  cmd : EngineCmd
  ctr : Fin 8
  lvl : Bool := false
  block : VA := 0
  iter : Nat := 0
  /-- Its place in its context's program order (R249 row 12): sequence number and LSID. -/
  po : Nat := 0
  lsid : Nat := 0
  started : Bool := false
  /-- Next element, beat, row or K-step. -/
  pos : Nat := 0
  /-- A run marker due, a gang partner, a handle reserved, the bytes a remote send has acknowledged. -/
  mark : Bool := false
  /-- Stopped at an element by a fault (R243, R466), or completing with no further elements. -/
  stopped : Bool := false
  /-- Issued in a trap that its context has left: no counter counts it (R411, R420). -/
  uncounted : Bool := false
  ending : Bool := false
  /-- A beat taken from an egress and not yet written (R243), or the array's words of a K-step (R201). -/
  held : List (Nat × Token) := []
  /-- Elements of a fill of an operand slot that are read and not yet in it: address, bytes, poison (R194). -/
  fills : List (Nat × List Byte × Bool) := []
  /-- The parsed parameter block (R304). -/
  snap : Option EngineCmd := none
  partner : Option TileId := none
  record : Option (BitVec 256) := none
  cycles : Nat := 0
  /-- The beat of its port at which its position is 0, and whether it only repeats beats of a section that
  was taken back (R420). -/
  beat0 : Int := 0
  ghost : Bool := false
  /-- Positions of the array ports of its section (R201). -/
  ports : List Nat := []
  /-- What its issue brings its events, once that is known (R261); its own writes, by word; what it has acquired. -/
  floor : Option Floor := none
  own : List (Nat × Nat) := []
  gained : Floor := {}
  deriving DecidableEq, Repr

/-- An armed stream section (R57-R59, R202). -/
structure Section where
  ctx : CtxId
  img : VA
  sides : BitVec 4
  window : Nat
  count : Option Nat
  stamp : Nat
  op : Nat
  /-- Next beat of each ingress port, next beat of each egress port. -/
  inPos : List (Nat × Nat) := []
  outPos : List (Nat × Nat) := []
  /-- Sinks that end-of-stream or the last beat has reached: egress ports and slots (R59). -/
  closed : List Nat := []
  /-- End-of-stream given to these ingress ports. -/
  ended : List Nat := []
  /-- Flags not yet in s.fpf: the element that raised them or took their beat over, the beat, the flags (R142). -/
  flags : List (BitVec 12 × Nat × BitVec 5) := []
  /-- The egress positions below which a section taken back delivers its beats a second time (R427). -/
  replays : List (Nat × Nat) := []
  /-- The beat a fault or the cutoff stopped it at (R58, R427), with the fault. -/
  stop : Option (Nat × Option Token) := none
  /-- Stream operations that have completed and fed it. -/
  fed : List Op := []
  deriving DecidableEq, Repr

/-- A queue's mode and stall counter (R302, R303). -/
structure QueueMode where
  mode : BitVec 2 := 0
  stalls : W32 := 0
  deriving DecidableEq, Repr

/-- States of a buffer handle (R298). -/
inductive HandleSt where
  | free | filling | full | draining
  deriving DecidableEq, Repr

/-- Who waits to fill a handle (R298): a send of this package, or another package's. -/
inductive HandleWait where
  | own (t : TileId) (op : Nat)
  | far (member : Fin 16) (pvi : BitVec 12) (spot : Spot) (bytes reply : Nat)
  deriving DecidableEq, Repr

/-- Another package's send that fills a handle (R315): its member and its name there, the operation that its writes count
for, its size in bytes, and the 16-byte units of it that have come. -/
structure FarFill where
  member : Fin 16
  reply : Nat
  op : Nat
  bytes : Nat
  units : List Nat := []
  deriving DecidableEq, Repr

structure Handle where
  st : HandleSt := .draining
  base : Nat := 0
  size : Nat := 0
  bytes : Nat := 0
  owner : Option CtxId := none
  ownerSeq : Nat := 0
  /-- The send that fills it: its tile and operation, or another package's. -/
  sender : Option (TileId × Nat) := none
  far : Option FarFill := none
  idle : Nat := 0
  /-- The sends that wait for it, in order of arrival. -/
  waiters : List HandleWait := []
  /-- What the data in it brings its consumer, and a released handle the next send (R262). -/
  floor : Floor := {}
  deriving DecidableEq, Repr

/-- A barrier copy (R291). -/
structure BarCopy where
  e : Nat := 0
  scope : Option (BitVec 2) := none
  phase : W16 := 0
  count : Nat := 0
  /-- What the arrivals of this phase bring, and those of the phases completed (R264). -/
  acc : Floor := {}
  met : Floor := {}
  deriving DecidableEq, Repr

/-- Where a task-queue entry stands (R81, R378, R379). -/
inductive TaskSt where
  | ready
  | held (ctx : CtxId) (seq : Nat)
  | reserved (ctx : CtxId) (seq : Nat) (lsid : Nat)
  | transit (thief : TileId) (ctx : CtxId)
  deriving DecidableEq, Repr

structure TaskEntry where
  record : BitVec 256
  st : TaskSt := .ready
  /-- The event of its TQPUT, which a taker joins (R381), and what the record brings its taker (R262). -/
  put : Nat := 0
  floor : Floor := {}
  deriving DecidableEq, Repr

/-- Operand-slot ownership (R191). -/
inductive OmSt where
  | free
  | owned (c : CtxId)
  | releasing (c : CtxId)
  deriving DecidableEq, Repr

/-- A weight plane (R189): its width code, the B tile in the layout of R193, and the blocks with an
uncorrectable error (R216). -/
structure WeightPlane where
  width : BitVec 2 := 0
  bytes : List (Nat × Byte) := []
  bad : List Nat := []
  deriving DecidableEq, Repr

/-- A write waiting in the accumulator write buffer (R196). -/
structure AccWrite where
  id : Nat
  a : Fin 4
  index : Nat
  v : W128
  deriving DecidableEq, Repr

/-- A translation held by a structure of R236: the first and last 64 KiB unit of VA[71:16] it maps, its PA,
its class, scope and permissions. -/
structure Trans where
  vi : Fin 64
  first : Nat
  last : Nat
  pa : Nat
  cls : Bool := false
  scope : BitVec 2 := 0
  r : Bool := false
  w : Bool := false
  x : Bool := false
  u : Bool := false
  deriving DecidableEq, Repr

/-- A page-table entry in a die translation cache (R236): its level, its index (VA[71:16] down to the level's low bit)
and its bits. -/
structure TabEntry where
  vi : Fin 64
  level : Nat
  index : Nat
  bits : W64
  deriving DecidableEq, Repr

/-- A range-buffer entry as loaded (R238): its 256 bits, and whether the read met poison. -/
structure RangeEntry where
  bits : BitVec 256 := 0
  poison : Bool := false
  deriving DecidableEq, Repr

/-- Retention states of a tile (R232, R460). -/
inductive RetSt where
  | active | entering | retained | exiting
  deriving DecidableEq, Repr

/-- A tile (R19). -/
structure Tile where
  -- the collar
  links : List Transit := []
  store : List MatchEntry := []
  runs : List RunState := []
  /-- Earlier states of the run-aware slots, the first at each output position (R427). -/
  runLog : List RunState := []
  active : CfgPlane := {}
  shadow : CfgPlane := {}
  cfgStream : List CfgCommand := []
  -- the sequencer
  images : List Image := []
  fetches : List VA := []
  insts : List Inst := []
  sections : List Section := []
  stamp : Nat := 0
  ctxs : Vector Ctx 32 := Vector.replicate 32 {}
  /-- Context numbers reserved by an uncommitted SPAWN: by context and sequence number (R366). -/
  spawnRes : List (CtxId × Nat × BitVec 32) := []
  -- memories
  pad : List (Nat × Byte) := []
  padFull : List (Nat × Bool) := []
  padPoison : List (Nat × Bool) := []
  padBad : List (Nat × Bool) := []
  /-- The releases that gave a byte of the scratchpad (R248). -/
  padRels : List (Nat × List Release) := []
  om : List (Nat × Byte) := []
  omPoison : List (Nat × Bool) := []
  omSt : Vector OmSt 16 := Vector.replicate 16 .free
  acc : List (Nat × W128) := []
  accPoison : List (Nat × Bool) := []
  accScale : Vector (W32 × W32) 4 := Vector.replicate 4 (0x3F800000, 0x3F800000)
  accBuf : List AccWrite := []
  /-- What the completed operations on each accumulator bring who waits for them (R196, R262). -/
  accFloors : List (Nat × Floor) := []
  wActive : WeightPlane := {}
  wShadow : WeightPlane := {}
  wReady : Bool := false
  -- engines
  streamQ : List Op := []
  matrixQ : List Op := []
  configQ : List Op := []
  /-- Completed operations that still owe a task put (R82), and XLINV and PREEMPT in progress (R399, R424). -/
  sideQ : List Op := []
  streamMode : QueueMode := {}
  matrixMode : QueueMode := {}
  configMode : QueueMode := {}
  blockCache : List (VA × BitVec 512) := []
  portSlot : BitVec 6 := 0
  handles : Vector Handle 64 := Vector.replicate 64 {}
  bars : Vector BarCopy 16 := Vector.replicate 16 {}
  tasks : List TaskEntry := []
  -- translation
  tlb : List Trans := []
  ranges : List RangeEntry := []
  -- clock and occupancy
  clk : W64 := 0
  /-- Stretched cycles (R438): all of them, those of the last 65,536 cycles by the clock at which they came, and the
  clock at which they became too many. -/
  stretched : Nat := 0
  stretches : List (Nat × Nat) := []
  excess : Option Nat := none
  fenced : Bool := false
  ret : RetSt := .active
  retCycles : Nat := 0
  res : Option Nat := none
  halting : Bool := false
  /-- HALT.res has stopped the residency here: a context that leaves a trap halts (R364). -/
  resStopped : Bool := false
  /-- Residencies whose state is saved in place here (R387, R389). -/
  inPlace : List Nat := []
  deriving DecidableEq, Repr

/-! ### Residencies, swarms, dies -/

/-- States of a residency (R75, R336, R346, R424, R426). -/
inductive ResSt where
  | starting | resident | saving | saved | stopped | ended
  deriving DecidableEq, Repr

/-- A residency (R74-R76, R336, R346, R426). -/
structure Resid where
  swarm : Nat
  die : DieId
  x0 : Nat := 0
  y0 : Nat := 0
  w : Nat := 1
  h : Nat := 1
  st : ResSt := .starting
  epoch : W16 := 0
  vi : Fin 64 := 0
  lvl : Bool := false
  bounded : Bool := false
  triggered : Bool := false
  watchdog : Nat := 0
  budget : Nat := 0
  bound : Nat := 0
  bars : Vector BarCopy 16 := Vector.replicate 16 {}
  placedAt : Nat := 0
  firstAt : Nat := 0
  /-- Cycles since the pre-emption request, while saving (R427). -/
  pre : Option Nat := none
  preHold : Bool := false
  /-- The cutoff has passed: operations stop where they are. -/
  cut : Bool := false
  /-- Why it is stopped: a cause of R406, or 0 for PREEMPT.stop and thermal stops. -/
  stopCause : Option Byte := none
  thermal : Bool := false
  fencedOut : Bool := false
  /-- The tiles' state while saved, in the order of R74. -/
  saved : List Tile := []
  /-- Its tiles' sequencers have their first image in hand (R75). -/
  imaged : Bool := false
  waitSince : Nat := 0
  aborted : Bool := false
  /-- What its first TRIG, and its end, bring a WAITDEP (R376). -/
  told : Floor := {}
  deriving DecidableEq, Repr

/-- States of a swarm (R326, R333, R342, R351). -/
inductive SwarmSt where
  | waiting | dependent | accepted | placed | ended | refused | rejected
  deriving DecidableEq, Repr

/-- A swarm: its descriptor (R329), where it came from, and how far it is. -/
structure Swarm where
  desc : BitVec 1024
  vi : Fin 64
  queue : Nat
  home : DieId
  index : W32 := 0
  cls : Bool := false
  prio : BitVec 3 := 0
  parent : Option Nat := none
  ticket : Option W32 := none
  st : SwarmSt := .waiting
  lvl : Bool := false
  deps : List W64 := []
  acceptedAt : Nat := 0
  /-- When it became its queue's head, on each die's counter (R340). -/
  headSince : Vector (Option Nat) 8 := Vector.replicate 8 none
  placedAt : Option Nat := none
  /-- Dies that have announced their co-start reservation (R77). -/
  announced : BitVec 8 := 0
  aborted : Option Byte := none
  deferredKind2 : Option Byte := none
  deriving DecidableEq, Repr

/-- A plan interval or child window (R332-R335, R344), in counts of its die. -/
structure Interval where
  swarm : Nat
  x0 : Nat
  y0 : Nat
  w : Nat
  h : Nat
  start : Nat
  len : Nat
  child : Bool := false
  /-- Cycles of a child window taken by children (R344). -/
  used : Nat := 0
  bw : Nat := 0
  started : Bool := false
  /-- The floor and the quarters of the digit rate that its length was computed with (R337, R338). -/
  floor : Nat := 0
  rho : Nat := 4
  deriving DecidableEq, Repr

/-- A pending launch record (R371), with the parent swarm and the dependence list that LAUNCH read (R374). -/
structure LaunchRec where
  desc : BitVec 1024
  ticket : W32
  vi : Fin 64
  queue : BitVec 14
  cls : Bool
  prio : BitVec 3
  die : DieId
  parent : Nat
  deps : List W64
  deriving DecidableEq, Repr

/-- The record as management software reads it (R371). -/
def LaunchRec.bits (r : LaunchRec) : BitVec 1152 :=
  (0 : BitVec 60) ++ (BitVec.ofNat 3 r.die.val ++ (r.prio ++ (BitVec.ofBool r.cls ++ (r.queue ++ (BitVec.ofNat 6 r.vi.val ++
    ((0 : BitVec 9) ++ (r.ticket ++ r.desc)))))))

/-- What waits for a place in the best-effort class on a die (R340, R341): a swarm's residency, or a saved one. -/
inductive Waiter where
  | head (swarm : Nat)
  | saved (res : Nat)
  deriving DecidableEq, Repr

/-- The blocked head and the origin of the region marked for it, if there is one (R341). -/
structure Blocked where
  who : Waiter
  region : Option (Nat × Nat) := none
  deriving DecidableEq, Repr

/-- A stay of best-effort work on tiles, in counts of its die (R394). -/
structure Stay where
  res : Nat
  vi : Fin 64
  tiles : Nat
  start : Nat
  stop : Option Nat := none
  deriving DecidableEq, Repr

/-- An error queue (R413). -/
structure ErrQueue where
  recs : List FaultRec := []
  dropped : Bool := false
  /-- Records that uncommitted ERRQs hold (R423). -/
  held : Nat := 0
  deriving DecidableEq, Repr

/-- A die: management registers (R457), counters, plan, schedulers. -/
structure Die where
  tiles : Vector Tile 64 := Vector.replicate 64 {}
  stage : BitVec 4 := 0
  fail : Byte := 0
  ready : Bool := false
  mode : Bool := false
  enabled : Byte := 0
  smode : Bool := true
  rho : BitVec 2 := 0
  mret : W64 := 0
  mpool : W64 := 0
  reach : Vector W16 11 := Vector.replicate 11 0
  /-- The die's member number on the data plain of each fibre pair (R25). -/
  plainNum : Vector (Fin 16) 11 := Vector.replicate 11 0
  pw : W16 := 0
  tin : W16 := 0
  tj : W16 := 0
  digests : List (BitVec 512) := []
  /-- The defect map (R17, R18): the physical row each column skips since the last boot, and failures in service, by
  column and physical row, that the next boot maps. -/
  skip : Vector (Option Nat) 8 := Vector.replicate 8 none
  defects : List (Nat × Nat) := []
  /-- Power-gated, and not booted since (R254). -/
  gated : Bool := false
  elap : W64 := 0
  floorKHz : W32 := 552000
  pendingFloor : W32 := 0
  rhoNow : BitVec 2 := 0
  pendingRho : Option (BitVec 2) := none
  /-- Caps of the power manager (R461, R462): quarters of the digit rate of best-effort work, and its collar issue. -/
  cap : Fin 5 := 4
  collarCap : Bool := false
  thermalStop : Bool := false
  outside : Bool := false
  plan : List Interval := []
  /-- The blocked head with its marked region (R341), the queue last served at each priority (R340), and the queue
  last taken from in each class (R326). -/
  blockedHead : Option Blocked := none
  served : Vector (Option Nat) 8 := Vector.replicate 8 none
  lastTaken : Vector (Option Nat) 2 := Vector.replicate 2 none
  /-- Best-effort stays on the die's tiles, over which R394 averages. -/
  stays : List Stay := []
  launches : List LaunchRec := []
  launchHeld : Nat := 0
  launchCount : BitVec 29 := 0
  started : W16 := 0
  errq : List (Nat × ErrQueue) := []
  softErrors : W64 := 0
  corrected : W64 := 0
  /-- Residencies whose trigger notice has not reached this die (R375). -/
  notices : List Nat := []
  /-- The die translation cache: entries of every level that walks read (R236). -/
  cache : List TabEntry := []
  deriving DecidableEq, Repr

/-! ### The order ring and the plain -/

/-- What a sequenced message carries (R254, R256). -/
inductive MsgBody where
  | fence
  | atomic (acc : Access)
  | arrive (res : Nat) (b : Fin 16)
  | costart (swarm : Nat) (die : DieId)
  | gone (die : DieId) (tile : Option (Fin 64))
  | up (die : DieId)
  | memberChange (member : Fin 16) (alive : Bool)
  /-- A record of a VI, by its plain-wide number, for a tile in another package. -/
  | task (member : Fin 16) (pvi : BitVec 12) (spot : Spot) (record : BitVec 256)
  | foreign (m : ForeignMsg)
  /-- A plain message on its way to die 0 (none), or from die 0 to the others (its S_plain number). -/
  | carried (num : Option W64)
  deriving DecidableEq, Repr

/-- A message in a sequence queue or under way: its number once sent, its sender, the dies that have acted on
it (R255). -/
structure Message where
  id : Nat
  num : W64 := 0
  die : DieId
  body : MsgBody
  acted : BitVec 8 := 0
  /-- The dies that hold it: those a plain message has been relayed to (R256), all for a ring message. -/
  heard : BitVec 8 := 0xFF
  /-- Dies, and members of the plain, that failed its CRC and have marked it as missing (R435). -/
  missing : BitVec 8 := 0
  lack : BitVec 16 := 0
  /-- What a barrier arrival brings its phase (R264). -/
  floor : Floor := {}
  deriving DecidableEq, Repr

/-- A sequence order (R254-R256): the token, the queues, the messages under way, the last number each die has
acted on. -/
structure Order where
  holder : DieId := 0
  num : W64 := 0
  /-- Cycles since the token was seen (R436). -/
  idle : Nat := 0
  /-- Messages sent in this visit of the token (R26). -/
  visit : Nat := 0
  queues : Vector (List Message) 8 := Vector.replicate 8 []
  /-- Announcements and requeued messages that wait for room in a die's queue (R255, R436). -/
  late : Vector (List Message) 8 := Vector.replicate 8 []
  sent : List Message := []
  last : Vector W64 8 := Vector.replicate 8 0
  /-- What its sequenced operations so far bring those that follow them (R258). -/
  floor : Floor := {}
  deriving DecidableEq, Repr

/-! ### Host side -/

/-- A queue's registers (R324) with its reserved record room and waiting records (R326-R328). -/
structure HostQueue where
  cfg : W64 := 0
  base : W64 := 0
  cbase : W64 := 0
  tail : W32 := 0
  head : W32 := 0
  ctail : W32 := 0
  chead : W32 := 0
  stat : BitVec 5 := 0
  room : Nat := 0
  waiting : List (BitVec 256) := []
  /-- The words of the next descriptor that have been read (R326). -/
  words : List W64 := []
  deriving DecidableEq, Repr

/-- A VI control block (R384), attestation registers (R404). -/
structure ViBlock where
  ctl : W64 := 0
  root : W64 := 0
  rngt : W64 := 0
  q : W64 := 0
  tmax : W64 := 0
  bres : W64 := 0
  mem : W64 := 0
  tsh : W64 := 0
  paw : Vector W64 4 := Vector.replicate 4 0
  stat : BitVec 4 := 0
  nonce : List Byte := List.replicate 64 0
  busy : Bool := false
  attDone : Bool := false
  report : List Byte := List.replicate 320 0
  deriving DecidableEq, Repr

/-- What leaves the package for others (R237, R256, R315): replies to remote requests, requests and sends, and
forwarded plain messages. The outside reads it; no rule of the part does. -/
inductive Outgoing where
  | reply (member : Fin 16) (id : Nat) (a : RemoteAnswer)
  /-- A request of a VI, by its plain-wide number. -/
  | access (member : Fin 16) (pvi : BitVec 12) (q : RemoteReq)
  | withdraw (member : Fin 16) (pvi : BitVec 12) (id : Nat)
  | send (member : Fin 16) (pvi : BitVec 12) (spot : Spot) (h : Fin 64) (offset : Nat) (bytes : List Byte) (poison : Bool)
      (acctype : BitVec 4) (accop : BitVec 3) (id : Nat)
  | reserve (member : Fin 16) (pvi : BitVec 12) (spot : Spot) (h : Fin 64) (bytes id : Nat)
  /-- A plain message with its number; what it says names this package and the VI where it concerns one (R392). -/
  | plain (num : W64) (id : Nat) (m : ForeignMsg)
  | flit (die : DieId) (f : Flit)
  deriving DecidableEq, Repr

/-- A flit that a die keeps for a member, with its failures in a row (R434). -/
structure FlitRun where
  die : DieId
  flit : Flit
  fails : Nat
  deriving DecidableEq, Repr

/-- A deferred or beat-exact trap, or an event for an error queue, whose cause is known and whose record has
not been formed (R412, R413): the context it is for, if any. -/
structure PendRec where
  ctx : Option (TileId × CtxId) := none
  /-- The context that a record of an error queue concerns (R409). -/
  of : Option (TileId × CtxId) := none
  res : Option Nat := none
  /-- The die whose queue takes it, where that is not the one it concerns (R456). -/
  on : Option DieId := none
  fr : FaultRec
  deriving DecidableEq, Repr

/-- A task record of another package that waits at a tile's queue for room (R82), with the tile's residency and whom to
answer. -/
structure Arrival where
  id : Nat
  tile : TileId
  res : Option Nat
  record : BitVec 256
  reply : Option (Fin 16 × Nat) := none
  deriving DecidableEq, Repr

/-- Everything the manual gives the package besides its memory. -/
structure Pack where
  dies : Vector Die 8 := Vector.replicate 8 {}
  resids : List Resid := []
  swarms : List Swarm := []
  vis : Vector ViBlock 64 := Vector.replicate 64 {}
  queues : List (Nat × HostQueue) := []
  accs : List Access := []
  ring : Order := { num := 1 }
  plain : Order := {}
  /-- The dies that are on the order ring (R456, R436). -/
  ringUp : BitVec 8 := 0
  member : Byte := 0xFF
  populated : W16 := 0
  membersUp : W16 := 0
  flits : List FlitRun := []
  pending : List PendRec := []
  arrivals : List Arrival := []
  outgoing : List Outgoing := []
  hostReply : Option (List Byte) := none
  hist : History := {}
  ucie : BitVec 4 := 0xF
  deriving DecidableEq, Repr

/-! ### Memory -/

/-- The package's memory (R219-R229): bytes, presence of 8-byte words, poison of 16-byte granules, and
granules holding an uncorrectable error not yet found. Address a of die d is d * 2^38 + a. Every list is in the
canonical form of `Machine/Sparse.lean`; an unlisted byte reads 0 (log 2), an unlisted word is empty, an
unlisted granule is clean (log 3). -/
structure Memory where
  cells : List Host.Cell := []
  full : List (Nat × Bool) := []
  poison : List (Nat × Bool) := []
  bad : List (Nat × Bool) := []
  /-- Granules with a correctable error not yet met (R229). -/
  flaw : List (Nat × Bool) := []
  deriving DecidableEq, Repr

/-! ### The machine -/

/-- The operand set a firing consumes: its tile, its slot, its work, the operands (R39). -/
structure Firing where
  tile : TileId := ⟨0, 0⟩
  elem : BitVec 12 := 0
  work : Work := {}
  l : Option Token := none
  r : Option Token := none
  p : Option Token := none
  deriving DecidableEq, Repr

/-- The tile, plane and image of the configuration command in progress (R84). -/
structure Command where
  tile : TileId := ⟨0, 0⟩
  active : Bool := true
  img : Option VA := none
  deriving DecidableEq, Repr

/-- What happens next (log 1): a slot fires, a configuration command is applied, a step of the part, time
passing on a die, or an error arising in storage. -/
inductive Happening where
  | fire (t : TileId) (elem : BitVec 12) (w : Work)
  | command (t : TileId)
  | event (i : Instr)
  | time (d : DieId) (cycles counts : Nat)
  | granuleError (d : DieId) (granule : Nat)
  | granuleFlaw (d : DieId) (granule : Nat)
  | scratchError (t : TileId) (word : Nat)
  | registerRead (r : RegRead)
  deriving DecidableEq, Repr

structure State where
  mem : Memory := {}
  pk : Pack := {}
  agenda : List Happening := []
  cur : Firing := {}
  cmd : Command := {}
  freeCount : Nat := 0
  nextId : Nat := 1
  deriving DecidableEq, Repr

/-- No step of the part stops it: every fault the manual names is a trap, a fault token or an error record, so
this type has no reason a program can raise. -/
inductive Fault where
  /-- Raised by no meaning. Safe. -/
  | stuck
  deriving DecidableEq, Repr

/-- Reasons for which the model gives no next state. -/
inductive Refusal where
  /-- An instruction that the model gives no meaning to, by its mnemonic. Safe. -/
  | notModelled (mnemonic : String)
  deriving DecidableEq, Repr

/-- MPOOL at reset on die d (R457). -/
def mpoolReset (d : Nat) : W64 := BitVec.ofNat 64 (0x200 * 2 ^ 26 + (0x2FFE00 + 0x400000 * d))

/-- The machine right after reset: every die before boot stage 1 (R456, R457), nothing placed, memory with
nothing listed. -/
def State.reset : State :=
  { pk := { dies := #v[{ mpool := mpoolReset 0 }, { mpool := mpoolReset 1 }, { mpool := mpoolReset 2 },
      { mpool := mpoolReset 3 }, { mpool := mpoolReset 4 }, { mpool := mpoolReset 5 }, { mpool := mpoolReset 6 },
      { mpool := mpoolReset 7 }] } }

end Sys2Proof.Machine
end

