-- ==== Sys2Proof/Machine/Sparse.lean ====
section
/-! DEFINITION. Sparse storage in one canonical form: addresses strictly rising, and no entry that holds what an
unlisted address reads as. -/

namespace Sys2Proof.Machine

/-- What address `a` holds in `l`, whose unlisted addresses hold `d`. -/
def sget {β : Type} (d : β) : List (Nat × β) → Nat → β
  | [], _ => d
  | (k, v) :: rest, a => if k == a then v else if a < k then d else sget d rest a

/-- `l` with `v` at `a`: writing `d` removes the entry. -/
def sset {β : Type} [DecidableEq β] (d : β) (l : List (Nat × β)) (a : Nat) (v : β) : List (Nat × β) :=
  match l with
  | [] => if v = d then [] else [(a, v)]
  | (k, w) :: rest =>
    if a < k then (if v = d then (k, w) :: rest else (a, v) :: (k, w) :: rest)
    else if a = k then (if v = d then rest else (a, v) :: rest)
    else (k, w) :: sset d rest a v

/-- Every address of `l` is above `lo` and rising, and no entry holds `d`. -/
def swfFrom {β : Type} [DecidableEq β] (d : β) : Option Nat → List (Nat × β) → Bool
  | _, [] => true
  | lo, (k, v) :: rest => (match lo with | none => true | some b => decide (b < k)) && decide (v ≠ d) && swfFrom d (some k) rest

/-- The canonical form. -/
def swf {β : Type} [DecidableEq β] (d : β) (l : List (Nat × β)) : Bool := swfFrom d none l

/-- Bytes from `a` on, and a run of writes. -/
def readBytes (l : List Host.Cell) (a : Nat) : Nat → List Byte
  | 0 => []
  | n + 1 => sget 0 l a :: readBytes l (a + 1) n

def writeBytes (l : List Host.Cell) (a : Nat) : List Byte → List Host.Cell
  | [] => l
  | b :: bs => writeBytes (sset 0 l a b) (a + 1) bs

/-- Marks on a range of units. -/
def setMarks (l : List (Nat × Bool)) (a : Nat) (v : Bool) : Nat → List (Nat × Bool)
  | 0 => l
  | n + 1 => setMarks (sset false l a v) (a + 1) v n

/-- The canonical form of the package's memory. -/
def Memory.wf (m : Memory) : Bool :=
  swf (0 : Byte) m.cells && swf false m.full && swf false m.poison && swf false m.bad && swf false m.flaw

/-- One byte of the package's memory, by die and offset. -/
def Memory.byte (m : Memory) (a : Nat) : Byte := sget 0 m.cells a

end Sys2Proof.Machine
end

