-- ==== Sys2Proof/Machine/Bits.lean ====
section
/-! DEFINITION. Fields of words, lanes (R4, R21, R119, R120), and the sums and updates of lists that the
meanings share. -/

namespace Sys2Proof.Machine

/-- Bits [hi:lo] of a word as a number. -/
def fld {w : Nat} (x : BitVec w) (hi lo : Nat) : Nat := (x.toNat / 2 ^ lo) % 2 ^ (hi + 1 - lo)

/-- Bit k. -/
def bit {w : Nat} (x : BitVec w) (k : Nat) : Bool := x.getLsbD k

/-- The two's-complement value of the low `w` bits of `v`. -/
def signedOf (w v : Nat) : Int :=
  let u := v % 2 ^ w
  if 2 * u < 2 ^ w then (u : Int) else (u : Int) - (2 ^ w : Nat)

/-- The low `w` bits of an integer. -/
def lowBits (w : Nat) (x : Int) : Nat := (x % ((2 ^ w : Nat) : Int)).toNat

/-- A G address: the peer field never changes (R160, R276). -/
def addrG (l : W128) (d : Int) : VA :=
  BitVec.ofNat 80 (fld l 79 72 * 2 ^ 72 + lowBits 72 ((fld l 71 0 : Int) + d))

/-- Lane k of width w of a word. -/
def laneNat (w : Nat) (x : W128) (k : Nat) : Nat := (x.toNat / 2 ^ (w * k)) % 2 ^ w

/-- A word from its lanes of width w, lane 0 first. -/
def packLanes (w : Nat) : List Nat → Nat
  | [] => 0
  | v :: vs => v % 2 ^ w + 2 ^ w * packLanes w vs

def ofLanes (w : Nat) (vs : List Nat) : W128 := BitVec.ofNat 128 (packLanes w vs)

/-- The lanes of a word in a type's layout, each cut to the width of the value it holds (R119, R120). -/
def lanesOf (t : Ty) (x : W128) : List Nat :=
  (List.range t.lanesOf).map fun k => laneNat t.laneWidth x k % 2 ^ t.valueWidth

/-- A word of a type's lanes; 8-bit values leave bits [15:8] zero (R120). -/
def wordOf (t : Ty) (vs : List Nat) : W128 := ofLanes t.laneWidth (vs.map (· % 2 ^ t.valueWidth))

/-- Lane 0 as n32, the form of most counts and masks. -/
def lane0 (x : W128) : Nat := laneNat 32 x 0

/-- An n32 word from lane values (R303, R370). -/
def n32Word (vs : List Nat) : W128 := ofLanes 32 vs

/-- The number of set bits. -/
def popCount {w : Nat} (x : BitVec w) : Nat := (List.range w).foldl (fun n k => if x.getLsbD k then n + 1 else n) 0

/-- The indices of the set bits, ascending. -/
def setBits {w : Nat} (x : BitVec w) : List Nat := (List.range w).filter fun k => x.getLsbD k

/-- A word with bit k set or cleared. -/
def withBit {w : Nat} (x : BitVec w) (k : Nat) (v : Bool) : BitVec w :=
  if v then x ||| BitVec.ofNat w (2 ^ k) else x &&& ~~~ BitVec.ofNat w (2 ^ k)

def ceilDiv (a b : Nat) : Nat := (a + b - 1) / b

/-- The first element that satisfies `p`, with the list without it. -/
def takeFirst {α : Type} (p : α → Bool) : List α → Option (α × List α)
  | [] => none
  | x :: xs =>
    if p x then some (x, xs)
    else match takeFirst p xs with
      | some (y, ys) => some (y, x :: ys)
      | none => none

/-- Change the first element that satisfies `p`. -/
def modifyFirst {α : Type} (p : α → Bool) (f : α → α) : List α → List α
  | [] => []
  | x :: xs => if p x then f x :: xs else x :: modifyFirst p f xs

/-- An association list read and written by key, in order of insertion. -/
def alookup {β : Type} (k : Nat) : List (Nat × β) → Option β
  | [] => none
  | (i, v) :: rest => if i == k then some v else alookup k rest

def aset {β : Type} (k : Nat) (v : β) : List (Nat × β) → List (Nat × β)
  | [] => [(k, v)]
  | (i, w) :: rest => if i == k then (i, v) :: rest else (i, w) :: aset k v rest

/-- The least element of a list of numbers. -/
def minOf : List Nat → Option Nat
  | [] => none
  | x :: xs => match minOf xs with
    | none => some x
    | some y => some (min x y)

/-- The element with the least key. -/
def argMin {α : Type} (key : α → Nat) : List α → Option α
  | [] => none
  | x :: xs => match argMin key xs with
    | none => some x
    | some y => if key x ≤ key y then some x else some y

/-- Within-package block addresses: bits [69:6] of an address whose peer is 0xFF (R80, R353). -/
def blockAddr (v : W64) : VA := BitVec.ofNat 80 (0xFF * 2 ^ 72 + v.toNat * 64)

/-- Bits [69:6] of a block address. -/
def entryOf (a : VA) : W64 := BitVec.ofNat 64 (a.toNat / 64)

/-- CRC-32C of bytes (R100): reflected polynomial 0x1EDC6F41. -/
def crcBit (c : W32) : W32 := if c.getLsbD 0 then (c >>> 1) ^^^ 0x82F63B78#32 else c >>> 1

def crcByte (c : W32) (b : Byte) : W32 :=
  let x := c ^^^ b.setWidth 32
  crcBit (crcBit (crcBit (crcBit (crcBit (crcBit (crcBit (crcBit x)))))))

def crc32c (bs : List Byte) : W32 := ~~~ (bs.foldl crcByte 0xFFFFFFFF#32)

end Sys2Proof.Machine
end

