-- ==== Sys2Proof/Machine/Flags.lean ====
section
/-! DEFINITION. The sticky flags (R141), the rounding modes (R92, R136), and RoundTo with the flags of every
outcome (R137-R139). -/

namespace Sys2Proof.Machine

namespace Fl

def nv : BitVec 5 := 0x10
def dz : BitVec 5 := 0x08
def of_ : BitVec 5 := 0x04
def uf : BitVec 5 := 0x02
def nx : BitVec 5 := 0x01

end Fl

/-- A flag raised under a condition. -/
def raiseIf (b : Bool) (f : BitVec 5) : BitVec 5 := if b then f else 0

/-- The rounding modes (R136). -/
inductive Rnd where
  | rne | rtz | rup | rdn | rna
  deriving DecidableEq, Repr

/-- Their codes (R92). -/
def Rnd.ofCode (c : BitVec 3) : Rnd :=
  match c.toNat with
  | 0 => .rne | 1 => .rtz | 2 => .rup | 3 => .rdn | _ => .rna

/-- What is cut off below an integer: nothing, less than half, half, more than half. -/
inductive Rest where
  | zero | below | half | above
  deriving DecidableEq, Repr

/-- The integer that a magnitude with a rest rounds to (RoundInt of R136). -/
def roundNat (rm : Rnd) (neg : Bool) (n : Nat) (r : Rest) : Nat :=
  match rm with
  | .rne => match r with
    | .above => n + 1
    | .half => n + n % 2
    | _ => n
  | .rtz => n
  | .rup => if !neg && r != .zero then n + 1 else n
  | .rdn => if neg && r != .zero then n + 1 else n
  | .rna => match r with
    | .above | .half => n + 1
    | _ => n

/-- The quotient of a magnitude by 2^k with its rest; `sticky` tells that the exact magnitude lies strictly
above `m`, by less than 1. -/
def cutBits (m : Nat) (sticky : Bool) (k : Nat) : Nat × Rest :=
  if k == 0 then (m, if sticky then .below else .zero)
  else if Nat.log2 m + 2 < k then (0, if m == 0 && !sticky then .zero else .below)
  else
    let low := m % 2 ^ k
    let half := 2 ^ (k - 1)
    (m / 2 ^ k, if low == 0 && !sticky then .zero else if low < half then .below
      else if low == half && !sticky then .half else .above)

/-- A value before rounding: a NaN, signalling or made by an invalid operation when its flag is set; an
infinity; or (-1)^neg * (m + d) * 2^e with 0 < d < 1 when `sticky` is set and d = 0 otherwise. -/
inductive Val where
  | nan (signals : Bool)
  | inf (neg : Bool)
  | fin (neg : Bool) (m : Nat) (e : Int) (sticky : Bool)
  deriving DecidableEq, Repr

def Val.isNan : Val → Bool
  | .nan _ => true
  | _ => false

def Val.signals : Val → Bool
  | .nan s => s
  | _ => false

def Val.isInf : Val → Bool
  | .inf _ => true
  | _ => false

def Val.isZero : Val → Bool
  | .fin _ m _ s => m == 0 && !s
  | _ => false

def Val.neg : Val → Bool
  | .nan _ => false
  | .inf n => n
  | .fin n _ _ _ => n

/-- The floating-point formats (R121, R124). -/
inductive Fmt where
  | f32 | f16 | bf16 | e4m3 | e5m2 | e3m2 | e2m3 | e2m1
  deriving DecidableEq, Repr

/-- Fraction width, exponent width and bias (R121, R124). -/
def Fmt.frac : Fmt → Nat
  | .f32 => 23 | .f16 => 10 | .bf16 => 7 | .e4m3 => 3 | .e5m2 => 2 | .e3m2 => 2 | .e2m3 => 3 | .e2m1 => 1

def Fmt.expo : Fmt → Nat
  | .f32 => 8 | .f16 => 5 | .bf16 => 8 | .e4m3 => 4 | .e5m2 => 5 | .e3m2 => 3 | .e2m3 => 2 | .e2m1 => 2

def Fmt.bias : Fmt → Nat
  | .f32 => 127 | .f16 => 15 | .bf16 => 127 | .e4m3 => 7 | .e5m2 => 15 | .e3m2 => 3 | .e2m3 => 1 | .e2m1 => 1

def Fmt.emin (f : Fmt) : Int := 1 - (f.bias : Int)

/-- Which all-ones exponents are infinities and NaNs: as in IEEE 754, NaN only at the top code, or none. -/
def Fmt.ieee : Fmt → Bool
  | .f32 | .f16 | .bf16 | .e5m2 => true
  | _ => false

def Fmt.hasNan (f : Fmt) : Bool := f.ieee || f == .e4m3

/-- The magnitude code of the largest finite value. -/
def Fmt.maxCode : Fmt → Nat
  | .f32 => 0x7F7FFFFF | .f16 => 0x7BFF | .bf16 => 0x7F7F | .e4m3 => 0x7E | .e5m2 => 0x7B
  | .e3m2 => 0x1F | .e2m3 => 0x1F | .e2m1 => 0x7

def Fmt.infCode (f : Fmt) : Nat := (2 ^ f.expo - 1) * 2 ^ f.frac

/-- The canonical NaN (R123); formats without a NaN have none. -/
def Fmt.nanCode : Fmt → Nat
  | .f32 => 0x7FC00000 | .f16 => 0x7E00 | .bf16 => 0x7FC0 | .e4m3 => 0x7F | .e5m2 => 0x7E | _ => 0

def Fmt.signBit (f : Fmt) : Nat := 2 ^ (f.expo + f.frac)

def Fmt.signed (f : Fmt) (neg : Bool) (c : Nat) : Nat := if neg then f.signBit + c else c

/-- The value of a bit pattern (R122, R124). -/
def Fmt.value (f : Fmt) (v : Nat) : Val :=
  let neg := v / f.signBit % 2 == 1
  let e := v / 2 ^ f.frac % 2 ^ f.expo
  let m := v % 2 ^ f.frac
  if f.ieee && e == 2 ^ f.expo - 1 then
    if m == 0 then .inf neg else .nan (m / 2 ^ (f.frac - 1) % 2 == 0)
  else if f == .e4m3 && v % f.signBit == 0x7F then .nan false
  else if e == 0 then .fin neg m (f.emin - (f.frac : Int)) false
  else .fin neg (2 ^ f.frac + m) ((e : Int) - f.bias - (f.frac : Int)) false

/-- Overflow of R138, with `sat` for the saturating option; e3m2, e2m3 and e2m1 always saturate. -/
def Fmt.overflow (f : Fmt) (sat neg : Bool) (rm : Rnd) : Nat :=
  let toMax := sat || !f.hasNan ||
    (match rm with
      | .rne | .rna => false
      | .rtz => true
      | .rup => neg
      | .rdn => !neg)
  if toMax then f.signed neg f.maxCode
  else if f == .e4m3 then f.nanCode
  else f.signed neg f.infCode

/-- An infinite input (R138, R139). -/
def Fmt.ofInf (f : Fmt) (sat neg : Bool) : Nat × BitVec 5 :=
  if sat || !f.hasNan then (f.signed neg f.maxCode, Fl.of_ ||| Fl.nx)
  else if f == .e4m3 then (f.nanCode, Fl.nv)
  else (f.signed neg f.infCode, 0)

/-- A magnitude m * 2^e cut at 2^q. -/
def cutAt (m : Nat) (e : Int) (sticky : Bool) (q : Int) : Nat × Rest :=
  if e ≥ q then (m * 2 ^ (e - q).toNat, if sticky then .below else .zero)
  else cutBits m sticky (q - e).toNat

/-- RoundTo (R137) with the flags of R139. -/
def roundTo (f : Fmt) (sat : Bool) (rm : Rnd) (x : Val) : Nat × BitVec 5 :=
  match x with
  | .nan s => (f.nanCode, raiseIf (s || !f.hasNan) Fl.nv)
  | .inf neg => f.ofInf sat neg
  | .fin neg m e sticky =>
    if m == 0 && !sticky then (f.signed neg 0, 0)
    else
      let top : Int := e + Nat.log2 m
      let emin := f.emin
      let e1 := if top < emin then emin else top
      if (f.bias : Int) + 2 < e1 then (f.overflow sat neg rm, Fl.of_ ||| Fl.nx)
      else
        let q := e1 - (f.frac : Int)
        let c := cutAt m e sticky q
        let n := roundNat rm neg c.1 c.2
        let code := (e1 - emin).toNat * 2 ^ f.frac + n
        if f.maxCode < code then (f.overflow sat neg rm, Fl.of_ ||| Fl.nx)
        else
          let inexact := c.2 != .zero
          let c' := cutAt m e sticky (q - 1)
          let tiny := top + 1 < emin || (top < emin && roundNat rm neg c'.1 c'.2 < 2 ^ (f.frac + 1))
          (f.signed neg code, raiseIf inexact Fl.nx ||| raiseIf (inexact && tiny) Fl.uf)

/-- The integer that a finite value rounds to, and whether it differs. -/
def roundInt (rm : Rnd) (neg : Bool) (m : Nat) (e : Int) (sticky : Bool) : Int × Bool :=
  let c := cutAt m e sticky 0
  let n := roundNat rm neg c.1 c.2
  (if neg then -(n : Int) else n, c.2 != .zero)

end Sys2Proof.Machine
end

