-- ==== Sys2Proof/Config.lean ====
section
/-! DEFINITION. What a module of the part fixes and the manual leaves to it: fuses, keys, cryptography
(RFC 8032, SHA-512), and the free values: the choices that timing makes and the values the manual leaves
undefined. Each is an opaque constant, so no proof can use a value of it. -/

namespace Sys2Proof.Config

/-- Which of the things that could happen next does (R30, R44, R253): log 1. -/
opaque choice : Nat → Nat

/-- What others may do to the part at a moment: firmware, the host, other packages, the supply and the silicon
(log 7); the registers that the host reads; and errors that arise in storage (log 3). -/
opaque outside : Nat → Option Instr
opaque registerRead : Nat → Option RegRead
opaque granuleError : Nat → Option (DieId × Nat)
opaque granuleFlaw : Nat → Option (DieId × Nat)
opaque padError : Nat → Option (TileId × Nat)

/-- A value that the manual leaves open, fresh for each count: log 18. -/
opaque freeValue : Nat → W128

/-- Another package's tables map an address of it as P (R223), which it alone knows: log 80. -/
opaque remoteP : Fin 16 → Nat → Bool

/-- The dies that fail the CRC of a message, by its number, in a visit of the token (R435): log 1. -/
opaque ringLoss : Nat → Nat → BitVec 8

/-- The dies that fail the CRC of a record's mark, by its number; and the members that fail that of a plain message, by its
number in a visit of the token (R435): log 1. -/
opaque markLoss : Nat → BitVec 8
opaque plainLoss : Nat → Nat → BitVec 16

/-- A die's save pool can hold a residency, by number, at a count of its clock (R430): log 84. -/
opaque poolHolds : DieId → Nat → Nat → Bool

/-- Bytes of a B tile that a gang's K-steps ask for beyond slot 15 (R204, R210): log 18. -/
opaque outsideSlot : Nat → Byte

/-- SHA-512 (R403, R404): log 5. -/
opaque sha512 : List Byte → BitVec 512

/-- Ed25519 of the module's identity key over a message (R402, R404): log 5. -/
opaque ed25519Sign : List Byte → BitVec 512

/-- Ed25519 verification under fused public key kidx (R403): log 5. -/
opaque ed25519Verify : Nat → BitVec 512 → List Byte → Bool

/-- The 32-byte public key and Maelorn's signature over it (R402): log 5. -/
opaque publicKey : BitVec 256
opaque keySignature : BitVec 512

/-- The fuses: the physical rows of a die's column that the defect map names, the disabled one first (R17, R18),
revoked keys and minimum security versions (R403), and the module serial number (R404): log 17. -/
opaque fusedRows : DieId → Fin 8 → List (Fin 9)
opaque keyRevoked : Nat → Bool
opaque minSvn : Nat → Nat
opaque serial : W64

/-- What firmware records when the plain is brought up (R25, R234, R457): this package's member number, 0xFF for none,
the populated members, each die's member number on its data plains and the members that each of them reaches: log 17. -/
opaque member : Byte
opaque populated : W16
opaque plainNum : DieId → Fin 11 → Fin 16
opaque reach : DieId → Fin 11 → W16

end Sys2Proof.Config
end

