-- ==== Sys2Proof/Machine/Parts.lean ====
section
/-! DEFINITION. Reading and writing the parts of the package's state: dies, tiles, contexts, residencies,
swarms, VIs and queues. Every access to a part goes through these. -/

namespace Sys2Proof.Machine

/-! ### Dies, tiles, contexts -/

def Pack.die (p : Pack) (d : DieId) : Die := p.dies.get d

def Pack.modDie (p : Pack) (d : DieId) (f : Die → Die) : Pack :=
  { p with dies := p.dies.set d (f (p.dies.get d)) }

def Pack.tile (p : Pack) (t : TileId) : Tile := (p.die t.die).tiles.get t.n

def Pack.modTile (p : Pack) (t : TileId) (f : Tile → Tile) : Pack :=
  p.modDie t.die fun d => { d with tiles := d.tiles.set t.n (f (d.tiles.get t.n)) }

def Tile.ctx (t : Tile) (c : CtxId) : Ctx := t.ctxs.get c

def Tile.modCtx (t : Tile) (c : CtxId) (f : Ctx → Ctx) : Tile := { t with ctxs := t.ctxs.set c (f (t.ctxs.get c)) }

def Pack.ctx (p : Pack) (t : TileId) (c : CtxId) : Ctx := (p.tile t).ctx c

def Pack.modCtx (p : Pack) (t : TileId) (c : CtxId) (f : Ctx → Ctx) : Pack := p.modTile t (·.modCtx c f)

/-- Change a context's committed state. -/
def Pack.modCur (p : Pack) (t : TileId) (c : CtxId) (f : CtxImage → CtxImage) : Pack :=
  p.modCtx t c fun x => { x with cur := f x.cur }

def CtxImage.setG (c : CtxImage) (k : Nat) (v : W128) (poison : Bool) : CtxImage :=
  if h : k < 128 then { c with g := c.g.set k v, gpois := withBit c.gpois k poison } else c

def CtxImage.getG (c : CtxImage) (k : Nat) : W128 × Bool :=
  if h : k < 128 then (c.g[k], bit c.gpois k) else (0, false)

def allTiles : List (Fin 64) := List.finRange 64

def allDies : List DieId := List.finRange 8

def allCtxs : List CtxId := List.finRange 32

/-- A live instance of a tile, and its change. -/
def Tile.inst? (t : Tile) (c : CtxId) (seq : Nat) : Option Inst := t.insts.find? fun i => i.ctx == c && i.seq == seq

def Tile.modInst (t : Tile) (c : CtxId) (seq : Nat) (f : Inst → Inst) : Tile :=
  { t with insts := modifyFirst (fun i => i.ctx == c && i.seq == seq) f t.insts }

/-- A context's live instances, oldest first (they stand in spawn order). -/
def Tile.live (t : Tile) (c : CtxId) : List Inst := t.insts.filter (·.ctx == c)

def Tile.section? (t : Tile) (c : CtxId) (img : VA) : Option Section :=
  t.sections.find? fun x => x.ctx == c && x.img == img

def Tile.modSection (t : Tile) (c : CtxId) (img : VA) (f : Section → Section) : Tile :=
  { t with sections := modifyFirst (fun x => x.ctx == c && x.img == img) f t.sections }

/-- An image in the context store. -/
def Tile.image? (t : Tile) (a : VA) (vi : Fin 64) : Option Image := t.images.find? fun i => i.addr == a && i.vi == vi

/-- The images that a plane holds, as they were when they were placed. -/
def CfgPlane.imagesIn (p : CfgPlane) : List Image :=
  p.log.filterMap fun w => match w with | .image i _ => some i | .word _ => none

def CfgPlane.image? (p : CfgPlane) (a : VA) : Option Image := p.imagesIn.find? (·.addr == a)

/-! ### Residencies, swarms, VIs, queues -/

def Pack.resid? (p : Pack) (r : Nat) : Option Resid := p.resids[r]?

def Pack.modResid (p : Pack) (r : Nat) (f : Resid → Resid) : Pack :=
  { p with resids := p.resids.modify r f }

def Pack.swarm? (p : Pack) (w : Nat) : Option Swarm := p.swarms[w]?

def Pack.modSwarm (p : Pack) (w : Nat) (f : Swarm → Swarm) : Pack :=
  { p with swarms := p.swarms.modify w f }

def Pack.vi (p : Pack) (v : Fin 64) : ViBlock := p.vis.get v

def Pack.modVi (p : Pack) (v : Fin 64) (f : ViBlock → ViBlock) : Pack :=
  { p with vis := p.vis.set v (f (p.vis.get v)) }

def Pack.queue (p : Pack) (q : Nat) : HostQueue := sget {} p.queues q

def Pack.modQueue (p : Pack) (q : Nat) (f : HostQueue → HostQueue) : Pack :=
  { p with queues := sset {} p.queues q (f (p.queue q)) }

/-- The residency that holds a tile, with its number. -/
def Pack.resOf (p : Pack) (t : TileId) : Option (Nat × Resid) :=
  match (p.tile t).res with
  | none => none
  | some r => match p.resid? r with
    | none => none
    | some x => some (r, x)

/-- The swarm of a residency. -/
def Pack.swarmOf (p : Pack) (x : Resid) : Option Swarm := p.swarm? x.swarm

/-- The VI and level of a tile's work; VI 0 at U for a tile with no residency (log 4). -/
def Pack.tileVi (p : Pack) (t : TileId) : Fin 64 :=
  match p.resOf t with
  | some (_, x) => x.vi
  | none => 0

def Pack.ctxLevel (p : Pack) (t : TileId) (c : CtxId) : Bool := (p.ctx t c).cur.lvl

/-- Tile (x, y) of a residency (R17, R74). -/
def Resid.tileAt (r : Resid) (x y : Nat) : TileId := ⟨r.die, Fin.ofNat 64 (8 * (r.y0 + y) + (r.x0 + x))⟩

/-- The tiles of a residency in the order of R74. -/
def Resid.tiles (r : Resid) : List TileId :=
  (List.range (r.w * r.h)).map fun k => r.tileAt (k % r.w) (k / r.w)

/-- The tile number that programs see (R74), and its coordinates in the region. -/
def Resid.relX (r : Resid) (t : TileId) : Nat := t.n.val % 8 - r.x0

def Resid.relY (r : Resid) (t : TileId) : Nat := t.n.val / 8 - r.y0

def Resid.number (r : Resid) (t : TileId) : Nat := r.relY t * r.w + r.relX t

/-- A residency's handle (R424). -/
def Resid.handle (r : Resid) : W32 :=
  BitVec.ofNat 32 (r.epoch.toNat * 2 ^ 16 + r.y0 * 2 ^ 6 + r.x0 * 2 ^ 3 + r.die.val)

def Pack.findHandle (p : Pack) (h : W32) : Option Nat :=
  (List.range p.resids.length).find? fun k =>
    match p.resid? k with
    | some r => r.handle == h && r.st != .ended
    | none => false

/-! ### Descriptor fields (R329) -/

namespace Desc

def arg (d : BitVec 1024) (k : Nat) : W64 := d.extractLsb' (512 + 64 * k) 64
def dep (d : BitVec 1024) : W64 := d.extractLsb' 448 64
def ndep (d : BitVec 1024) : Nat := fld d 447 440
def sid (d : BitVec 1024) : W32 := d.extractLsb' 408 32
def pgroup (d : BitVec 1024) : W16 := d.extractLsb' 392 16
def tlim (d : BitVec 1024) : Nat := 16 * (fld d 389 384 + 1)
def alloc (d : BitVec 1024) : Nat := fld d 383 376
def ctxs (d : BitVec 1024) : Nat := fld d 372 368 + 1
def cost (d : BitVec 1024) : Bool := bit d 364
def height (d : BitVec 1024) : Nat := 2 ^ fld d 363 362
def width (d : BitVec 1024) : Nat := 2 ^ fld d 361 360
def dies (d : BitVec 1024) : BitVec 8 := d.extractLsb' 352 8
def bw (d : BitVec 1024) : Nat := fld d 351 344
def fpacc (d : BitVec 1024) : BitVec 4 := d.extractLsb' 336 4
def fpom (d : BitVec 1024) : W16 := d.extractLsb' 320 16
def fpsp (d : BitVec 1024) : W64 := d.extractLsb' 256 64
def spcls (d : BitVec 1024) : W64 := d.extractLsb' 192 64
def dl (d : BitVec 1024) : Nat := fld d 175 128
def cbud (d : BitVec 1024) : Nat := fld d 127 112
def wc (d : BitVec 1024) : Nat := fld d 111 64
def entry (d : BitVec 1024) : W64 := d.extractLsb' 0 64

end Desc

/-- The descriptor of the swarm that a tile works for. -/
def Pack.tileDesc (p : Pack) (t : TileId) : BitVec 1024 :=
  match p.resOf t with
  | some (_, x) => match p.swarmOf x with
    | some w => w.desc
    | none => 0
  | none => 0

/-! ### Control-block fields (R384) -/

def ViBlock.en (v : ViBlock) : Bool := bit v.ctl 0
def ViBlock.pvi (v : ViBlock) : BitVec 12 := v.ctl.extractLsb' 48 12
def ViBlock.pmask (v : ViBlock) : W16 := v.ctl.extractLsb' 32 16
def ViBlock.dplr (v : ViBlock) : BitVec 11 := v.ctl.extractLsb' 16 11
def ViBlock.qbase (v : ViBlock) : Nat := fld v.q 13 0
def ViBlock.qcnt (v : ViBlock) : Nat := fld v.q 30 16
def ViBlock.supq (v : ViBlock) : Nat := fld v.q 45 32
def ViBlock.sv (v : ViBlock) : Bool := bit v.q 47
def ViBlock.perDie (v : W64) (d : DieId) : Nat := fld v (8 * d.val + 7) (8 * d.val)

/-- The window of PAs that VPAWk grants, as first and last byte (R384, R390). -/
def ViBlock.windows (v : ViBlock) : List (Nat × Nat) :=
  v.paw.toList.filterMap fun w =>
    if bit w 63 then some (fld w 25 0 * 2 ^ 16, fld w 57 32 * 2 ^ 16 + 65535) else none

end Sys2Proof.Machine
end

