-- ==== Sys2Proof/Machine/Floors.lean ====
section
/-! DEFINITION. What happens-before what (R249-R252): the writes that an event follows, what a context's events so far mean for
those to come, and what an operation's events bring a join. -/

namespace Sys2Proof.Machine

/-! ### Floors -/

/-- Two rising lists of words in one, with the later write of a word that both name. `fuel` bounds their lengths together. -/
def mergeWords : Nat → List (Nat × Nat) → List (Nat × Nat) → List (Nat × Nat)
  | _, [], l => l
  | _, l, [] => l
  | 0, k, l => k ++ l
  | n + 1, x :: k, y :: l =>
    if x.1 < y.1 then x :: mergeWords n k (y :: l)
    else if y.1 < x.1 then y :: mergeWords n (x :: k) l
    else (x.1, max x.2 y.2) :: mergeWords n k l

namespace Floor

/-- Both. -/
def join (f g : Floor) : Floor :=
  { upto := max f.upto g.upto, words := mergeWords (f.words.length + g.words.length) f.words g.words }

/-- The latest write to a word that happens-before. -/
def at_ (f : Floor) (w : Nat) : Nat := max f.upto (sget 0 f.words w)

/-- Write k to a word as well. -/
def add (f : Floor) (w k : Nat) : Floor := { f with words := sset 0 f.words w (max k (sget 0 f.words w)) }

/-- Every write so far. -/
def all (n : Nat) : Floor := { upto := n }

end Floor

/-! ### Scopes (R250) -/

/-- The scope instances of a release and of an acquire at a tile contain each other's agent (R251). -/
def Release.reaches (r : Release) (scope : BitVec 2) (t : TileId) : Bool :=
  let need : Nat := match r.tile with
    | none => 3
    | some x => if x == t then 0 else if x.die == t.die then 1 else 2
  need ≤ r.scope.toNat && need ≤ scope.toNat

/-- What releases bring an acquire of given scopes at a tile. -/
def acquired (rs : List Release) (scopes : List (BitVec 2)) (t : TileId) : Floor :=
  (rs.filter fun r => scopes.any fun sc => r.reaches sc t).foldl (fun f r => f.join r.floor) {}

/-! ### Views -/

/-- Releases in one list, each once. -/
def joinHeard (k l : List Release) : List Release := l.foldl (fun k r => if k.contains r then k else k ++ [r]) k

/-- Release fences by scope. -/
def joinFences (k l : List (BitVec 2 × Floor)) : List (BitVec 2 × Floor) :=
  l.foldl (fun k x => if k.any fun y => y.1 == x.1 then k.map fun y => if y.1 == x.1 then (y.1, y.2.join x.2) else y else k ++ [x]) k

namespace View

def join (v w : View) : View :=
  { floor := v.floor.join w.floor, heard := joinHeard v.heard w.heard, fences := joinFences v.fences w.fences }

/-- A fence (R251, R273): an acquire fence acts for the loads before it, a release fence for the writes after it. -/
def fence (v : View) (acq rel : Bool) (scope : BitVec 2) (t : TileId) : View :=
  let f := if acq then acquired v.heard [scope] t else {}
  { floor := f, fences := if rel then [(scope, v.floor.join f)] else [] }

end View

namespace Track

/-- What holds for an event at a place in program order. -/
def at_ (x : Track) (seq lsid : Nat) : View :=
  (x.ahead.filter fun m => m.1 < seq || (m.1 == seq && m.2.1 < lsid)).foldl (fun v m => v.join m.2.2) x.view

/-- What holds for every event to come. -/
def whole (x : Track) : View := x.ahead.foldl (fun v m => v.join m.2.2) x.view

/-- An event at a place adds to what holds behind it. -/
def add (x : Track) (seq lsid : Nat) (v : View) : Track := { x with ahead := x.ahead ++ [(seq, lsid, v)] }

/-- Nothing before instance `seq` is to come: what stands before it holds for all. -/
def settle (x : Track) (seq : Nat) : Track :=
  { view := (x.ahead.filter fun m => m.1 < seq).foldl (fun v m => v.join m.2.2) x.view, ahead := x.ahead.filter fun m => seq ≤ m.1 }

/-- Events of squashed instances, from `seq` on, are none (R244). -/
def drop (x : Track) (seq : Nat) : Track := { x with ahead := x.ahead.filter fun m => m.1 < seq }

/-- All that follows has seen more. -/
def gain (x : Track) (f : Floor) : Track := { x with view := { x.view with floor := x.view.floor.join f } }

end Track

/-! ### Agents -/

/-- What an operation's events bring a join that observes it (R262). -/
def Op.brings (o : Op) : Floor := ((o.floor.getD {}).join o.gained).join { words := o.own }

/-- What a context's events so far, and those of its completed operations, bring who observes them all. -/
def Ctx.brings (x : Ctx) : Floor := x.joins.foldl (fun f j => f.join j.2) x.track.whole.floor

/-- A context of a residency that starts has everything performed so far before it. -/
def Ctx.informed (n : Nat) (x : Ctx) : Ctx := { x with track := x.track.gain (.all n) }

/-- A floor joined to the one kept under a key. -/
def joinFloor (k : Nat) (f : Floor) (l : List (Nat × Floor)) : List (Nat × Floor) := aset k (((alookup k l).getD {}).join f) l

end Sys2Proof.Machine
end

