-- ==== Sys2Proof/Machine/Translate.lean ====
section
/-! DEFINITION. Physical addresses and homes (R219-R221), the peer check (R234, R391, R392), and translation
(R235-R242, R390). -/

namespace Sys2Proof.Machine

/-- A check that fails: cause and subcode (R235, R406). -/
structure XErr where
  cause : Byte
  sub : Byte
  deriving DecidableEq, Repr

namespace Cause

def illegalConfig : Byte := 0x01
def priv : Byte := 0x02
def align : Byte := 0x03
def xlate : Byte := 0x04
def prot : Byte := 0x05
def peer : Byte := 0x06
def writeOnce : Byte := 0x07
def poison : Byte := 0x08
def tagExhausted : Byte := 0x09
def deadlock : Byte := 0x0A
def remoteTimeout : Byte := 0x0B
def budgetOverrun : Byte := 0x0C
def queueStrict : Byte := 0x0D
def barrierOverflow : Byte := 0x0E
def eccDeferred : Byte := 0x0F
def omSlot : Byte := 0x10
def breakpoint : Byte := 0x11
def syscall : Byte := 0x12
def blockForm : Byte := 0x13
def margin : Byte := 0x14

end Cause

/-! ### Physical addresses -/

/-- Which offsets of a die are populated (R220): the tier, and in peer mode HBM below it. A die that is not ready has
none (R456). -/
def Die.populated (d : Die) (off len : Nat) : Bool :=
  d.ready && (d.mode || decide (0x1000000000 ≤ off)) && decide (off + len ≤ 0x3000000000)

/-- The die and offset that a PA names (R219); PAs with [41:40] = 11 name nothing. -/
def paPlace (pa : Nat) : Option (DieId × Nat) :=
  if pa < 2 ^ 41 then some (Fin.ofNat 8 (pa / 2 ^ 38), pa % 2 ^ 38)
  else if pa < 2 ^ 41 + 2 ^ 40 then
    some (Fin.ofNat 8 (pa / 2 ^ 12), 0x1000000000 + ((pa % 2 ^ 40) / 2 ^ 15 * 4096 + pa % 4096))
  else none

/-- Whether every byte of a range of PAs has storage (R220, R240). -/
def Pack.paRangeOk (p : Pack) (pa len : Nat) : Bool :=
  if pa + len ≤ 2 ^ 41 then
    pa / 2 ^ 38 == (pa + len - 1) / 2 ^ 38 && (p.die (Fin.ofNat 8 (pa / 2 ^ 38))).populated (pa % 2 ^ 38) len
  else if 2 ^ 41 ≤ pa && pa + len ≤ 2 ^ 41 + 2 ^ 40 then
    if len < 2 ^ 15 then
      (List.range (len / 4096 + 2)).all fun k =>
        match paPlace (pa + min (4096 * k) (len - 1)) with
        | some (d, off) => (p.die d).populated off 1
        | none => false
    else allDies.all fun d => (p.die d).ready
  else false

/-- A range of PAs inside one of the VI's windows (R390). -/
def ViBlock.inWindow (v : ViBlock) (pa len : Nat) : Bool :=
  v.windows.any fun w => w.1 ≤ pa && pa + len ≤ w.2 + 1

/-- Where a byte of package memory stands in `Memory`. -/
def memIndex (d : DieId) (off : Nat) : Nat := d.val * 2 ^ 38 + off

/-- A granule that reads as poisoned, or would be found uncorrectable (R228, R229). -/
def Memory.badGranule (m : Memory) (a : Nat) : Bool := sget false m.poison (a / 16) || sget false m.bad (a / 16)

/-- Presence of the word at `a`: a poisoned granule's words are full (R228); an error not yet found hides nothing from who
does not read it (R229). -/
def Memory.isFull (m : Memory) (a : Nat) : Bool := sget false m.poison (a / 16) || sget false m.full (a / 8)

def Memory.readNat (m : Memory) (a n : Nat) : Nat := bytesToNat (readBytes m.cells a n)

/-! ### Table entries -/

/-- A translation result: where the page's or range's bytes start, and its attributes. -/
structure Mapping where
  pa : Nat
  cls : Bool
  scope : BitVec 2
  r : Bool
  w : Bool
  x : Bool
  u : Bool
  deriving DecidableEq, Repr

def xerr (c s : Nat) : XErr := ⟨BitVec.ofNat 8 c, BitVec.ofNat 8 s⟩

/-- A range entry's judgement (R238, R240). -/
def judgeRange (p : Pack) (v : ViBlock) (e : BitVec 256) (unit : Nat) : Except XErr Mapping :=
  let base := fld e 55 0
  let limit := fld e 119 64
  let pa := fld e 153 128 * 2 ^ 16
  let len := (limit + 1 - base) * 2 ^ 16
  let scope := e.extractLsb' 197 2
  let cls := bit e 196
  if fld e 255 200 != 0 || fld e 191 154 != 0 || fld e 127 120 != 0 || fld e 63 56 != 0 ||
      (cls == (scope == 0)) || 2 ^ 42 < pa + len then .error (xerr 4 2)
  else if !v.inWindow pa len then .error (xerr 4 5)
  else if !p.paRangeOk pa len then .error (xerr 4 3)
  else .ok { pa := pa + (unit - base) * 2 ^ 16, cls := cls, scope := scope, r := bit e 193, w := bit e 194,
             x := bit e 195, u := bit e 199 }

/-- The range translation buffer (R238): the lowest entry that hits, or a poisoned entry reached first. -/
def searchRanges (p : Pack) (v : ViBlock) (unit : Nat) : List RangeEntry → Option (Except XErr Mapping)
  | [] => none
  | e :: rest =>
    if e.poison then some (.error (xerr 4 6))
    else if bit e.bits 192 && fld e.bits 55 0 ≤ unit && unit ≤ fld e.bits 119 64 then
      some (judgeRange p v e.bits unit)
    else searchRanges p v unit rest

/-- A page-table entry at one level (R239, R240): an error, a leaf, or the next table's PA. `size` is the page
size at this level, 0 where a leaf is malformed; `last` tells level 5. -/
def judgeEntry (p : Pack) (v : ViBlock) (e : Nat) (size : Nat) (last : Bool) : Except XErr (Sum Nat Mapping) :=
  let b := BitVec.ofNat 64 e
  let pa := fld b 41 11 * 2 ^ 11
  let leaf := bit b 1
  let cls := bit b 5
  let scope := b.extractLsb' 6 2
  if !bit b 0 then .error (xerr 4 1)
  else if fld b 63 42 != 0 || fld b 10 9 != 0 || (leaf && size == 0) || (!leaf && last) ||
      (!leaf && (fld b 8 2 != 0 || pa % 2 ^ 15 != 0)) || (leaf && pa % size != 0) || (leaf && cls == (scope == 0)) then
    .error (xerr 4 2)
  else
    let len := if leaf then size else 2 ^ 15
    if !v.inWindow pa len then .error (xerr 4 5)
    else if !p.paRangeOk pa len then .error (xerr 4 3)
    else if leaf then
      .ok (.inr { pa := pa, cls := cls, scope := scope, r := bit b 2, w := bit b 3, x := bit b 4, u := bit b 8 })
    else .ok (.inl pa)

/-- A page found by a walk: its mapping with its first unit and its size in units. -/
structure Walked where
  map : Mapping
  first : Nat
  units : Nat
  deriving DecidableEq, Repr

/-- What a translation leaves behind (R229, R236): the granules it read, the table entries that the die translation
cache keeps, and the page that the tile's TLB keeps. -/
structure WalkNote where
  read : List Nat := []
  entries : List TabEntry := []
  leaf : Option Trans := none
  deriving DecidableEq, Repr

/-- A table entry as the walker finds it: in the die translation cache, or in memory with the granule read; none where
that granule is bad (R236, R240). -/
def readEntry (m : Memory) (cache : List TabEntry) (vi : Fin 64) (level index a : Nat) : Option Nat × Option Nat :=
  match cache.find? fun e => e.vi == vi && e.level == level && e.index == index with
  | some e => (some e.bits.toNat, none)
  | none => (if m.badGranule a then none else some (m.readNat a 8), some (a / 16))

/-- The rest of a walk from a table at `table` of a level, over the levels (low bit of the index in VA[71:16], index
width, page size, last), with what it has left behind so far. -/
def walkFrom (m : Memory) (p : Pack) (cache : List TabEntry) (vi : Fin 64) (unit : Nat) (note : WalkNote) (level : Nat) :
    Nat → List (Nat × Nat × Nat × Bool) → Except XErr Walked × WalkNote
  | _, [] => (.error (xerr 4 1), note)
  | table, (lo, width, size, last) :: rest =>
    match paPlace (table + 8 * (unit / 2 ^ lo % 2 ^ width)) with
    | none => (.error (xerr 4 3), note)
    | some (d, off) =>
      let r := readEntry m cache vi level (unit / 2 ^ lo) (memIndex d off)
      let n1 := { note with read := note.read ++ r.2.toList }
      match r.1 with
      | none => (.error (xerr 4 6), n1)
      | some e =>
        let n2 := if r.2.isNone then n1
          else { n1 with entries := n1.entries ++ [{ vi := vi, level := level, index := unit / 2 ^ lo, bits := BitVec.ofNat 64 e }] }
        match judgeEntry p (p.vi vi) e size last with
        | .error x => (.error x, n1)
        | .ok (.inl next) => walkFrom m p cache vi unit n2 (level + 1) next rest
        | .ok (.inr map) =>
          let units := size / 2 ^ 16
          let first := unit - unit % units
          (.ok { map := { map with pa := map.pa + unit % units * 2 ^ 16 }, first := first, units := units },
            { n2 with leaf := some { vi := vi, first := first, last := first + units - 1, pa := map.pa, cls := map.cls,
                                     scope := map.scope, r := map.r, w := map.w, x := map.x, u := map.u } })

/-- The five levels of R239. -/
def walkLevels : List (Nat × Nat × Nat × Bool) :=
  [(48, 8, 0, false), (36, 12, 0, false), (24, 12, 2 ^ 40, false), (12, 12, 2 ^ 28, false), (0, 12, 2 ^ 16, true)]

/-- A walk of a die's pool from the VI's root (R236, R239, R240, R390). -/
def walk (m : Memory) (p : Pack) (d : DieId) (vi : Fin 64) (unit : Nat) : Except XErr Walked × WalkNote :=
  let v := p.vi vi
  let root := fld v.root 41 11 * 2 ^ 11
  if !v.inWindow root 2048 then (.error (xerr 4 5), {})
  else if !p.paRangeOk root 2048 then (.error (xerr 4 3), {})
  else walkFrom m p (p.die d).cache vi unit {} 1 root walkLevels

/-- A page held by the TLB for this VI (R236). -/
def searchTlb (vi : Fin 64) (unit : Nat) : List Trans → Option Mapping
  | [] => none
  | e :: rest =>
    if e.vi == vi && e.first ≤ unit && unit ≤ e.last then
      some { pa := e.pa + (unit - e.first) * 2 ^ 16, cls := e.cls, scope := e.scope, r := e.r, w := e.w, x := e.x, u := e.u }
    else searchTlb vi unit rest

/-- The byte of an address in the mapping of its unit. -/
def Mapping.byte (mp : Mapping) (va : VA) : Mapping := { mp with pa := mp.pa + va.toNat % 2 ^ 16 }

/-- Translation of a package-local address through range and page structures and a die's walkers (R236), with what it
leaves behind. -/
def translateIn (m : Memory) (p : Pack) (d : DieId) (ranges : List RangeEntry) (tlb : List Trans) (vi : Fin 64) (va : VA) :
    Except XErr Mapping × WalkNote :=
  let unit := va.toNat % 2 ^ 72 / 2 ^ 16
  match searchRanges p (p.vi vi) unit ranges with
  | some r => (r.map (·.byte va), {})
  | none =>
    match searchTlb vi unit tlb with
    | some mp => (if p.paRangeOk mp.pa (2 ^ 16) then .ok (mp.byte va) else .error (xerr 4 3), {})
    | none =>
      let r := walk m p d vi unit
      (r.1.map fun w => w.map.byte va, r.2)

/-- Translation in a tile's structures. -/
def translateAt (m : Memory) (p : Pack) (t : TileId) (vi : Fin 64) (va : VA) : Except XErr Mapping × WalkNote :=
  translateIn m p t.die (p.tile t).ranges (p.tile t).tlb vi va

/-! ### The peer check -/

/-- A data plain that the VI may use reaches the member (R392). -/
def Pack.reachable (p : Pack) (v : ViBlock) (m : Fin 16) : Bool :=
  (List.finRange 11).any fun j => bit v.dplr j.val && allDies.any fun d => bit ((p.die d).reach.get j) m.val

/-- What the peer field of an address names (R234): this package, a member, or PEER with its subcode. -/
def Pack.peerCheck (p : Pack) (vi : Fin 64) (va : VA) : Except XErr (Option (Fin 16)) :=
  let f := fld va 79 72
  let v := p.vi vi
  if f == 0xFF || (f < 16 && f == p.member.toNat) then .ok none
  else if 16 ≤ f then .error (xerr 6 1)
  else
    let m : Fin 16 := Fin.ofNat 16 f
    if !bit v.pmask f then .error (xerr 6 2)
    else if !bit p.populated f then .error (xerr 6 3)
    else if !bit p.membersUp f then .error (xerr 6 4)
    else if !p.reachable v m then .error (xerr 6 5)
    else .ok (some m)

/-- The rights an access needs (R241): read, write or fetch, with the subcode of R235. -/
inductive Need where
  | read | write | fetch
  deriving DecidableEq, Repr

def Mapping.permits (mp : Mapping) (n : Need) (lvl : Bool) : Option XErr :=
  match n with
  | .read => if !mp.r then some (xerr 5 1) else if !lvl && !mp.u then some (xerr 5 4) else none
  | .write => if !mp.w then some (xerr 5 2) else if !lvl && !mp.u then some (xerr 5 4) else none
  | .fetch =>
    if !mp.x || (lvl && mp.u) then some (xerr 5 3) else if !lvl && !mp.u then some (xerr 5 4) else none

end Sys2Proof.Machine
end

