-- ==== Sys2Proof/Machine/Ops.lean ====
section
/-! DEFINITION. The named operations: tokens and their emission (R38, R44), values at LSIDs (R43, R51), squash
and replay (R55), fault records and their marks (R408, R409), taking a trap and the return from one (R411,
R420), and aborting a swarm (R79). -/

namespace Sys2Proof.Machine

/-! ### Tokens -/

/-- The payload of a fault token (R38). -/
def faultVal (cause sub : Byte) (elem : BitVec 12) (va : VA) : W128 :=
  va ++ ((0 : BitVec 16) ++ (((0 : BitVec 4) ++ elem) ++ (sub ++ cause)))

def faultTok (cause sub : Byte) (elem : BitVec 12) (va : VA) : Token :=
  { kind := .null, poison := true, val := faultVal cause sub elem va }

def Token.isFault (t : Token) : Bool := t.kind == .null && t.poison
def Token.isNull (t : Token) : Bool := t.kind == .null && !t.poison
def Token.isEor (t : Token) : Bool := t.kind == .eor
/-- End-of-stream: an end-of-run token with payload bit 0 (R59). -/
def Token.isEos (t : Token) : Bool := t.kind == .eor && bit t.val 0

def dataTok (v : W128) (poison : Bool := false) : Token := { kind := .data, poison := poison, val := v }
def predTok (b : Bool) (poison : Bool := false) : Token := { kind := .pred, poison := poison, val := if b then 1 else 0 }
def nullTok : Token := { kind := .null }
def eorTok (eos : Bool) : Token := { kind := .eor, val := if eos then 1 else 0 }

/-- Cause and subcode of a fault token, its element and its address (R38). -/
def Token.cause (t : Token) : Byte := t.val.extractLsb' 0 8
def Token.sub (t : Token) : Byte := t.val.extractLsb' 8 8
def Token.coord (t : Token) : W16 := t.val.extractLsb' 16 16
def Token.fva (t : Token) : VA := t.val.extractLsb' 48 80

/-- The target that a field names; none where the field is not valid. -/
def targetOf (v : W16) : Target := match decodeTarget .target0 .unused0 v with | .ok t => t | .error _ => .none

/-- A target's consumers, one single target each (R44): a broadcast reaches every PE it covers. -/
def expandTarget : Target → List Target
  | .none => []
  | .operand o side row col k .single => [.operand o side row col k .single]
  | .operand o side row _ k .row => (List.range 16).map fun c => .operand o side row (BitVec.ofNat 4 c) k .single
  | .operand o side _ col k .col => (List.range 4).map fun r => .operand o side (BitVec.ofNat 2 r) col k .single
  | t => [t]

/-- Put a token on its way to a target. -/
def Tile.send (t : Tile) (src : BitVec 12) (w : Work) (tgt : Target) (tok : Token) : Tile :=
  { t with links := t.links ++ (expandTarget tgt).map fun g => { src := src, tgt := g, work := w, tok := tok } }

def Tile.sendOpt (t : Tile) (src : BitVec 12) (w : Work) (tgt : Target) (tok : Option Token) : Tile :=
  match tok with
  | some k => t.send src w tgt k
  | none => t

/-- What a firing gives: a token for each target, a value for its LSID, and the flags it raised. -/
structure Result where
  t0 : Option Token := none
  t1 : Option Token := none
  lsid : Option LsidVal := none
  flags : BitVec 5 := 0
  deriving DecidableEq, Repr

/-- The same token to every valid target (R39). -/
def Result.all (t : Token) (flags : BitVec 5 := 0) : Result := { t0 := some t, t1 := some t, flags := flags }

/-- Where an instruction's LSID stands in its slot (R272, R358). -/
def lsidOf (fm : Form) (f : Slot) : Option Nat :=
  match fm.lsid with
  | .nowhere => none
  | .index => some f.idx.toNat
  | .mode => some (f.mode.toNat % 32)

/-- A value reaches an instance's LSID; a second one is BLOCK_FORM (R43, R102). -/
def Inst.giveLsid (i : Inst) (k : Nat) (v : LsidVal) : Inst :=
  match alookup k i.lsids with
  | none => { i with lsids := i.lsids ++ [(k, v)] }
  | some _ => { i with second := some (i.second.getD (faultTok Cause.blockForm 2 0 0)) }

/-- Flags of an element's beat join those noted. -/
def joinBeat (a : BitVec 12) (n : Nat) (fl : BitVec 5) : List (BitVec 12 × Nat × BitVec 5) → List (BitVec 12 × Nat × BitVec 5)
  | [] => [(a, n, fl)]
  | x :: rest => if x.1 == a && x.2.1 == n then (a, n, x.2.2 ||| fl) :: rest else x :: joinBeat a n fl rest

/-- Flags of a firing of element `a` join those of its instance or beat (R142). -/
def Tile.addFlags (t : Tile) (a : BitVec 12) (w : Work) (fl : BitVec 5) : Tile :=
  if fl == 0 then t
  else if w.stream then
    t.modSection w.ctx w.img fun x =>
      { x with flags := joinBeat a w.n fl x.flags }
  else t.modInst w.ctx w.n fun i => { i with flags := i.flags ||| fl }

/-- The effect of a firing on its tile: tokens leave for the targets, the LSID takes its value, the flags are
kept with the work. -/
def Tile.finish (t : Tile) (c : Firing) (f : Slot) (lsid : Option Nat) (r : Result) : Tile :=
  let t1 := (t.sendOpt c.elem c.work f.t0 r.t0).sendOpt c.elem c.work f.t1 r.t1
  let t2 := t1.addFlags c.elem c.work r.flags
  match lsid, r.lsid with
  | some k, some v => if c.work.stream then t2 else t2.modInst c.work.ctx c.work.n (·.giveLsid k v)
  | _, _ => t2

/-- Change everything but the package's memory, given that memory. -/
def State.onPk (s : State) (f : Memory → Pack → Pack) : State := { s with pk := f s.mem s.pk }

/-- Finish the firing in progress. -/
def State.finish (s : State) (f : Slot) (fm : Form) (r : Result) : State :=
  { s with pk := s.pk.modTile s.cur.tile fun t => t.finish s.cur f (lsidOf fm f) r }

/-- The operand set of the firing in progress goes back to the matching store: the instruction waits. -/
def State.putBack (s : State) : State :=
  { s with pk := s.pk.modTile s.cur.tile fun t =>
      { t with store := { elem := s.cur.elem, work := s.cur.work, l := s.cur.l, r := s.cur.r, p := s.cur.p } :: t.store } }

/-! ### The parameter-block cache (R304) -/

/-- An acquire of a context of the tile: every line goes. -/
def Tile.forgetLines (t : Tile) : Tile := { t with blockCache := [] }

/-- A store by an agent of the tile drops the lines it meets. -/
def Tile.storeLine (t : Tile) (va : VA) (n : Nat) : Tile :=
  { t with blockCache := t.blockCache.filter fun k => !(k.1.toNat < va.toNat + n && va.toNat < k.1.toNat + 64) }

/-! ### Operations of a tile -/

/-- Operations of the tile in flight. -/
def Tile.inFlight (t : Tile) : List Op := t.streamQ ++ t.matrixQ ++ t.configQ ++ t.sideQ

def Tile.modOp (t : Tile) (id : Nat) (f : Op → Op) : Tile :=
  { t with
    streamQ := modifyFirst (·.id == id) f t.streamQ
    matrixQ := modifyFirst (·.id == id) f t.matrixQ
    configQ := modifyFirst (·.id == id) f t.configQ
    sideQ := modifyFirst (·.id == id) f t.sideQ }

/-- A stream operation, told from one that repeats its beats under the same identity. -/
def Tile.modStream (t : Tile) (id : Nat) (ghost : Bool) (f : Op → Op) : Tile :=
  { t with streamQ := modifyFirst (fun x => x.id == id && x.ghost == ghost) f t.streamQ }

def Tile.op? (t : Tile) (id : Nat) : Option Op := t.inFlight.find? fun o => o.id == id

/-! ### Squash and replay (R55) -/

/-- A change of a context's state that the image a trap left holds too (R411, R420). -/
def Ctx.mapImages (f : CtxImage → CtxImage) (x : Ctx) : Ctx :=
  { x with cur := f x.cur, trapped := x.trapped.map fun y => (f y.1, y.2) }

/-- Work that a squash of context c from sequence number k on discards. -/
def Work.squashed (w : Work) (c : CtxId) (k : Nat) : Bool := w.ctx == c && !w.stream && k ≤ w.n

/-- An access that a squash withdraws: a load of a squashed instance. -/
def Access.withdrawn (a : Access) (t : TileId) (c : CtxId) (k : Nat) : Bool :=
  a.tile == t && a.work.squashed c k &&
    (match a.kind with | .ld | .lda _ | .ldpq => true | _ => false)

/-- Records of a task queue (R81). -/
def queueCapacity : Nat := 256

/-- Task entries, slots and handles return to where they stood (R378, R379, R298). -/
def TaskEntry.unsquash (c : CtxId) (gone : List Inst) (e : TaskEntry) : Option TaskEntry :=
  let mine (c' : CtxId) (q : Nat) : Bool := c' == c && gone.any fun i => i.seq == q
  match e.st with
  | .held c' q => some (if mine c' q then { e with st := .ready } else e)
  | .reserved c' q _ => if mine c' q then none else some e
  | _ => some e

def Tile.squash (t : Tile) (c : CtxId) (k : Nat) : Tile :=
  let gone := t.insts.filter fun i => i.ctx == c && k ≤ i.seq
  { t with
    insts := t.insts.filter fun i => !(i.ctx == c && k ≤ i.seq)
    links := t.links.filter fun x => !x.work.squashed c k
    store := t.store.filter fun x => !x.work.squashed c k
    spawnRes := t.spawnRes.filter fun x => !(x.1 == c && gone.any fun i => i.seq == x.2.1)
    tasks := t.tasks.filterMap (TaskEntry.unsquash c gone)
    handles := t.handles.map fun h =>
      if h.st == .draining && h.owner == some c && gone.any (fun i => i.seq == h.ownerSeq) then { h with st := .full, owner := none } else h }

/-- Cycles of a child window on a die are taken (or given back) (R344, R370). -/
def Pack.useWindow (p : Pack) (d : DieId) (parent : Nat) (f : Nat → Nat) : Pack :=
  let take (k : Interval) : Interval := { k with used := f k.used }
  p.modDie d fun x => { x with plan := modifyFirst (fun k => k.swarm == parent && k.child) take x.plan }

/-- What one LSID's value of a squashed instance held returns: a launch slot and its window cycles, an error
record (R370, R423). -/
def Pack.returnLsid (p : Pack) (t : TileId) (v : LsidVal) : Pack :=
  match v with
  | .launch _ desc _ true costs =>
    let p1 := p.modDie t.die fun d => { d with launchHeld := d.launchHeld - 1 }
    match p.resOf t with
    | some (_, r) => allDies.foldl (fun p d => if bit (Desc.dies desc) d.val then p.useWindow d r.swarm (· - costs.getD d.val 0) else p) p1
    | none => p1
  | .errq _ (some r) =>
    p.modDie t.die fun d =>
      let q := sget {} d.errq (p.tileVi t).val
      { d with errq := sset {} d.errq (p.tileVi t).val { q with recs := r :: q.recs, held := q.held - 1 } }
  | _ => p

def Pack.returnHeld (p : Pack) (t : TileId) (gone : List Inst) : Pack :=
  gone.reverse.foldl (fun p i => i.lsids.reverse.foldl (fun p kv => p.returnLsid t kv.2) p) p

/-- A loop whose first instance is squashed is entered anew. -/
def Ctx.leaveLoop (k : Nat) (x : Ctx) : Ctx :=
  match x.loop with
  | some r => if k ≤ r.first then { x with loop := none } else x
  | none => x

/-- A context whose instances from sequence number k on are gone; `skip` says that one of them held what ERET.nb gave it. -/
def Ctx.unspawn (k : Nat) (skip : Bool) (x : Ctx) : Ctx :=
  let y := x.leaveLoop k
  { y with nbSkip := y.nbSkip || skip, track := x.track.drop k }

/-- Squash context c's instances from sequence number k on, and the loads they made (R55). What ERET.nb gave the first of
them holds for the first that is spawned next (R419, R431). -/
def Pack.squash (p : Pack) (t : TileId) (c : CtxId) (k : Nat) : Pack :=
  let gone := (p.tile t).insts.filter fun i => i.ctx == c && k ≤ i.seq
  let p1 := p.returnHeld t gone
  let p2 := p1.modTile t fun x => (x.squash c k).modCtx c (Ctx.unspawn k (gone.any (·.skipBkpt)))
  { p2 with accs := p2.accs.filter fun a => !a.withdrawn t c k }

/-- The context replays from its committed state: it asks for the block at its PC (R53, R431). -/
def Ctx.replay (x : Ctx) : Ctx := { x with req := some { va := x.cur.pc } }

/-- Squashed instances from `i` on are spawned again, once instance `after` has committed or at once (R55, R61): the
context replays from its committed state when no older instance lives, keeps the request of an older instance that broke a
loop, goes on with the loop of which `i` was an iteration other than its first, or asks for `i`'s block again. -/
def Pack.respawn (p : Pack) (t : TileId) (c : CtxId) (i : Inst) (after : Option Nat) : Pack :=
  let older := (p.tile t).live c
  p.modCtx t c fun x =>
    let kept : Bool := (x.req.bind (·.after)).any fun n => n < i.seq
    if older.isEmpty then x.replay
    else if kept then x
    else
      let q : BlockReq := { va := i.img, after := some (after.getD (i.seq - 1)), afterCommit := after.isSome }
      match i.loop with
      | some r =>
        if r.first < i.seq then { x with loop := some { r with hold := after }, req := none } else { x with req := some q }
      | none => { x with req := some q }

/-- Squash and replay all of a context's instances. -/
def Pack.squashAll (p : Pack) (t : TileId) (c : CtxId) : Pack :=
  (p.squash t c 0).modCtx t c fun x => if x.st == .live then x.replay else x

/-! ### Fault records (R408, R409) -/

/-- The fields of a record that its context gives. -/
def Pack.baseRec (p : Pack) (t : TileId) (c : CtxId) : FaultRec :=
  let x := p.ctx t c
  match p.resOf t with
  | some (_, r) =>
    { vi := r.vi, rh := r.handle, lvl := x.cur.lvl, die := t.die, ctx := c, block := x.cur.pc,
      tx := BitVec.ofNat 3 (r.relX t), ty := BitVec.ofNat 3 (r.relY t) }
  | none => { vi := 0, lvl := x.cur.lvl, die := t.die, ctx := c, block := x.cur.pc }

/-- A record that names no context (kinds 0x03 to 0x08). -/
def Pack.resRec (p : Pack) (r : Nat) (kind cause sub : Byte) : FaultRec :=
  match p.resid? r with
  | some x => { vi := x.vi, rh := x.handle, lvl := x.lvl, die := x.die, kind := kind, cause := cause, sub := sub, cls := 2 }
  | none => { kind := kind, cause := cause, sub := sub, cls := 2 }

/-- Note a cause for a context's deferred or beat-exact trap, or an event for the error queue. -/
def Pack.note (p : Pack) (r : PendRec) : Pack := { p with pending := p.pending ++ [r] }

/-- A deferred trap against the context of a tile (R412). -/
def Pack.defer (p : Pack) (t : TileId) (c : CtxId) (cause sub : Byte) (va : VA := 0) (block : VA := 0)
    (itb : BitVec 48 := 0) (coord : W16 := 0) (op : Option Nat := none) : Pack :=
  let b := p.baseRec t c
  p.note { ctx := some (t, c), res := (p.tile t).res,
           fr := { b with cause := cause, sub := sub, va := va, cls := 2, itb := itb, coord := coord, op := op,
                          block := if block == 0 then b.block else block } }

/-- A correctable error of a die's storage is corrected and counted (R229). -/
def Pack.countFix (p : Pack) (d : DieId) : Pack := p.modDie d fun x => { x with corrected := x.corrected + 1 }

/-- A soft error of a die's storage for a VI's error queue (kind 0x04). -/
def Pack.softError (p : Pack) (d : DieId) (vi : Fin 64) (sub : Byte) : Pack :=
  (p.modDie d fun x => { x with softErrors := x.softErrors + 1 }).note
    { fr := { vi := vi, die := d, kind := 4, cause := Cause.eccDeferred, sub := sub, cls := 2 } }

/-- The token is lost (R436): not seen for 2^16 cycles on the order ring, for 2^18 on a plain of several packages. -/
def Pack.tokenLost (p : Pack) (plain : Bool) : Bool :=
  if plain then p.member != 0xFF && decide (2 ^ 18 ≤ p.plain.idle) else decide (2 ^ 16 ≤ p.ring.idle)

/-- The token visits a die: it is on the ring and ready (R456). -/
def Pack.onRing (p : Pack) (d : DieId) : Bool := bit p.ringUp d.val && (p.die d).ready

/-- A die may send a mark now: it holds the ring's token, its queue is empty, and the visit has room (R26,
R255). -/
def Pack.canMark (p : Pack) (d : DieId) : Bool :=
  p.ring.holder == d && p.onRing d && (p.ring.queues.get d).isEmpty && p.ring.visit < 8 && !p.tokenLost false

/-- The ring with one message of die d sent (R255), which some dies may have failed the CRC of (R435). -/
def Order.sendNow (o : Order) (d : DieId) (id : Nat) (b : MsgBody) : Order :=
  let loss := Config.markLoss o.num.toNat &&& ~~~ BitVec.ofNat 8 (2 ^ d.val)
  { o with sent := o.sent ++ [{ id := id, num := o.num, die := d, body := b, missing := loss }], num := o.num + 1, visit := o.visit + 1 }

/-- Form a record on die d and send its mark (R409). -/
def Pack.form (p : Pack) (d : DieId) (r : FaultRec) : FaultRec × Pack :=
  ({ r with elap := (p.die d).elap, plseq := p.plain.last.get d, pkseq := p.ring.num },
   { p with ring := p.ring.sendNow d 0 .fence })

/-! ### Aborting a swarm (R79) -/

/-- With the abort a stopped operation completes with no further elements (R466). -/
def Op.endStopped (o : Op) : Op := if o.stopped then { o with stopped := false, ending := true } else o

def Ctx.ended (x : Ctx) : Ctx :=
  if x.st == .live || x.st == .saved then { x with st := .halted, req := none, raised := none, stopped := false } else x

/-- Every operand slot a context owns is released (R213). -/
def OmSt.release (c : CtxId) : OmSt → OmSt
  | .owned c' => if c' == c then .releasing c' else .owned c'
  | o => o

def OmSt.releaseAny : OmSt → OmSt
  | .owned c => .releasing c
  | o => o

/-- A section held for a pre-emption runs on. -/
def Section.release (x : Section) : Section := match x.stop with | some (_, none) => { x with stop := none } | _ => x

/-- A tile of a stopped residency: uncommitted instances and their tokens are gone and contexts end; engine operations and
their sections run on, stopped ones completing (R79, R466). -/
def Tile.abort (t : Tile) : Tile :=
  { t with
    insts := [], links := t.links.filter fun k => k.work.stream, store := t.store.filter fun e => e.work.stream, spawnRes := []
    sections := t.sections.map Section.release
    tasks := t.tasks.filter fun e => match e.st with | .transit _ _ => true | _ => false
    ctxs := t.ctxs.map fun x => { x.ended with cur := { x.ended.cur with stl := none } }
    omSt := t.omSt.map OmSt.releaseAny
    streamQ := t.streamQ.map Op.endStopped
    matrixQ := t.matrixQ.map Op.endStopped
    configQ := t.configQ.map Op.endStopped }

def Tile.noOps (t : Tile) : Bool := t.streamQ.isEmpty && t.matrixQ.isEmpty && t.configQ.isEmpty && t.sideQ.isEmpty

/-- Records pending for a context that ends are stored (R413). -/
def Pack.storePending (p : Pack) (t : TileId) (c : CtxId) : Pack :=
  let q := (p.ctx t c).precs.foldl (fun p r => p.note { of := some (t, c), res := (p.tile t).res, fr := { r with kind := 2 } }) p
  q.modCtx t c fun y => { y with precs := [] }

def Pack.abortTile (p : Pack) (t : TileId) : Pack :=
  (allCtxs.foldl (fun p c => (p.squash t c 0).storePending t c) p).modTile t Tile.abort

def Pack.abortResid (p : Pack) (r : Nat) : Pack :=
  match p.resid? r with
  | none => p
  | some x =>
    let p1 := p.modResid r fun y => { y with aborted := true }
    match x.st with
    | .resident | .starting => x.tiles.foldl Pack.abortTile p1
    | .saving => x.tiles.foldl Pack.abortTile (p1.modResid r fun y => { y with st := .resident, pre := none, cut := false })
    | .saved | .stopped =>
      if x.fencedOut || x.saved.all Tile.noOps then p1.modResid r fun y => { y with saved := [], st := .ended }
      else p1.modResid r fun y => { y with saved := y.saved.map Tile.abort, st := .saved, bounded := false, thermal := false }
    | .ended => p

/-- The supervisor aborts a swarm, with the cause its record carries (R79, R328): the first abort stands. -/
def Pack.abortSwarm (p : Pack) (w : Nat) (cause : Byte) : Pack :=
  match p.swarm? w with
  | none => p
  | some x =>
    if x.aborted.isSome || x.st == .ended then p
    else
      let p1 := p.modSwarm w fun y => { y with aborted := some cause }
      (List.range p1.resids.length).foldl (fun p r =>
        match p.resid? r with
        | some y => if y.swarm == w then p.abortResid r else p
        | none => p) p1

/-! ### Taking a trap and the return from one (R411, R414, R420) -/

/-- The supervisor word's address (R410). -/
def supervisorWord : VA := BitVec.ofNat 80 (0xFF * 2 ^ 72)

/-- The handler's block, read from the supervisor word with the VI's tables at S, or the error that keeps it from being
read; and what the read leaves behind. R406 names no subcode of POISON for this read: it has that of a parameter block
(log 87, DEDUCED). -/
def Pack.handlerRead (m : Memory) (p : Pack) (t : TileId) : Except XErr VA × WalkNote :=
  let r := translateAt m p t (p.tileVi t) supervisorWord
  match r.1 with
  | .error e => (.error e, r.2)
  | .ok mp =>
    if !mp.r then (.error (xerr 5 1), r.2)
    else if mp.cls then (.error (xerr 5 5), r.2)
    else match paPlace mp.pa with
      | none => (.error (xerr 4 3), r.2)
      | some (d, off) =>
        let a := memIndex d off
        (if m.badGranule a then .error (xerr 8 5) else .ok (blockAddr (BitVec.ofNat 64 (m.readNat a 8))),
          { r.2 with read := r.2.read ++ [a / 16] })

def Pack.handler (m : Memory) (p : Pack) (t : TileId) : Except XErr VA := (p.handlerRead m t).1

/-- s.tcause (R395). -/
def FaultRec.tcause (r : FaultRec) : BitVec 18 := r.cls ++ (r.sub ++ r.cause)

/-- The context's state once a trap is delivered: the trapped image is its committed state, the trap registers
hold the record, the level is S, and the handler's block is asked for (R411). -/
def Ctx.enterHandler (x : Ctx) (r : FaultRec) (h : VA) : Ctx :=
  { x with
    trapped := some (x.cur, r)
    tcause := r.tcause
    tblock := r.block
    tinfo := r.coord ++ (r.itb.setWidth 64)
    tval := r.va
    raised := none
    stopped := false
    nbSkip := false
    cur := { x.cur with lvl := true, pc := h, lpk := 0, lpn := 0, lpi := 0, yld := 0, yldWaits := 0 }
    req := some { va := h } }

/-- R414: the swarm is aborted with the first trap's cause, and a record of kind 0x08 names the new one. -/
def Pack.doubleTrap (p : Pack) (t : TileId) (c : CtxId) (first : Byte) (r : FaultRec) : Pack :=
  let p1 := p.note { of := some (t, c), res := (p.tile t).res, fr := { r with kind := 8 } }
  match p.resOf t with
  | some (_, y) => p1.abortSwarm y.swarm first
  | none => p1.modCtx t c fun x => { x with raised := none, stopped := true }

/-- Take a trap against context c of tile t: squash, form the record with its mark, which is a sequenced operation of the context
(R409), enter the handler; or the double trap of R414. The caller has checked `canMark`. -/
def Pack.takeTrap (m : Memory) (p : Pack) (t : TileId) (c : CtxId) (r : FaultRec) : Pack :=
  let p1 := p.squash t c 0
  if (p1.ctx t c).tcause != 0 then p1.doubleTrap t c ((p1.ctx t c).tcause.extractLsb' 0 8) r
  else
    match p1.handler m t with
    | .error e => p1.doubleTrap t c r.cause { r with cause := e.cause, sub := e.sub, va := supervisorWord }
    | .ok h =>
      let (r', p2) := p1.form t.die { r with kind := 1 }
      let told (o : Order) : Order := { o with floor := o.floor.join (p1.ctx t c).track.whole.floor }
      Pack.modCtx { p2 with ring := told p2.ring } t c fun x => { x.enterHandler r' h with track := x.track.gain p1.ring.floor }

/-- The least number from `n` on with the seven bits of `k`. -/
def raiseSeq (n k : Nat) : Nat := n + (k + 128 - n % 128) % 128

/-- ERET restores the context from its trapped image (R420). A task record stands in one place (R381): the steal buffer
keeps what it holds now. Instance numbers go on, with the image's seven bits (log 87, DEDUCED). -/
def Ctx.restore (x : Ctx) : Ctx :=
  match x.trapped with
  | none => x
  | some (im, _) =>
    { x with
      cur := { im with stl := x.cur.stl, seqn := raiseSeq x.cur.seqn (im.seqn % 128) }
      trapped := none, tcause := 0, tblock := 0, tinfo := 0, tval := 0
      req := some { va := im.pc } }

/-- A context stops with an exact trap raised: nothing more of it is spawned until delivery (R53). -/
def Pack.raise (p : Pack) (t : TileId) (c : CtxId) (r : FaultRec) : Pack :=
  p.modCtx t c fun x => { x with raised := some (x.raised.getD r), req := none }

/-- An exact trap at a block boundary (R48, R70, R104, R241, R357): no instance is spawned. -/
def Pack.raiseAt (p : Pack) (t : TileId) (c : CtxId) (cause sub : Byte) (block va : VA) (itb : BitVec 48 := 0)
    (coord : W16 := 0) : Pack :=
  p.raise t c { p.baseRec t c with cause := cause, sub := sub, block := block, va := va, itb := itb, coord := coord, cls := 0 }

end Sys2Proof.Machine
end

