-- ==== Sys2Proof/Machine/Operands.lean ====
section
/-! DEFINITION. The operands of a firing: immediates (R90, R149), the predicate (R40), null, end-of-run and fault
tokens (R41, R42), token kinds (R151, R207, R275, R360, R417), poison (R42, R465). -/

namespace Sys2Proof.Machine

/-- The operand word an immediate fills (R149). -/
def fillImm (t : Ty) (v : W32) : W128 :=
  match t with
  | .i8 | .n8 | .e4m3 | .e5m2 => ofLanes 16 (List.replicate 8 (v.toNat % 256))
  | .i16 | .n16 | .f16 | .bf16 => ofLanes 16 (List.replicate 8 (v.toNat % 65536))
  | .i32 | .n32 | .f32 => ofLanes 32 (List.replicate 4 v.toNat)
  | .i64 | .n64 => ofLanes 64 (List.replicate 2 (v.signExtend 64).toNat)
  | .w128 | .bx => v.signExtend 128

/-- The type in which an operand is read: the entry's, or the slot's for triggers and predicates (R464). -/
def readAs (r : ReadTy) (f : Slot) : Ty := match r with | .ty t => t | .any => f.ty

/-- Whether a slot's operand comes as a token (R39, R90). -/
def wantsL (fm : Form) (f : Slot) : Bool := fm.needsL && f.immuse != .forL
def wantsR (fm : Form) (f : Slot) : Bool := fm.needsR && f.immuse != .forR
def wantsP (f : Slot) : Bool := f.pmode != .none

/-- The operands of a firing: the tokens consumed, an immediate as a data token, an empty data token for an
operand the instruction does not have. -/
def opL (fm : Form) (f : Slot) (c : Firing) : Token :=
  if f.immuse == .forL then dataTok (fillImm (readAs (fm.readL f.ty) f) f.imm) else c.l.getD (dataTok 0)

def opR (fm : Form) (f : Slot) (c : Firing) : Token :=
  if f.immuse == .forR then dataTok (fillImm (readAs (fm.readR f.ty) f) f.imm)
  else if fm.needsR then c.r.getD (dataTok 0) else dataTok 0

/-- What the common rules decide before an instruction's own effect: nothing is emitted, one token goes to every
target and the LSID, or the instruction acts on its operands. -/
inductive Pre where
  | drop
  | out (t : Token)
  | go (l r : Token)
  deriving DecidableEq, Repr

/-- The tokens a firing consumed, in the order L, R, P. -/
def consumed (fm : Form) (f : Slot) (c : Firing) : List Token :=
  (if wantsL fm f then c.l.toList else []) ++ (if wantsR fm f then c.r.toList else []) ++
    (if wantsP f then c.p.toList else [])

/-- P lets the instruction go on: it is not null, and not a clean predicate of the other sense (R40). -/
def predPasses (f : Slot) (c : Firing) : Bool :=
  match f.pmode, c.p with
  | .none, _ => true
  | _, none => true
  | m, some p =>
    if p.isNull then false
    else if p.kind == .pred && !p.poison then (bit p.val 0 == (m == .onTrue)) else true

/-- End-of-run among the operands (R41): the token emitted. -/
def eorRule (stream : Bool) (elem : BitVec 12) (ts : List Token) : Option Token :=
  if ts.any (·.isEor) then
    if !stream then some (faultTok Cause.blockForm 1 elem 0)
    else if ts.all (·.isEos) then some (eorTok true)
    else if ts.all (fun t => t.isEor && !t.isEos) then some (eorTok false)
    else some (faultTok Cause.blockForm 1 elem 0)
  else none

/-- The common rules of R39 to R42, in order. `kl` and `kr` are the kinds the operands accept: an operand of another kind counts
only where no fault, null or end-of-run decides (log 11, DEDUCED). -/
def preFire (fm : Form) (f : Slot) (kl kr : TokKind → Bool) (c : Firing) : Pre :=
  let ts := consumed fm f c
  let l := opL fm f c
  let r := opR fm f c
  if !predPasses f c then .drop
  else match ts.find? (·.isFault) with
    | some t => .out t
    | none =>
      if (wantsL fm f && l.isNull) || (wantsR fm f && r.isNull) then .out nullTok
      else match eorRule c.work.stream c.elem ts with
        | some t => .out t
        | none =>
          if (wantsL fm f && !kl l.kind) || (wantsR fm f && !kr r.kind) ||
              (wantsP f && (c.p.map fun p => p.kind != .pred).getD false) then
            .out (faultTok Cause.blockForm 1 c.elem 0)
          else if wantsP f && (c.p.map (·.poison)).getD false then .out (faultTok Cause.poison 4 c.elem 0)
          else .go l r

/-- Kinds that operands accept (R151). -/
def kData (k : TokKind) : Bool := k == .data
def kPred (k : TokKind) : Bool := k == .pred
def kTrig (k : TokKind) : Bool := k == .data || k == .pred
def kDigit (k : TokKind) : Bool := k == .digit

/-- What one token at every target and the LSID comes to (R42, R207, R360). -/
def Result.same (t : Token) : Result :=
  { Result.all t with lsid := if t.isFault then some (.fault t) else if t.isNull then some .null else none }

/-- A fault token to every target and the LSID (R42). -/
def Result.fault (c : Firing) (cause sub : Byte) (va : VA := 0) : Result := .same (faultTok cause sub c.elem va)

/-- The common rules, then an instruction's own effect on the state. -/
def fireWith (fm : Form) (f : Slot) (kl kr : TokKind → Bool) (s : State) (body : Token → Token → State) : State :=
  match preFire fm f kl kr s.cur with
  | .drop => s
  | .out t => s.finish f fm (.same t)
  | .go l r => body l r

/-- An instruction whose effect is only its result. -/
def fireResult (fm : Form) (f : Slot) (kl kr : TokKind → Bool) (s : State) (body : Token → Token → Result) : State :=
  fireWith fm f kl kr s fun l r => s.finish f fm (body l r)

/-- An instruction that computes one data word from its operands: the word carries their poison (R42, R150). -/
def calcWord (fm : Form) (f : Slot) (s : State) (op : W128 → W128 → W128 × BitVec 5) : State :=
  fireResult fm f kData kData s fun l r =>
    let v := op l.val r.val
    .all (dataTok v.1 (l.poison || r.poison)) v.2

/-- One that works lane by lane on numbers (R150), raising no flags. -/
def calcLanes (fm : Form) (f : Slot) (s : State) (op : Nat → Nat → Nat) : State :=
  calcWord fm f s fun l r => (wordOf f.ty (List.zipWith op (lanesOf f.ty l) (lanesOf f.ty r)), 0)

/-- One that works lane by lane and raises flags. -/
def calcFlags (fm : Form) (f : Slot) (s : State) (op : Nat → Nat → Nat × BitVec 5) : State :=
  calcWord fm f s fun l r =>
    let vs := List.zipWith op (lanesOf f.ty l) (lanesOf f.ty r)
    (wordOf f.ty (vs.map (·.1)), vs.foldl (fun a v => a ||| v.2) 0)

/-- Operands of the memory, engine and control instructions: a poisoned operand gives POISON with the subcode of
its role (R42, R465). L is judged before R. -/
def firePlain (fm : Form) (f : Slot) (kl : TokKind → Bool) (subL subR : Byte) (s : State)
    (body : W128 → W128 → State) : State :=
  fireWith fm f kl kData s fun l r =>
    if l.poison then s.finish f fm (.fault s.cur Cause.poison subL)
    else if r.poison then s.finish f fm (.fault s.cur Cause.poison subR)
    else body l.val r.val

/-- The form of an instruction held in a slot. -/
def formOf (i : Instr) : Form := (i.form).getD { tys := [] }

end Sys2Proof.Machine
end

