-- ==== Sys2Proof/Machine/Formats.lean ====
section
/-! DEFINITION. Arithmetic on exact values (R140, R166-R170), integers in their types (R12, R155), and the
conversions of converters and CVT (R143-R146, R172). -/

namespace Sys2Proof

/-! ### Integers -/

/-- The value of a lane in its type. -/
def Ty.int (t : Ty) (v : Nat) : Int := if t.isSigned then Machine.signedOf t.valueWidth v else ((v % 2 ^ t.valueWidth : Nat) : Int)

def Ty.wrap (t : Ty) (x : Int) : Nat := Machine.lowBits t.valueWidth x

def Ty.minInt (t : Ty) : Int := if t.isSigned then -(2 ^ (t.valueWidth - 1) : Nat) else 0

def Ty.maxInt (t : Ty) : Int := if t.isSigned then (2 ^ (t.valueWidth - 1) : Nat) - 1 else (2 ^ t.valueWidth : Nat) - 1

/-- Sat (R12), as a bit pattern. -/
def Ty.sat (t : Ty) (x : Int) : Nat :=
  t.wrap (if x < t.minInt then t.minInt else if t.maxInt < x then t.maxInt else x)

def Ty.inRange (t : Ty) (x : Int) : Bool := decide (t.minInt ≤ x) && decide (x ≤ t.maxInt)

/-- The sum, wrapped or saturated (R155). -/
def Ty.fit (t : Ty) (sat : Bool) (x : Int) : Nat := if sat then t.sat x else t.wrap x

/-- The format of a floating-point type. -/
def Ty.fmt : Ty → Machine.Fmt
  | .f16 => .f16 | .bf16 => .bf16 | .e4m3 => .e4m3 | .e5m2 => .e5m2 | _ => .f32

def Ty.val (t : Ty) (v : Nat) : Machine.Val := t.fmt.value (v % 2 ^ t.valueWidth)

end Sys2Proof

namespace Sys2Proof.Machine

/-! ### Exact values -/

def Val.ofInt (x : Int) : Val := .fin (decide (x < 0)) x.natAbs 0 false

def Val.negate : Val → Val
  | .nan s => .nan s
  | .inf n => .inf !n
  | .fin n m e s => .fin (!n) m e s

def Val.abs : Val → Val
  | .nan s => .nan s
  | .inf _ => .inf false
  | .fin _ m e s => .fin false m e s

/-- The exact sum (R166): an exact zero of opposite signs is +0, or -0 under RDN. -/
def Val.add (rm : Rnd) : Val → Val → Val
  | .nan a, b => .nan (a || b.signals)
  | _, .nan b => .nan b
  | .inf a, .inf b => if a == b then .inf a else .nan true
  | .inf a, _ => .inf a
  | _, .inf b => .inf b
  | .fin na ma ea _, .fin nb mb eb _ =>
    let e := min ea eb
    let a : Int := (ma * 2 ^ (ea - e).toNat : Nat)
    let b : Int := (mb * 2 ^ (eb - e).toNat : Nat)
    let x := (if na then -a else a) + (if nb then -b else b)
    if x == 0 then .fin (if na == nb then na else rm == .rdn) 0 0 false
    else .fin (decide (x < 0)) x.natAbs e false

def Val.sub (rm : Rnd) (a b : Val) : Val := a.add rm b.negate

/-- The exact product (R166, R167). -/
def Val.mul : Val → Val → Val
  | .nan a, b => .nan (a || b.signals)
  | a, .nan b => .nan (a.signals || b)
  | .inf a, b => if b.isZero then .nan true else .inf (a != b.neg)
  | a, .inf b => if a.isZero then .nan true else .inf (a.neg != b)
  | .fin na ma ea _, .fin nb mb eb _ => .fin (na != nb) (ma * mb) (ea + eb) false

/-- A value with the flags of its operation. -/
abbrev ValFl := Val × BitVec 5

/-- The quotient (R166), to well over the precision of every format. -/
def Val.div : Val → Val → ValFl
  | .nan a, b => (.nan (a || b.signals), 0)
  | a, .nan b => (.nan (a.signals || b), 0)
  | .inf a, b => (if b.isInf then .nan true else .inf (a != b.neg), 0)
  | .fin na _ _ _, .inf nb => (.fin (na != nb) 0 0 false, 0)
  | .fin na ma ea _, .fin nb mb eb _ =>
    if mb == 0 then (if ma == 0 then (.nan true, 0) else (.inf (na != nb), Fl.dz))
    else
      let k := 64 + Nat.log2 mb
      (.fin (na != nb) (ma * 2 ^ k / mb) (ea - eb - k) (ma * 2 ^ k % mb != 0), 0)

/-- The integer square root, by bits: `r` holds the root of the bits above 2 * fuel. -/
def isqrtFrom (n : Nat) : Nat → Nat → Nat
  | 0, r => r
  | k + 1, r =>
    let c := r + 2 ^ k
    isqrtFrom n k (if c * c ≤ n then c else r)

def isqrt (n : Nat) : Nat := isqrtFrom n (Nat.log2 n / 2 + 1) 0

/-- m * 2^e with an even exponent. -/
def evenExp (m : Nat) (e : Int) : Nat × Int := if e % 2 == 0 then (m, e) else (m * 2, e - 1)

def Val.sqrt : Val → Val
  | .nan s => .nan s
  | .inf n => if n then .nan true else .inf false
  | .fin n m e _ =>
    if m == 0 then .fin n 0 0 false
    else if n then .nan true
    else
      let (m1, e1) := evenExp m e
      let r := isqrt (m1 * 2 ^ 128)
      .fin false r (e1 / 2 - 64) (r * r != m1 * 2 ^ 128)

def Val.recip (x : Val) : ValFl := (Val.fin false 1 0 false).div x

/-- 1 / sqrt x. -/
def Val.rsqrt : Val → ValFl
  | .nan s => (.nan s, 0)
  | .inf n => (if n then .nan true else .fin false 0 0 false, 0)
  | .fin n m e _ =>
    if m == 0 then (.inf n, Fl.dz)
    else if n then (.nan true, 0)
    else
      let (m1, e1) := evenExp m e
      let t := 64 + Nat.log2 m1
      let r := isqrt (2 ^ (2 * t) / m1)
      (.fin false r (-(e1 / 2) - t) (r * r * m1 != 2 ^ (2 * t)), 0)

/-! ### Powers and logarithms of 2 (R166)

Fixed-point series with 320 fraction bits. No result but the exact ones of R166 is a rational number, and
none of the formats has an operand whose result lies within 2^-240 of a rounding boundary. -/

def seriesBits : Nat := 320

/-- 2 * atanh(z / 2^320) by its series. -/
def atanhSum (z2 : Nat) : Nat → Nat → Nat → Nat
  | 0, _, _ => 0
  | k + 1, i, p => p / (2 * i + 1) + atanhSum z2 k (i + 1) (p * z2 / 2 ^ seriesBits)

def lnRatio (a b : Nat) : Nat :=
  let z := (a - b) * 2 ^ seriesBits / (a + b)
  2 * atanhSum (z * z / 2 ^ seriesBits) 105 0 z

def ln2Fixed : Nat := lnRatio 2 1

/-- exp of a fixed-point fraction. -/
def expSum (y : Nat) : Nat → Nat → Nat → Nat
  | 0, _, _ => 0
  | k + 1, i, t => t + expSum y k (i + 1) (t * y / 2 ^ seriesBits / (i + 1))

def Val.exp2 : Val → Val
  | .nan s => .nan s
  | .inf n => if n then .fin false 0 0 false else .inf false
  | .fin neg m e _ =>
    if m == 0 then .fin false 1 0 false
    else if (11 : Int) ≤ e + Nat.log2 m then .fin false 1 (if neg then -4096 else 4096) true
    else
      -- x = i + f / 2^320 with 0 <= f < 2^320
      let c := cutAt m e false (-(seriesBits : Int))
      let x : Int := if neg then -(c.1 : Int) else c.1
      let i := x / ((2 ^ seriesBits : Nat) : Int)
      let f := (x % ((2 ^ seriesBits : Nat) : Int)).toNat
      if f == 0 then .fin false 1 i false
      else .fin false (expSum (f * ln2Fixed / 2 ^ seriesBits) 80 0 (2 ^ seriesBits)) (i - seriesBits) true

def Val.log2 : Val → ValFl
  | .nan s => (.nan s, 0)
  | .inf n => (if n then .nan true else .inf false, 0)
  | .fin neg m e _ =>
    if m == 0 then (.inf true, Fl.dz)
    else if neg then (.nan true, 0)
    else
      let k := Nat.log2 m
      let n : Int := e + k
      if m == 2 ^ k then (.ofInt n, 0)
      else
        let x : Int := n * ((2 ^ seriesBits : Nat) : Int) + (lnRatio m (2 ^ k) * 2 ^ seriesBits / ln2Fixed : Nat)
        (.fin (decide (x < 0)) (if x < 0 then x.natAbs - 1 else x.natAbs) (-(seriesBits : Int)) true, 0)

/-! ### Comparisons -/

/-- A finite value or infinity as a number of units of 2^-400; infinities lie beyond every finite value. -/
def Val.key : Val → Int
  | .nan _ => 0
  | .inf n => if n then -(2 ^ 2000 : Nat) else (2 ^ 2000 : Nat)
  | .fin n m e _ => let x : Int := (m * 2 ^ (e + 400).toNat : Nat)
    if n then -x else x

/-- The order in which -0 is below +0 (R169). -/
def Val.before (a b : Val) : Bool :=
  if a.key == b.key then a.neg && !b.neg else decide (a.key < b.key)

/-- FMIN or FMAX of two bit patterns (R169). -/
def fminmax (f : Fmt) (max : Bool) (a b : Nat) : Nat × BitVec 5 :=
  let x := f.value a
  let y := f.value b
  let fl := raiseIf (x.signals || y.signals) Fl.nv
  if x.isNan && y.isNan then (f.nanCode, fl)
  else if x.isNan then (b, fl)
  else if y.isNan then (a, fl)
  else if max then (if x.before y then b else a, fl)
  else (if y.before x then b else a, fl)

/-! ### Conversions -/

/-- One value from a type to another (R143, R144, R172). -/
def convertLane (a b : Ty) (sat : Bool) (rm : Rnd) (v : Nat) : Nat × BitVec 5 :=
  if a.isFloat then
    if b.isFloat then roundTo b.fmt sat rm (a.val v)
    else
      match a.val v with
      | .nan _ => (0, Fl.nv)
      | .inf n => (b.sat (if n then b.minInt - 1 else b.maxInt + 1), Fl.nv)
      | .fin n m e s =>
        let r := roundInt rm n m e s
        if b.inRange r.1 then (b.wrap r.1, raiseIf r.2 Fl.nx) else (b.sat r.1, Fl.nv)
  else if b.isFloat then roundTo b.fmt sat rm (.ofInt (a.int v))
  else (b.sat (a.int v), 0)

/-- Lane values with their flags joined. -/
def joinFlags (vs : List (Nat × BitVec 5)) : List Nat × BitVec 5 :=
  (vs.map (·.1), vs.foldl (fun f v => f ||| v.2) 0)

/-- A word from one type to another (R145): the lower lanes of each side, or with `hi` the upper ones of the
side that has more (R172). -/
def convertWord (a b : Ty) (sat hi : Bool) (rm : Rnd) (x : W128) : W128 × BitVec 5 :=
  let n := min a.lanesOf b.lanesOf
  let src := (lanesOf a x).drop (if hi then a.lanesOf - n else 0)
  let r := joinFlags ((src.take n).map (convertLane a b sat rm))
  (wordOf b (List.replicate (if hi then b.lanesOf - n else 0) 0 ++ r.1), r.2)

/-- What a converter does to a token (R146). -/
def convertTok (a b : Ty) (sat : Bool) (rm : Rnd) (k : Token) : Token × BitVec 5 :=
  if k.kind == .data && a != b then
    let r := convertWord a b sat false rm k.val
    ({ k with val := r.1 }, r.2)
  else (k, 0)

end Sys2Proof.Machine
end

