-- ==== Sys2Proof/Machine/Fetch.lean ====
section
/-! DEFINITION. How the next instruction is found: a complete operand set, its age among those of its PE, and the
fields of its slot in the active plane (R39, R46, R87), the next configuration command of a tile (R84), a slot whose
fields step 5 of R103 rejects (R318), the steps of the part that could happen, and time passing (R30, R31). -/

namespace Sys2Proof.Machine

/-! ### Elements of a plane -/

def CfgPlane.elem (p : CfgPlane) (a : BitVec 12) : ElemState := sget {} p.elems a.toNat

def CfgPlane.modElem (p : CfgPlane) (a : BitVec 12) (f : ElemState → ElemState) : CfgPlane :=
  { p with elems := sset {} p.elems a.toNat (f (p.elem a)) }

def Tile.plane (t : Tile) (active : Bool) : CfgPlane := if active then t.active else t.shadow

def Tile.modPlane (t : Tile) (active : Bool) (f : CfgPlane → CfgPlane) : Tile :=
  if active then { t with active := f t.active } else { t with shadow := f t.shadow }

def ElemState.field (e : ElemState) (k : Nat) : W16 := if h : k < 9 then e.f[k] else 0

def ElemState.setField (e : ElemState) (k : Nat) (v : W16) : ElemState :=
  if h : k < 9 then { e with f := e.f.set k v, configured := true } else e

/-- The element enters the blocked state, for a step of the check and a field (R104). -/
def ElemState.bar (e : ElemState) (step : Nat) (field : BitVec 4) : ElemState :=
  { e with configured := true, blocked := true, step := step, badField := field }

def ElemState.fields (e : ElemState) : Fields :=
  { f0 := e.field 0, f1 := e.field 1, f2 := e.field 2, f3 := e.field 3, f4 := e.field 4, f5 := e.field 5 }

def ElemState.ofFields (v : Fields) (img : Option VA) : ElemState :=
  { f := #v[v.f0, v.f1, v.f2, v.f3, v.f4, v.f5, 0, 0, 0], configured := true, img := img }

/-! ### Complete operand sets -/

def MatchEntry.put (e : MatchEntry) (o : OpSide) (k : Token) : MatchEntry :=
  match o with
  | .l => { e with l := some k }
  | .r => { e with r := some k }
  | .p => { e with p := some k }

def MatchEntry.at_ (e : MatchEntry) (o : OpSide) : Option Token :=
  match o with
  | .l => e.l
  | .r => e.r
  | .p => e.p

def MatchEntry.clear (e : MatchEntry) (o : OpSide) : MatchEntry :=
  match o with
  | .l => { e with l := none }
  | .r => { e with r := none }
  | .p => { e with p := none }

def runAware : Instr → Bool
  | .merge _ | .eose _ | .eost _ => true
  | _ => false

/-- The instruction of a slot in the active plane, by step 5 of R103: R318 leaves the checks of step 6 unmade. -/
def Tile.instrAt (t : Tile) (a : BitVec 12) : Except DecodeError Instr := decodeStep5 (t.active.elem a).fields

/-- The instruction that a slot fires for work of a block or of a stream section, with what its mode bars (R318). -/
def Tile.instrFor (t : Tile) (a : BitVec 12) (stream : Bool) : Except DecodeError Instr :=
  match t.instrAt a with
  | .error e => .error e
  | .ok i => if (i.modeField stream).isSome then .error .imageMode else .ok i

def slotOf (i : Instr) : Slot :=
  (i.slot).getD { mode := 0, t0 := .none, t1 := .none, imm := 0, pmode := .none, immuse := .none, ty := .w128, aux := 0, idx := 0 }

/-- An entry holds every operand its slot needs (R39); a slot that step 5 rejects fires with what it holds. -/
def Tile.complete (t : Tile) (e : MatchEntry) : Bool :=
  match t.instrFor e.elem e.work.stream with
  | .error _ => true
  | .ok i =>
    let fm := formOf i
    let f := slotOf i
    !runAware i && (!wantsL fm f || e.l.isSome) && (!wantsR fm f || e.r.isSome) && (!wantsP f || e.p.isSome)

/-- The age of work on a tile: its stamp, then its beat (R46). -/
def Tile.ageOf (t : Tile) (w : Work) : Nat × Nat :=
  if w.stream then
    match t.section? w.ctx w.img with
    | some x => (x.stamp, w.n)
    | none => (t.stamp, w.n)
  else
    match t.inst? w.ctx w.n with
    | some i => (i.stamp, 0)
    | none => (t.stamp, 0)

/-- The PE of a slot: its address without the slot number (R87). -/
def peOf (a : BitVec 12) : Nat := a.toNat / 8

/-- The targets that a slot's target fields name, whatever its other fields hold (R318). -/
def looseTargets (v : Fields) : Target × Target := (targetOf v.f1, targetOf v.f2)

def ageLt (a b : Nat × Nat) : Bool := a.1 < b.1 || (a.1 == b.1 && a.2 < b.2)

/-- Work a before work b in the order of R46, for slots of one PE: older work, or a lower slot of the same work. -/
def Tile.before (t : Tile) (a : BitVec 12) (v : Work) (b : BitVec 12) (w : Work) : Bool :=
  ageLt (t.ageOf v) (t.ageOf w) || (t.ageOf v == t.ageOf w && a.toNat % 8 < b.toNat % 8)

/-- A slot of a section without a valid target, at or past the beat the section has stopped at (R58). -/
def Tile.suppressed (t : Tile) (a : BitVec 12) (w : Work) : Bool :=
  w.stream && looseTargets (t.active.elem a).fields == (.none, .none) &&
    (match (t.section? w.ctx w.img).bind (·.stop) with
      | some (b, _) => decide (b ≤ w.n)
      | none => false)

/-- The complete operand set of a slot under one work, with the store without it. -/
def Tile.readySet (t : Tile) (a : BitVec 12) (w : Work) : Option (MatchEntry × List MatchEntry) :=
  match takeFirst (fun e => e.elem == a && e.work == w) t.store with
  | none => none
  | some (e, rest) => if t.complete e && !t.suppressed a w then some (e, rest) else none

/-- The state of a run-aware slot. -/
def Tile.run (t : Tile) (a : BitVec 12) (c : CtxId) (img : VA) : RunState :=
  (t.runs.find? fun x => x.elem == a && x.ctx == c && x.img == img).getD { elem := a, ctx := c, img := img }

def Tile.setRun (t : Tile) (x : RunState) : Tile :=
  { t with runs := x :: t.runs.filter fun y => !(y.elem == x.elem && y.ctx == x.ctx && y.img == x.img) }

/-- A token on its way to a target can lead to one at an operand side of run-aware slot `a`, through slots that are not
run-aware. `fuel` bounds the number of slots on a path. -/
def Tile.leads (t : Tile) (a : BitVec 12) (side : OpSide) : Nat → Target → Bool
  | 0, _ => false
  | fuel + 1, g =>
    match g with
    | .operand o sd row col k _ =>
      let b := slotAddr sd row col k
      if b == a then o == side
      else match t.instrAt b with
        | .ok i => !runAware i && (expandTarget (slotOf i).t0 ++ expandTarget (slotOf i).t1).any (t.leads a side fuel)
        | .error _ => false
    | _ => false

def Tile.slotTargets (t : Tile) (a : BitVec 12) : List Target :=
  match t.instrAt a with
  | .ok i => expandTarget (slotOf i).t0 ++ expandTarget (slotOf i).t1
  | .error _ => []

def Tile.isRun (t : Tile) (a : BitVec 12) : Bool := match t.instrAt a with | .ok i => runAware i | .error _ => false

def Tile.portTargets (t : Tile) (q : Nat) : List Target :=
  let e := t.active.elem (BitVec.ofNat 12 (0xA00 + q))
  expandTarget (targetOf (e.field 0)) ++ expandTarget (targetOf (e.field 1))

/-- The targets of an element that sends tokens of a section: a slot or an ingress port. -/
def Tile.elemTargets (t : Tile) (a : BitVec 12) : List Target :=
  if a.toNat < 0x800 then t.slotTargets a
  else if 0xA00 ≤ a.toNat && a.toNat < 0xA40 then t.portTargets (a.toNat - 0xA00) else []

/-- The run-aware slots of an image. -/
def Tile.runSlots (t : Tile) (img : VA) : List (BitVec 12) :=
  t.active.elems.filterMap fun e =>
    if e.1 < 0x800 && e.2.img == some img && t.isRun (BitVec.ofNat 12 e.1) then some (BitVec.ofNat 12 e.1) else none

/-- A token on its way to a target may reach a run-aware slot of an image. -/
def Tile.feedsRun (t : Tile) (img : VA) (g : Target) : Bool :=
  (t.runSlots img).any fun a => t.leads a .l 200 g || t.leads a .r 200 g || t.leads a .p 200 g

/-- What an element sends goes to a run-aware slot, which numbers its beats anew (R185). -/
def Tile.feeds (t : Tile) (img : VA) (a : BitVec 12) : Bool := (t.elemTargets a).any (t.feedsRun img)

/-- The beats at an element have been numbered anew: a run-aware slot sends them, or a slot that one feeds. -/
def Tile.pastRun (t : Tile) (img : VA) (a : BitVec 12) : Bool :=
  (t.runSlots img).any fun r =>
    r == a || (t.slotTargets r).any fun g => t.leads a .l 200 g || t.leads a .r 200 g || t.leads a .p 200 g

/-- A token on its way to a target can bring one to an operand side of slot `a`, run-aware slots passed too. -/
def Tile.reaches (t : Tile) (a : BitVec 12) (side : OpSide) : Nat → Target → Bool
  | 0, _ => false
  | fuel + 1, g =>
    match g with
    | .operand o sd row col k _ =>
      let b := slotAddr sd row col k
      (b == a && o == side) || (b != a && (t.slotTargets b).any (t.reaches a side fuel))
    | _ => false

/-- A token of beat n may yet reach an input of a run-aware slot: from a link, a slot that has some of its operands, a
load (of `as`), a port that has not had the beat, or another run-aware slot. -/
def Tile.mayCome (t : Tile) (as : List Access) (x : Section) (a : BitVec 12) (side : OpSide) (n : Nat) : Bool :=
  let w : Work := { ctx := x.ctx, img := x.img, stream := true, n := n }
  let go (gs : List Target) : Bool := gs.any (t.leads a side 200)
  t.links.any (fun k => k.work == w && go [k.tgt]) ||
    t.store.any (fun e => e.work == w && !t.isRun e.elem && go (t.slotTargets e.elem)) ||
    as.any (fun b => b.work == w && go (t.slotTargets b.elem)) ||
    x.inPos.any (fun q => q.2 ≤ n && !x.ended.contains q.1 && (match x.count with | some m => decide (n < m) | none => true) &&
      go (t.portTargets q.1)) ||
    t.active.elems.any fun e =>
      let b := BitVec.ofNat 12 e.1
      e.1 < 2048 && e.2.img == some x.img && b != a && t.isRun b && decide ((t.run b x.ctx x.img).out ≤ n) && go (t.slotTargets b)

/-- The head of one input of a run-aware slot (R185): the token of the lowest beat from `pos` on, once no token of a
lower beat can come. -/
def Tile.headOf (t : Tile) (as : List Access) (a : BitVec 12) (c : CtxId) (img : VA) (pos : Nat) (side : OpSide) : Option (Nat × Token) :=
  let mine := t.store.filterMap fun e =>
    if e.elem == a && e.work == { ctx := c, img := img, stream := true, n := e.work.n } && pos ≤ e.work.n then
      (e.at_ side).map fun k => (e.work.n, k)
    else none
  match argMin (fun y : Nat × Token => y.1) mine with
  | none => none
  | some (n, k) =>
    if n == pos then some (n, k)
    else match t.section? c img with
      | some x => if (List.range (n - pos)).any (fun j => t.mayCome as x a side (pos + j)) then none else some (n, k)
      | none => none

/-- The targets that tokens at some targets lead to in turn, with these. `fuel` bounds the steps. -/
def Tile.flow (t : Tile) : Nat → List Target → List Target → List Target
  | 0, _, seen => seen
  | fuel + 1, front, seen =>
    let next (g : Target) : List Target := match g with | .operand _ sd row col k _ => t.slotTargets (slotAddr sd row col k) | _ => []
    let new := (front.flatMap next).foldl (fun l g => if seen.contains g || l.contains g then l else l ++ [g]) []
    if new.isEmpty then seen else t.flow fuel new (seen ++ new)

/-- The place of a slot's accesses among those of their beat: the lowest egress port that what it sends can lead to, and
behind all ports where it leads to none (R245; log 80, DEDUCED). -/
def Tile.beatRank (t : Tile) (a : BitVec 12) : Nat :=
  let gs := t.slotTargets a
  (minOf ((t.flow 512 gs gs).filterMap fun g => match g with | .output k => some k.toNat | _ => none)).getD 64

/-- A load of a program. -/
def Access.isLoad (a : Access) : Bool := match a.kind with | .ld | .lda _ | .ldpq => true | _ => false

/-- Accesses of a tile. -/
def Pack.tileAccs (p : Pack) (t : TileId) : List Access := p.accs.filter fun b => b.tile == t && b.origin.isNone

/-- Take one operand of an entry out of the matching store; an entry that holds nothing is freed. -/
def dropOperand (a : BitVec 12) (w : Work) (side : OpSide) (l : List MatchEntry) : List MatchEntry :=
  l.filterMap fun e =>
    if e.elem == a && e.work == w then
      let e' := e.clear side
      if e'.l.isNone && e'.r.isNone && e'.p.isNone then none else some e'
    else some e

/-- The heads of a run-aware slot's inputs, when it has what it needs (R185). -/
def Tile.runHeads (t : Tile) (as : List Access) (i : Instr) (a : BitVec 12) (c : CtxId) (img : VA) : Option Firing :=
  let x := t.run a c img
  let l := (t.headOf as a c img x.posL .l).map (·.2)
  let r := (t.headOf as a c img x.posR .r).map (·.2)
  let p := (t.headOf as a c img x.posP .p).map (·.2)
  let f := slotOf i
  let fm := formOf i
  if (wantsL fm f && l.isNone) || (wantsR fm f && r.isNone) || (wantsP f && p.isNone) then none
  else some { elem := a, work := { ctx := c, img := img, stream := true, n := x.out }, l := l, r := r, p := p }

/-! ### What a slot does -/

/-- R318: an illegal slot gives a fault token of cause BLOCK_FORM, subcode 4, to every valid target. -/
def State.illegalSlot (s : State) : State :=
  let e := (s.pk.tile s.cur.tile).active.elem s.cur.elem
  let ts := looseTargets e.fields
  let k := faultTok Cause.blockForm 4 s.cur.elem 0
  { s with pk := s.pk.modTile s.cur.tile fun t =>
      (t.send s.cur.elem s.cur.work ts.1 k).send s.cur.elem s.cur.work ts.2 k }

/-! ### The sinks of a section (R59) -/

/-- The sinks of the section of an image, by element address: its egress ports, and its slots without a valid
target. -/
def Tile.sinks (t : Tile) (img : VA) : List Nat :=
  t.active.elems.filterMap fun e =>
    if e.2.img == some img && e.2.configured &&
        ((0xB00 ≤ e.1 && e.1 < 0xB40) || (e.1 < 0x800 && looseTargets e.2.fields == (.none, .none))) then some e.1
    else none

def Section.reach (x : Section) (sink : Nat) : Section :=
  if x.closed.contains sink then x else { x with closed := x.closed ++ [sink] }

/-- Work of a section, in links, stores and run-aware slots. -/
def Work.ofSection (w : Work) (x : Section) : Bool := w.stream && w.ctx == x.ctx && w.img == x.img

/-- The beats whose flags reach s.fpf (R142): those delivered at every egress. Of a section without an egress they are
all those that no stop suppresses (log 78, DESIGN CHOICE). A beat that a run-aware slot takes hands its flags to the output
position that the slot then stands at, as a run's additions do (R187; log 78, DEDUCED). -/
def Section.counts (x : Section) (n : Nat) : Bool :=
  match minOf (x.outPos.map (·.2)) with
  | some low => decide (n < low)
  | none => match x.stop with | some (b, _) => decide (n < b) | none => true

/-- A section leaves the tile with its tokens; the flags of the beats it delivered reach s.fpf, the others are
discarded (R59, R142). -/
def Tile.dropSection (t : Tile) (x : Section) : Tile :=
  let t1 := { t with
    sections := t.sections.filter fun y => !(y.ctx == x.ctx && y.img == x.img)
    links := t.links.filter fun k => !k.work.ofSection x
    store := t.store.filter fun k => !k.work.ofSection x
    runs := t.runs.filter fun k => !(k.ctx == x.ctx && k.img == x.img)
    runLog := t.runLog.filter fun k => !(k.ctx == x.ctx && k.img == x.img) }
  let add (a : BitVec 5) (b : BitVec 12 × Nat × BitVec 5) : BitVec 5 := if x.counts b.2.1 && !t.feeds x.img b.1 then a ||| b.2.2 else a
  t1.modCtx x.ctx fun c => { c with cur := { c.cur with fpf := x.flags.foldl add c.cur.fpf } }

/-- A complete set, or the heads that a run-aware slot needs, stand at an element of a section. -/
def Tile.setReady (t : Tile) (as : List Access) (x : Section) (e : MatchEntry) : Bool :=
  e.work.ofSection x && (t.complete e || (match t.instrAt e.elem with
    | .ok i => runAware i && (t.runHeads as i e.elem x.ctx x.img).isSome
    | .error _ => false))

/-- Something of a section may yet fire or arrive: a token in the links, a load of `as`, a complete operand set. -/
def Tile.sectionBusy (t : Tile) (as : List Access) (x : Section) : Bool :=
  t.links.any (fun k => k.work.ofSection x) || as.any (fun a => a.isLoad && a.work.ofSection x) || t.store.any (t.setReady as x)

/-- A drain's section has not had end-of-stream at every array port (R202). -/
def Tile.drainOwes (t : Tile) (x : Section) : Bool :=
  let drain (o : Op) : Bool := match o.cmd with | .accdrn _ => o.id == x.op | _ => false
  match t.matrixQ.find? drain with
  | none => false
  | some o => o.ports.any fun q => !x.ended.contains (32 + q)

/-- A section closes: every sink has been reached and no beat of it is on its way to one (R59, R202). -/
def Tile.mayClose (t : Tile) (as : List Access) (x : Section) : Bool :=
  let ks := t.sinks x.img
  !ks.isEmpty && ks.all (fun k => x.closed.contains k) && x.stop.isNone && !t.sectionBusy as x && !t.drainOwes x

/-- Sections that may close do. `as` are the tile's loads in flight. -/
def Tile.closeDone (t : Tile) (as : List Access) : Tile := (t.sections.filter (t.mayClose as)).foldl Tile.dropSection t

/-- End-of-stream, or a section's last beat, reaches a sink. -/
def Tile.reachSink (t : Tile) (c : CtxId) (img : VA) (sink n : Nat) (eos : Bool) : Tile :=
  match t.section? c img with
  | none => t
  | some x => if eos || x.count == some (n + 1) then t.modSection c img (·.reach sink) else t

/-- A firing of a slot without a valid target is where its beat ends. -/
def Tile.fireSink (t : Tile) (c : Firing) (fm : Form) (f : Slot) : Tile :=
  if c.work.stream && f.t0 == .none && f.t1 == .none then
    let ts := (if wantsL fm f then c.l.toList else []) ++ (if wantsR fm f then c.r.toList else [])
    t.reachSink c.work.ctx c.work.img c.elem.toNat c.work.n (!ts.isEmpty && ts.all (·.isEos))
  else t

/-- R58: a section stops at a beat with a fault; the earliest beat stands. -/
def Section.halt (x : Section) (beat : Nat) (k : Token) : Section :=
  match x.stop with
  | some (b, some _) => if b ≤ beat then x else { x with stop := some (beat, some k) }
  | _ => { x with stop := some (beat, some k) }

/-- The record of a beat-exact trap of an operation's section. -/
def PendRec.ofSection (r : PendRec) (t : TileId) (c : CtxId) (op : Nat) : Bool :=
  r.ctx == some (t, c) && r.fr.cls == 1 && r.fr.op == some op

/-- A fault token at an egress or a store of a section: the beat-exact trap is noted against the arming
context, and one already noted for a later beat gives way (R58, R407). -/
def Pack.sectionFault (p : Pack) (t : TileId) (w : Work) (k : Token) : Pack :=
  match (p.tile t).section? w.ctx w.img with
  | none => p
  | some x =>
    let stands : Bool := match x.stop with
      | some (b, some _) => decide (b ≤ w.n)
      | _ => false
    if stands then p
    else
      let b := p.baseRec t w.ctx
      let p1 := p.modTile t fun y => y.modSection w.ctx w.img (·.halt w.n k)
      { p1 with pending := p1.pending.filter fun r => !r.ofSection t w.ctx x.op }.note
        { ctx := some (t, w.ctx), res := (p.tile t).res
          fr := { b with cause := k.cause, sub := k.sub, va := k.fva, cls := 1, itb := BitVec.ofNat 48 w.n,
                         coord := k.coord, op := some x.op } }

/-- The state with the operand set of a slot consumed, and the instruction it fires; none when no complete set
of that slot stands there. -/
def State.takeSet (s : State) (t : TileId) (a : BitVec 12) (w : Work) : Option (State × Except DecodeError Instr) :=
  let tl := s.pk.tile t
  let i := tl.instrFor a w.stream
  let plain : Option (State × Except DecodeError Instr) :=
    match tl.readySet a w with
    | none => none
    | some (e, rest) =>
      let c : Firing := { tile := t, elem := a, work := w, l := e.l, r := e.r, p := e.p }
      some ({ s with
        pk := s.pk.modTile t fun x =>
          let x1 := { x with store := rest }
          match i with
          | .ok i' => x1.fireSink c (formOf i') (slotOf i')
          | .error _ => x1
        cur := c }, i)
  match i with
  | .ok i' =>
    if runAware i' then
      match tl.runHeads (s.pk.tileAccs t) i' a w.ctx w.img with
      | none => none
      | some c => some ({ s with cur := { c with tile := t } }, i)
    else plain
  | .error _ => plain

/-- The next configuration command of a tile, taken from its stream. -/
def State.takeCommand (s : State) (t : TileId) : Option (State × Except DecodeError Instr) :=
  match (s.pk.tile t).cfgStream with
  | [] => none
  | c :: rest =>
    some ({ s with
      pk := s.pk.modTile t fun x => { x with cfgStream := rest }
      cmd := { tile := t, active := c.active, img := c.img } }, decodeCommand c.word)

/-- A command that step 4 of R103 rejects blocks its element (R104, R318). -/
def State.illegalCommand (s : State) (w : W32) : State :=
  { s with pk := s.pk.modTile s.cmd.tile fun t =>
      t.modPlane s.cmd.active fun p => p.modElem (w.extractLsb' 20 12) (·.bar 4 (w.extractLsb' 16 4)) }

/-! ### Time (R30, R31, R225, R346, R348) -/

def satAdd (x : W32) (n : Nat) : W32 := BitVec.ofNat 32 (min (x.toNat + n) (2 ^ 32 - 1))

/-- A context's hold after YIELD runs down (R368). -/
def Ctx.tick (n : Nat) (x : Ctx) : Ctx := { x with cur := { x.cur with yld := x.cur.yld - BitVec.ofNat 32 (min n x.cur.yld.toNat) } }

def Handle.tick (n : Nat) (h : Handle) : Handle := if h.st == .filling then { h with idle := h.idle + n } else h

def Tile.tick (n : Nat) (t : Tile) : Tile :=
  { t with
    clk := t.clk + BitVec.ofNat 64 n
    ctxs := t.ctxs.map (Ctx.tick n)
    handles := t.handles.map (Handle.tick n)
    retCycles := t.retCycles + n
    streamQ := t.streamQ.map fun o => { o with cycles := o.cycles + n } }

def Access.tick (d : DieId) (n : Nat) (a : Access) : Access :=
  if a.tile.die == d then
    match a.st with
    | .retry c => { a with st := .retry (c + n), age := match a.place with | .remote _ => a.age + n | _ => a.age }
    | .waiting => { a with age := if a.age == 0 then 0 else a.age + n }
    | .remote c => { a with st := .remote (c + n) }
    | _ => a
  else a

/-- A residency's counters: watchdog (R346), budget and bound (R336), pre-emption (R427). -/
def Resid.tick (d : DieId) (n k : Nat) (paused : Bool) (r : Resid) : Resid :=
  if r.die == d then
    match r.st with
    | .resident =>
      { r with watchdog := r.watchdog + n, budget := if paused then r.budget else r.budget + n
               bound := if paused && r.bounded then r.bound + k else r.bound, pre := r.pre.map (· + n) }
    | .saving => { r with pre := r.pre.map (· + n), bound := if r.preHold && r.bounded then r.bound + k else r.bound }
    | .stopped => { r with bound := if r.bounded then r.bound + k else r.bound }
    | _ => r
  else r

/-- The budget pauses while a context of the residency is in a trap that awaits the supervisor (R336). -/
def Pack.inTrap (p : Pack) (r : Resid) : Bool :=
  r.tiles.any fun t => (p.tile t).ctxs.toList.any fun x => x.tcause != 0 || x.raised.isSome

/-- `n` cycles pass on a die's tiles, and `k` counts on its elapsed counter. The lowest die of the ring counts the
cycles since a token was seen. A send's timeout runs on while its residency is saved (R348). -/
def Pack.pass (p : Pack) (d : DieId) (n k : Nat) : Pack :=
  let later (o : Op) : Op := { o with cycles := o.cycles + n }
  let saved (r : Resid) : Resid :=
    if r.die == d then { r with saved := r.saved.map fun (x : Tile) => { x with streamQ := x.streamQ.map later } } else r
  let p1 := { p with resids := p.resids.map fun (r : Resid) => saved (r.tick d n k (p.inTrap r)) }
  let p2 := p1.modDie d fun x => { x with tiles := x.tiles.map (Tile.tick n), elap := x.elap + BitVec.ofNat 64 k }
  let m := if (allDies.find? fun c => bit p.ringUp c.val) == some d then n else 0
  { p2 with
    accs := p2.accs.map (Access.tick d n)
    ring := { p2.ring with idle := p2.ring.idle + m }
    plain := { p2.plain with idle := p2.plain.idle + m } }

/-! ### What could happen next -/

def tileCandidates (t : TileId) (x : Tile) : List Happening :=
  (x.store.map fun e => .fire t e.elem e.work) ++
  (if x.cfgStream.isEmpty then [] else [.command t]) ++
  ((List.range x.links.length).map fun k => .event (.tokenDelivery t k)) ++
  (x.fetches.map fun a => .event (.imageFetchDone t a)) ++
  (allCtxs.flatMap fun c =>
    if (x.ctx c).st == .free then []
    else [.event (.blockRequest t c), .event (.instanceSpawn t c), .event (.loopSpawn t c), .event (.commit t c),
      .event (.trapExact t c), .event (.trapDelivery t c), .event (.deferredRecordDelivery t c),
      .event (.stealRequest t c), .event (.stealArrival t c)]) ++
  (x.sections.flatMap fun y => y.outPos.map fun q => .event (.streamEgress t (Fin.ofNat 64 q.1))) ++
  ((x.streamQ ++ x.matrixQ ++ x.configQ ++ x.sideQ).flatMap fun o =>
    [.event (.engineOpComplete t o.id), .event (.sendStart t o.id), .event (.taskPut t o.id),
     .event (.engineElementFault t o.id), .event (.remoteTimeout o.id)]) ++
  ((List.range x.tasks.length).map fun k => .event (.stealAck t k)) ++
  ((List.finRange 64).filterMap fun h => if (x.handles.get h).st == .filling then some (.event (.handleFillTimeout t h)) else none) ++
  ((List.finRange 64).flatMap fun h => (x.handles.get h).waiters.filterMap fun w =>
    match w with | .far m v g n k => some (.event (.handleReserve g h m v n k)) | .own _ _ => none) ++
  [.event (.matrixOpStart t), .event (.kstep t), .event (.accWriteApply t), .event (.streamOpStart t),
   .event (.memoryPortSlot t), .event (.configPlaneSwap t), .event (.haltResStop t)]

/-- Events that a die, the ring and the residencies may take. -/
def packCandidates (p : Pack) : List Happening :=
  (allDies.flatMap fun d =>
    [.time d 1 0, .time d 0 1, .event (.sequencedMessageAct d false), .event (.sequencedMessageAct d true),
     .event (.bestEffortChoice d), .event (.quantumExpiry d), .event (.launchRecordTake d), .event (.horizonBoundary d),
     .event (.errorQueueStore d)]) ++
  [.event (.passTokenVisit false), .event (.passTokenVisit true), .event (.plainRelay none)] ++
  (p.accs.flatMap fun a => [.event (.homeAccess a.id), .event (.loadRetry a.id), .event (.remoteTimeout a.id)]) ++
  ((List.range p.resids.length).flatMap fun r =>
    [.event (.residencyStart r), .event (.residencyEnd r), .event (.budgetOverrun r), .event (.watchdogExpiry r),
     .event (.preemptionRequest r), .event (.preemptionCutoff r), .event (.preemptionLastIssue r), .event (.residencyResume r)]) ++
  ((List.range p.swarms.length).flatMap fun w => [.event (.swarmEnd w), .event (.dependenceRelease w)]) ++
  (p.pending.filterMap fun r => r.ctx.map fun x => .event (.deferredRecordDelivery x.1 x.2)) ++
  (p.arrivals.map fun a => .event (.taskPut a.tile a.id)) ++
  (allDies.flatMap fun d =>
    ((List.range (p.die d).plan.length).flatMap fun k => [.event (.intervalStart d k), .event (.earlyStart d k)]) ++
    ((p.die d).notices.map fun r => .event (.triggerNotice d r)) ++
    ((List.range p.swarms.length).map fun w => .event (.costartReservation d w))) ++
  (p.queues.flatMap fun q => allDies.map (fun d => .event (.descriptorTake d q.1)) ++ [.event (.recordWrite q.1)])

/-- Happenings that no rule of the part causes. -/
def outsideCandidates (n : Nat) : List Happening :=
  (Config.outside n).toList.map Happening.event ++ (Config.granuleError n).toList.map (fun x => .granuleError x.1 x.2) ++
    (Config.registerRead n).toList.map Happening.registerRead ++ (Config.granuleFlaw n).toList.map (fun x => .granuleFlaw x.1 x.2) ++ (Config.padError n).toList.map fun x => .scratchError x.1 x.2

def State.candidates (s : State) : List Happening :=
  outsideCandidates s.freeCount ++ packCandidates s.pk ++ allDies.flatMap fun d => (List.finRange 64).flatMap fun n =>
    tileCandidates ⟨d, n⟩ (s.pk.tile ⟨d, n⟩)

/-- The happening that timing chooses when the agenda is empty (log 1). -/
def State.choose (s : State) : Happening :=
  let cs := s.candidates
  (cs[Config.choice s.freeCount % cs.length]?).getD (.time 0 1 0)

/-! ### Placing one instruction to be fetched (log 10) -/

def fetchElem : BitVec 12 := 0

def fetchWork : Work := { ctx := 0, img := blockAddr 0, stream := false, n := 0 }

/-- The work it fires for: a beat of a stream for an instruction that only a stream section holds, a block instance
otherwise. -/
def fetchWorkOf (v : Fields) : Work :=
  let stream := match decodeSlot v with
    | .ok i => (i.modeField false).isSome
    | .error _ => false
  { fetchWork with stream := stream }

/-- The operand tokens laid beside a slot. -/
def fetchEntry (v : Fields) : MatchEntry :=
  { elem := fetchElem, work := fetchWorkOf v
    l := some (dataTok 0), r := some (dataTok 0), p := some (predTok true) }

/-- A command at the head of a tile's configuration stream. -/
def Pack.placeCommand (p : Pack) (t : TileId) (w : W32) : Pack :=
  p.modTile t fun x => { x with cfgStream := { word := w, active := true, img := none } :: x.cfgStream }

/-- A slot in the active plane with a complete operand set beside it. -/
def Pack.placeSlot (p : Pack) (t : TileId) (v : Fields) : Pack :=
  p.modTile t fun x => { x with
    active := x.active.modElem fetchElem fun _ => .ofFields v none
    store := fetchEntry v :: x.store }

end Sys2Proof.Machine
end

