-- ==== Sys2Proof/Machine/Integer.lean ====
section
/-! DEFINITION. NOP (R107) and the integer and address instructions (R154-R160). -/

namespace Sys2Proof.Machine

/-! ### Shared operations -/

/-- Lane by lane on integers in the slot's type. -/
def calcInts (fm : Form) (f : Slot) (s : State) (op : Int → Int → Nat) : State :=
  calcLanes fm f s fun a b => op (f.ty.int a) (f.ty.int b)

def satMode (f : Slot) : Bool := f.mode.getLsbD 0

/-- trunc(a / b), with every bit set for division by zero (R155). -/
def divTrunc (a b : Int) : Int := if b == 0 then -1 else Int.tdiv a b

def remTrunc (a b : Int) : Int := if b == 0 then a else a - b * Int.tdiv a b

/-- The shift count of a lane (R156). -/
def shiftCount (t : Ty) (b : Nat) : Nat := if t == .w128 then b % 2 ^ 32 else b

def shlLane (w a c : Nat) : Nat := if c < w then a * 2 ^ c else 0

def shrLane (w a c : Nat) : Nat := if c < w then a / 2 ^ c else 0

def sarLane (t : Ty) (a c : Nat) : Nat :=
  let x := t.int a
  t.wrap (if c < t.valueWidth then x / ((2 ^ c : Nat) : Int) else if x < 0 then -1 else 0)

def rolLane (w a c : Nat) : Nat :=
  let k := c % w
  (a * 2 ^ k % 2 ^ w) + a / 2 ^ (w - k)

def clzLane (w a : Nat) : Nat := if a == 0 then w else w - 1 - Nat.log2 a

def ctzLane (w a : Nat) : Nat := ((List.range w).find? fun k => a.testBit k).getD w

def popLane (w a : Nat) : Nat := ((List.range w).filter fun k => a.testBit k).length

/-- The field of R157: its low bit and its width. -/
def fieldOf (w c : Nat) : Nat × Nat :=
  let p := c % 128
  let f := c / 256 % 128
  if f == 0 || w ≤ p then (p, 0) else (p, min (p + f) w - p)

def bfxLane (t : Ty) (a c : Nat) : Nat :=
  let (p, n) := fieldOf t.valueWidth c
  let v := a / 2 ^ p % 2 ^ n
  if n == 0 then 0 else if t.isSigned then t.wrap (signedOf n v) else v

def bfiLane (w dst v c : Nat) : Nat :=
  let (p, n) := fieldOf w c
  dst % 2 ^ p + v % 2 ^ n * 2 ^ p + dst / 2 ^ (p + n) * 2 ^ (p + n)

def extLane (signed : Bool) (t : Ty) (a c : Nat) : Nat :=
  let b := c % 128
  if b == 0 then 0 else if t.valueWidth ≤ b then a
  else if signed then t.wrap (signedOf b a) else a % 2 ^ b

/-- The three inputs of a packed instruction (R158): x and y from L's halves, z from R. -/
def packedInputs (t zt : Ty) (l r : W128) : List (Nat × Nat × Nat) :=
  let h := t.lanesOf / 2
  let ls := lanesOf t l
  List.zip ls (List.zip (ls.drop h) (lanesOf zt r)) |>.take h

/-- LEA's global form (R160). -/
def leaGlobal (sh : Nat) (l r : W128) : W128 :=
  (addrG l (signedOf 64 r.toNat * ((2 ^ sh : Nat) : Int))).setWidth 128

/-! ### Meanings -/

/-- NOP (R107): the operand set is consumed, whatever its kinds. -/
def execNop (_f : Slot) (s : State) : Host.Outcome State Fault Refusal := .next s

/-- IADD (R155). -/
def execIadd (f : Slot) (s : State) : Host.Outcome State Fault Refusal :=
  .next (calcInts (formOf (.iadd f)) f s fun a b => f.ty.fit (satMode f) (a + b))

/-- ISUB (R155). -/
def execIsub (f : Slot) (s : State) : Host.Outcome State Fault Refusal :=
  .next (calcInts (formOf (.isub f)) f s fun a b => f.ty.fit (satMode f) (a - b))

/-- IMUL (R155). -/
def execImul (f : Slot) (s : State) : Host.Outcome State Fault Refusal :=
  .next (calcInts (formOf (.imul f)) f s fun a b => f.ty.fit (satMode f) (a * b))

/-- IMULH (R155): the high half of the exact product. -/
def execImulh (f : Slot) (s : State) : Host.Outcome State Fault Refusal :=
  .next (calcInts (formOf (.imulh f)) f s fun a b => f.ty.wrap (a * b / ((2 ^ f.ty.valueWidth : Nat) : Int)))

/-- IMAD (R158): one wrap or saturation, on the sum, in the wider type. -/
def execImad (f : Slot) (s : State) : Host.Outcome State Fault Refusal :=
  let w := f.ty.imadWide
  .next (calcWord (formOf (.imad f)) f s fun l r =>
    (wordOf w ((packedInputs f.ty w l r).map fun x =>
      w.fit (satMode f) (f.ty.int x.1 * f.ty.int x.2.1 + w.int x.2.2)), 0))

/-- IDIV (R155). -/
def execIdiv (f : Slot) (s : State) : Host.Outcome State Fault Refusal :=
  .next (calcInts (formOf (.idiv f)) f s fun a b => f.ty.wrap (divTrunc a b))

/-- IREM (R155). -/
def execIrem (f : Slot) (s : State) : Host.Outcome State Fault Refusal :=
  .next (calcInts (formOf (.irem f)) f s fun a b => f.ty.wrap (remTrunc a b))

/-- INEG (R155). -/
def execIneg (f : Slot) (s : State) : Host.Outcome State Fault Refusal :=
  .next (calcInts (formOf (.ineg f)) f s fun a _ => f.ty.fit (satMode f) (-a))

/-- IABS (R155). -/
def execIabs (f : Slot) (s : State) : Host.Outcome State Fault Refusal :=
  .next (calcInts (formOf (.iabs f)) f s fun a _ => f.ty.fit (satMode f) (a.natAbs : Int))

/-- IMIN (R154). -/
def execImin (f : Slot) (s : State) : Host.Outcome State Fault Refusal :=
  .next (calcInts (formOf (.imin f)) f s fun a b => f.ty.wrap (min a b))

/-- IMAX (R154). -/
def execImax (f : Slot) (s : State) : Host.Outcome State Fault Refusal :=
  .next (calcInts (formOf (.imax f)) f s fun a b => f.ty.wrap (max a b))

/-- AND (R154). -/
def execBitAnd (f : Slot) (s : State) : Host.Outcome State Fault Refusal :=
  .next (calcLanes (formOf (.bitAnd f)) f s fun a b => a &&& b)

/-- OR (R154). -/
def execBitOr (f : Slot) (s : State) : Host.Outcome State Fault Refusal :=
  .next (calcLanes (formOf (.bitOr f)) f s fun a b => a ||| b)

/-- XOR (R154). -/
def execBitXor (f : Slot) (s : State) : Host.Outcome State Fault Refusal :=
  .next (calcLanes (formOf (.bitXor f)) f s fun a b => a ^^^ b)

/-- ANDN (R154): L AND NOT R. -/
def execBitAndn (f : Slot) (s : State) : Host.Outcome State Fault Refusal :=
  .next (calcLanes (formOf (.bitAndn f)) f s fun a b => a &&& (2 ^ f.ty.valueWidth - 1 - b))

/-- NOT (R154). -/
def execBitNot (f : Slot) (s : State) : Host.Outcome State Fault Refusal :=
  .next (calcLanes (formOf (.bitNot f)) f s fun a _ => 2 ^ f.ty.valueWidth - 1 - a)

/-- SHL (R156). -/
def execShl (f : Slot) (s : State) : Host.Outcome State Fault Refusal :=
  .next (calcLanes (formOf (.shl f)) f s fun a b => shlLane f.ty.valueWidth a (shiftCount f.ty b))

/-- SHR (R156). -/
def execShr (f : Slot) (s : State) : Host.Outcome State Fault Refusal :=
  .next (calcLanes (formOf (.shr f)) f s fun a b => shrLane f.ty.valueWidth a (shiftCount f.ty b))

/-- SAR (R156). -/
def execSar (f : Slot) (s : State) : Host.Outcome State Fault Refusal :=
  .next (calcLanes (formOf (.sar f)) f s fun a b => sarLane f.ty a (shiftCount f.ty b))

/-- ROL (R156). -/
def execRol (f : Slot) (s : State) : Host.Outcome State Fault Refusal :=
  .next (calcLanes (formOf (.rol f)) f s fun a b => rolLane f.ty.valueWidth a (shiftCount f.ty b))

/-- CLZ (R156). -/
def execClz (f : Slot) (s : State) : Host.Outcome State Fault Refusal :=
  .next (calcLanes (formOf (.clz f)) f s fun a _ => clzLane f.ty.valueWidth a)

/-- CTZ (R156). -/
def execCtz (f : Slot) (s : State) : Host.Outcome State Fault Refusal :=
  .next (calcLanes (formOf (.ctz f)) f s fun a _ => ctzLane f.ty.valueWidth a)

/-- POPC (R156). -/
def execPopc (f : Slot) (s : State) : Host.Outcome State Fault Refusal :=
  .next (calcLanes (formOf (.popc f)) f s fun a _ => popLane f.ty.valueWidth a)

/-- BFX (R157). -/
def execBfx (f : Slot) (s : State) : Host.Outcome State Fault Refusal :=
  .next (calcLanes (formOf (.bfx f)) f s (bfxLane f.ty))

/-- BFI (R157, R158): packed, with the control in R. -/
def execBfi (f : Slot) (s : State) : Host.Outcome State Fault Refusal :=
  .next (calcWord (formOf (.bfi f)) f s fun l r =>
    (wordOf f.ty ((packedInputs f.ty f.ty l r).map fun x => bfiLane f.ty.valueWidth x.1 x.2.1 x.2.2), 0))

/-- SEXT (R157). -/
def execSext (f : Slot) (s : State) : Host.Outcome State Fault Refusal :=
  .next (calcLanes (formOf (.sext f)) f s (extLane true f.ty))

/-- ZEXT (R157). -/
def execZext (f : Slot) (s : State) : Host.Outcome State Fault Refusal :=
  .next (calcLanes (formOf (.zext f)) f s (extLane false f.ty))

/-- MOVI (R159): R, triggered by L, whose poison joins. -/
def execMovi (f : Slot) (s : State) : Host.Outcome State Fault Refusal :=
  .next (fireResult (formOf (.movi f)) f kTrig kData s fun l r => .all (dataTok r.val (l.poison || r.poison)))

/-- MOVHI (R159): chunk j of L replaced by R[31:0]. -/
def execMovhi (f : Slot) (s : State) : Host.Outcome State Fault Refusal :=
  .next (calcWord (formOf (.movhi f)) f s fun l r =>
    (ofLanes 32 ((List.range 4).map fun k => if k == fld f.mode 1 0 then laneNat 32 r 0 else laneNat 32 l k), 0))

/-- LEA (R160). -/
def execLea (f : Slot) (s : State) : Host.Outcome State Fault Refusal :=
  let sh := fld f.mode 2 0
  .next (calcWord (formOf (.lea f)) f s fun l r =>
    if f.ty == .w128 then (leaGlobal sh l r, 0)
    else (wordOf f.ty (List.zipWith (fun a b => a + b * 2 ^ sh) (lanesOf f.ty l) (lanesOf f.ty r)), 0))

/-- MOV (R159): L unchanged, a predicate too. -/
def execMov (f : Slot) (s : State) : Host.Outcome State Fault Refusal :=
  .next (fireResult (formOf (.mov f)) f kTrig kData s fun l _ => .all l)

/-- NUL (R159): a clean null, whatever the poison of L. -/
def execNul (f : Slot) (s : State) : Host.Outcome State Fault Refusal :=
  .next (fireResult (formOf (.nul f)) f kTrig kData s fun _ _ => .all nullTok)

end Sys2Proof.Machine
end

