-- ==== Sys2Proof/Machine/Lane.lean ====
section
/-! DEFINITION. The lane instructions (R161-R164). -/

namespace Sys2Proof.Machine

/-! ### Shared operations -/

def nth (l : List Nat) (k : Nat) : Nat := l.getD k 0

/-- Pairwise reduction by lane index (R164); `fuel` covers 8 lanes. -/
def tree (op : Nat → Nat → Nat × BitVec 5) : Nat → List Nat → Nat × BitVec 5
  | 0, l => (nth l 0, 0)
  | k + 1, l =>
    match l with
    | [] => (0, 0)
    | [x] => (x, 0)
    | _ =>
      let n := l.length / 2
      let r := joinFlags ((List.range n).map fun j => op (nth l (2 * j)) (nth l (2 * j + 1)))
      let t := tree op k r.1
      (t.1, r.2 ||| t.2)

/-- A rounding mode from rnd (R92). -/
def rndOf (f : Slot) : Rnd := Rnd.ofCode f.aux

/-- A rounded floating-point sum. -/
def faddLane (t : Ty) (rm : Rnd) (a b : Nat) : Nat × BitVec 5 := roundTo t.fmt false rm ((t.val a).add rm (t.val b))

def reduceOp (t : Ty) (op : Nat) (rm : Rnd) (a b : Nat) : Nat × BitVec 5 :=
  match op with
  | 0 => if t.isFloat then faddLane t rm a b else (t.wrap (t.int a + t.int b), 0)
  | 1 => if t.isFloat then fminmax t.fmt false a b else (t.wrap (min (t.int a) (t.int b)), 0)
  | _ => if t.isFloat then fminmax t.fmt true a b else (t.wrap (max (t.int a) (t.int b)), 0)

def evens (l : List Nat) : List Nat := (List.range (l.length / 2)).map fun k => nth l (2 * k)
def odds (l : List Nat) : List Nat := (List.range (l.length / 2)).map fun k => nth l (2 * k + 1)
def interleave (a b : List Nat) : List Nat := (List.zip a b).flatMap fun p => [p.1, p.2]

/-- PERM's four forms (R162). -/
def permLanes (m : Nat) (l r : List Nat) : List Nat :=
  let h := l.length / 2
  match m with
  | 0 => interleave (l.take h) (r.take h)
  | 1 => interleave (l.drop h) (r.drop h)
  | 2 => evens l ++ evens r
  | _ => odds l ++ odds r

/-! ### Meanings -/

/-- LANE (R161). -/
def execLane (f : Slot) (s : State) : Host.Outcome State Fault Refusal :=
  .next (calcWord (formOf (.lane f)) f s fun l r =>
    (wordOf f.ty [nth (lanesOf f.ty l) (nth (lanesOf f.ty r) 0)], 0))

/-- INS (R161). -/
def execIns (f : Slot) (s : State) : Host.Outcome State Fault Refusal :=
  .next (calcWord (formOf (.ins f)) f s fun l r =>
    (wordOf f.ty ((lanesOf f.ty l).set (fld f.mode 2 0) (nth (lanesOf f.ty r) 0)), 0))

/-- SPLAT (R161). -/
def execSplat (f : Slot) (s : State) : Host.Outcome State Fault Refusal :=
  .next (calcWord (formOf (.splat f)) f s fun l _ =>
    (wordOf f.ty (List.replicate f.ty.lanesOf (nth (lanesOf f.ty l) (fld f.mode 2 0))), 0))

/-- SHUF (R162). -/
def execShuf (f : Slot) (s : State) : Host.Outcome State Fault Refusal :=
  .next (calcWord (formOf (.shuf f)) f s fun l r =>
    (wordOf f.ty ((List.range f.ty.lanesOf).map fun k => nth (lanesOf f.ty l) (laneNat 4 r k)), 0))

/-- PACK (R163). -/
def execPack (f : Slot) (s : State) : Host.Outcome State Fault Refusal :=
  let u := f.ty.packed (f.mode.getLsbD 0)
  .next (calcWord (formOf (.pack f)) f s fun l r =>
    let vs := joinFlags ((lanesOf f.ty l ++ lanesOf f.ty r).map (convertLane f.ty u false (rndOf f)))
    (wordOf u vs.1, vs.2))

/-- UNPK (R163). -/
def execUnpk (f : Slot) (s : State) : Host.Outcome State Fault Refusal :=
  let u := f.ty.unpacked
  .next (calcWord (formOf (.unpk f)) f s fun l _ =>
    let n := u.lanesOf
    let src := (lanesOf f.ty l).drop (if f.mode.getLsbD 0 then f.ty.lanesOf - n else 0)
    let vs := joinFlags ((src.take n).map (convertLane f.ty u false .rne))
    (wordOf u vs.1, vs.2))

/-- REDL (R164). -/
def execRedl (f : Slot) (s : State) : Host.Outcome State Fault Refusal :=
  .next (calcWord (formOf (.redl f)) f s fun l _ =>
    let r := tree (reduceOp f.ty (fld f.mode 1 0) (rndOf f)) 3 (lanesOf f.ty l)
    (wordOf f.ty [r.1], r.2))

/-- PERM (R162). -/
def execPerm (f : Slot) (s : State) : Host.Outcome State Fault Refusal :=
  .next (calcWord (formOf (.perm f)) f s fun l r =>
    (wordOf f.ty (permLanes (fld f.mode 1 0) (lanesOf f.ty l) (lanesOf f.ty r)), 0))

end Sys2Proof.Machine
end

