-- ==== Sys2Proof/Machine/Stream.lean ====
section
/-! DEFINITION. The run-aware stream instructions (R184-R188). -/

namespace Sys2Proof.Machine

/-- The common part of a run-aware firing: the heads, the slot's state, and the tokens it emits in order, each
with the flags of its position (R185). -/
structure RunStep where
  run : RunState
  takeL : Bool := false
  takeR : Bool := false
  takeP : Bool := false
  out : List (Token × BitVec 5) := []
  deriving DecidableEq, Repr

/-- The tokens leave in successive output positions. -/
def Tile.emitRun (t : Tile) (c : Firing) (f : Slot) : Nat → List (Token × BitVec 5) → Tile
  | _, [] => t
  | n, (k, fl) :: rest =>
    let w := { c.work with n := n }
    (((t.send c.elem w f.t0 k).send c.elem w f.t1 k).addFlags c.elem w fl).emitRun c f (n + 1) rest

/-- The flags of the beats that a firing takes, up to one of each side, go to the output position it stands at (R142;
log 78, DEDUCED). -/
def Tile.takeFlags (t : Tile) (c : Firing) (taken : List (OpSide × Nat)) (out : Nat) : Tile :=
  t.modSection c.work.ctx c.work.img fun x =>
    let mine (b : BitVec 12 × Nat × BitVec 5) : Bool :=
      taken.any fun k => b.2.1 ≤ k.2 && (t.elemTargets b.1).any (t.leads c.elem k.1 200)
    let fl := (x.flags.filter mine).foldl (fun a b => a ||| b.2.2) 0
    if fl == 0 then x else { x with flags := joinBeat c.elem out fl (x.flags.filter fun b => !mine b) }

/-- Heads are consumed from the matching store, the tokens emitted, the slot's state kept. -/
def Tile.applyRun (t : Tile) (as : List Access) (c : Firing) (f : Slot) (x : RunStep) : Tile :=
  let w (n : Nat) : Work := { c.work with n := n }
  let at_ (pos : Nat) (side : OpSide) : Nat := ((t.headOf as c.elem c.work.ctx c.work.img pos side).map (·.1)).getD pos
  let nL := at_ x.run.posL .l
  let nR := at_ x.run.posR .r
  let nP := at_ x.run.posP .p
  let s1 := if x.takeL then dropOperand c.elem (w nL) .l t.store else t.store
  let s2 := if x.takeR then dropOperand c.elem (w nR) .r s1 else s1
  let s3 := if x.takeP then dropOperand c.elem (w nP) .p s2 else s2
  let run := { x.run with
    posL := if x.takeL then nL + 1 else x.run.posL
    posR := if x.takeR then nR + 1 else x.run.posR
    posP := if x.takeP then nP + 1 else x.run.posP
    out := x.run.out + x.out.length }
  let first := !t.runLog.any fun y => y.elem == c.elem && y.ctx == c.work.ctx && y.img == c.work.img && y.out == x.run.out
  let log := if first then t.runLog ++ [t.run c.elem c.work.ctx c.work.img] else t.runLog
  let taken := (if x.takeL then [(OpSide.l, nL)] else []) ++ (if x.takeR then [(OpSide.r, nR)] else []) ++
    if x.takeP then [(OpSide.p, nP)] else []
  (({ t with store := s3, runLog := log }.takeFlags c taken x.run.out).emitRun c f x.run.out x.out).setRun run

/-- A run-aware slot without a valid target is a sink: its firing takes end-of-stream, or its last beat (R59). -/
def Tile.sinkRun (t : Tile) (fm : Form) (c : Firing) (f : Slot) (x : RunStep) : Tile :=
  if f.t0 == .none && f.t1 == .none then
    let r := t.run c.elem c.work.ctx c.work.img
    let ks := (if x.takeL then c.l.toList else []) ++ if x.takeR then c.r.toList else []
    let ps := (if wantsL fm f then [r.posL] else []) ++ if wantsR fm f then [r.posR] else []
    let eos := !ks.isEmpty && ks.all (·.isEos)
    match minOf ps with
    | some (n + 1) => t.reachSink c.work.ctx c.work.img c.elem.toNat n eos
    | _ => if eos then t.reachSink c.work.ctx c.work.img c.elem.toNat 0 true else t
  else t

/-- The predicate of a run-aware firing (R40, R151, R185): the head of P in beat order, one for each firing. One that
does not match, or a null, consumes the operand set and emits nothing; a fault token, or a token of another kind, gives
the fault of R185 and is consumed alone; an end-of-run stands only beside heads that are all end-of-run; a poisoned one
gives POISON. The manual does not say more of P at these instructions (log 79, DESIGN CHOICE). -/
def predStep (fm : Form) (f : Slot) (x : RunState) (c : Firing) (step : RunState → Firing → RunStep) : RunStep :=
  let set (out : List (Token × BitVec 5)) : RunStep :=
    { run := x, takeL := wantsL fm f, takeR := wantsR fm f, takeP := true, out := out }
  match if wantsP f then c.p else none with
  | none => step x c
  | some p =>
    if p.isFault then { run := x, takeP := true, out := [(p, 0)] }
    else if !predPasses f c then set []
    else if p.isEor then
      if (consumed fm f c).all (·.isEor) then { step x c with takeP := true }
      else set [(faultTok Cause.blockForm 1 c.elem 0, 0)]
    else if p.kind != .pred then { run := x, takeP := true, out := [(faultTok Cause.blockForm 1 c.elem 0, 0)] }
    else if p.poison then set [(faultTok Cause.poison 4 c.elem 0, 0)]
    else { step x c with takeP := true }

def State.applyRun (s : State) (fm : Form) (f : Slot) (op : RunState → Firing → RunStep) : State :=
  { s with pk := s.pk.modTile s.cur.tile fun t =>
      let x := predStep fm f (t.run s.cur.elem s.cur.work.ctx s.cur.work.img) s.cur op
      (t.applyRun (s.pk.tileAccs s.cur.tile) s.cur f x).sinkRun fm s.cur f x }

/-- What every run-aware instruction makes of a head that is neither data nor end-of-run (R185). -/
def badHead (elem : BitVec 12) (k : Token) : Option Token :=
  if k.isFault then some k
  else if k.kind == .data || k.kind == .eor then none
  else some (faultTok Cause.blockForm 1 elem 0)

/-! ### MERGE (R186) -/

/-- A key in the slot's type: NaNs above every number, equal to one another; -0 below +0. -/
def keyLess (t : Ty) (a b : Nat) : Bool :=
  if t == .f32 then
    let x := t.val a
    let y := t.val b
    if x.isNan then false else if y.isNan then true else x.before y
  else decide (t.int a < t.int b)

/-- One output step on two heads. Where both give a fault token, L's comes first (log 79, DESIGN CHOICE). -/
def mergeStep (f : Slot) (x : RunState) (c : Firing) : RunStep :=
  let a := c.l.getD nullTok
  let b := c.r.getD nullTok
  match badHead c.elem a, badHead c.elem b with
  | some k, _ => { run := x, takeL := true, out := [(k, 0)] }
  | none, some k => { run := x, takeR := true, out := [(k, 0)] }
  | none, none =>
    if a.kind == .data && b.kind == .data then
      let ka := nth (lanesOf f.ty a.val) 0
      let kb := nth (lanesOf f.ty b.val) 0
      let takeA := if f.mode.getLsbD 0 then !keyLess f.ty ka kb else !keyLess f.ty kb ka
      let k := if a.poison || b.poison then faultTok Cause.poison 4 c.elem 0 else if takeA then a else b
      { run := x, takeL := takeA, takeR := !takeA, out := [(k, 0)] }
    else if a.kind == .data then { run := x, takeL := true, out := [(a, 0)] }
    else if b.kind == .data then { run := x, takeR := true, out := [(b, 0)] }
    else if a.isEos && b.isEos then { run := x, takeL := true, takeR := true, out := [(eorTok true, 0)] }
    else { run := x, takeL := !a.isEos, takeR := !b.isEos, out := [(eorTok false, 0)] }

/-! ### EOSE (R187) -/

/-- The identity of each operation. -/
def eoseIdentity (t : Ty) (op : Nat) : W128 :=
  let v := match op with
    | 0 => 0
    | 1 => if t.isFloat then t.fmt.infCode else t.wrap t.maxInt
    | _ => if t.isFloat then t.fmt.signed true t.fmt.infCode else t.wrap t.minInt
  wordOf t (List.replicate t.lanesOf v)

def eoseStep (f : Slot) (x : RunState) (c : Firing) : RunStep :=
  let a := c.l.getD nullTok
  let op := fld f.mode 1 0
  let acc := x.acc.getD (eoseIdentity f.ty op)
  match badHead c.elem a with
  | some k => { run := x, takeL := true, out := [(k, 0)] }
  | none =>
    if a.kind == .data then
      let r := joinFlags (List.zipWith (reduceOp f.ty op (rndOf f)) (lanesOf f.ty acc) (lanesOf f.ty a.val))
      { run := { x with acc := some (wordOf f.ty r.1), poison := x.poison || a.poison, flags := x.flags ||| r.2 }
        takeL := true }
    else
      let sum : Token × BitVec 5 := (dataTok acc x.poison, x.flags)
      { run := { x with acc := none, poison := false, flags := 0 }
        takeL := true
        out := if f.mode.getLsbD 2 && !a.isEos then [sum] else [sum, (a, 0)] }

/-! ### EOST (R188) -/

/-- What R gives a firing: a run length, or the token that stands in the output position. -/
def eostCount (fm : Form) (f : Slot) (c : Firing) : Except Token Nat :=
  if f.immuse == .forR then .ok f.imm.toNat
  else
    match c.r with
    | none => .ok 0
    | some r =>
      match badHead c.elem r with
      | some k => .error k
      | none =>
        if r.kind == .eor then .ok 0
        else if r.poison then .error (faultTok Cause.poison 4 c.elem 0)
        else .ok (lane0 (opR fm f c).val)

/-- One firing of EOST. A fault token of L comes before one that R gives, and either takes the place of what L brings, of
end-of-stream too; the count has reached n when it equals it (log 79, DESIGN CHOICE). -/
def eostStep (fm : Form) (f : Slot) (x : RunState) (c : Firing) : RunStep :=
  let a := opL fm f c
  let take (run : RunState) (out : List (Token × BitVec 5)) : RunStep :=
    { run := run, takeL := wantsL fm f, takeR := wantsR fm f, out := out }
  match badHead c.elem a, eostCount fm f c with
  | some k, _ => take { x with inserted := false } [(k, 0)]
  | none, .error k => take { x with inserted := false } [(k, 0)]
  | none, .ok n =>
    if a.kind == .data then
      if n != 0 && x.count + 1 == n then take { x with count := 0, inserted := true } [(a, 0), (eorTok false, 0)]
      else take { x with count := x.count + 1, inserted := false } [(a, 0)]
    else if a.isEos then take { x with inserted := false } [(a, 0)]
    else if x.inserted then take x []
    else take { x with count := 0, inserted := false } [(a, 0)]

/-! ### Meanings -/

/-- MERGE (R186). -/
def execMerge (f : Slot) (s : State) : Host.Outcome State Fault Refusal :=
  .next (s.applyRun (formOf (.merge f)) f (mergeStep f))

/-- EOSE (R187). -/
def execEose (f : Slot) (s : State) : Host.Outcome State Fault Refusal :=
  .next (s.applyRun (formOf (.eose f)) f (eoseStep f))

/-- EOST (R188). -/
def execEost (f : Slot) (s : State) : Host.Outcome State Fault Refusal :=
  .next (s.applyRun (formOf (.eost f)) f (eostStep (formOf (.eost f)) f))

end Sys2Proof.Machine
end

