-- ==== Sys2Proof/Machine/Image.lean ====
section
/-! DEFINITION. Block images: the header (R100, R101), the header entries (R102), and the six steps of the check
of an image (R103) with what each rejects (R93-R99, R148, R206, R274, R288, R294, R353, R359, R416, R464). -/

namespace Sys2Proof.Machine

/-! ### The header (R100) -/

namespace Header

def magic (h : BitVec 512) : Nat := fld h 31 0
def version (h : BitVec 512) : Nat := fld h 47 32
def ninstr (h : BitVec 512) : Nat := fld h 55 48
def nread (h : BitVec 512) : Nat := fld h 63 56
def nwrite (h : BitVec 512) : Nat := fld h 71 64
def nlsid (h : BitVec 512) : Nat := fld h 79 72
def nexit (h : BitVec 512) : Nat := fld h 87 80
def flags (h : BitVec 512) : Nat := fld h 95 88
def window (h : BitVec 512) : Nat := fld h 103 96
def sides (h : BitVec 512) : BitVec 4 := h.extractLsb' 104 4
def length (h : BitVec 512) : Nat := fld h 159 128
def crc (h : BitVec 512) : W32 := h.extractLsb' 160 32
def stream (h : BitVec 512) : Bool := bit h 88
def iterate (h : BitVec 512) : Bool := bit h 89
def while_ (h : BitVec 512) : Bool := bit h 90

end Header

/-! ### Commands and elements -/

def cmdElem (w : W32) : BitVec 12 := w.extractLsb' 20 12
def cmdField (w : W32) : Nat := fld w 19 16
def cmdValue (w : W32) : W16 := w.extractLsb' 0 16

/-- Apply a command to a set of elements (R84, R85). -/
def applyCmd (img : Option VA) (es : List (Nat × ElemState)) (w : W32) : List (Nat × ElemState) :=
  let a := (cmdElem w).toNat
  if cmdField w == 15 then sset {} es a {}
  else sset {} es a { (sget {} es a).setField (cmdField w) (cmdValue w) with img := img }

def Image.elems (i : Image) : List (Nat × ElemState) := i.cmds.foldl (applyCmd (some i.addr)) []

def Image.elem (i : Image) (a : Nat) : ElemState := sget {} i.elems a

/-- The elements an image addresses, in order of first command. -/
def Image.order (i : Image) : List (BitVec 12) :=
  i.cmds.foldl (fun acc w => if acc.contains (cmdElem w) then acc else acc ++ [cmdElem w]) []

/-- Header entries (R102). -/
structure ReadEntry where
  reg : Nat
  t0 : Target
  t1 : Target
  deriving DecidableEq, Repr

structure ExitEntry where
  kind : BitVec 3
  ind : Bool
  dest : W64
  ret : W64
  deriving DecidableEq, Repr

def addr4 (e : ElemState) (k : Nat) : W64 := e.field (k + 3) ++ (e.field (k + 2) ++ (e.field (k + 1) ++ e.field k))

def ElemState.readEntry (e : ElemState) : ReadEntry :=
  { reg := (e.field 0).toNat % 128, t0 := targetOf (e.field 1), t1 := targetOf (e.field 2) }

def ElemState.exitEntry (e : ElemState) : ExitEntry :=
  { kind := (e.field 0).extractLsb' 0 3, ind := bit (e.field 0) 3, dest := addr4 e 1, ret := addr4 e 5 }

def Image.readEntry (i : Image) (k : Nat) : ReadEntry := (i.elem (0xC00 + k)).readEntry
def Image.writeReg (i : Image) (k : Nat) : Nat := ((i.elem (0xC20 + k)).field 0).toNat % 128
def Image.exitEntry (i : Image) (k : Nat) : ExitEntry := (i.elem (0xC40 + k)).exitEntry

def Image.lsidKind (i : Image) (k : Nat) : Option LsidKind :=
  match ((i.elem (0xC60 + k)).field 0).toNat with
  | 0 => some .load | 1 => some .store | 2 => some .engine | _ => none

/-- The instructions of an image's slots. -/
def Image.instrs (i : Image) : List (BitVec 12 × Instr) :=
  i.elems.filterMap fun e =>
    if e.1 < 2048 then
      match decodeStep5 e.2.fields with
      | .ok x => some (BitVec.ofNat 12 e.1, x)
      | .error _ => none
    else none

/-- The instructions that name an LSID. -/
def Image.lsidElems (i : Image) (k : Nat) : List (BitVec 12 × Instr) :=
  i.instrs.filter fun x => lsidOf (formOf x.2) (slotOf x.2) == some k

def Image.lsidUsers (i : Image) (k : Nat) : List Instr := (i.lsidElems k).map (·.2)

/-- Slots without a valid target, which are sinks of a section (R59), and its egress and ingress ports. -/
def Image.deadSlots (i : Image) : List Nat :=
  i.instrs.filterMap fun x =>
    let f := slotOf x.2
    if f.t0 == .none && f.t1 == .none then some x.1.toNat else none

def Image.ports (i : Image) (egress : Bool) : List Nat :=
  i.elems.filterMap fun e =>
    match decodeElem (BitVec.ofNat 12 e.1) with
    | .ok (.ingress q) => if egress then none else some q.toNat
    | .ok (.egress q) => if egress then some q.toNat else none
    | _ => none

/-! ### The check (R103) -/

/-- A failed check: its step, its element and its field (R104). -/
structure CheckFail where
  step : Nat
  elem : BitVec 12
  field : BitVec 4
  deriving DecidableEq, Repr

def CheckFail.coord (c : CheckFail) : W16 := c.field ++ c.elem

def headerFail (step : Nat) : Option CheckFail := some ⟨step, 0xFFF, 0⟩

def firstSome {α β : Type} (f : α → Option β) : List α → Option β
  | [] => none
  | x :: xs => match f x with
    | some y => some y
    | none => firstSome f xs

/-- Steps 1 to 3. A loop header that counts no exit is reported at step 2, as one of R101's limits (log 77, DESIGN
CHOICE). -/
def checkHeader (h : BitVec 512) (cmds : List W32) : Option CheckFail :=
  let fl := Header.flags h
  let loop := fl == 2 || fl == 4
  if Header.magic h != 0x46524B31 || Header.version h != 1 then headerFail 1
  else if fld h 511 192 != 0 || fld h 127 112 != 0 || fld h 111 108 != 0 ||
      Header.length h < 1 || 4080 < Header.length h || !(fl == 0 || fl == 1 || loop) ||
      Header.window h < 1 || 128 < Header.window h || (fl == 0 && Header.window h != 1) || Header.sides h == 0 ||
      192 < Header.ninstr h || 32 < Header.nread h || 32 < Header.nwrite h || 32 < Header.nlsid h ||
      16 < Header.nexit h || (fl != 1 && Header.nexit h < 1) || (fl == 2 && Header.nread h < 1) ||
      (fl == 1 && (Header.nread h != 0 || Header.nwrite h != 0 || Header.nlsid h != 0 || Header.nexit h != 0 ||
        Header.ninstr h < 1)) then headerFail 2
  else if crc32c (cmds.flatMap fun w => natToBytes 4 w.toNat) != Header.crc h then headerFail 3
  else none

/-- Whether an image of this mode may address an element (R101). -/
def classAllowed (stream : Bool) : Elem → Bool
  | .slot .. | .route .. => true
  | .entry .. => !stream
  | _ => stream

def sideBit (s : Side) : Nat := s.code.toNat

/-- Step 4 on one command. -/
def checkCommand (h : BitVec 512) (w : W32) : Option CheckFail :=
  let bad : Option CheckFail := some ⟨4, cmdElem w, BitVec.ofNat 4 (cmdField w)⟩
  match decodeCommand w with
  | .error _ => bad
  | .ok _ =>
    match decodeElem (cmdElem w) with
    | .error _ => bad
    | .ok e =>
      if !classAllowed (Header.stream h) e then bad
      else match e with
        | .binding _ => if cmdField w == 15 || bit (Header.sides h) (sideBit (portSide ((cmdValue w).extractLsb' 8 6))) then none else bad
        | _ => match e.side 0 with
          | none => none
          | some sd => if bit (Header.sides h) (sideBit sd) then none else bad

/-- Step 5 on a slot: the field reported. -/
def slotStep5 (stream : Bool) (v : Fields) : Option (BitVec 4) :=
  match decodeStep5 v with
  | .error e => some e.field
  | .ok i => i.modeField stream

def typeOk (v : Nat) : Bool := v < 15

def reservedTarget (v : W16) : Bool :=
  match decodeTarget .target0 .unused0 v with
  | .error .target0 => true
  | _ => false

/-- Step 5: reserved values and bits of an element's fields; the field reported. -/
def elemStep5 (stream : Bool) (e : Elem) (x : ElemState) : Option (BitVec 4) :=
  let f0 := x.field 0
  let f1 := x.field 1
  match e with
  | .slot .. => slotStep5 stream x.fields
  | .route .. =>
    if f0.toNat % 4 != 0 then some 0
    else if !typeOk (fld f1 15 12) || !typeOk (fld f1 11 8) || 4 < fld f1 7 5 || fld f1 3 0 != 0 then some 1 else none
  | .converter .. =>
    if !typeOk (fld f0 15 12) || !typeOk (fld f0 11 8) || 4 < fld f0 7 5 || fld f0 3 0 != 0 then some 0 else none
  | .ingress _ =>
    if reservedTarget f0 then some 0 else if reservedTarget f1 then some 1
    else if !typeOk (fld (x.field 2) 15 12) || 1 < fld (x.field 2) 11 10 || fld (x.field 2) 9 0 != 0 then some 2 else none
  | .egress _ => if !typeOk (fld f0 15 12) || fld f0 11 10 == 3 || fld f0 9 0 != 0 then some 0 else none
  | .entry .read _ =>
    if 128 ≤ f0.toNat then some 0 else if reservedTarget f1 then some 1
    else if reservedTarget (x.field 2) then some 2 else none
  | .entry .write _ => if 128 ≤ f0.toNat then some 0 else none
  | .entry .lsid _ => if 3 ≤ f0.toNat then some 0 else none
  | .entry .exit _ => if 16 ≤ f0.toNat || 6 ≤ f0.toNat % 8 then some 0 else none
  | .binding _ => if bit f0 14 || fld f0 7 4 != 0 then some 0 else none
  | .slotTable _ => if fld f0 14 4 != 0 then some 0 else none

/-! ### Step 6 -/

/-- What the slot at a target needs: the named operand (R94). -/
def operandNeeded (x : ElemState) (o : OpSide) : Bool :=
  match decodeStep5 x.fields with
  | .error _ => false
  | .ok i =>
    match o with
    | .l => wantsL (formOf i) (slotOf i)
    | .r => wantsR (formOf i) (slotOf i)
    | .p => wantsP (slotOf i)

/-- A valid target is legal for a producer on `side` (none: a read entry) (R94). -/
def Image.targetOk (i : Image) (side : Option Side) (own : Bool) : Target → Bool
  | .none => true
  | .operand o sd row col k b =>
    (b == .single && !own || side.isNone || side == some sd) &&
      ((b != .row || col == 0) && (b != .col || row == 0)) &&
      (expandTarget (.operand o sd row col k b)).all fun t =>
        match t with
        | .operand o sd row col k _ =>
          let x := i.elem (slotAddr sd row col k).toNat
          x.configured && operandNeeded x o
        | _ => false
  | .output n =>
    if Header.stream i.hdr then (i.elem (0xB00 + n.toNat)).configured && !own else n.toNat < Header.nwrite i.hdr && !own
  | .exit n => !Header.stream i.hdr && n.toNat < Header.nexit i.hdr && !own

/-- Two targets never name the same operand side of the same slot (R94). -/
def targetsDisjoint (a b : Target) : Bool :=
  (expandTarget a).all fun x => !x.isOperand || !(expandTarget b).contains x

def unusedTarget (v : W16) : Bool := !bit v 15 && v != 0

/-- Target words a and b of a producer, in fields j and k: nothing in an invalid target, no second without a first, and
each legal (R94). The field reported is that of the word at fault; a pair that shares an operand is reported at the
second (log 77). -/
def Image.pairBad (i : Image) (side : Option Side) (own : Bool) (j k : BitVec 4) (a b : W16) : Option (BitVec 4) :=
  if unusedTarget a || !i.targetOk side own (targetOf a) then some j
  else if unusedTarget b || !i.targetOk side own (targetOf b) || !(bit a 15 || !bit b 15) ||
      !targetsDisjoint (targetOf a) (targetOf b) then some k
  else none

/-- The boxes that a cross-side target crosses (R95): 0 NW, 1 NE, 2 SE, 3 SW. -/
def boxes : Side → Side → List Nat
  | .n, .e => [1] | .n, .s => [1, 2] | .n, .w => [0]
  | .e, .n => [1] | .e, .s => [2] | .e, .w => [2, 3]
  | .s, .n => [3, 0] | .s, .e => [2] | .s, .w => [3]
  | .w, .n => [0] | .w, .e => [0, 1] | .w, .s => [3]
  | _, _ => []

/-- The route key of a producer and a consumer's side, as F0 of an entry (R96). -/
def routeKey (from_ to_ : Side) (row : BitVec 2) (col : BitVec 4) (k : BitVec 3) : W16 :=
  (1 : BitVec 1) ++ (from_.code ++ (to_.code ++ (row ++ (col ++ (k ++ (0 : BitVec 2))))))

/-- The route entries of a box with a key, in a set of elements. -/
def routesIn (es : List (Nat × ElemState)) (box : Nat) (key : W16) : List ElemState :=
  es.filterMap fun e => if 0x800 + 64 * box ≤ e.1 && e.1 < 0x840 + 64 * box && e.2.field 0 == key then some e.2 else none

/-- The type in which a target's slot reads it (R464); none where any matches. -/
def Image.consumerTy (i : Image) : Target → Option Ty
  | .operand o sd row col k _ =>
    match decodeStep5 (i.elem (slotAddr sd row col k).toNat).fields with
    | .error _ => none
    | .ok c =>
      let fm := formOf c
      let rt := match o with | .l => fm.readL (slotOf c).ty | .r => fm.readR (slotOf c).ty | .p => .any
      match rt with | .ty t => some t | .any => none
  | _ => none

/-- One box's pair of types (R97, R98). `sat` has a meaning for e4m3 and e5m2 outputs alone, and is refused beside any
other (log 77, DESIGN CHOICE). -/
def boxOk (x : ElemState) : Bool :=
  match Ty.ofCode ((x.field 1).extractLsb' 12 4), Ty.ofCode ((x.field 1).extractLsb' 8 4) with
  | some a, some b =>
    if a == b then fld (x.field 1) 7 4 == 0 else Ty.converts a b && (!bit (x.field 1) 4 || b == .e4m3 || b == .e5m2)
  | _, _ => false

/-- The route of a cross-side target: exactly one entry in each box, types meeting end to end (R96, R97). -/
def Image.routeOk (i : Image) (emits : Ty) (sd : Side) (row : BitVec 2) (col : BitVec 4) (k : BitVec 3) (t : Target) : Bool :=
  match t with
  | .operand _ to_ _ _ _ _ =>
    if to_ == sd then true
    else
      let key := routeKey sd to_ row col k
      let found := (boxes sd to_).map fun b => routesIn i.elems b key
      let es := found.flatMap id
      found.all (fun l => l.length == 1) && es.all boxOk &&
        (match es with
          | [x] => fld (x.field 1) 15 12 == emits.code.toNat &&
              (match i.consumerTy t with | some c => fld (x.field 1) 11 8 == c.code.toNat | none => true)
          | [x, y] => fld (x.field 1) 15 12 == emits.code.toNat && fld (x.field 1) 11 8 == fld (y.field 1) 15 12 &&
              (fld (x.field 1) 15 12 == fld (x.field 1) 11 8 || fld (y.field 1) 15 12 == fld (y.field 1) 11 8) &&
              (match i.consumerTy t with | some c => fld (y.field 1) 11 8 == c.code.toNat | none => true)
          | _ => false)
  | _ => true

/-- Instructions that fire an ind exit (R353). -/
def firesInd : Instr → Bool
  | .callx _ | .tqget _ | .tqsteal _ => true
  | _ => false

/-- Exits that a slot's targets may name (R353, R358, R65): `k` is the target's number. -/
def Image.exitOk (i : Image) (x : Instr) (k : Nat) : Target → Bool
  | .exit n =>
    let e := i.exitEntry n.toNat
    if (formOf x).targets == .writes then false
    else match x with
    | .cont _ => e.kind == 5
    | .halt _ | .haltRes _ => e.kind == 3 && !e.ind
    | .callx _ => e.ind
    | .tqget _ | .tqsteal _ => if k == 0 then e.ind else !e.ind && e.kind != 5
    | .eretRs _ | .eretNb _ | .eretAb _ | .eretDr _ => e.kind == 0 && !e.ind
    | _ => !e.ind && e.kind != 5
  | t =>
    match (formOf x).targets with
    | .exit0 | .exit01 => t == .none
    | .writes => (match t with | .output _ => true | .none => true | _ => false)
    | _ => true

/-- Targets an instruction must have (R358, R361). -/
def needsTarget0 (x : Instr) : Bool :=
  match (formOf x).targets with
  | .exit0 => true
  | .exit01 => (match x with | .tqsteal _ | .tqget _ => true | _ => false)
  | _ => false

def needsTarget1 (x : Instr) : Bool :=
  match (formOf x).targets with
  | .exit01 => (match x with | .tqsteal _ | .tqget _ => true | _ => false)
  | _ => false

/-- LSID rules of a slot (R102, R206, R294). -/
def Image.lsidOk (i : Image) (x : Instr) : Bool :=
  match lsidOf (formOf x) (slotOf x) with
  | none => true
  | some k =>
    if Header.stream i.hdr then !isMatrixGroup x
    else i.lsidKind k == some (formOf x).kind && k < Header.nlsid i.hdr &&
      (match x with
        | .barSync _ => (List.range k).all fun j => i.lsidKind j == some .load
        | _ => true)

/-- The target of a field is one that the instruction may have, and must have where it needs one. -/
def Image.exitsBad (i : Image) (c : Instr) : Option (BitVec 4) :=
  let f := slotOf c
  if !i.exitOk c 0 f.t0 || (needsTarget0 c && f.t0 == .none) then some 1
  else if !i.exitOk c 1 f.t1 || (needsTarget1 c && f.t1 == .none) then some 2
  else none

/-- The types of the routes to a slot's targets (R96, R97). -/
def Image.routesBad (i : Image) (c : Instr) (sd : Side) (row : BitVec 2) (col : BitVec 4) (k : BitVec 3) : Option (BitVec 4) :=
  let f := slotOf c
  let ty := (formOf c).emits f.mode f.ty
  if !i.routeOk ty sd row col k f.t0 then some 1
  else if !i.routeOk ty sd row col k f.t1 then some 2
  else none

/-- The field that carries an instruction's LSID. -/
def lsidField (c : Instr) : BitVec 4 := match (formOf c).lsid with | .mode => 0 | _ => 5

def Image.slotStep6 (i : Image) (a : BitVec 12) (x : ElemState) : Option (BitVec 4) :=
  match decodeElem a, decodeStep5 x.fields with
  | .ok (.slot sd row col k), .ok c =>
    match i.pairBad (some sd) false 1 2 (x.field 1) (x.field 2) with
    | some f => some f
    | none => match i.exitsBad c with
      | some f => some f
      | none => match i.routesBad c sd row col k with
        | some f => some f
        | none => if i.lsidOk c then none else some (lsidField c)
  | _, _ => some 1

/-- A route entry whose key matches a target of the image in a box that the target crosses (R96). One that stands in
another box is refused with those that match nothing (log 77, DESIGN CHOICE). -/
def Image.routeUsed (i : Image) (a : BitVec 12) (x : ElemState) : Bool :=
  !bit (x.field 0) 15 ||
  i.instrs.any fun c =>
    match decodeElem c.1 with
    | .ok (.slot sd row col k) =>
      [(slotOf c.2).t0, (slotOf c.2).t1].any fun t =>
        match t with
        | .operand _ to_ _ _ _ .single => to_ != sd && routeKey sd to_ row col k == x.field 0 &&
            (boxes sd to_).contains ((a.toNat - 0x800) / 64)
        | _ => false
    | _ => false

def portElem (egress : Bool) (p : Nat) : Nat := if egress then 0xB00 + p else 0xA00 + p

/-- Step 6 on one element; the field reported. -/
def Image.elemStep6 (i : Image) (a : BitVec 12) (x : ElemState) : Option (BitVec 4) :=
  match decodeElem a with
  | .error _ => some 0
  | .ok (.slot ..) => i.slotStep6 a x
  | .ok (.route ..) => if i.routeUsed a x then (if !bit (x.field 0) 15 || boxOk x then none else some 1) else some 0
  | .ok (.converter eg q) =>
    let port := i.elem (portElem eg q.toNat)
    match Ty.ofCode ((x.field 0).extractLsb' 12 4), Ty.ofCode ((x.field 0).extractLsb' 8 4) with
    | some s, some d =>
      if port.configured && Ty.converts s d && (!bit (x.field 0) 4 || d == .e4m3 || d == .e5m2) &&
          (if eg then fld (port.field 0) 15 12 == s.code.toNat else fld (port.field 2) 15 12 == d.code.toNat) then none else some 0
    | _, _ => some 0
  | .ok (.ingress q) =>
    match i.pairBad (some (portSide q)) true 0 1 (x.field 0) (x.field 1) with
    | some f => some f
    | none =>
    if fld (x.field 2) 11 10 == 1 then
      let conv := i.elem (0x900 + q.toNat)
      if portSide q == .s && (if conv.configured then fld (conv.field 0) 15 12 == 8 else fld (x.field 2) 15 12 == 8) then none else some 2
    else none
  | .ok (.egress q) =>
    if fld (x.field 0) 11 10 == 1 then
      if (portSide q == .w || portSide q == .n) && fld (x.field 0) 15 12 == 14 then none else some 0
    else none
  | .ok (.entry .read _) =>
    let exitBad (v : W16) : Bool := match targetOf v with
      | .exit n => (i.exitEntry n.toNat).ind || (i.exitEntry n.toNat).kind == 5
      | _ => false
    match i.pairBad none false 1 2 (x.field 1) (x.field 2) with
    | some f => some f
    | none => if !bit (x.field 1) 15 || exitBad (x.field 1) then some 1 else if exitBad (x.field 2) then some 2 else none
  | .ok (.entry .write k) =>
    if (List.range k.toNat).all fun j => i.writeReg j != i.writeReg k.toNat then none else some 0
  | .ok (.entry .lsid _) => none
  | .ok (.entry .exit _) =>
    let e := x.exitEntry
    let kd := e.kind.toNat
    let used (lo : Nat) : Option (BitVec 4) :=
      ((List.range 4).find? fun j => x.field (lo + j) != 0).map fun j => BitVec.ofNat 4 (lo + j)
    if e.ind && 1 < kd then some 0
    else match (if kd == 2 || kd == 3 || e.ind then used 1 else none) with
      | some f => some f
      | none => if kd != 1 then used 5 else none
  | .ok (.binding b) =>
    let f0 := x.field 0
    let port := i.elem (portElem (bit f0 15) (fld f0 13 8))
    if port.configured && (if bit f0 15 then fld (port.field 0) 11 10 == 0 else fld (port.field 2) 11 10 == 0) &&
        (List.range b.toNat).all (fun j =>
          let o := i.elem (0xD00 + j)
          !(o.configured && bit (o.field 0) 15 == bit f0 15 && fld (o.field 0) 13 8 == fld f0 13 8)) then none else some 0
  | .ok (.slotTable e) =>
    if !bit (x.field 0) 15 then none
    else if (List.range 16).any (fun j =>
        let o := i.elem (0xD00 + j)
        o.configured && fld (o.field 0) 3 0 == fld (x.field 0) 3 0 &&
          portSide ((o.field 0).extractLsb' 8 6) == Side.ofCode (e.extractLsb' 4 2)) then none else some 0

/-- How many entries of a kind are configured, and that they are numbered from 0 (R101). -/
def Image.dense (i : Image) (base n : Nat) : Bool :=
  (List.range 32).all fun k => (i.elem (base + k)).configured == decide (k < n)

/-- The header-level checks of step 6. A loop's back exit in a block-mode image is reported here, against the header
(log 77, DESIGN CHOICE). -/
def Image.headerStep6 (i : Image) : Bool :=
  let h := i.hdr
  let kinds := (List.range (Header.nexit h)).map fun k => (i.exitEntry k).kind.toNat
  ((i.elems.filter fun e => e.1 < 2048).length == Header.ninstr h) &&
    i.dense 0xC00 (Header.nread h) && i.dense 0xC20 (Header.nwrite h) && i.dense 0xC40 (Header.nexit h) &&
    i.dense 0xC60 (Header.nlsid h) &&
    kinds.count 4 == (if Header.iterate h then 1 else 0) && kinds.count 5 == (if Header.while_ h then 1 else 0)

/-- The check of an image (R103): the first failure. An element that the image leaves unconfigured has no fields to check at
steps 5 and 6 (log 77, DEDUCED). -/
def Image.check (i : Image) : Option CheckFail :=
  match checkHeader i.hdr i.cmds with
  | some e => some e
  | none =>
    match firstSome (checkCommand i.hdr) i.cmds with
    | some e => some e
    | none =>
      let es := i.order.filter fun a => (i.elem a.toNat).configured
      let step5 (a : BitVec 12) : Option CheckFail :=
        match decodeElem a with
        | .error _ => none
        | .ok e => (elemStep5 (Header.stream i.hdr) e (i.elem a.toNat)).map fun f => ⟨5, a, f⟩
      match firstSome step5 es with
      | some e => some e
      | none =>
        if !i.headerStep6 then headerFail 6
        else firstSome (fun a => (i.elemStep6 a (i.elem a.toNat)).map fun f => ⟨6, a, f⟩) es

end Sys2Proof.Machine
end

