-- ==== Sys2Proof/Machine/Home.lean ====
section
/-! DEFINITION. Where an access goes and what storage does with it: effective addresses and their checks (R217,
R234, R235, R276, R389), the bytes and lanes of each type (R277), and reads and writes at a home or in the
scratchpad under class, presence and poison (R224-R231). -/

namespace Sys2Proof.Machine

/-! ### Sizes and lanes (R277) -/

/-- Bytes of one element of a type. -/
def elemBytes (t : Ty) : Nat := t.valueWidth / 8

/-- Access size by type and v. -/
def accessBytes (t : Ty) (v : Bool) : Nat :=
  if t == .w128 || t == .bx then 16 else if v then elemBytes t * t.lanesOf else elemBytes t

/-- The word a load emits from the bytes read (R277). -/
def placeLoad (t : Ty) (v : Bool) (bs : List Byte) : W128 :=
  if v && t.valueWidth == 8 then ofLanes 16 (bs.map (·.toNat)) else BitVec.ofNat 128 (bytesToNat bs)

/-- The bytes a store takes from its word (R277). -/
def takeStore (t : Ty) (v : Bool) (x : W128) : List Byte :=
  if v && t.valueWidth == 8 then (List.range 8).map fun k => BitVec.ofNat 8 (laneNat 16 x k)
  else natToBytes (accessBytes t v) x.toNat

/-! ### Effective addresses and checks -/

/-- What an access is, for its permission and class (R224, R241). -/
inductive Role where
  | load | store | empty | atomic | ldpq
  deriving DecidableEq, Repr

def Role.need : Role → Need
  | .load | .ldpq => .read
  | _ => .write

/-- The class rule of R224, R281, R282, R290. -/
def Role.classOk (r : Role) (p : Bool) (n : Nat) : Bool :=
  match r with
  | .load => true
  | .store => !p || 8 ≤ n
  | .empty | .ldpq => p
  | .atomic => !p

/-- A region of the scratchpad is P (R223). -/
def Pack.padP (p : Pack) (t : TileId) (off : Nat) : Bool := bit (Desc.spcls (p.tileDesc t)) (off / 65536)

/-- A scratchpad offset outside the footprint, over state saved in place (R389). -/
def Pack.padBreach (p : Pack) (t : TileId) (off : Nat) : Bool :=
  !(p.tile t).inPlace.isEmpty && !bit (Desc.fpsp (p.tileDesc t)) (off / 65536)

def Pack.omBreach (p : Pack) (t : TileId) (slot : Nat) : Bool :=
  !(p.tile t).inPlace.isEmpty && !bit (Desc.fpom (p.tileDesc t)) slot

def Pack.accBreach (p : Pack) (t : TileId) (a : Nat) : Bool :=
  !(p.tile t).inPlace.isEmpty && !bit (Desc.fpacc (p.tileDesc t)) a

/-- An S access (R217, R276, R389): alignment, then range, then footprint and class. -/
def checkS (p : Pack) (t : TileId) (role : Role) (a : Int) (n : Nat) : Except XErr Place :=
  if a % (n : Int) != 0 then .error (xerr 3 0)
  else if a < 0 || (2 ^ 22 : Int) < a + n then .error (xerr 4 4)
  else
    let off := a.toNat
    if p.padBreach t off then .error (xerr 5 8)
    else
      let c := p.padP t off
      if role.classOk c n then .ok (.scratch off c) else .error (xerr 5 5)

/-- A G access, in the order of R235, with what its translation leaves behind. `far` is the largest access that another
package takes: 8 bytes of a program's, any element of a writing engine operation (R218, R307). -/
def checkFar (m : Memory) (p : Pack) (t : TileId) (lvl : Bool) (role : Role) (va : VA) (n far : Nat) :
    Except XErr Place × WalkNote :=
  let vi := p.tileVi t
  match p.peerCheck vi va with
  | .error e => (.error e, {})
  | .ok peer =>
    if va.toNat % n != 0 then (.error (xerr 3 0), {})
    else
      match peer with
      | some mem => if far < n then (.error (xerr 5 6), {}) else (.ok (.remote mem), {})
      | none =>
        match translateAt m p t vi va with
        | (.error e, g) => (.error e, g)
        | (.ok mp, g) =>
          match mp.permits role.need lvl with
          | some e => (.error e, g)
          | none =>
            if !role.classOk mp.cls n then (.error (xerr 5 5), g)
            else match paPlace mp.pa with
              | none => (.error (xerr 4 3), g)
              | some (d, off) => (.ok (.home d off mp.cls mp.scope), g)

def checkG (m : Memory) (p : Pack) (t : TileId) (lvl : Bool) (role : Role) (va : VA) (n : Nat) :
    Except XErr Place × WalkNote := checkFar m p t lvl role va n 8

/-! ### Package memory at its home -/

/-- The poison code takes a granule (R229, R230). -/
def Memory.poisonGranule (m : Memory) (a : Nat) : Memory :=
  { m with poison := sset false m.poison (a / 16) true, bad := sset false m.bad (a / 16) false, flaw := sset false m.flaw (a / 16) false }

/-- What the code of a granule shows a read (R229): nothing, an error it corrects, one it cannot. -/
inductive Ecc where
  | clean | fixed | found
  deriving DecidableEq, Repr

/-- A read of the granule at `a` (R229): a correctable error is corrected and written back, an uncorrectable one not yet
found makes the granule poisoned. -/
def Memory.settle (m : Memory) (a : Nat) : Memory × Ecc :=
  if sget false m.bad (a / 16) then (m.poisonGranule a, .found)
  else if sget false m.flaw (a / 16) then ({ m with flaw := sset false m.flaw (a / 16) false }, .fixed)
  else (m, .clean)

/-- What a write did: whether a full P word dropped it, an ECC_DEFERRED subcode, and what its read part met. -/
structure Wrote where
  dropped : Bool := false
  ecc : Option Byte := none
  read : Ecc := .clean
  deriving DecidableEq, Repr

/-- The half of a write that came first counts too (R246). -/
def Wrote.join (a b : Wrote) : Wrote :=
  { dropped := a.dropped || b.dropped, ecc := a.ecc.or b.ecc, read := if a.read == .clean then b.read else a.read }

/-- The subcode of ECC_DEFERRED for an offset of a die: HBM or tier (R406). -/
def eccSub (a : Nat) : Byte := if a % 2 ^ 38 < 0x1000000000 then 1 else 2

/-- A write through an M mapping (R224, R230): a whole granule replaces it; less merges, or finds poison. -/
def Memory.storeM (m : Memory) (a : Nat) (bs : List Byte) : Memory × Wrote :=
  let n := bs.length
  if n == 16 then
    ({ cells := writeBytes m.cells a bs, full := setMarks m.full (a / 8) true 2, poison := sset false m.poison (a / 16) false,
       bad := sset false m.bad (a / 16) false, flaw := sset false m.flaw (a / 16) false }, {})
  else
    let r := m.settle a
    if m.badGranule a then (m.poisonGranule a, { ecc := some (eccSub a), read := r.2 })
    else
      ({ r.1 with cells := writeBytes m.cells a bs, full := if 8 ≤ n then sset false m.full (a / 8) true else m.full }, { read := r.2 })

/-- Write one P word (R224, R227). -/
def Memory.fillWord (m : Memory) (a : Nat) (bs : List Byte) : Memory × Bool :=
  if m.isFull a then (m, true)
  else ({ m with cells := writeBytes m.cells a bs, full := sset false m.full (a / 8) true }, false)

/-- A write through a P mapping of 8 or 16 bytes (R227, R230). -/
def Memory.storeP (m : Memory) (a : Nat) (bs : List Byte) : Memory × Wrote :=
  let (m0, read) := m.settle a
  let (m1, d1) := m0.fillWord a (bs.take 8)
  if bs.length == 16 then
    let (m2, d2) := m1.fillWord (a + 8) (bs.drop 8)
    (m2, { dropped := d1 || d2, read := read })
  else (m1, { dropped := d1, read := read })

/-- EMPTY on a word: poisoned granules stay full (R282). -/
def Memory.emptyWord (m : Memory) (a : Nat) : Memory :=
  if m.badGranule a then m else { m with full := sset false m.full (a / 8) false }

/-! ### The scratchpad (R231) -/

def Tile.padBadWord (t : Tile) (w : Nat) : Bool := sget false t.padPoison w || sget false t.padBad w

def Tile.padIsFull (t : Tile) (w : Nat) : Bool := sget false t.padPoison w || sget false t.padFull w

def Tile.padPoisonWord (t : Tile) (w : Nat) : Tile :=
  { t with padPoison := sset false t.padPoison w true, padBad := sset false t.padBad w false }

/-- A write of whole words through an M region. -/
def Tile.padReplace (t : Tile) (off : Nat) (bs : List Byte) : Tile :=
  let n := bs.length / 8
  { t with
    pad := writeBytes t.pad off bs
    padFull := setMarks t.padFull (off / 8) true n
    padPoison := setMarks t.padPoison (off / 8) false n
    padBad := setMarks t.padBad (off / 8) false n }

def Tile.padFillWord (t : Tile) (off : Nat) (bs : List Byte) : Tile × Bool :=
  if t.padIsFull (off / 8) then (t, true)
  else ({ t with pad := writeBytes t.pad off bs, padFull := sset false t.padFull (off / 8) true }, false)

/-- A scratchpad write of 1, 2, 4, 8 or 16 bytes under its region's class. -/
def Tile.padStore (t : Tile) (off : Nat) (p : Bool) (bs : List Byte) : Tile × Wrote :=
  let n := bs.length
  if p then
    let read : Ecc := if sget false t.padBad (off / 8) || (n == 16 && sget false t.padBad (off / 8 + 1)) then .found else .clean
    let t0 := if sget false t.padBad (off / 8) then t.padPoisonWord (off / 8) else t
    let t0 := if n == 16 && sget false t.padBad (off / 8 + 1) then t0.padPoisonWord (off / 8 + 1) else t0
    let (t1, d1) := t0.padFillWord off (bs.take 8)
    if n == 16 then
      let (t2, d2) := t1.padFillWord (off + 8) (bs.drop 8)
      (t2, { dropped := d1 || d2, read := read })
    else (t1, { dropped := d1, read := read })
  else if n < 8 then
    if t.padBadWord (off / 8) then (t.padPoisonWord (off / 8), { ecc := some 3 })
    else ({ t with pad := writeBytes t.pad off bs }, {})
  else (t.padReplace off bs, {})

def Tile.padEmptyWord (t : Tile) (w : Nat) : Tile :=
  if t.padBadWord w then t else { t with padFull := sset false t.padFull w false }

/-! ### Any storage -/

/-- Bytes, presence and poison at a place. -/
def readPlace (m : Memory) (p : Pack) (t : TileId) (pl : Place) (n : Nat) : List Byte :=
  match pl with
  | .scratch off _ => readBytes (p.tile t).pad off n
  | .home d off _ _ => readBytes m.cells (memIndex d off) n
  | .acc a i => natToBytes 16 (sget 0 (p.tile t).acc (a.val * 16384 + i)).toNat
  | _ => []

/-- Words that a place of n bytes covers, at the offsets 0 and 8. -/
def wordOffsets (n : Nat) : List Nat := if n == 16 then [0, 8] else [0]

def placeFull (m : Memory) (p : Pack) (t : TileId) (pl : Place) (n : Nat) : Bool :=
  (wordOffsets n).all fun k =>
    match pl with
    | .scratch off _ => (p.tile t).padIsFull ((off + k) / 8)
    | .home d off _ _ => m.isFull (memIndex d off + k)
    | _ => true

def placeBad (m : Memory) (p : Pack) (t : TileId) (pl : Place) (n : Nat) : Bool :=
  (wordOffsets n).any fun k =>
    match pl with
    | .scratch off _ => (p.tile t).padBadWord ((off + k) / 8)
    | .home d off _ _ => m.badGranule (memIndex d off + k)
    | .acc a i => sget false (p.tile t).accPoison (a.val * 16384 + i)
    | _ => false

def Place.isP : Place → Bool
  | .scratch _ p => p
  | .home _ _ p _ => p
  | _ => false

def Place.isS : Place → Bool
  | .scratch _ _ | .acc _ _ => true
  | _ => false

/-- Write bytes at a place under its class. -/
def writePlace (m : Memory) (p : Pack) (t : TileId) (pl : Place) (bs : List Byte) : Memory × Pack × Wrote :=
  match pl with
  | .scratch off c =>
    let r := (p.tile t).padStore off c bs
    (m, p.modTile t fun _ => r.1, r.2)
  | .home d off c _ =>
    let r := if c then m.storeP (memIndex d off) bs else m.storeM (memIndex d off) bs
    (r.1, p, r.2)
  | _ => (m, p, {})

def emptyPlace (m : Memory) (p : Pack) (t : TileId) (pl : Place) (n : Nat) : Memory × Pack :=
  match pl with
  | .scratch off _ => (m, p.modTile t fun x => (wordOffsets n).foldl (fun x k => x.padEmptyWord ((off + k) / 8)) x)
  | .home d off _ _ => ((wordOffsets n).foldl (fun m k => m.emptyWord (memIndex d off + k)) m, p)
  | _ => (m, p)

/-- Storage gives poison: the copied value is not decided, and the destination takes the poison (R311). -/
def poisonPlace (m : Memory) (p : Pack) (t : TileId) (pl : Place) (n : Nat) : Memory × Pack :=
  match pl with
  | .scratch off _ =>
    (m, p.modTile t fun x => (wordOffsets n).foldl (fun x k => x.padPoisonWord ((off + k) / 8)) x)
  | .home d off _ _ => (m.poisonGranule (memIndex d off), p)
  | _ => (m, p)

/-- What a read of a granule of package memory meets is recorded against its home die, for a VI (R229, R432). -/
def Pack.noteRead (p : Pack) (vi : Fin 64) (a : Nat) (e : Ecc) : Pack :=
  match e with
  | .clean => p
  | .fixed => p.countFix (Fin.ofNat 8 (a / 2 ^ 38))
  | .found => p.softError (Fin.ofNat 8 (a / 2 ^ 38)) vi (eccSub a)

/-- A read of one granule of package memory for a VI (R229). -/
def readGranule (m : Memory) (p : Pack) (vi : Fin 64) (a : Nat) : Memory × Pack :=
  let r := m.settle a
  (r.1, p.noteRead vi a r.2)

/-- An error met on a read is corrected, or found: the storage is poisoned and the error recorded (R229, R231). -/
def settlePlace (m : Memory) (p : Pack) (t : TileId) (vi : Fin 64) (pl : Place) (n : Nat) : Memory × Pack :=
  match pl with
  | .scratch off _ =>
    (wordOffsets n).foldl (fun (mp : Memory × Pack) k =>
      let w := (off + k) / 8
      if sget false (mp.2.tile t).padBad w then
        (mp.1, (mp.2.modTile t (·.padPoisonWord w)).softError t.die vi 3)
      else mp) (m, p)
  | .home d off _ _ => readGranule m p vi (memIndex d off)
  | _ => (m, p)

/-! ### Writes and the loads they serve (R225) -/

def Place.shift (pl : Place) (k : Nat) : Place :=
  match pl with
  | .scratch off p => .scratch (off + k) p
  | .home d off p sc => .home d (off + k) p sc
  | x => x

/-- An engine writes part of a word, byte by byte (R246). -/
def Access.bytewise (a : Access) : Bool := a.op.isSome && decide (a.n < 8) && !a.isLoad

/-- The pieces of an access, by offset: its words, and its bytes where an engine writes part of a word (R246). -/
def Access.parts (a : Access) : List Nat := if a.bytewise then List.range a.n else wordOffsets a.n

/-- Those that it has not yet performed. -/
def Access.missing (a : Access) : List Nat := a.parts.filter fun k => (a.got.find? fun g => g.1 == k).isNone

/-- Bytes of one piece. -/
def Access.wordLen (a : Access) : Nat := if a.bytewise then 1 else min a.n 8

/-- The releases that gave n bytes at a place what they hold now (R248). -/
def Pack.releasesAt (p : Pack) (t : TileId) (pl : Place) (n : Nat) : List Release :=
  match pl with
  | .home d off _ _ => (List.range n).flatMap fun j => sget [] p.hist.rels (memIndex d off + j)
  | .scratch off _ => (List.range n).flatMap fun j => sget [] (p.tile t).padRels (off + j)
  | _ => []

/-- A deferred load takes the words that a write has just filled, with what it hears by them; a 16-byte load of the
scratchpad, which is one event, takes its two words once both are full (R225, R246, R251). -/
def Access.serve (a : Access) (m0 : Memory) (p0 : Pack) (m1 : Memory) (p1 : Pack) : Access :=
  if a.st != .deferred then a
  else
    let full (m : Memory) (p : Pack) (k : Nat) : Bool := placeFull m p a.tile (a.place.shift k) a.wordLen
    let filled := a.missing.filter fun k => !full m0 p0 k && full m1 p1 k
    let now := if a.place.isS then (if a.missing.all (full m1 p1) then a.missing else []) else filled
    let take (k : Nat) : Nat × W64 × Bool :=
      (k, BitVec.ofNat 64 (bytesToNat (readPlace m1 p1 a.tile (a.place.shift k) a.wordLen)),
        placeBad m1 p1 a.tile (a.place.shift k) a.wordLen)
    let hear (k : Nat) : List Release := p1.releasesAt a.tile (a.place.shift k) a.wordLen
    { a with got := a.got ++ now.map take, heard := a.heard ++ now.flatMap hear }

/-- Storage as a step leaves it, with every load deferred on a word it filled served. -/
def State.stored (s : State) (r : Memory × Pack) : State :=
  { s with mem := r.1, pk := { r.2 with accs := r.2.accs.map fun a => a.serve s.mem s.pk r.1 r.2 } }

/-! ### What translation leaves behind (R229, R236, R240) -/

/-- A list of at most n entries, the newest first, in which one key stands once. -/
def fillTrans (n : Nat) (e : Trans) (l : List Trans) : List Trans :=
  e :: (l.filter fun k => !(k.vi == e.vi && k.first ≤ e.last && e.first ≤ k.last)).take (n - 1)

def Tile.fillTlb (t : Tile) (e : Trans) : Tile := { t with tlb := fillTrans 2048 e t.tlb }

def Die.fillCache (d : Die) (e : TabEntry) : Die :=
  { d with cache := e :: (d.cache.filter fun k => !(k.vi == e.vi && k.level == e.level && k.index == e.index)).take 65535 }

/-- A walk of a die's pool: the errors its reads met are corrected or recorded, and the die translation cache keeps its
entries. -/
def State.walkedOn (s : State) (d : DieId) (vi : Fin 64) (n : WalkNote) : State :=
  let s1 := n.read.foldl (fun s g => s.stored (readGranule s.mem s.pk vi (16 * g))) s
  { s1 with pk := n.entries.foldl (fun p e => p.modDie d (·.fillCache e)) s1.pk }

/-- A walk for a tile, whose TLB keeps the page. -/
def State.walked (s : State) (t : TileId) (vi : Fin 64) (n : WalkNote) : State :=
  let s1 := s.walkedOn t.die vi n
  match n.leaf with
  | some e => { s1 with pk := s1.pk.modTile t (·.fillTlb e) }
  | none => s1

end Sys2Proof.Machine
end

