-- ==== Sys2Proof/Machine/Views.lean ====
section
/-! DEFINITION. Which state of a word of package memory a load reads (R247-R253): the history of writes, what happens-before an
access, and what an event lets its agent see. The scratchpad shows its newest state alone (log 82). -/

namespace Sys2Proof.Machine

/-! ### Agents (R244) -/

/-- The scopes of an access that acquires or releases (R250, R280): its instruction's, tile in the scratchpad, and its P
mapping's or region's. -/
def Access.scopes (a : Access) : List (BitVec 2) :=
  (match a.kind, a.place with
    | .lda _, .scratch .. | .stl _, .scratch .. => [0]
    | .lda sc, _ | .stl sc, _ => [sc]
    | _, _ => []) ++
  (match a.place with
    | .scratch _ true => [0]
    | .home _ _ true sc => [sc]
    | _ => [])

/-- An access of a context, as against one of a section, an engine operation or another package. -/
def Access.ofContext (a : Access) : Bool := a.op.isNone && a.origin.isNone && !a.work.stream

/-- The engine operation whose event an access is, with its tile: its own, or the one that armed its section (R244). -/
def Pack.agent? (p : Pack) (a : Access) : Option (TileId × Nat) :=
  match a.op with
  | some id => some ((a.owner.map (·.1)).getD a.tile, id)
  | none => if a.work.stream then ((p.tile a.tile).section? a.work.ctx a.work.img).map fun x => (a.tile, x.op) else none

/-- The context of an access, while its residency stands on its tile. -/
def Pack.track? (p : Pack) (a : Access) : Option Track :=
  if a.ofContext && (p.tile a.tile).res == a.res then some (p.ctx a.tile a.work.ctx).track else none

/-- What happens-before an access (R252). Of an agent that is another package's, or is gone, everything performed does (log
82). -/
def Pack.floorOf (p : Pack) (a : Access) : Floor :=
  if a.origin.isSome then .all p.hist.writes
  else match p.agent? a with
    | some (t, id) => ((p.tile t).op? id).elim (.all p.hist.writes) fun o => o.floor.getD {}
    | none => (p.track? a).elim (.all p.hist.writes) fun x => (x.at_ a.work.n a.lsid).floor

/-- The latest write to a word that happens-before a load of it: of a section, its own writes of earlier beats too (R249 row
1). -/
def Pack.readFloor (p : Pack) (a : Access) (w : Nat) : Nat :=
  let own : Nat := if a.work.stream && a.op.isNone && a.origin.isNone then
      ((p.agent? a).bind fun x => (p.tile x.1).op? x.2).elim 0 fun o => sget 0 o.own w else 0
  max own ((p.floorOf a).at_ w)

/-- An event at the place of an access lets what follows it in its agent see more. -/
def Pack.learn (p : Pack) (a : Access) (v : View) : Pack :=
  if a.origin.isSome then p
  else match p.agent? a with
    | some (t, id) => p.modTile t (·.modOp id fun o => { o with gained := o.gained.join v.floor })
    | none =>
      if (p.track? a).isSome then p.modCtx a.tile a.work.ctx fun x => { x with track := x.track.add a.work.n a.lsid v } else p

/-- An acquire of a context at a place: every line of the tile's block cache goes, and what follows sees more (R249 row 3,
R262, R304). -/
def Pack.joined (p : Pack) (t : TileId) (w : Work) (lsid : Nat) (f : Floor) : Pack :=
  let p1 := p.modTile t Tile.forgetLines
  if w.stream then p1 else p1.modCtx t w.ctx fun x => { x with track := x.track.add w.n lsid { floor := f } }

/-- What happens-before an event of a context at a place in its program order. -/
def Pack.floorAt (p : Pack) (t : TileId) (c : CtxId) (seq lsid : Nat) : Floor := ((p.ctx t c).track.at_ seq lsid).floor

/-- The fork edge of an operation whose context's earlier events are all acknowledged (R261). -/
def Pack.fork (p : Pack) (t : TileId) (o : Op) : Pack :=
  p.modTile t (·.modOp o.id fun y => { y with floor := some (y.floor.getD (p.floorAt t o.ctx o.po o.lsid)) })

/-! ### Writes -/

/-- The state of a word, as write `k` ends it. -/
def History.leave (h : History) (m : Memory) (k w : Nat) : PastState :=
  { word := w, first := sget 0 h.born w, next := k, value := BitVec.ofNat 64 (bytesToNat (readBytes m.cells (8 * w) 8))
    bad := m.badGranule (8 * w), full := m.isFull (8 * w)
    rels := (List.range 8).map fun j => (j, sget [] h.rels (8 * w + j)) }

/-- Writes of n bytes with the releases that they are. -/
def markRels (key n : Nat) (rs : List Release) (l : List (Nat × List Release)) : List (Nat × List Release) :=
  (List.range n).foldl (fun l j => sset [] l (key + j) rs) l

/-- A write of n bytes at `a` of memory `m`: each of its words has a new state. -/
def History.write (h : History) (m : Memory) (a n : Nat) : History :=
  let k := h.writes + 1
  let ws := (List.range (ceilDiv n 8)).map fun j => a / 8 + j
  { h with writes := k, born := ws.foldl (fun b w => sset 0 b w k) h.born, past := ws.map (h.leave m k) ++ h.past }

/-- The releases that a write of an access is (R251): one for each scope of its own, and one for each scope of an earlier
release fence of its context. `f` adds its own write to what happens-before it. -/
def Pack.releases (p : Pack) (a : Access) (f : Floor → Floor) : List Release :=
  let tile : Option TileId := if a.origin.isSome then none else some ((a.owner.map (·.1)).getD a.tile)
  a.scopes.map (fun sc => { scope := sc, tile := tile, floor := f (p.floorOf a) }) ++
    (((p.track? a).map fun x => (x.at_ a.work.n a.lsid).fences).getD []).map fun x => { scope := x.1, tile := tile, floor := x.2 }

/-- A write's own words join what its agent has written. -/
def Pack.wrote (p : Pack) (a : Access) (ws : List Nat) (k : Nat) : Pack :=
  let add (f : Floor) : Floor := ws.foldl (fun f w => f.add w k) f
  if a.origin.isSome then p
  else match p.agent? a with
    | some (t, id) => p.modTile t (·.modOp id fun o => { o with own := (add { words := o.own }).words })
    | none => p.learn a { floor := add {} }

/-- A write by an access at a place takes its place in the coherence order of its words; `m` is memory before it. EMPTY writes
presence alone, and no byte (R247). -/
def Pack.record (p : Pack) (m : Memory) (a : Access) (pl : Place) (n : Nat) : Pack :=
  let marked (key : Nat) (f : Floor → Floor) (l : List (Nat × List Release)) : List (Nat × List Release) :=
    if a.kind == .empty then l else markRels key n (p.releases a f) l
  match pl with
  | .home d off _ _ =>
    let at_ := memIndex d off
    let ws := (List.range (ceilDiv n 8)).map fun j => at_ / 8 + j
    let k := p.hist.writes + 1
    let h := p.hist.write m at_ n
    { p with hist := { h with rels := marked at_ (fun f => ws.foldl (fun f w => f.add w k) f) h.rels } }.wrote a ws k
  | .scratch off _ => p.modTile a.tile fun x => { x with padRels := marked off id x.padRels }
  | _ => p

/-! ### Reads -/

/-- The states that a word has left and that a load whose floor is write `n` of it may still read (R253). -/
def History.readable (h : History) (w n : Nat) : List PastState := h.past.filter fun x => x.word == w && n < x.next

/-- The states besides the newest in which an access may read word k: full ones through a P mapping, of LDPQ any (R224,
R281). -/
def Pack.olderStates (p : Pack) (a : Access) (k : Nat) : List PastState :=
  match a.place.shift k with
  | .home d off isP _ =>
    let w := memIndex d off / 8
    (p.hist.readable w (p.readFloor a w)).filter fun x => !isP || a.kind == .ldpq || x.full
  | _ => []

/-- Which state of word k a load reads: timing chooses among the earlier ones and, where it will do, the newest (none). -/
def State.whichState (s : State) (a : Access) (k : Nat) (newest : Bool) : Option PastState × State :=
  match s.pk.olderStates a k with
  | [] => (none, s)
  | xs => (xs[Config.choice s.freeCount % (if newest then xs.length + 1 else xs.length)]?, { s with freeCount := s.freeCount + 1 })

/-- The releases that gave an access n of its bytes, from the k-th on, in the newest state of their word or an earlier one. -/
def Pack.readsFrom (p : Pack) (a : Access) (k n : Nat) (old : Option PastState) : List Release :=
  let first : Nat := (a.va.toNat + k) % 8
  match old with
  | some x => (x.rels.filter fun r => first ≤ r.1 && r.1 < first + n).flatMap (·.2)
  | none => p.releasesAt a.tile (a.place.shift k) n

/-- A load or a read-modify-write has read from releases (R251): those that its scopes reach synchronise with it, if it is an
acquire, and all of them with an acquire fence that follows. -/
def Pack.hear (p : Pack) (a : Access) (rs : List Release) : Pack :=
  if rs.isEmpty then p
  else
    let t := (a.owner.map (·.1)).getD a.tile
    p.learn a { floor := acquired rs (if a.isLoad then a.scopes else []) t, heard := rs }

end Sys2Proof.Machine
end

