-- ==== Sys2Proof/Machine/Memory.lean ====
section
/-! DEFINITION. The memory and atomic instructions at their firing (R206, R208, R272-R290): the address and its
checks, the access that is made, and what the instance's LSID receives. The access itself is performed by
HOME_ACCESS. -/

namespace Sys2Proof.Machine

/-! ### Shared operations -/

/-- The displacement (R272). -/
def disp (f : Slot) : Int := signedOf 32 f.imm.toNat

/-- The level of the context of the firing in progress. -/
def State.level (s : State) : Bool := s.pk.ctxLevel s.cur.tile s.cur.work.ctx

/-- The effective address of a firing with its checks (R276): where the access goes, its virtual address, and
what its translation leaves behind. An S offset has no virtual address (log 22). -/
def State.address (s : State) (f : Slot) (g : Bool) (role : Role) (l : W128) (n : Nat) : Except XErr Place × VA × WalkNote :=
  if g then
    let va := addrG l (disp f)
    let r := checkG s.mem s.pk s.cur.tile s.level role va n
    (r.1, va, r.2)
  else (checkS s.pk s.cur.tile role (((l.toNat % 2 ^ 32 : Nat) : Int) + disp f) n, 0, {})

/-- The instance of the firing in progress. -/
def State.inst? (s : State) : Option Inst :=
  if s.cur.work.stream then none else (s.pk.tile s.cur.tile).inst? s.cur.work.ctx s.cur.work.n

/-- The access that the firing in progress makes: in a section its place in its beat stands for the LSID (R245). -/
def State.mkAccess (s : State) (fm : Form) (f : Slot) (kind : AccKind) (va : VA) (place : Place) (n : Nat) (v : Bool)
    (data : W128) : Access :=
  { id := s.nextId, tile := s.cur.tile, work := s.cur.work, kind := kind, va := va,
    lsid := if s.cur.work.stream then (s.pk.tile s.cur.tile).beatRank s.cur.elem else (lsidOf fm f).getD 0,
    place := place, n := n, ty := f.ty, v := v, elem := s.cur.elem, t0 := f.t0, t1 := f.t1, data := data,
    lvl := s.pk.ctxLevel s.cur.tile s.cur.work.ctx, res := (s.pk.tile s.cur.tile).res,
    block := s.cur.work.img, iter := (s.inst?.map (·.iter)).getD 0 }

/-- Post an access: its home performs it when its order allows. It is for the VI that its tile has now (R387), or for the one
that another package named. -/
def State.post (s : State) (a : Access) : State :=
  let b := { a with res := if a.origin.isSome then none else (s.pk.tile a.tile).res, vi := a.vi.or (some (s.pk.tileVi a.tile)) }
  { s with pk := { s.pk with accs := s.pk.accs ++ [b] }, nextId := s.nextId + 1 }

/-- A fault token in place of an instruction's effect; at a store of a section, which of the memory instructions are
those with data in R, it stops the section (R58). -/
def State.storeFault (s : State) (f : Slot) (fm : Form) (k : Token) : State :=
  if s.cur.work.stream && f.t0 == .none && f.t1 == .none then
    if k.isFault && fm.needsR then { s with pk := s.pk.sectionFault s.cur.tile s.cur.work k } else s
  else s.finish f fm (.same k)

/-- The virtual address of an access to `g`; an S offset has none (log 22). -/
def vaOf (f : Slot) (g : Bool) (l : W128) : VA := if g then addrG l (disp f) else 0

/-- The common rules for an instruction with an address in L and data in R (R275, R465). Poisoned data traps with the
address it was for (R450). -/
def fireMemory (fm : Form) (f : Slot) (g : Bool) (s : State) (body : W128 → W128 → State) : State :=
  match preFire fm f kData kData s.cur with
  | .drop => s
  | .out t => s.storeFault f fm t
  | .go l r =>
    if l.poison then s.storeFault f fm (faultTok Cause.poison 2 s.cur.elem 0)
    else if r.poison then s.storeFault f fm (faultTok Cause.poison 1 s.cur.elem (vaOf f g l.val))
    else body l.val r.val

/-- Address, checks, then an effect on the place; a failed check gives a fault token (R243). -/
def State.withPlace (s : State) (f : Slot) (fm : Form) (g : Bool) (role : Role) (l : W128) (n : Nat)
    (body : State → Place → VA → State) : State :=
  let r := s.address f g role l n
  let s1 := s.walked s.cur.tile (s.pk.tileVi s.cur.tile) r.2.2
  match r.1 with
  | .error e => s1.storeFault f fm (faultTok e.cause e.sub s.cur.elem r.2.1)
  | .ok pl => body s1 pl r.2.1

/-- Loads outstanding to G on a tile (R278). -/
def Pack.outstanding (p : Pack) (t : TileId) : Nat :=
  (p.accs.filter fun a => a.tile == t && a.origin.isNone && a.op.isNone && a.isLoad && !a.place.isS).length

/-- LD, LDA and LDPQ at firing (R278, R281). -/
def fireLoad (fm : Form) (f : Slot) (kind : AccKind) (role : Role) (n : Nat) (v : Bool) (s : State) : State :=
  fireMemory fm f (f.mode.getLsbD 0) s fun l _ =>
    s.withPlace f fm (f.mode.getLsbD 0) role l n fun s pl va =>
      if !pl.isS && 4096 ≤ s.pk.outstanding s.cur.tile then s.putBack
      else (s.finish f fm { lsid := some (.loaded s.nextId) }).post (s.mkAccess fm f kind va pl n v 0)

/-- Stores that hold an entry of the forwarding table (R61, R196). -/
def LsidVal.isStore : LsidVal → Bool
  | .access a => match a.kind with | .st | .stl _ => true | _ => false
  | _ => false

def Inst.storeCount (i : Inst) : Nat := (i.lsids.filter fun x => x.2.isStore).length

/-- Entries of a context's forwarding table in use. -/
def Tile.forwardUsed (t : Tile) (c : CtxId) : Nat := (t.live c).foldl (fun n i => n + i.storeCount) 0

def Tile.oldest? (t : Tile) (c : CtxId) : Option Inst := (t.live c).head?

/-- The youngest instance of a context, younger than `seq`, that holds an entry. -/
def Tile.youngestHolder (t : Tile) (c : CtxId) (seq : Nat) : Option Inst :=
  ((t.live c).reverse.find? fun i => 0 < i.storeCount && seq < i.seq)

/-- R61: the youngest holder and everything younger are squashed, and spawned again after instance `seq`
commits. -/
def Pack.reclaim (p : Pack) (t : TileId) (c : CtxId) (seq : Nat) (i : Inst) : Pack :=
  (p.squash t c i.seq).respawn t c i (some seq)

/-- Room in the forwarding table for one more store (R61): make it, or wait. -/
inductive Room where
  | yes
  | wait
  | reclaim (seq : Nat) (i : Inst)
  deriving DecidableEq, Repr

def Tile.forwardRoom (t : Tile) (c : CtxId) (seq : Nat) : Room :=
  if t.forwardUsed c < 32 then .yes
  else if (t.oldest? c).map (·.seq) == some seq then
    match t.youngestHolder c seq with
    | some i => .reclaim seq i
    | none => .yes
  else .wait

/-- ST, STL and ACCWR once address and data are known (R61, R208, R279). -/
def State.fireStore (s : State) (f : Slot) (fm : Form) (a : Access) : State :=
  if s.cur.work.stream then s.post a
  else
    let c := s.cur.work.ctx
    match (s.pk.tile s.cur.tile).forwardRoom c s.cur.work.n with
    | .wait => s.putBack
    | .yes => s.finish f fm { lsid := some (.access a) }
    | .reclaim q i =>
      { s with pk := s.pk.reclaim s.cur.tile c q i }.finish f fm { lsid := some (.access a) }

def storeInstr (fm : Form) (f : Slot) (kind : AccKind) (s : State) : State :=
  let v := f.mode.getLsbD 1
  let n := accessBytes f.ty v
  fireMemory fm f (f.mode.getLsbD 0) s fun l r =>
    s.withPlace f fm (f.mode.getLsbD 0) .store l n fun s pl va =>
      s.fireStore f fm (s.mkAccess fm f kind va pl n v r)

/-- A value or a placeholder reaches a write entry; a second one is BLOCK_FORM (R43). -/
def Inst.giveWrite (i : Inst) (k : Nat) (v : WriteVal) : Inst :=
  match alookup k i.writes with
  | none => { i with writes := i.writes ++ [(k, v)] }
  | some _ => { i with second := some (i.second.getD (faultTok Cause.blockForm 2 0 0)) }

/-- Placeholders at the write entries that an atomic targets (R288). -/
def Inst.placeholder (i : Inst) (lsid : BitVec 5) : Target → Inst
  | .output k => i.giveWrite k.toNat (.pending lsid)
  | _ => i

/-- AMO and CAS at firing (R286-R290). -/
def fireAtomic (fm : Form) (f : Slot) (kind : AccKind) (s : State) : State :=
  let n := accessBytes f.ty false
  fireMemory fm f true s fun l r =>
    s.withPlace f fm true .atomic l n fun s pl va =>
      let s1 := s.finish f fm { lsid := some (.access (s.mkAccess fm f kind va pl n false r)) }
      { s1 with pk := s1.pk.modTile s.cur.tile fun t => t.modInst s.cur.work.ctx s.cur.work.n fun i =>
          (i.placeholder f.idx f.t0).placeholder f.idx f.t1 }

/-- A trigger-only instruction whose LSID takes an access without an address (R284, R285). -/
def fireFence (fm : Form) (f : Slot) (kind : AccKind) (s : State) : State :=
  firePlain fm f kTrig 4 5 s fun _ _ => s.finish f fm { lsid := some (.access (s.mkAccess fm f kind 0 .none 0 false 0)) }

/-- The AMO operations (R286). -/
def atomOp (m : BitVec 6) : AtomOp :=
  match fld m 2 0 with
  | 0 => .add | 1 => .and_ | 2 => .or_ | 3 => .xor_ | 4 => .min | 5 => .max | _ => .swap

def seqBit (f : Slot) : Bool := f.mode.getLsbD 3

/-- A sequenced atomic takes S_plain at scope plain, or where its address is remote (R254). -/
def plainScope (f : Slot) : Bool := f.mode.extractLsb' 4 2 == 3

/-- A walk for a tile whose result its TLB keeps (R236). -/
def State.walkInto (s : State) (t : TileId) (va : VA) : State :=
  let vi := s.pk.tileVi t
  s.walked t vi (walk s.mem s.pk t.die vi (va.toNat % 2 ^ 72 / 2 ^ 16)).2

/-! ### Meanings -/

/-- LD (R278). -/
def execLd (f : Slot) (s : State) : Host.Outcome State Fault Refusal :=
  let v := f.mode.getLsbD 1
  .next (fireLoad (formOf (.ld f)) f .ld .load (accessBytes f.ty v) v s)

/-- ST (R279). -/
def execSt (f : Slot) (s : State) : Host.Outcome State Fault Refusal :=
  .next (storeInstr (formOf (.st f)) f .st s)

/-- LDA (R278, R280): an acquire at its scope; an S access has scope tile. -/
def execLda (f : Slot) (s : State) : Host.Outcome State Fault Refusal :=
  let v := f.mode.getLsbD 1
  .next (fireLoad (formOf (.lda f)) f (.lda (f.mode.extractLsb' 2 2)) .load (accessBytes f.ty v) v s)

/-- STL (R279, R280): a release at its scope. -/
def execStl (f : Slot) (s : State) : Host.Outcome State Fault Refusal :=
  .next (storeInstr (formOf (.stl f)) f (.stl (f.mode.extractLsb' 2 2)) s)

/-- EMPTY (R282): performed at commit. -/
def execEmpty (f : Slot) (s : State) : Host.Outcome State Fault Refusal :=
  let fm := formOf (.empty f)
  let n := accessBytes f.ty false
  .next (fireMemory fm f (f.mode.getLsbD 0) s fun l _ =>
    s.withPlace f fm (f.mode.getLsbD 0) .empty l n fun s pl va =>
      s.finish f fm { lsid := some (.access (s.mkAccess fm f .empty va pl n false 0)) })

/-- PREF (R283): a package-local aligned address that translates fills the TLB; anything else does nothing. -/
def execPref (f : Slot) (s : State) : Host.Outcome State Fault Refusal :=
  let fm := formOf (.pref f)
  .next (fireMemory fm f true s fun l _ =>
    let va := addrG l (disp f)
    let s1 := s.finish f fm { lsid := some .waited }
    match s.pk.peerCheck (s.pk.tileVi s.cur.tile) va with
    | .ok none => if va.toNat % 16 == 0 then s1.walkInto s.cur.tile va else s1
    | _ => s1)

/-- ACCRD (R208): performed when R196 allows. -/
def execAccrd (f : Slot) (s : State) : Host.Outcome State Fault Refusal :=
  let fm := formOf (.accrd f)
  .next (fireMemory fm f false s fun l _ =>
    let a : Fin 4 := Fin.ofNat 4 (fld f.mode 1 0)
    if 16384 ≤ lane0 l then s.finish f fm (.fault s.cur Cause.blockForm 4)
    else if s.pk.accBreach s.cur.tile a.val then s.finish f fm (.fault s.cur Cause.prot 8)
    else (s.finish f fm { lsid := some (.loaded s.nextId) }).post
      (s.mkAccess fm f .ld 0 (.acc a (lane0 l)) 16 false 0))

/-- ACCWR (R208): enters the write buffer at commit. -/
def execAccwr (f : Slot) (s : State) : Host.Outcome State Fault Refusal :=
  let fm := formOf (.accwr f)
  .next (fireMemory fm f false s fun l r =>
    let a : Fin 4 := Fin.ofNat 4 (fld f.mode 1 0)
    if 16384 ≤ lane0 l then s.finish f fm (.fault s.cur Cause.blockForm 4)
    else if s.pk.accBreach s.cur.tile a.val then s.finish f fm (.fault s.cur Cause.prot 8)
    else s.fireStore f fm (s.mkAccess fm f .st 0 (.acc a (lane0 l)) 16 false r))

/-- FENCE (R284). -/
def execFence (f : Slot) (s : State) : Host.Outcome State Fault Refusal :=
  .next (fireFence (formOf (.fence f)) f (.fence (f.mode.extractLsb' 0 2) (f.mode.extractLsb' 2 2)) s)

/-- SEQF (R285). -/
def execSeqf (f : Slot) (s : State) : Host.Outcome State Fault Refusal :=
  .next (fireFence (formOf (.seqf f)) f (.seqf (f.mode.getLsbD 0)) s)

/-- LDPQ (R281). -/
def execLdpq (f : Slot) (s : State) : Host.Outcome State Fault Refusal :=
  .next (fireLoad (formOf (.ldpq f)) f .ldpq .ldpq (accessBytes f.ty false) false s)

/-- AMO (R286). -/
def execAmo (f : Slot) (s : State) : Host.Outcome State Fault Refusal :=
  .next (fireAtomic (formOf (.amo f)) f (.amo (atomOp f.mode) (seqBit f) (plainScope f)) s)

/-- CAS (R287). -/
def execCas (f : Slot) (s : State) : Host.Outcome State Fault Refusal :=
  .next (fireAtomic (formOf (.cas f)) f (.cas (seqBit f) (plainScope f)) s)

end Sys2Proof.Machine
end

