-- ==== Sys2Proof/Machine/Ring.lean ====
section
/-! DEFINITION. The sequence queues (R254-R256) and barrier arrivals (R291-R294): what a step puts into an order,
and what a barrier copy makes of an arrival. -/

namespace Sys2Proof.Machine

/-! ### Queues of messages -/

/-- A die's ring queue, and die 0's plain queue, hold 64 messages (R255). -/
def queueRoom : Nat := 64

def Order.room (o : Order) (d : DieId) : Bool := decide ((o.queues.get d).length < queueRoom) && (o.late.get d).isEmpty

def Pack.ringRoom (p : Pack) (d : DieId) : Bool := p.ring.room d

/-- A plain message of die 0 enters the plain queue; of another die, the ring, carried (R256). -/
def Pack.plainRoom (p : Pack) (d : DieId) : Bool :=
  if d == 0 then p.plain.room 0 else p.ringRoom d

/-- A message enters a die's queue, or waits for room in it. -/
def Order.push (o : Order) (d : DieId) (m : Message) : Order :=
  if o.room d then { o with queues := o.queues.set d (o.queues.get d ++ [m]) }
  else { o with late := o.late.set d (o.late.get d ++ [m]) }

/-- A plain message of another die than 0, kept there while the ring carries it (R256). -/
def Order.keep (o : Order) (d : DieId) (m : Message) : Order := { o with queues := o.queues.set d (o.queues.get d ++ [m]) }

/-- Messages that waited enter a die's queue as far as it has room. -/
def Order.refill (o : Order) (d : DieId) : Order :=
  let n := queueRoom - (o.queues.get d).length
  { o with queues := o.queues.set d (o.queues.get d ++ (o.late.get d).take n), late := o.late.set d ((o.late.get d).drop n) }

def Pack.enqueueRing (p : Pack) (d : DieId) (id : Nat) (b : MsgBody) (fl : Floor := {}) : Pack :=
  { p with ring := p.ring.push d { id := id, die := d, body := b, floor := fl } }

def Pack.enqueuePlain (p : Pack) (d : DieId) (id : Nat) (b : MsgBody) (fl : Floor := {}) : Pack :=
  let m : Message := { id := id, die := d, body := b, heard := 1, floor := fl }
  if d == 0 then { p with plain := p.plain.push d m } else ({ p with plain := p.plain.keep d m }).enqueueRing d id (.carried none)

def Pack.seqRoom (p : Pack) (d : DieId) (plain : Bool) : Bool := if plain then p.plainRoom d else p.ringRoom d

def Pack.enqueueSeq (p : Pack) (d : DieId) (plain : Bool) (id : Nat) (b : MsgBody) (fl : Floor := {}) : Pack :=
  if plain then p.enqueuePlain d id b fl else p.enqueueRing d id b fl

/-- A message that waits in a queue of either order: not yet sent. -/
def Order.waiting (o : Order) (id : Nat) : Bool := allDies.any fun d => (o.queues.get d ++ o.late.get d).any fun m => m.id == id

def Pack.unsent (p : Pack) (id : Nat) : Bool := p.ring.waiting id || p.plain.waiting id

def Pack.order (p : Pack) (plain : Bool) : Order := if plain then p.plain else p.ring

/-- An atomic that a message carries has yet to be performed by its home (R257). -/
def Pack.atomicDue (p : Pack) (m : Message) : Bool :=
  match m.body with
  | .atomic a => (match a.place with
    | .home h _ _ _ => bit p.ringUp h.val && !bit m.acted h.val
    | .remote _ => p.accs.any fun b => b.id == a.id
    | _ => false)
  | .foreign (.atomic ..) => p.ringUp &&& ~~~ m.acted != 0
  | _ => false

/-- Atomics before a message of an order have yet to be performed: what follows the message must observe them (R258). -/
def Pack.atomicsDue (p : Pack) (plain : Bool) (id : Nat) : Bool :=
  let o := p.order plain
  o.sent.any (fun m => m.id == id) && (o.sent.takeWhile fun m => m.id != id).any p.atomicDue

/-! ### Barriers (R291) -/

/-- An arrival counted at a copy, with what happens-before it; the phase completes when the count reaches E, and what its
arrivals brought holds for its completions (R264). -/
def BarCopy.arrive (fl : Floor) (b : BarCopy) : BarCopy :=
  let n := b.count + 1
  let acc := b.acc.join fl
  if 1 ≤ b.e && b.e ≤ n then { b with count := 0, phase := b.phase + 1, acc := {}, met := b.met.join acc }
  else { b with count := n, acc := acc }

/-- The copy of barrier b that a context of tile t counts at: the tile's for scope tile, its residency's
otherwise (R264). The scope is the residency's, kept with both (log 23). -/
def Pack.resBar (p : Pack) (t : TileId) (b : Fin 16) : BarCopy :=
  match p.resOf t with
  | some (_, r) => r.bars.get b
  | none => (p.tile t).bars.get b

def Pack.barCopy (p : Pack) (t : TileId) (b : Fin 16) : BarCopy :=
  let r := p.resBar t b
  if r.scope == some 0 then (p.tile t).bars.get b else r

def Pack.modResBar (p : Pack) (r : Nat) (b : Fin 16) (f : BarCopy → BarCopy) : Pack :=
  p.modResid r fun x => { x with bars := x.bars.set b (f (x.bars.get b)) }

def Pack.modTileBar (p : Pack) (t : TileId) (b : Fin 16) (f : BarCopy → BarCopy) : Pack :=
  p.modTile t fun x => { x with bars := x.bars.set b (f (x.bars.get b)) }

def Pack.modBar (p : Pack) (t : TileId) (b : Fin 16) (f : BarCopy → BarCopy) : Pack :=
  if (p.resBar t b).scope == some 0 then p.modTileBar t b f
  else match (p.tile t).res with
    | some r => p.modResBar r b f
    | none => p.modTileBar t b f

/-- A context's record becomes (phase, 0) when its arrival is sent (R293, R294). -/
def Pack.recordArrival (p : Pack) (t : TileId) (c : CtxId) (b : Fin 16) : Pack :=
  let ph := (p.barCopy t b).phase
  p.modCtx t c fun x => { x with bar := x.bar.set b { q := ph, o := false } }

/-- The arrival of a context at a barrier whose scope is set: counted at a tile or die copy at once, sent as a
sequenced message otherwise (R264). `fl` is what happens-before it. -/
def Pack.arriveAt (p : Pack) (t : TileId) (c : CtxId) (b : Fin 16) (id : Nat) (fl : Floor) : Pack :=
  let p1 := p.recordArrival t c b
  match (p.resBar t b).scope, (p.tile t).res with
  | some 0, _ | some 1, _ => p1.modBar t b (·.arrive fl)
  | some s, some r => p1.enqueueSeq t.die (s == 3) id (.arrive r b) fl
  | _, _ => p1.modBar t b (·.arrive fl)

/-- Phase q of the record has completed at its copy. -/
def Pack.phaseDone (p : Pack) (t : TileId) (c : CtxId) (b : Fin 16) : Bool :=
  (p.barCopy t b).phase != ((p.ctx t c).bar.get b).q

/-- The barrier needs a slot of a sequence queue for an arrival. -/
def Pack.barRoom (p : Pack) (t : TileId) (b : Fin 16) : Bool :=
  match (p.resBar t b).scope with
  | some 2 => p.ringRoom t.die
  | some 3 => p.plainRoom t.die
  | _ => true

/-- BAR.ARR at commit (R293). -/
def Pack.barArr (p : Pack) (t : TileId) (c : CtxId) (b : Fin 16) (id : Nat) (fl : Floor) : Pack :=
  let r := (p.ctx t c).bar.get b
  if (p.resBar t b).scope == none then p.defer t c Cause.barrierOverflow 3
  else if !r.o && !p.phaseDone t c b then p.defer t c Cause.barrierOverflow 1
  else p.arriveAt t c b id fl

/-- BAR.INIT at commit (R292). -/
def Pack.barInit (p : Pack) (t : TileId) (c : CtxId) (b : Fin 16) (scope : BitVec 2) (e : Nat) : Pack :=
  let r := p.resBar t b
  let copy := if scope == 0 then (p.tile t).bars.get b else r
  if (r.scope == none || r.scope == some scope) && copy.count < e then
    let p1 := match (p.tile t).res with
      | some k => p.modResBar k b fun x => { x with scope := some scope }
      | none => p
    let p2 := p1.modTileBar t b fun x => { x with scope := some scope }
    p2.modBar t b fun x => { x with e := e }
  else p.defer t c Cause.barrierOverflow 2

end Sys2Proof.Machine
end

