-- ==== Sys2Proof/Machine/Local.lean ====
section
/-! DEFINITION. Local order (R244, R245, R249, R257, R284, R285): which accesses of a context or a section one
access waits for, and what a context's live instances still owe. -/

namespace Sys2Proof.Machine

/-! ### Pairs of accesses (R249) -/

/-- Bytes that two accesses share, by place; accesses whose place is not known share none. -/
def Place.words (pl : Place) (n : Nat) : Option (Nat × Nat × Nat) :=
  match pl with
  | .scratch off _ => some (0, off / 8, (off + n - 1) / 8)
  | .home d off _ _ => some (1, memIndex d off / 8, (memIndex d off + n - 1) / 8)
  | .acc a i => some (2, a.val * 16384 + i, a.val * 16384 + i)
  | _ => .none

def wordsMeet (a b : Option (Nat × Nat × Nat)) : Bool :=
  match a, b with
  | some (s, f, l), some (s', f', l') => s == s' && f ≤ l' && f' ≤ l
  | _, _ => false

def Access.sameWord (a b : Access) : Bool :=
  match a.place, b.place with
  | .remote m, .remote m' => m == m' && a.va.toNat / 8 == b.va.toNat / 8
  | p, q => wordsMeet (p.words a.n) (q.words b.n)

def AccKind.isFence : AccKind → Bool
  | .fence .. => true
  | _ => false

/-- Kind 00 acquire, 01 release, 10 full (R273). -/
def AccKind.acqFence : AccKind → Bool
  | .fence k _ => k != 1
  | _ => false

def AccKind.relFence : AccKind → Bool
  | .fence k _ => k != 0
  | _ => false

def AccKind.isSeq : AccKind → Bool
  | .seqf _ => true
  | .amo _ q _ | .cas q _ => q
  | _ => false

/-- An access through a P mapping or region (R224), of another package too (log 80). -/
def Access.onP (a : Access) : Bool :=
  match a.place with
  | .remote m => Config.remoteP m (a.va.toNat % 2 ^ 72)
  | pl => pl.isP

/-- Acquires (R226, R262, R280): ACCRD is the join of the operations it waits for. -/
def Access.isAcquire (a : Access) : Bool :=
  match a.kind, a.place with
  | .lda _, _ | .ld, .acc .. => true
  | .ld, _ | .ldpq, _ => a.onP
  | _, _ => false

def Access.isRelease (a : Access) : Bool :=
  match a.kind with
  | .stl _ | .empty | .arrive .. | .trig | .launch .. | .tqput _ | .spawned _ | .hrel _ => true
  | .st => a.onP
  | _ => false

/-- A sequenced operation takes the plain's order (R254). -/
def Access.seqPlain (a : Access) : Bool :=
  match a.kind with
  | .amo _ _ p | .cas _ p => p || (match a.place with | .remote _ => true | _ => false)
  | .seqf p => p
  | _ => false

/-- Accesses to storage, as against fences and messages. -/
def AccKind.touches : AccKind → Bool
  | .fence .. | .seqf _ | .arrive .. | .trig | .launch .. | .tqput _ | .spawned _ | .hrel _ | .landed .. => false
  | _ => true

def Access.isLoadLike (a : Access) : Bool :=
  match a.kind with
  | .ld | .lda _ | .ldpq | .amo .. | .cas .. => true
  | _ => false

def Access.isStoreLike (a : Access) : Bool :=
  match a.kind with
  | .st | .stl _ | .empty | .amo .. | .cas .. => true
  | _ => false

/-- Rows 1 to 10 of R249: b, later in program order, is performed after a. -/
def ordered (a b : Access) : Bool :=
  (a.kind.touches && b.kind.touches && a.sameWord b) ||
  (a.place.isS && b.place.isS) ||
  a.isAcquire || b.isRelease ||
  (a.kind.touches && b.kind.relFence) ||
  (a.kind.relFence && (b.isStoreLike || b.isRelease || b.kind.isSeq)) ||
  (a.isLoadLike && b.kind.acqFence) ||
  a.kind.acqFence || b.kind.isSeq || a.kind.isSeq

/-- An access of a program, as against one of an engine operation or of another package. -/
def Access.ofProgram (a : Access) : Bool := a.op.isNone && a.origin.isNone

/-- Program order among accesses of one context or one section (R245): by instance and LSID, or by beat and the place in
it. -/
def Access.poBefore (a b : Access) : Bool :=
  a.ofProgram && b.ofProgram && a.tile == b.tile && a.res == b.res && a.work.ctx == b.work.ctx && a.work.stream == b.work.stream &&
    (!a.work.stream || a.work.img == b.work.img) && (a.work.n < b.work.n || (a.work.n == b.work.n && a.lsid < b.lsid))

/-- Local order between two accesses, the first earlier in program order: all rows of R249, of a stream section row 1
alone (R259). -/
def Access.localOrder (a b : Access) : Bool := if a.work.stream then a.kind.touches && b.kind.touches && a.sameWord b else ordered a b

/-- Earlier accesses, not yet performed, that hold `b` back. -/
def Pack.heldByPosted (p : Pack) (b : Access) : Bool := p.accs.any fun a => a.poBefore b && a.localOrder b

/-- Events of a context earlier than a place in its program order that are not yet performed and acknowledged
(R249, R261). -/
def Pack.unacked (p : Pack) (t : TileId) (c : CtxId) (seq lsid : Nat) : Bool :=
  p.accs.any fun a => a.ofProgram && a.tile == t && a.res == (p.tile t).res && a.work.ctx == c && !a.work.stream &&
    (a.work.n < seq || (a.work.n == seq && a.lsid < lsid))

/-! ### What live instances still owe -/

/-- The image of an instance or a section: it stands in the active plane, whether or not the context store still keeps it
(R19). -/
def Pack.imageOf (p : Pack) (t : TileId) (a : VA) : Option Image :=
  ((p.tile t).active.image? a).or ((p.tile t).image? a (p.tileVi t))

/-- An LSID that an instruction of the image names. -/
def Image.users (i : Option Image) (k : Nat) : List Instr :=
  match i with
  | some x => x.lsidUsers k
  | none => []

/-- How an instruction orders what follows it, before it has fired or been performed (R249 rows 3, 8, 10). -/
def holdsAll : Instr → Bool
  | .lda _ | .accrd _ | .seqf _ | .barSync _ | .cwait _ | .hwait _ | .waitdep _ | .join _ => true
  | .fence f => f.mode.extractLsb' 0 2 != 1
  | .amo f | .cas f => seqBit f
  | _ => false

def isPlainLoad : Instr → Bool
  | .ld _ | .ldpq _ => true
  | _ => false

/-- Instructions that write a place they name: stores, and those that read and write it or empty it. -/
def isStoreInstr : Instr → Bool
  | .st _ | .stl _ | .accwr _ | .amo _ | .cas _ | .empty _ => true
  | _ => false

/-- An LSID's value leaves nothing to wait for: null, or a wait that has fired, or a load that has returned. -/
def Pack.lsidSettled (p : Pack) (v : LsidVal) : Bool :=
  match v with
  | .null | .fault _ | .waited | .hwaited _ | .barSync _ true _ | .joined _ => true
  | .loaded id => !(p.accs.any fun a => a.id == id)
  | _ => false

/-- Where the first byte of an access stands, by storage: the scratchpad, package memory, an accumulator, another
package. -/
def Access.base (a : Access) : Option (Nat × Nat) :=
  match a.place with
  | .scratch off _ => some (0, off)
  | .home d off _ _ => some (1, memIndex d off)
  | .acc b i => some (2, 16 * (b.val * 16384 + i))
  | .remote m => some (3 + m.val, a.va.toNat % 2 ^ 72)
  | .none => none

/-- The bytes that two accesses touch meet. -/
def Access.meets (a b : Access) : Bool :=
  match a.base, b.base with
  | some (s, x), some (s', y) => s == s' && decide (x < y + b.n) && decide (y < x + a.n)
  | _, _ => false

/-- What a memory instruction is at its place (R224). -/
def roleOf : Instr → Role
  | .ld _ | .lda _ => .load
  | .ldpq _ => .ldpq
  | .empty _ => .empty
  | .amo _ | .cas _ => .atomic
  | _ => .store

/-- Bytes that a memory instruction reaches (R277). -/
def sizeOf_ (i : Instr) : Nat :=
  match i with
  | .ld f | .lda f | .st f | .stl f => accessBytes f.ty (f.mode.getLsbD 1)
  | i => accessBytes (slotOf i).ty false

/-- Where a memory instruction that has not fired will go, once it has its address: none when that address fails a
check. -/
def firePlace (m : Memory) (p : Pack) (t : TileId) (lvl : Bool) (i : Instr) (l : W128) : Option (Place × Nat) :=
  let f := slotOf i
  match i with
  | .accwr _ => if lane0 l < 16384 then some (.acc (Fin.ofNat 4 (fld f.mode 1 0)) (lane0 l), 16) else none
  | _ =>
    let n := sizeOf_ i
    let g := match i with | .amo _ | .cas _ => true | _ => f.mode.getLsbD 0
    let r := if g then (checkG m p t lvl (roleOf i) (addrG l (disp f)) n).1
      else checkS p t (roleOf i) (((l.toNat % 2 ^ 32 : Nat) : Int) + disp f) n
    match r with
    | .ok pl => some (pl, n)
    | .error _ => none

/-- The address operand of a memory instruction that has not fired for some work: not yet known, or the access it will
make, if it makes one. -/
def Pack.unfired (m : Memory) (p : Pack) (b : Access) (w : Work) (x : BitVec 12 × Instr) : Option (Option Access) :=
  let f := slotOf x.2
  let fm := formOf x.2
  let l := ((p.tile b.tile).store.find? fun e => e.elem == x.1 && e.work == w).bind (·.l)
  if wantsL fm f && l.isNone then none
  else
    let k := opL fm f { l := l }
    if k.kind != .data || k.poison then some none
    else some ((firePlace m p b.tile (p.ctxLevel b.tile w.ctx) x.2 k.val).map fun r =>
      { b with place := r.1, n := r.2, va := addrG k.val (disp f) })

/-- The address of a load that has not fired waits for the value of load b of its own instance. -/
def Pack.feeds (p : Pack) (b : Access) (i : Inst) (x : BitVec 12 × Instr) : Bool :=
  isPlainLoad x.2 && i.seq == b.work.n &&
    ((p.tile b.tile).slotTargets b.elem).any ((p.tile b.tile).leads x.1 .l 200)

/-- A memory instruction of instance i that has not fired holds back load b until its address or a null has arrived
(R62), and then if R249 or R60 orders the two: a store of a byte that b reads, a read-modify-write or EMPTY of its word,
a load of its word, of the scratchpad beside an S load, or of a P word. -/
def Pack.unfiredHolds (m : Memory) (p : Pack) (b : Access) (i : Inst) (x : BitVec 12 × Instr) : Bool :=
  match p.unfired m b { ctx := i.ctx, img := i.img, n := i.seq } x with
  | none => !p.feeds b i x
  | some none => false
  | some (some a) =>
    match roleOf x.2 with
    | .store => a.meets b
    | .empty | .atomic => a.sameWord b
    | .load | .ldpq => a.sameWord b || (a.place.isS && b.place.isS) || a.onP

/-- An operand of a slot: its element and side. -/
def Target.operand? : Target → Option (BitVec 12 × OpSide)
  | .operand o sd row col k _ => some (slotAddr sd row col k, o)
  | _ => none

/-- The operands that a slot waits for are in its entry of the matching store, or among those that may come. -/
def Tile.mayFill (t : Tile) (w : Work) (come : List (BitVec 12 × OpSide)) (x : BitVec 12 × Instr) : Bool :=
  let f := slotOf x.2
  let fm := formOf x.2
  let e := t.store.find? fun e => e.elem == x.1 && e.work == w
  let has (o : OpSide) : Bool := (e.bind (·.at_ o)).isSome || come.contains (x.1, o)
  let sides := (if wantsL fm f then [OpSide.l] else []) ++ (if wantsR fm f then [.r] else []) ++ if wantsP f then [.p] else []
  (e.isSome || !sides.isEmpty) && sides.all has

/-- The operands that tokens of some work may yet reach, given those that some may: the slots that may fire send theirs. -/
def Tile.spread (t : Tile) (w : Work) (slots : List (BitVec 12 × Instr)) : Nat → List (BitVec 12 × OpSide) → List (BitVec 12 × OpSide)
  | 0, come => come
  | fuel + 1, come =>
    let sent := (slots.filter (t.mayFill w come)).flatMap fun x => (t.slotTargets x.1).filterMap Target.operand?
    let new := sent.filter fun g => !come.contains g
    if new.isEmpty then come else t.spread w slots fuel (come ++ new)

/-- A slot of a live instance may yet fire: from tokens on links and in the store, reads that have not delivered, and loads that
have not returned, its operands can come. One whose operand set its predicate has dropped never will (R40). -/
def Pack.mayFire (p : Pack) (t : TileId) (i : Inst) (x : BitVec 12 × Instr) : Bool :=
  let tl := p.tile t
  let w : Work := { ctx := i.ctx, img := i.img, n := i.seq }
  match p.imageOf t i.img with
  | none => true
  | some im =>
    let reads := ((List.range (Header.nread im.hdr)).filter fun k => !i.reads.contains k).flatMap fun k =>
      expandTarget (im.readEntry k).t0 ++ expandTarget (im.readEntry k).t1
    let loads := ((p.tileAccs t).filter fun a => a.isLoad && a.work == w).flatMap fun a => tl.slotTargets a.elem
    let links := (tl.links.filter fun k => k.work == w).map (·.tgt)
    tl.mayFill w (tl.spread w im.instrs im.instrs.length ((reads ++ loads ++ links).filterMap Target.operand?)) x

/-- LSID k of instance i holds back a load that follows it: a memory instruction that has not fired and still may (R62, R249),
or an acquire, fence or sequenced operation not yet done. -/
def Pack.lsidHolds (m : Memory) (p : Pack) (b : Access) (i : Inst) (k : Nat) : Bool :=
  let us := ((p.imageOf b.tile i.img).map fun im => im.lsidElems k).getD []
  match alookup k i.lsids with
  | some v => us.any (fun x => holdsAll x.2) && !p.lsidSettled v
  | none => us.any fun x =>
    (holdsAll x.2 || ((isPlainLoad x.2 || isStoreInstr x.2) && p.unfiredHolds m b i x)) && p.mayFire b.tile i x

/-- Instructions that touch storage. -/
def isMemInstr (i : Instr) : Bool :=
  isPlainLoad i || isStoreInstr i || (match i with | .lda _ | .accrd _ => true | _ => false)

/-- A slot of an earlier beat of b's section, or of an earlier place of b's beat that b does not lead to, may yet touch the word
that b touches: it has not fired, and its address is not known or names that word (R245, R249 row 1, R259). -/
def Pack.beatHolds (m : Memory) (p : Pack) (b : Access) : Bool :=
  let t := p.tile b.tile
  match if b.work.stream && b.ofProgram then t.section? b.work.ctx b.work.img else none with
  | none => false
  | some x =>
    let as := p.tileAccs b.tile
    (((p.imageOf b.tile x.img).map (·.instrs)).getD []).any fun s =>
      let beside : Bool := t.beatRank s.1 < b.lsid &&
        !(t.slotTargets b.elem).any fun g => t.leads s.1 .l 200 g || t.leads s.1 .r 200 g || t.leads s.1 .p 200 g
      isMemInstr s.2 && (List.range (if beside then b.work.n + 1 else b.work.n)).any fun n =>
        let w : Work := { b.work with n := n }
        let due := (t.store.any fun e => e.elem == s.1 && e.work == w) || t.mayCome as x s.1 .l n || t.mayCome as x s.1 .r n ||
          t.mayCome as x s.1 .p n
        due && (match p.unfired m b w s with
          | none => true
          | some none => false
          | some (some a) => a.sameWord b)

/-- The live instances of a load's context that hold it back, up to its own place in program order. -/
def Pack.heldByLive (m : Memory) (p : Pack) (b : Access) : Bool :=
  ((p.tile b.tile).live b.work.ctx).any fun i =>
    if i.seq < b.work.n then (List.range 32).any fun k => p.lsidHolds m b i k
    else if i.seq == b.work.n then (List.range b.lsid).any fun k => p.lsidHolds m b i k
    else false

/-- Same-word accesses that an older uncommitted LSID makes at commit: read-modify-writes and EMPTY, which no
load passes or is served from. -/
def LsidVal.rmw : LsidVal → Option Access
  | .access a => (match a.kind with | .amo .. | .cas .. | .empty => some a | _ => none)
  | _ => none

def Pack.heldByRmw (p : Pack) (b : Access) : Bool :=
  ((p.tile b.tile).live b.work.ctx).any fun i =>
    i.lsids.any fun kv =>
      (i.seq < b.work.n || (i.seq == b.work.n && kv.1 < b.lsid)) &&
        (match kv.2.rmw with
          | some a => a.sameWord b
          | none => false)

/-- Stores of a context that stand in its forwarding table before an access, youngest first (R60). -/
def Tile.forwardTable (t : Tile) (b : Access) : List Access :=
  ((t.live b.work.ctx).flatMap fun i =>
    if b.work.n < i.seq then []
    else
      let own := i.lsids.filterMap fun kv =>
        match kv.2 with
        | .access a =>
          (match a.kind with
            | .st | .stl _ => if i.seq < b.work.n || kv.1 < b.lsid then some (kv.1, a) else none
            | _ => none)
        | _ => none
      (own.mergeSort fun x y => x.1 ≤ y.1).map (·.2)).reverse

/-- The bytes that a store in the forwarding table writes. -/
def Access.bytes (a : Access) : List Byte :=
  match a.place with
  | .acc _ _ => natToBytes 16 a.data.toNat
  | _ => takeStore a.ty a.v a.data

/-- A byte of one store, if the store covers it. -/
def Access.byteAt (a : Access) (space addr : Nat) : Option Byte :=
  match a.base with
  | some (s, b) => if s == space && b ≤ addr then a.bytes[addr - b]? else none
  | none => none

/-- Bytes read from storage with those that younger stores of the table give (R60). -/
def overlay (stores : List Access) (space : Nat) : Nat → List Byte → List Byte
  | _, [] => []
  | addr, b :: bs => (firstSome (fun a : Access => a.byteAt space addr) stores).getD b :: overlay stores space (addr + 1) bs

/-- The stores of the forwarding table that a load reads from. -/
def State.tableFor (s : State) (a : Access) : List Access :=
  if a.work.stream || a.place.isP then [] else (s.pk.tile a.tile).forwardTable a

/-- The table gives byte k of a load (R60). -/
def State.covered (s : State) (a : Access) (k : Nat) : Bool :=
  match a.base with
  | some (sp, b) => (s.tableFor a).any fun x => (x.byteAt sp (b + k)).isSome
  | none => false

/-- One word read for a load: a state of its storage (R248) under the forwarding table (R60), with its poison. -/
def State.readWord (s : State) (a : Access) (k : Nat) (old : Option PastState) : Nat × W64 × Bool :=
  let pl := a.place.shift k
  let raw := match old with
    | some x => ((natToBytes 8 x.value.toNat).drop (a.va.toNat % 8)).take a.wordLen
    | none => readPlace s.mem s.pk a.tile pl a.wordLen
  let bad := match old with | some x => x.bad | none => placeBad s.mem s.pk a.tile pl a.wordLen
  match a.base with
  | none => (k, 0, false)
  | some (sp, b) =>
    (k, BitVec.ofNat 64 (bytesToNat (overlay (s.tableFor a) sp (b + k) raw)), bad && !(List.range a.wordLen).all fun j => s.covered a (k + j))

/-- The releases among the writes that piece k of a load reads from: those that gave it bytes of storage (R248). -/
def State.heardBy (s : State) (a : Access) (k : Nat) (old : Option PastState) : List Release :=
  ((List.range a.wordLen).filter fun j => !s.covered a (k + j)).flatMap fun j => s.pk.readsFrom a (k + j) 1 old

/-- A load may be performed now. -/
def Pack.loadReady (m : Memory) (p : Pack) (b : Access) : Bool :=
  if b.work.stream then !p.heldByPosted b && !p.beatHolds m b
  else !p.heldByPosted b && !p.heldByLive m b && !p.heldByRmw b

/-! ### The place of an instance in its context -/

/-- An instance is the oldest live one of its context. -/
def Tile.isOldest (t : Tile) (c : CtxId) (seq : Nat) : Bool := (t.oldest? c).map (·.seq) == some seq

/-- Every LSID below k that the image names has settled, or its instruction can no longer fire (R294). -/
def Pack.lowerSettled (p : Pack) (t : TileId) (i : Inst) (k : Nat) : Bool :=
  (List.range k).all fun j =>
    match alookup j i.lsids with
    | some v => p.lsidSettled v
    | none => !(((p.imageOf t i.img).map fun im => im.lsidElems j).getD []).any (p.mayFire t i)

/-- The counter an engine instruction counts on (R296, R398, R424). -/
def counterOf : Instr → Option (Fin 8)
  | .strm f | .strmpb f | .send f | .sendpb f | .mma f | .mmald f | .accz f | .accdrn f | .pfire f | .cfgld f
  | .cfgsw f | .cfgwr f | .xlinvPg f | .xlinvAll f | .xlinvRng f | .preemptStop f | .preemptRes f | .preemptAb f
  | .preemptBe f => some (Fin.ofNat 8 f.aux.toNat)
  | _ => none

/-- An older live instance may still issue on counter c (R262). -/
def Pack.olderMayIssue (p : Pack) (t : TileId) (c : CtxId) (seq : Nat) (ctr : Fin 8) : Bool :=
  ((p.tile t).live c).any fun i =>
    i.seq < seq && ((List.range 32).any fun k =>
      alookup k i.lsids != some .null && (Image.users (p.imageOf t i.img) k).any fun u => counterOf u == some ctr)

end Sys2Proof.Machine
end

