-- ==== Sys2Proof/Machine/Sync.lean ====
section
/-! DEFINITION. The synchronisation instructions at their firing (R291-R301, R373-R376): barriers, completion
counters, buffer handles, dependences and triggers. -/

namespace Sys2Proof.Machine

/-! ### Dependences (R78, R373-R376) -/

/-- A swarm has executed TRIG, as a die's scheduler knows: it is placed, and each of its residencies has triggered
or ended (R375). -/
def Pack.hasTriggered (p : Pack) (d : DieId) (w : Nat) : Bool :=
  let rs := (List.range p.resids.length).filterMap fun k =>
    match p.resid? k with
    | some r => if r.swarm == w then some (r.st == .ended || (r.triggered && !(p.die d).notices.contains k)) else none
    | none => none
  popCount (((p.swarm? w).map fun x => Desc.dies x.desc).getD 0) ≤ rs.length && !rs.isEmpty && rs.all id

/-- The swarm that an entry of a dependence list names (R373), for a consumer of VI `vi`. -/
def Pack.producer (p : Pack) (vi : Fin 64) (e : W64) : Option Nat :=
  (List.range p.swarms.length).reverse.find? fun w =>
    match p.swarm? w with
    | none => false
    | some x =>
      if bit e 63 then x.ticket == some (e.extractLsb' 0 32) && x.vi == vi
      else x.ticket == none && x.vi == vi && x.queue == (p.vi vi).qbase + fld e 45 32 && x.index == e.extractLsb' 0 32

def Swarm.over (x : Swarm) : Bool := x.st == .ended || x.st == .refused || x.st == .rejected

/-- A producer holds its consumer no longer; one not yet taken does (R374). -/
def Pack.producerDone (p : Pack) (d : DieId) (vi : Fin 64) (e : W64) : Bool :=
  match p.producer vi e with
  | none => false
  | some w => ((p.swarm? w).map Swarm.over).getD false || p.hasTriggered d w

def Pack.producerAborted (p : Pack) (vi : Fin 64) (e : W64) : Bool :=
  match p.producer vi e with
  | none => false
  | some w => ((p.swarm? w).map fun x => x.over && x.aborted.isSome).getD false

/-- The dependences of a swarm (R376). -/
def Pack.depsDone (p : Pack) (d : DieId) (x : Swarm) : Bool := x.deps.all (p.producerDone d x.vi)

/-! ### Handles (R298-R301) -/

/-- The handle number of HWAIT, HREL and HQRY: F5[5:0]. -/
def handleOf (f : Slot) : Fin 64 := Fin.ofNat 64 (32 * (f.aux.toNat % 2) + f.idx.toNat)

def Tile.modHandle (t : Tile) (h : Fin 64) (g : Handle → Handle) : Tile :=
  { t with handles := t.handles.set h (g (t.handles.get h)) }

def HandleSt.code : HandleSt → Nat
  | .free => 0 | .filling => 1 | .full => 2 | .draining => 3

/-- Another HWAIT on the same handle with an older stamp waits on the tile (R300). -/
def Tile.olderHwait (t : Tile) (h : Fin 64) (w : Work) : Bool :=
  t.store.any fun e =>
    match t.instrAt e.elem with
    | .ok (.hwait f) => handleOf f == h && t.complete e && ageLt (t.ageOf e.work) (t.ageOf w)
    | _ => false

/-- A binding's limits (R299). -/
def bindingOk (r : W128) : Bool :=
  let base := laneNat 32 r 0
  let size := laneNat 32 r 1
  base % 16 == 0 && size % 16 == 0 && 16 ≤ size && base + size ≤ 2 ^ 22 && r.extractLsb' 64 64 == 0

/-! ### Shared operations -/

def barOf (f : Slot) : Fin 16 := Fin.ofNat 16 f.idx.toNat

/-- The place of the firing in progress in its context's program order: its LSID, or behind every LSID of its instance. -/
def State.place (s : State) (f : Slot) (fm : Form) : Work × Nat := (s.cur.work, (lsidOf fm f).getD 32)

/-- A wait fires: its L goes to its targets, and it acquires what it has waited for (R262, R304). -/
def State.fireWait (s : State) (f : Slot) (fm : Form) (l : Token) (v : LsidVal) (fl : Floor) : State :=
  let s1 := s.finish f fm { Result.all l with lsid := some v }
  { s1 with pk := s1.pk.joined s.cur.tile s.cur.work (s.place f fm).2 fl }

/-- What the triggers and ends of producers bring a consumer that knows of them (R376). -/
def Pack.toldBy (p : Pack) (vi : Fin 64) (deps : List W64) : Floor :=
  let ws := deps.filterMap (p.producer vi)
  (p.resids.filter fun r => ws.contains r.swarm).foldl (fun f r => f.join r.told) {}

/-- Instructions with a trigger whose token they emit (R275): the token, poison-free. -/
def fireTrig (fm : Form) (f : Slot) (s : State) (body : Token → State) : State :=
  fireWith fm f kTrig kData s fun l _ =>
    if l.poison then s.finish f fm (.fault s.cur Cause.poison 4) else body l

/-- A trigger with a second operand. -/
def fireTrigR (fm : Form) (f : Slot) (s : State) (body : Token → W128 → State) : State :=
  fireWith fm f kTrig kData s fun l r =>
    if l.poison then s.finish f fm (.fault s.cur Cause.poison 4)
    else if r.poison then s.finish f fm (.fault s.cur Cause.poison 5)
    else body l r.val

/-- BAR.SYNC once its operand stands (R294). -/
def State.barSync (s : State) (f : Slot) (fm : Form) (l : Token) : State :=
  let t := s.cur.tile
  let c := s.cur.work.ctx
  let b := barOf f
  let k := (lsidOf fm f).getD 0
  match s.inst? with
  | none => s
  | some i =>
    let pending := s.pk.accs.any fun a => a.tile == t && a.work.ctx == c &&
      (match a.kind with | .arrive b' _ => b' == b | _ => false)
    if !(s.pk.tile t).isOldest c i.seq || pending || i.barDropped.contains k then s.putBack
    else if !((s.pk.ctx t c).bar.get b).o then
      if s.pk.phaseDone t c b then s.fireWait f fm l (.barSync b true l) (s.pk.barCopy t b).met else s.putBack
    else if (s.pk.resBar t b).scope == none then
      let s1 := s.putBack
      let told := s1.pk.modTile t fun x => x.modInst c i.seq fun y => { y with barDropped := y.barDropped ++ [k] }
      { s1 with pk := told.defer t c Cause.barrierOverflow 3 }
    else if s.pk.lowerSettled t i k && !s.pk.unacked t c i.seq k && s.pk.barRoom t b then
      { s.putBack with pk := s.putBack.pk.arriveAt t c b s.nextId (s.pk.floorAt t c i.seq k), nextId := s.nextId + 1 }
    else s.putBack

/-! ### Meanings -/

/-- BAR.INIT (R292): the count is checked at firing; the copy is set at commit. -/
def execBarInit (f : Slot) (s : State) : Host.Outcome State Fault Refusal :=
  let fm := formOf (.barInit f)
  .next (fireTrigR fm f s fun _ r =>
    if 1 ≤ lane0 r && lane0 r ≤ 65535 then
      s.finish f fm { lsid := some (.barInit (barOf f) (f.aux.extractLsb' 0 2) (lane0 r)) }
    else s.finish f fm (.fault s.cur Cause.blockForm 4))

/-- BAR.ARR (R293): arrives at commit. -/
def execBarArr (f : Slot) (s : State) : Host.Outcome State Fault Refusal :=
  let fm := formOf (.barArr f)
  .next (fireTrig fm f s fun _ => s.finish f fm { lsid := some (.barArr (barOf f)) })

/-- BAR.SYNC (R294). -/
def execBarSync (f : Slot) (s : State) : Host.Outcome State Fault Refusal :=
  let fm := formOf (.barSync f)
  .next (fireTrig fm f s fun l => s.barSync f fm l)

/-- CWAIT (R297): fires when the counter is below n and no older instance may still issue on it (R262). -/
def execCwait (f : Slot) (s : State) : Host.Outcome State Fault Refusal :=
  let fm := formOf (.cwait f)
  let ctr : Fin 8 := Fin.ofNat 8 f.idx.toNat
  .next (fireTrigR fm f s fun l r =>
    if lane0 r == 0 || 64 < lane0 r then s.finish f fm (.fault s.cur Cause.blockForm 4)
    else if ((s.pk.ctx s.cur.tile s.cur.work.ctx).cur.cnt.get ctr).val < lane0 r &&
        !s.pk.olderMayIssue s.cur.tile s.cur.work.ctx s.cur.work.n ctr then
      s.fireWait f fm l .waited ((alookup ctr.val (s.pk.ctx s.cur.tile s.cur.work.ctx).joins).getD {})
    else s.putBack)

/-- HWAIT (R300). -/
def execHwait (f : Slot) (s : State) : Host.Outcome State Fault Refusal :=
  let fm := formOf (.hwait f)
  let h := handleOf f
  let x := (s.pk.tile s.cur.tile).handles.get h
  .next (fireTrig fm f s fun _ =>
    if x.st == .full && !(s.pk.tile s.cur.tile).olderHwait h s.cur.work then
      let s1 := { s with pk := s.pk.modTile s.cur.tile (·.modHandle h fun y =>
        { y with st := .draining, owner := some s.cur.work.ctx, ownerSeq := s.cur.work.n }) }
      s1.fireWait f fm (dataTok (n32Word [x.bytes])) (.hwaited h) x.floor
    else s.putBack)

/-- HREL (R299): the binding is checked at firing; the handle is bound at commit. -/
def execHrel (f : Slot) (s : State) : Host.Outcome State Fault Refusal :=
  let fm := formOf (.hrel f)
  .next (fireTrigR fm f s fun _ r =>
    if bindingOk r then s.finish f fm { lsid := some (.hrel (handleOf f) (laneNat 32 r 0) (laneNat 32 r 1)) }
    else s.finish f fm (.fault s.cur Cause.blockForm 4))

/-- HQRY (R301). -/
def execHqry (f : Slot) (s : State) : Host.Outcome State Fault Refusal :=
  let fm := formOf (.hqry f)
  let x := (s.pk.tile s.cur.tile).handles.get (handleOf f)
  .next (fireTrig fm f s fun _ =>
    s.finish f fm (.all (dataTok (n32Word [x.st.code, x.bytes, x.size, 0]))))

/-- What WAITDEP waits for: every producer, or nothing for a bounded swarm, which its release has admitted (R376). -/
def Pack.depsHeard (p : Pack) (d : DieId) (x : Swarm) : Bool := x.cls || p.depsDone d x

/-- WAITDEP (R376). -/
def execWaitdep (f : Slot) (s : State) : Host.Outcome State Fault Refusal :=
  let fm := formOf (.waitdep f)
  .next (fireTrig fm f s fun _ =>
    match (s.pk.resOf s.cur.tile).bind fun r => s.pk.swarmOf r.2 with
    | none => s.fireWait f fm (dataTok 0) .waited {}
    | some w =>
      if s.pk.depsHeard s.cur.tile.die w then
        s.fireWait f fm (dataTok (n32Word [(w.deps.filter (s.pk.producerAborted w.vi)).length, w.deps.length])) .waited
          (s.pk.toldBy w.vi w.deps)
      else s.putBack)

/-- TRIG (R375): acts at commit. -/
def execTrig (f : Slot) (s : State) : Host.Outcome State Fault Refusal :=
  let fm := formOf (.trig f)
  .next (fireTrig fm f s fun _ => s.finish f fm { lsid := some .trig })

end Sys2Proof.Machine
end

