-- ==== Sys2Proof/Machine/Engine.lean ====
section
/-! DEFINITION. The engine instructions at their firing (R206-R214, R296, R302-R318): descriptors and their
limits, block addresses, and the command that the LSID receives. The commit issues it. -/

namespace Sys2Proof.Machine

/-! ### Patterns and descriptors -/

/-- The stream pattern of STRM (R305). -/
def parseStrm (space : Bool) (l r : W128) : StreamCmd :=
  { space := space, base := l.extractLsb' 0 80, kind := r.extractLsb' 88 3, esize := r.extractLsb' 80 3
    stream := Fin.ofNat 16 (fld r 87 84), slot := Fin.ofNat 16 (fld r 118 115), spoff := fld r 114 93
    eor := bit r 92, eos := bit r 91, sc := bit r 83
    n := [fld r 15 0 + 1, fld r 31 16 + 1, 1, 1], s := [signedOf 24 (fld r 55 32), signedOf 24 (fld r 79 56), 0, 0] }

/-- The pattern of STRMPB's block (R306). -/
def parseStrmpb (b : BitVec 512) : StreamCmd :=
  { space := bit b 83, base := b.extractLsb' 0 80, kind := b.extractLsb' 80 3, esize := b.extractLsb' 84 3
    stream := Fin.ofNat 16 (fld b 91 88), slot := Fin.ofNat 16 (fld b 95 92), spoff := fld b 117 96
    eor := bit b 120, eos := bit b 121, sc := bit b 122
    n := [fld b 143 128 + 1, fld b 159 144 + 1, fld b 175 160 + 1, fld b 191 176 + 1]
    s := [signedOf 48 (fld b 239 192), signedOf 48 (fld b 287 240), signedOf 48 (fld b 335 288), signedOf 48 (fld b 383 336)]
    ixw := b.extractLsb' 406 2, ixoff := fld b 405 384, ixsh := fld b 413 408
    task := if bit b 123 then some (fld b 437 416, b.extractLsb' 438 6) else none }

namespace StreamCmd

/-- Element size and count (R305, R307). -/
def e (c : StreamCmd) : Nat := 2 ^ c.esize.toNat
def total (c : StreamCmd) : Nat := c.n.foldl (· * ·) 1

def toPort (c : StreamCmd) : Bool := c.kind == 0
def fromPort (c : StreamCmd) : Bool := c.kind == 3
def atPort (c : StreamCmd) : Bool := c.kind == 0 || c.kind == 3
/-- Kinds whose pattern side is read (R307); kinds 011 and 100 write it. -/
def reads (c : StreamCmd) : Bool := c.kind.toNat < 3
def contiguous (c : StreamCmd) : Bool := c.kind == 1 || c.kind == 4

def ixBytes (c : StreamCmd) : Nat := if c.ixw == 2 then 8 else 4

/-- Operand slots that kind 010 fills (R308). -/
def slots (c : StreamCmd) : List Nat :=
  if c.kind == 2 then (List.range (ceilDiv (c.total * c.e) 65536)).map fun k => c.slot.val + k else []

/-- The limits of R305, R306 and R308 that do not depend on the state. An index array must end within the scratchpad: no rule
says what one that runs past it does (log 35, DESIGN CHOICE). -/
def limitsOk (c : StreamCmd) : Bool :=
  c.kind.toNat ≤ 4 && c.esize.toNat ≤ 4 &&
    (!c.contiguous || (c.spoff % c.e == 0 && c.spoff + c.total * c.e ≤ 2 ^ 22)) &&
    (c.kind != 2 || c.slot.val + ceilDiv (c.total * c.e) 65536 ≤ 16) &&
    (c.ixw == 0 || (c.ixoff % c.ixBytes == 0 && c.ixoff + c.total * c.ixBytes ≤ 2 ^ 22)) &&
    (match c.task with | some (o, _) => o % 32 == 0 | none => true)

/-- Elements of one beat (R308). -/
def perBeat (c : StreamCmd) : Nat := if c.sc then 1 else if c.esize == 0 then 8 else 16 / c.e

end StreamCmd

def strmReserved (r : W128) : Bool := fld r 127 119 == 0

def strmpbReserved (b : BitVec 512) : Bool :=
  fld b 511 444 == 0 && fld b 415 414 == 0 && fld b 127 124 == 0 && fld b 119 118 == 0 && !bit b 87

/-- The send descriptor of R312, with the rows of R313. -/
def parseSend (b : BitVec 512) (block : Bool) : SendCmd :=
  { acctype := b.extractLsb' 80 4, accop := b.extractLsb' 76 3, peer := b.extractLsb' 68 8
    die := Fin.ofNat 8 (fld b 66 64), y := b.extractLsb' 60 3, x := b.extractLsb' 56 3
    handle := Fin.ofNat 64 (fld b 53 48), units := fld b 45 24 + 1, src := fld b 21 0
    rows := if block then fld b 143 128 + 1 else 1
    stride := if block then signedOf 24 (fld b 167 144) else 0
    task := if block && bit b 168 then some (b.extractLsb' 256 256) else none }

def sendReserved (b : BitVec 512) : Bool :=
  fld b 127 84 == 0 && !bit b 79 && !bit b 67 && !bit b 63 && !bit b 59 && fld b 55 54 == 0 && fld b 47 46 == 0 && fld b 23 22 == 0

def sendpbReserved (b : BitVec 512) : Bool := sendReserved b && fld b 255 169 == 0

def SendCmd.rowBytes (c : SendCmd) : Nat := 16 * c.units

def SendCmd.bytes (c : SendCmd) : Nat := c.rows * c.rowBytes

/-- The limits of R312 and R313. A send that copies may name any type: the table gives codes only with accop not 000 (log 35,
DESIGN CHOICE). -/
def SendCmd.limitsOk (c : SendCmd) : Bool :=
  c.accop.toNat < 4 && (c.accop == 0 || [2, 3, 6, 7, 8, 9, 10].contains c.acctype.toNat) &&
    c.src % 16 == 0 && c.stride % 16 == 0 &&
    (List.range c.rows).all fun r =>
      let o : Int := (c.src : Int) + r * c.stride
      0 ≤ o && o + c.rowBytes ≤ 2 ^ 22

/-- Width codes of operand tiles (R193, R209, R210): mantissa bits, digits and slots. -/
def bxWidth (w : BitVec 2) : Nat := match w.toNat with | 0 => 4 | 1 => 6 | 2 => 8 | _ => 12

def bxSlots (w : BitVec 2) : Nat := if w.toNat < 2 then 1 else 2

namespace Mma

def m (d : W128) : Nat := fld d 7 0 + 1
def budget (d : W128) : Nat := fld d 10 8
def n (d : W128) : Nat := fld d 19 16 + 1
def acc (d : W128) : Fin 4 := Fin.ofNat 4 (fld d 21 20)
def aslot (d : W128) : Nat := fld d 27 24
def bslot (d : W128) : Nat := fld d 31 28
def awidth (d : W128) : BitVec 2 := d.extractLsb' 32 2
def bwidth (d : W128) : BitVec 2 := d.extractLsb' 34 2
def asrc (d : W128) : Bool := bit d 36
def h (d : W128) : Bool := bit d 37
def gang (d : W128) : Nat := fld d 39 38
def sa (d : W128) : W32 := d.extractLsb' 64 32
def sb (d : W128) : W32 := d.extractLsb' 96 32
def leader (d : W128) : Bool := gang d == 1
def follower (d : W128) : Bool := gang d == 2

/-- d′ of R210. -/
def digits (d : W128) : Nat :=
  let full := bxWidth (awidth d) / 2
  if budget d == 0 || full ≤ budget d then full else budget d

/-- Operand slots that the operation names (R192). -/
def slots (d : W128) : List Nat :=
  (if asrc d || follower d then [] else (List.range (n d * bxSlots (awidth d))).map fun k => aslot d + k) ++
    ((List.range ((n d - 1) * bxSlots (bwidth d))).map fun k => bslot d + k)

/-- The legality conditions of R210 that the tile's position does not decide. -/
def limitsOk (d : W128) : Bool :=
  let ka := bxSlots (awidth d)
  let kb := bxSlots (bwidth d)
  fld d 63 40 == 0 && fld d 23 22 == 0 && fld d 15 11 == 0 && gang d != 3 && budget d != 7 &&
    (asrc d || (aslot d + n d * ka ≤ 16 && aslot d % ka == 0)) &&
    (n d < 2 || (bslot d + (n d - 1) * kb ≤ 16 && bslot d % kb == 0)) &&
    (!follower d || (m d == 1 && n d == 1 && budget d == 0 && !h d && !asrc d && aslot d == 0 && awidth d == 0))

end Mma

namespace Mmald

def src (d : W32) : Bool := bit d 7
def width (d : W32) : BitVec 2 := d.extractLsb' 4 2
def slot (d : W32) : Nat := fld d 3 0
def slots (d : W32) : List Nat := if src d then [] else (List.range (bxSlots (width d))).map fun k => slot d + k
def limitsOk (d : W32) : Bool :=
  fld d 31 8 == 0 && !bit d 6 && (if src d then slot d == 0 else slot d % bxSlots (width d) == 0)

end Mmald

namespace Drain

def base (d : W128) : Nat := fld d 81 64
def stride (d : W128) : Nat := fld d 63 48
def sat (d : W128) : Bool := bit d 39
def rnd (d : W128) : BitVec 3 := d.extractLsb' 36 3
def fmt (d : W128) : BitVec 4 := d.extractLsb' 32 4
def row0 (d : W128) : Nat := fld d 23 16
def m (d : W128) : Nat := fld d 15 8 + 1
def acc (d : W128) : Fin 4 := Fin.ofNat 4 (fld d 5 4)
def section_ (d : W128) : Bool := bit d 0
/-- Bytes of one value on the direct route. -/
def size (d : W128) : Nat := match (fmt d).toNat with | 8 => 4 | 9 | 10 => 2 | _ => 1

def limitsOk (d : W128) : Bool :=
  let l := 256 * size d
  fld d 127 82 == 0 && fld d 47 40 == 0 && fld d 31 24 == 0 && fld d 7 6 == 0 && fld d 3 1 == 0 &&
    row0 d + m d ≤ 256 &&
    (if section_ d then base d == 0 && stride d == 0 && !sat d && rnd d == 0 && fmt d == 0
     else 8 ≤ (fmt d).toNat && (fmt d).toNat ≤ 12 && l ≤ 16 * stride d &&
       16 * (base d + (m d - 1) * stride d) + l ≤ 2 ^ 22 && (!sat d || 11 ≤ (fmt d).toNat) && (rnd d).toNat ≤ 4)

end Drain

namespace Pfire

def count (d : W32) : Nat := fld d 31 8
def sides (d : W32) : BitVec 4 := d.extractLsb' 0 4
def limitsOk (d : W32) : Bool := fld d 7 4 == 0 && sides d != 0
/-- The beat count; none until end-of-stream (R214). -/
def beats (tiles : Bool) (d : W32) : Option Nat :=
  if count d == 0 then none else some (if tiles then 1024 * count d else count d)

end Pfire

/-! ### Shared operations -/

/-- The check of a block's address before commit (R304, R369, R400, R417): none where it passes, with what its
translation leaves behind. -/
def State.blockCheck (s : State) (role : Role) (fetch : Bool) (va : VA) (n : Nat) : Option XErr × WalkNote :=
  match checkG s.mem s.pk s.cur.tile s.level role va n with
  | (.error e, g) => (some e, g)
  | (.ok pl, g) =>
    if pl.isP then (some (xerr 5 5), g)
    else if fetch then
      match (translateAt s.mem s.pk s.cur.tile (s.pk.tileVi s.cur.tile) va).1 with
      | .ok mp => (mp.permits .fetch s.level, g)
      | .error e => (some e, g)
    else (none, g)

/-- With a block's address checked, an instruction's effect. -/
def State.withBlock (s : State) (f : Slot) (fm : Form) (role : Role) (fetch : Bool) (va : VA) (n : Nat)
    (body : State → State) : State :=
  let r := s.blockCheck role fetch va n
  let s1 := s.walked s.cur.tile (s.pk.tileVi s.cur.tile) r.2
  match r.1 with
  | some e => s1.finish f fm (.fault s1.cur e.cause e.sub va)
  | none => body s1

def ctrOf (f : Slot) : Fin 8 := Fin.ofNat 8 f.aux.toNat

/-- The LSID receives an engine command. -/
def State.giveCmd (s : State) (f : Slot) (fm : Form) (c : EngineCmd) : State :=
  s.finish f fm { lsid := some (.engine c (ctrOf f)) }

/-- A command whose limits are checked at firing (R207, R275). -/
def State.giveChecked (s : State) (f : Slot) (fm : Form) (ok : Bool) (c : EngineCmd) : State :=
  if ok then s.giveCmd f fm c else s.finish f fm (.fault s.cur Cause.blockForm 4)

/-- An engine instruction with a descriptor in L. -/
def fireDesc (fm : Form) (f : Slot) (s : State) (body : W128 → State) : State :=
  firePlain fm f kData 5 5 s fun l _ => body l

/-- An engine instruction with a trigger in L and a 32-bit descriptor in R. -/
def fireTrigDesc (fm : Form) (f : Slot) (s : State) (body : W32 → State) : State :=
  fireTrigR fm f s fun _ r => body (r.extractLsb' 0 32)

/-- An engine instruction with a block's address in L. -/
def fireBlock (fm : Form) (f : Slot) (fetch : Bool) (s : State) (body : VA → State → State) : State :=
  firePlain fm f kData 2 5 s fun l _ =>
    s.withBlock f fm .load fetch (l.extractLsb' 0 80) 64 (body (l.extractLsb' 0 80))

/-- The gang role suits the tile's position (R204, R210). -/
def Pack.gangOk (p : Pack) (t : TileId) (d : W128) : Bool :=
  match p.resOf t with
  | none => Mma.gang d == 0
  | some (_, r) =>
    if Mma.leader d then r.relX t % 2 == 0 && r.relX t + 1 < r.w
    else if Mma.follower d then r.relX t % 2 == 1 else true

/-- The tile that a lane names by region coordinates (R318, R380). -/
def Pack.regionTile (p : Pack) (t : TileId) (x y : Nat) : Option TileId :=
  match p.resOf t with
  | none => none
  | some (_, r) => if x < r.w && y < r.h then some (r.tileAt x y) else none

/-- Entries and modes of an engine queue: 0 stream, 1 matrix, 2 configuration (R302, R303). -/
def Tile.queue (t : Tile) (q : Nat) : List Op := match q with | 0 => t.streamQ | 1 => t.matrixQ | _ => t.configQ

def Tile.qmode (t : Tile) (q : Nat) : QueueMode := match q with | 0 => t.streamMode | 1 => t.matrixMode | _ => t.configMode

/-! ### Meanings -/

/-- STRM (R305). -/
def execStrm (f : Slot) (s : State) : Host.Outcome State Fault Refusal :=
  let fm := formOf (.strm f)
  .next (firePlain fm f kData 2 5 s fun l r =>
    let c := parseStrm (f.mode.getLsbD 0) l r
    s.giveChecked f fm (strmReserved r && c.limitsOk) (.strm c))

/-- STRMPB (R304, R306). -/
def execStrmpb (f : Slot) (s : State) : Host.Outcome State Fault Refusal :=
  let fm := formOf (.strmpb f)
  .next (fireBlock fm f false s fun va s1 => s1.giveCmd f fm (.strmpb va))

/-- SEND (R312). -/
def execSend (f : Slot) (s : State) : Host.Outcome State Fault Refusal :=
  let fm := formOf (.send f)
  .next (fireDesc fm f s fun l =>
    let c := parseSend (l.setWidth 512) false
    s.giveChecked f fm (sendReserved (l.setWidth 512) && c.limitsOk) (.send c))

/-- SENDPB (R304, R313). -/
def execSendpb (f : Slot) (s : State) : Host.Outcome State Fault Refusal :=
  let fm := formOf (.sendpb f)
  .next (fireBlock fm f false s fun va s1 => s1.giveCmd f fm (.sendpb va))

/-- MMA (R210). -/
def execMma (f : Slot) (s : State) : Host.Outcome State Fault Refusal :=
  let fm := formOf (.mma f)
  .next (fireDesc fm f s fun l =>
    s.giveChecked f fm (Mma.limitsOk l && s.pk.gangOk s.cur.tile l) (.mma l))

/-- MMALD (R209). -/
def execMmald (f : Slot) (s : State) : Host.Outcome State Fault Refusal :=
  let fm := formOf (.mmald f)
  .next (fireTrigDesc fm f s fun d => s.giveChecked f fm (Mmald.limitsOk d) (.mmald d))

/-- ACCZ (R211). -/
def execAccz (f : Slot) (s : State) : Host.Outcome State Fault Refusal :=
  let fm := formOf (.accz f)
  .next (fireTrig fm f s fun _ => s.giveCmd f fm (.accz (Fin.ofNat 4 (fld f.mode 1 0))))

/-- ACCDRN (R212). -/
def execAccdrn (f : Slot) (s : State) : Host.Outcome State Fault Refusal :=
  let fm := formOf (.accdrn f)
  .next (fireDesc fm f s fun l => s.giveChecked f fm (Drain.limitsOk l) (.accdrn l))

/-- OMCLAIM (R213): acts at commit. -/
def execOmclaim (f : Slot) (s : State) : Host.Outcome State Fault Refusal :=
  let fm := formOf (.omclaim f)
  .next (fireTrigDesc fm f s fun d =>
    if fld d 31 16 == 0 then s.finish f fm { lsid := some (.omClaim (f.mode.getLsbD 0) (d.extractLsb' 0 16)) }
    else s.finish f fm (.fault s.cur Cause.blockForm 4))

/-- OMREL (R213): acts at commit. -/
def execOmrel (f : Slot) (s : State) : Host.Outcome State Fault Refusal :=
  let fm := formOf (.omrel f)
  .next (fireTrigDesc fm f s fun d =>
    if fld d 31 16 == 0 then s.finish f fm { lsid := some (.omRel (d.extractLsb' 0 16)) }
    else s.finish f fm (.fault s.cur Cause.blockForm 4))

/-- PFIRE (R214). -/
def execPfire (f : Slot) (s : State) : Host.Outcome State Fault Refusal :=
  let fm := formOf (.pfire f)
  .next (fireTrigDesc fm f s fun d => s.giveChecked f fm (Pfire.limitsOk d) (.pfire (f.mode.getLsbD 0) d))

/-- CFGLD (R304, R316). -/
def execCfgld (f : Slot) (s : State) : Host.Outcome State Fault Refusal :=
  let fm := formOf (.cfgld f)
  .next (fireBlock fm f true s fun va s1 => s1.giveCmd f fm (.cfgld va))

/-- CFGSW (R317). -/
def execCfgsw (f : Slot) (s : State) : Host.Outcome State Fault Refusal :=
  let fm := formOf (.cfgsw f)
  .next (fireTrig fm f s fun _ => s.giveCmd f fm (.cfgsw (f.mode.extractLsb' 0 4)))

/-- CFGWR (R318): the word's tile and zero bits are checked at firing. -/
def execCfgwr (f : Slot) (s : State) : Host.Outcome State Fault Refusal :=
  let fm := formOf (.cfgwr f)
  .next (fireDesc fm f s fun l =>
    let x := fld l 34 32
    let y := fld l 37 35
    s.giveChecked f fm (fld l 127 38 == 0 && (s.pk.regionTile s.cur.tile x y).isSome)
      (.cfgwr (f.mode.getLsbD 0) (l.extractLsb' 0 32) (BitVec.ofNat 3 x) (BitVec.ofNat 3 y)))

/-- ENGQ without set (R303): a snapshot of a queue. -/
def execEngq (f : Slot) (s : State) : Host.Outcome State Fault Refusal :=
  let fm := formOf (.engq f)
  let q := fld f.mode 1 0
  let t := s.pk.tile s.cur.tile
  let ops := t.queue q
  .next (fireTrig fm f s fun _ =>
    let w := n32Word [(ops.filter (!·.started)).length, (ops.filter (·.started)).length, (t.qmode q).stalls.toNat,
      (t.qmode q).mode.toNat]
    s.finish f fm { Result.all (dataTok w) with lsid := some .waited })

/-- ENGQ.set (R303): needs S; acts at commit. -/
def execEngqSet (f : Slot) (s : State) : Host.Outcome State Fault Refusal :=
  let fm := formOf (.engqSet f)
  .next (fireTrigR fm f s fun _ r =>
    if !s.level then s.finish f fm (.fault s.cur Cause.priv 0)
    else if lane0 r < 3 then
      s.finish f fm { lsid := some (.engqSet (f.mode.extractLsb' 0 2) (BitVec.ofNat 2 (lane0 r))) }
    else s.finish f fm (.fault s.cur Cause.blockForm 4))

end Sys2Proof.Machine
end

