-- ==== Sys2Proof/Machine/Schedule.lean ====
section
/-! DEFINITION. What a die's scheduler computes (R322, R326-R344, R374, R394): times at the floor, the checks of a
descriptor, regions, admission, and the records it forms for a queue. -/

namespace Sys2Proof.Machine

/-! ### Reads with a VI's tables, outside any tile (R237, R324) -/

/-- The range table, loaded whole (R236, R238). -/
def Memory.loadRanges (m : Memory) (v : ViBlock) : List RangeEntry :=
  let root := fld v.rngt 41 11 * 2 ^ 11
  (List.range 64).filterMap fun k =>
    match paPlace (root + 32 * k) with
    | some (d, off) =>
      let a := memIndex d off
      some { bits := BitVec.ofNat 256 (m.readNat a 32), poison := m.badGranule a || m.badGranule (a + 16) }
    | none => none

/-- The granules of the range table in which a load of it meets an error (R229). -/
def Memory.rangeErrors (m : Memory) (v : ViBlock) : List Nat :=
  let root := fld v.rngt 41 11 * 2 ^ 11
  (List.range 128).filterMap fun k =>
    match paPlace (root + 16 * k) with
    | some (d, off) => if (m.settle (memIndex d off)).2 == .clean then none else some (memIndex d off / 16)
    | none => none

/-- The range buffer of a tile is loaded (R236, R238), errors that the load meets being handled as R229 says. -/
def State.loadRanges (s : State) (d : DieId) (vi : Fin 64) : State := s.walkedOn d vi { read := s.mem.rangeErrors (s.pk.vi vi) }

/-- A translation with a VI's tables and a die's walkers alone. -/
def translateVi (m : Memory) (p : Pack) (d : DieId) (vi : Fin 64) (va : VA) : Except XErr Mapping × WalkNote :=
  let r := translateIn m p d (m.loadRanges (p.vi vi)) [] vi va
  (r.1, { r.2 with read := m.rangeErrors (p.vi vi) ++ r.2.read })

/-- Where an access of the part or of the host at level S goes: right and class M checked (R324). -/
def placeVi (m : Memory) (p : Pack) (d : DieId) (vi : Fin 64) (va : VA) (need : Need) (mOnly : Bool) :
    Except XErr (DieId × Nat × Bool) × WalkNote :=
  let r := translateVi m p d vi va
  match r.1 with
  | .error e => (.error e, r.2)
  | .ok mp =>
    match mp.permits need true with
    | some e => (.error e, r.2)
    | none =>
      if mOnly && mp.cls then (.error (xerr 5 5), r.2)
      else match paPlace mp.pa with
        | some (h, off) => (.ok (h, off, mp.cls), r.2)
        | none => (.error (xerr 4 3), r.2)

/-- One 8-byte read event (R246), with its poison. -/
def readWordVi (m : Memory) (p : Pack) (d : DieId) (vi : Fin 64) (va : VA) : Except XErr (W64 × Bool) × WalkNote :=
  let r := placeVi m p d vi va .read true
  match r.1 with
  | .error e => (.error e, r.2)
  | .ok (h, off, _) =>
    let a := memIndex h off
    (.ok (BitVec.ofNat 64 (m.readNat a 8), m.badGranule a), { r.2 with read := r.2.read ++ [a / 16] })

/-! ### Time (R322, R332, R337, R338) -/

/-- Quarters of the digit rate that a code of MCFG names (R457). -/
def quarters (code : BitVec 2) : Nat := 4 - code.toNat

/-- The floor and the fraction that admission uses: the lesser of current and pending (R337, R458). -/
def Die.admitFloor (d : Die) : Nat :=
  if d.pendingFloor == 0 then d.floorKHz.toNat else min d.floorKHz.toNat d.pendingFloor.toNat

def Die.admitRho (d : Die) : Nat :=
  match d.pendingRho with
  | some c => min (quarters d.rhoNow) (quarters c)
  | none => quarters d.rhoNow

/-- T(c): counts of 10 ns for c cycles at the floor. -/
def Die.counts (d : Die) (c : Nat) : Nat := ceilDiv (c * 100000) d.admitFloor

/-- ceil(wc / ρ). -/
def Die.budgetOf (d : Die) (desc : BitVec 1024) : Nat := ceilDiv (4 * Desc.wc desc) d.admitRho

def footprint (desc : BitVec 1024) : Nat :=
  65536 * popCount (Desc.fpsp desc) + 65536 * popCount (Desc.fpom desc) + 262144 * popCount (Desc.fpacc desc)

/-- C′ (R332). -/
def Die.costOf (d : Die) (desc : BitVec 1024) : Nat :=
  d.budgetOf desc + (22080 + Desc.tlim desc + 8192 + ceilDiv (2 * footprint desc) 128)

def Die.now (d : Die) : Nat := d.elap.toNat

/-! ### Descriptors (R330, R374) -/

def reservedOk (desc : BitVec 1024) : Bool :=
  fld desc 391 390 == 0 && fld desc 375 373 == 0 && fld desc 367 365 == 0 && fld desc 343 340 == 0 && fld desc 191 176 == 0

/-- The shapes of R73. -/
def shapeOk (w h : Nat) : Bool := w == h || w == 2 * h || h == 2 * w

/-- Checks 0 to 6; the index of the first that fails. -/
def checkDesc (bounded : Bool) (desc : BitVec 1024) : Option Nat :=
  let al := Desc.alloc desc
  if !reservedOk desc then some 0
  else if !shapeOk (Desc.width desc) (Desc.height desc) then some 1
  else if Desc.dies desc == 0 then some 2
  else if al < 2 || 128 < al || Desc.tlim desc < al then some 3
  else if Desc.tlim desc < 2 * Desc.ctxs desc then some 4
  else if 64 < Desc.ndep desc || (Desc.ndep desc == 0 && Desc.dep desc != 0) then some 5
  else if bounded then (if Desc.wc desc == 0 || 128 < Desc.bw desc then some 6 else none)
  else if Desc.wc desc != 0 || Desc.dl desc != 0 || Desc.cbud desc != 0 || Desc.bw desc != 0 then some 6
  else none

/-- One entry of a dependence list is legal (R373, R374); `self` is the consumer's own queue, numbered within
its VI, and index. A kind 1 entry whose queue field is not 0 is refused as one with a reserved bit set (DEDUCED, log 85). -/
def depOk (v : ViBlock) (self : Option (Nat × Nat)) (e : W64) : Bool :=
  let q := fld e 45 32
  fld e 62 46 == 0 &&
    (if bit e 63 then q == 0
     else q < v.qcnt &&
      (match self with
        | some (own, i) => q != own || fld e 31 0 < i
        | none => true))

/-- The words of a dependence list in order, while every read succeeds on clean data, and what the reads meet (R229). -/
def readList (m : Memory) (p : Pack) (d : DieId) (vi : Fin 64) (va : VA) : Nat → Option (List W64) × WalkNote
  | 0 => (some [], {})
  | n + 1 =>
    let r := readList m p d vi va n
    match r.1 with
    | none => r
    | some ws =>
      let x := readWordVi m p d vi (va + BitVec.ofNat 80 (8 * n))
      let note : WalkNote := { r.2 with read := r.2.read ++ x.2.read, entries := r.2.entries ++ x.2.entries }
      match x.1 with
      | .ok (w, false) => (some (ws ++ [w]), note)
      | _ => (none, note)

/-- Check 7: the dependence list, read with the VI's tables. -/
def readDeps (m : Memory) (p : Pack) (d : DieId) (vi : Fin 64) (desc : BitVec 1024) (self : Option (Nat × Nat)) :
    Option (List W64) × WalkNote :=
  let r := readList m p d vi (blockAddr (Desc.dep desc)) (Desc.ndep desc)
  match r.1 with
  | some es => (if es.all (depOk (p.vi vi) self) then some es else none, r.2)
  | none => (none, r.2)

/-- The first failing check of R330 with check 7, and what the reads of that check meet. -/
def checkAll (m : Memory) (p : Pack) (d : DieId) (vi : Fin 64) (bounded : Bool) (desc : BitVec 1024)
    (self : Option (Nat × Nat)) : Except Nat (List W64) × WalkNote :=
  match checkDesc bounded desc with
  | some k => (.error k, {})
  | none =>
    let r := readDeps m p d vi desc self
    match r.1 with
    | some es => (.ok es, r.2)
    | none => (.error 7, r.2)

/-! ### Regions (R73, R333, R341) -/

def regionTiles (x0 y0 w h : Nat) : List (Fin 64) :=
  (List.range (w * h)).map fun k => Fin.ofNat 64 (8 * (y0 + k / w) + (x0 + k % w))

def overlaps (x0 y0 w h : Nat) (i : Interval) : Bool :=
  x0 < i.x0 + i.w && i.x0 < x0 + w && y0 < i.y0 + i.h && i.y0 < y0 + h

/-- Aligned origins in order of ascending y0, then x0. -/
def origins (w h : Nat) : List (Nat × Nat) :=
  (List.range (8 / h)).flatMap fun y => (List.range (8 / w)).map fun x => (x * w, y * h)

/-- Another VI's state stands in place on a tile (R333, R387). -/
def Pack.foreignState (p : Pack) (t : TileId) (vi : Fin 64) : Bool :=
  (p.tile t).inPlace.any fun r => match p.resid? r with | some x => x.vi != vi | none => false

/-- The earliest start at which a region is free of every plan interval for `len` counts. -/
def earliest (plan : List Interval) (x0 y0 w h now len : Nat) : Nat :=
  let mine := plan.filter fun i => overlaps x0 y0 w h i && now < i.start + i.len
  let starts := now :: mine.map fun i => i.start + i.len
  let ok (t : Nat) : Bool := now ≤ t && mine.all fun i => t + len ≤ i.start || i.start + i.len ≤ t
  (minOf (starts.filter ok)).getD now

/-- Candidate origins with their earliest starts. -/
def Pack.planRegions (p : Pack) (d : DieId) (vi : Fin 64) (w h len : Nat) : List (Nat × Nat × Nat) :=
  let x := p.die d
  if !x.ready then []
  else (origins w h).filterMap fun o =>
    let ts := (regionTiles o.1 o.2 w h).map fun n => (⟨d, n⟩ : TileId)
    if ts.any fun t => (p.tile t).fenced || p.foreignState t vi then none
    else some (o.1, o.2, earliest x.plan o.1 o.2 w h x.now len)

/-! ### Admission (R333) -/

/-- Where a bounded residency would stand on a die. -/
structure Offer where
  die : DieId
  x0 : Nat
  y0 : Nat
  start : Nat
  len : Nat
  rel : Nat
  deriving DecidableEq, Repr

def Interval.meets (i : Interval) (t len : Nat) : Bool := i.start < t + len && t < i.start + i.len

/-- The bw of other swarms' intervals of the VI that overlap, counted once a swarm; times are taken from each
die's own now. -/
def Pack.overlapBw (p : Pack) (vi : Fin 64) (after len : Nat) : Nat :=
  let ws := (List.range p.swarms.length).filter fun w =>
    ((p.swarm? w).map fun x => x.vi == vi).getD false &&
      allDies.any fun d => (p.die d).plan.any fun i => i.swarm == w && !i.child && i.meets ((p.die d).now + after) len
  ws.foldl (fun n w => n + ((p.swarm? w).map fun x => Desc.bw x.desc).getD 0) 0

def Interval.covers (i : Interval) (t : Nat) : Bool := i.start ≤ t && t < i.start + i.len

/-- A child's interval stands in its parent's child window, which the plan counts already (R344). -/
def Pack.inWindow (p : Pack) (d : DieId) (i : Interval) (t : Nat) : Bool :=
  match (p.swarm? i.swarm).bind (·.parent) with
  | some w => (p.die d).plan.any fun j => j.swarm == w && j.child && j.covers t
  | none => false

/-- The VI's bounded tiles in a die's plan at one instant: a child window counts once, for all that runs in it. -/
def Pack.boundedTiles (p : Pack) (d : DieId) (vi : Fin 64) (t : Nat) : Nat :=
  (p.die d).plan.foldl (fun n i =>
    if i.covers t && ((p.swarm? i.swarm).map fun x => x.vi == vi).getD false && !p.inWindow d i t then n + i.w * i.h else n) 0

/-- The length of the child window that an admission enters (R344). -/
def Die.windowLen (d : Die) (desc : BitVec 1024) : Nat := d.counts (1024 * Desc.cbud desc)

/-- One die's answer: an offer, or the first reason of R333 that fails. The child window counts in the VI's bounded tiles as the
residency's own interval does (R394). -/
def Pack.offer (p : Pack) (d : DieId) (vi : Fin 64) (desc : BitVec 1024) : Except Nat Offer :=
  let x := p.die d
  let v := p.vi vi
  let w := Desc.width desc
  let h := Desc.height desc
  let len := x.counts (x.costOf desc)
  match argMin (fun o => o.2.2) (p.planRegions d vi w h len) with
  | none => .error 1
  | some (x0, y0, t) =>
    let rel := t + len - x.now
    if Desc.dl desc != 0 && Desc.dl desc < rel then .error 2
    else if allDies.any fun c => ViBlock.perDie v.mem c < Desc.bw desc + p.overlapBw vi (t - x.now) len then .error 3
    else
      let instants := t :: (x.plan.map (·.start)).filter fun a => t ≤ a && a < t + len + x.windowLen desc
      if instants.any fun a => ViBlock.perDie v.bres d < w * h + p.boundedTiles d vi a then .error 4
      else if Desc.cost desc && x.now < t then .error 5
      else .ok { die := d, x0 := x0, y0 := y0, start := t, len := len, rel := rel }

/-- Every named die's answer: all offers, or the first refusal in die order. -/
def Pack.offers (p : Pack) (vi : Fin 64) (desc : BitVec 1024) : List DieId → Except Nat (List Offer)
  | [] => .ok []
  | d :: ds =>
    if !bit (Desc.dies desc) d.val then p.offers vi desc ds
    else match p.offer d vi desc with
      | .error e => .error e
      | .ok o => match p.offers vi desc ds with
        | .error e => .error e
        | .ok os => .ok (o :: os)

/-- The intervals of an admitted swarm: its residency's, and its child window (R344). -/
def Pack.enter (p : Pack) (w : Nat) (desc : BitVec 1024) (o : Offer) : Pack :=
  p.modDie o.die fun x =>
    let i : Interval := { swarm := w, x0 := o.x0, y0 := o.y0, w := Desc.width desc, h := Desc.height desc,
                          start := o.start, len := o.len, bw := Desc.bw desc, floor := x.admitFloor, rho := x.admitRho }
    let c : Interval := { i with start := o.start + o.len, len := x.windowLen desc, child := true, bw := 0 }
    { x with plan := x.plan ++ (if Desc.cbud desc == 0 then [i] else [i, c]) }

/-! ### Child windows (R344) -/

def Die.window? (d : Die) (w : Nat) : Option Interval := d.plan.find? fun i => i.swarm == w && i.child

/-- Why a bounded child is refused (R370): 1 dies, 2 shape, 3 cycles, 4 no window. -/
def Pack.childRefusal (p : Pack) (parent : Nat) (pdesc desc : BitVec 1024) : Option Nat :=
  if Desc.dies desc &&& ~~~ Desc.dies pdesc != 0 then some 1
  else if Desc.width pdesc < Desc.width desc || Desc.height pdesc < Desc.height desc then some 2
  else
    let ws := allDies.filter fun d => bit (Desc.dies desc) d.val
    if ws.any fun d => ((p.die d).window? parent).isNone then some 4
    else if ws.any fun d =>
        match (p.die d).window? parent with
        | some i => 1024 * Desc.cbud pdesc < i.used + (p.die d).costOf desc
        | none => true then some 3
    else none

/-! ### Records (R327, R328) -/

/-- A record without its phase bit. -/
def hostRecord (seq time : W64) (span : Nat) (dies cause kind : Byte) (sid : W32) : BitVec 256 :=
  seq ++ (time ++ ((0 : BitVec 16) ++ (BitVec.ofNat 48 span ++ ((0 : BitVec 8) ++ (dies ++ (cause ++ (kind ++ sid)))))))

/-- A record of a swarm waits for its ring; `reserved` uses room taken with the descriptor (R326). -/
def Pack.queueRecord (p : Pack) (w : Nat) (kind cause : Byte) (span : Nat) (dies : Byte) (reserved : Bool) : Pack :=
  match p.swarm? w with
  | none => p
  | some x =>
    let r := hostRecord (p.ring.last.get x.home) (p.die x.home).elap span dies cause kind (Desc.sid x.desc)
    p.modQueue x.queue fun q =>
      { q with waiting := q.waiting ++ [r], room := if reserved && x.ticket.isNone then q.room - 1 else q.room }

/-- Room that a record can no longer need returns (R326). -/
def Pack.returnRoom (p : Pack) (w : Nat) : Pack :=
  match p.swarm? w with
  | none => p
  | some x => if x.ticket.isNone then p.modQueue x.queue fun q => { q with room := q.room - 1 } else p

end Sys2Proof.Machine
end

