-- ==== Sys2Proof/Machine/Control.lean ====
section
/-! DEFINITION. The control, context, launch and task instructions at their firing (R352-R381). -/

namespace Sys2Proof.Machine

/-! ### Reads made when an instruction fires (R246, R369, R401, R422) -/

/-- The words that an instance's LSID has read of its block, in the order of their places. -/
def Inst.piecesAt (i : Inst) (k : Nat) : List (Nat × W64 × Bool) := i.pieces.filterMap fun x => if x.1 == k then some x.2 else none

/-- The numbers of the first list that the second, which rises like it, does not have. -/
def absent : List Nat → List Nat → List Nat
  | [], _ => []
  | l, [] => l
  | w :: ws, g :: gs => if w == g then absent ws gs else w :: absent ws (g :: gs)

/-- A word read joins those of its LSID in its place. -/
def insertPiece (x : Nat × Nat × W64 × Bool) : List (Nat × Nat × W64 × Bool) → List (Nat × Nat × W64 × Bool)
  | [] => [x]
  | y :: l => if y.1 == x.1 && x.2.1 < y.2.1 then x :: y :: l else y :: insertPiece x l

/-- One word of a block is read as a relaxed load: in a state that the context may see (R253), under the forwarding table, an
error met being found. -/
def State.readPiece (s : State) (b : Access) : (W64 × Bool) × State :=
  let s1 := s.stored (settlePlace s.mem s.pk b.tile (s.pk.tileVi b.tile) b.place 8)
  let r := s1.whichState b 0 true
  ((r.2.readWord b 0 r.1).2, { r.2 with pk := r.2.pk.hear b (r.2.heardBy b 0 r.1) })

/-- A block of n aligned words is read word by word, each one event (R246), in an order that timing chooses; the firing
waits until every word has been read. -/
def State.withWords (s : State) (f : Slot) (fm : Form) (va : VA) (n : Nat) (body : List Byte → Bool → State) : State :=
  let k := (lsidOf fm f).getD 0
  let got := (((s.inst?).map (·.piecesAt k)).getD []).takeWhile fun g => g.1 < n
  let missing := absent (List.range n) (got.map (·.1))
  match missing[Config.choice s.freeCount % missing.length]? with
  | none => body (got.flatMap fun g => natToBytes 8 g.2.1.toNat) (got.any fun g => g.2.2)
  | some w =>
    let a := va + BitVec.ofNat 80 (8 * w)
    let r := checkG s.mem s.pk s.cur.tile s.level .load a 8
    let s1 := s.walked s.cur.tile (s.pk.tileVi s.cur.tile) r.2
    match r.1 with
    | .error e => s1.finish f fm (.fault s.cur e.cause e.sub a)
    | .ok pl =>
      let b := s1.mkAccess fm f .ld a pl 8 false 0
      if pl.isP then s1.finish f fm (.fault s.cur Cause.prot 5 a)
      else if !s1.pk.loadReady s1.mem b then s1.putBack
      else
        let x := s1.readPiece b
        let s2 := x.2.putBack
        { s2 with
          freeCount := s2.freeCount + 1
          pk := s2.pk.modTile s.cur.tile fun t => t.modInst s.cur.work.ctx s.cur.work.n fun i =>
            { i with pieces := insertPiece (k, w, x.1) i.pieces } }

/-- A block of n words at an address with an alignment: its checks (R235), then its words. -/
def State.readBlockAt (s : State) (f : Slot) (fm : Form) (va : VA) (align n : Nat) (body : State → List Byte → Bool → State) : State :=
  let r := checkG s.mem s.pk s.cur.tile s.level .load va align
  let s1 := s.walked s.cur.tile (s.pk.tileVi s.cur.tile) r.2
  match r.1 with
  | .error e => s1.finish f fm (.fault s.cur e.cause e.sub va)
  | .ok pl => if pl.isP then s1.finish f fm (.fault s.cur Cause.prot 5 va) else s1.withWords f fm va n (body s1)

/-! ### Tags and context numbers (R68, R76, R366, R377) -/

/-- A context counts against the tag pool (R68, R366): it is live, saved or halted. -/
def Ctx.occupies (x : Ctx) : Bool := x.st != .free && x.st != .held

/-- Contexts of a tile that hold a reservation in its tag pool. -/
def Tile.contexts (t : Tile) : Nat := (t.ctxs.toList.filter Ctx.occupies).length

/-- Context numbers that uncommitted SPAWNs reserve. -/
def Tile.spawnMask (t : Tile) : BitVec 32 := t.spawnRes.foldl (fun m x => m ||| x.2.2) 0

/-- Tags that block instances and sections of a context hold (R67). -/
def Tile.tagsOf (t : Tile) (c : CtxId) : Nat :=
  (t.live c).length + (t.sections.filter (·.ctx == c)).foldl (fun n x => n + x.window) 0

/-- Unreserved tags free under a limit (R68, R76). -/
def Tile.freeTags (t : Tile) (limit : Nat) : Nat :=
  limit - 2 * (t.contexts + popCount t.spawnMask) - (allCtxs.foldl (fun n c => n + ((t.live c).length - 2)) 0) -
    t.sections.foldl (fun n x => n + x.window) 0

/-- The tag limit of a tile's residency (R76). -/
def Pack.tagLimit (p : Pack) (t : TileId) : Nat :=
  match p.resOf t with
  | some _ => Desc.tlim (p.tileDesc t)
  | none => 1024

/-- Available context numbers: free, and not reserved (R366). -/
def Tile.available (t : Tile) : List Nat :=
  (List.range 32).filter fun k => (t.ctx (Fin.ofNat 32 k)).st == .free && !bit t.spawnMask k

/-- A number names a live or done child of a context (R367). -/
def Tile.isChild (t : Tile) (c : CtxId) (k : Nat) : Bool :=
  let x := t.ctx (Fin.ofNat 32 k)
  x.parent == some c && x.st != .free

/-! ### Task queues (R80, R81, R378-R381) -/

/-- An entry word (R353). -/
def entryWordOk (v : W128) : Bool := v.extractLsb' 64 64 == 0

def entryWord (record : BitVec 256) : Token := dataTok ((record.extractLsb' 0 64).setWidth 128)

/-- The newest ready record, and the queue with it held by an instance. -/
def takeNewest (c : CtxId) (q : Nat) (ts : List TaskEntry) : Option (TaskEntry × List TaskEntry) :=
  match takeFirst (fun e : TaskEntry => e.st == .ready) ts.reverse with
  | none => none
  | some (e, _) =>
    some (e, (modifyFirst (fun e : TaskEntry => e.st == .ready) (fun e => { e with st := .held c q }) ts.reverse).reverse)

/-- The record an uncommitted instance of the context has taken from its steal buffer. -/
def Tile.bufferTaken (t : Tile) (c : CtxId) : Bool :=
  (t.live c).any fun i => match i.taskArgs with | some (_, b) => b | none => false

/-- An operand set of a TQGET that waits for a record: its operands let it fire, and its buffer is empty. -/
def Tile.wantsTask (t : Tile) (id : TileId) (e : MatchEntry) : Bool :=
  match t.instrAt e.elem with
  | .ok (.tqget f) =>
    let c : Firing := { tile := id, elem := e.elem, work := e.work, l := e.l, r := e.r, p := e.p }
    !f.mode.getLsbD 0 && t.complete e && ((t.ctx e.work.ctx).cur.stl.isNone || t.bufferTaken e.work.ctx) &&
      (match preFire (formOf (.tqget f)) f kTrig kTrig c with | .go l _ => !l.poison | _ => false)
  | _ => false

/-- Another TQGET of the tile with an older stamp waits for a record (R379). -/
def Tile.olderTqget (t : Tile) (id : TileId) (w : Work) : Bool :=
  t.store.any fun e => t.wantsTask id e && ageLt (t.ageOf e.work) (t.ageOf w)

/-- The TQPUT that put the record is not performed yet: who takes the record waits for it, and so joins it (R381). -/
def Pack.unput (p : Pack) (e : TaskEntry) : Bool :=
  p.accs.any fun a => a.id == e.put && (match a.kind with | .tqput _ => true | _ => false)

/-- The instance takes a record: its entry word goes to target 0, and it joins the record's put (R381). -/
def State.takeTask (s : State) (f : Slot) (fm : Form) (record : BitVec 256) (buffer : Bool) (fl : Floor) : State :=
  let s1 := s.finish f fm { t0 := some (entryWord record) }
  { s1 with pk := (s1.pk.joined s.cur.tile s.cur.work (s.place f fm).2 fl).modTile s.cur.tile fun t =>
      t.modInst s.cur.work.ctx s.cur.work.n fun i => { i with taskArgs := some (record, buffer) } }

/-- A record of the residency is on its way to this context. -/
def Pack.inTransitTo (p : Pack) (t : TileId) (c : CtxId) : Bool :=
  match p.resOf t with
  | none => false
  | some (_, r) => r.tiles.any fun v => (p.tile v).tasks.any fun e => e.st == .transit t c

/-! ### Launching (R369-R372) -/

/-- The status word of LAUNCH (R370). -/
def launchStatus (a b c : Nat) : Token := dataTok (n32Word [a, b, c])

def refusedLaunch (a b : Nat) : Result :=
  { Result.all (launchStatus a b 0) with lsid := some (.launch 0 0 [] false []) }

/-- LAUNCH once its descriptor is read. -/
def State.launch (s0 : State) (f : Slot) (fm : Form) (desc : BitVec 1024) : State :=
  let t := s0.cur.tile
  match s0.pk.resOf t with
  | none => s0.finish f fm (refusedLaunch 1 0)
  | some (_, r) =>
    match s0.pk.swarmOf r with
    | none => s0.finish f fm (refusedLaunch 1 0)
    | some w =>
      let ck := checkAll s0.mem s0.pk t.die r.vi w.cls desc none
      let s := s0.walkedOn t.die r.vi ck.2
      match ck.1 with
      | .error k => s.finish f fm (refusedLaunch 3 (0x10 + k))
      | .ok deps =>
        match if w.cls then s.pk.childRefusal r.swarm w.desc desc else none with
        | some k => s.finish f fm (refusedLaunch 2 k)
        | none =>
          let d := s.pk.die t.die
          if 512 ≤ d.launches.length + d.launchHeld then s.finish f fm (refusedLaunch 1 0)
          else
            let costs := if w.cls then allDies.map fun c => (s.pk.die c).costOf desc else []
            let ticket : W32 := BitVec.ofNat 3 t.die.val ++ d.launchCount
            let p1 := s.pk.modDie t.die fun x => { x with launchHeld := x.launchHeld + 1, launchCount := x.launchCount + 1 }
            let p2 := if w.cls then allDies.foldl (fun p c =>
                if bit (Desc.dies desc) c.val then p.useWindow c r.swarm (· + costs.getD c.val 0) else p) p1 else p1
            { s with pk := p2 }.finish f fm
              { Result.all (launchStatus 0 0 ticket.toNat) with lsid := some (.launch ticket desc deps true costs) }

/-! ### Shared operations -/

/-- An instruction whose L is a decision: a token at an exit or the predicate of BR and CONT (R465). -/
def fireDecision (fm : Form) (f : Slot) (kl : TokKind → Bool) (s : State) (body : Token → State) : State :=
  fireWith fm f kl kData s fun l _ =>
    if l.poison then s.finish f fm (.fault s.cur Cause.poison 4) else body l

/-! ### Meanings -/

/-- BR (R361). -/
def execBr (f : Slot) (s : State) : Host.Outcome State Fault Refusal :=
  let fm := formOf (.br f)
  let c := f.mode.getLsbD 0
  .next (fireDecision fm f (if c then kPred else kTrig) s fun l =>
    if c && !bit l.val 0 then s.finish f fm { t1 := some l } else s.finish f fm { t0 := some l })

/-- CONT (R65, R362): the bit goes to the sequencer, and L to the while-back exit. -/
def execCont (f : Slot) (s : State) : Host.Outcome State Fault Refusal :=
  let fm := formOf (.cont f)
  .next (fireDecision fm f kPred s fun l =>
    let s1 := s.finish f fm { t0 := some l }
    { s1 with pk := s1.pk.modTile s.cur.tile fun t =>
        t.modInst s.cur.work.ctx s.cur.work.n fun i => { i with conts := i.conts ++ [bit l.val 0] } })

/-- HALT (R364). -/
def execHalt (f : Slot) (s : State) : Host.Outcome State Fault Refusal :=
  let fm := formOf (.halt f)
  .next (fireDecision fm f kTrig s fun l => s.finish f fm { t0 := some l })

/-- HALT.res (R364): the commit that halts the context stops its residency. -/
def execHaltRes (f : Slot) (s : State) : Host.Outcome State Fault Refusal :=
  let fm := formOf (.haltRes f)
  .next (fireDecision fm f kTrig s fun l =>
    let s1 := s.finish f fm { t0 := some l }
    { s1 with pk := s1.pk.modTile s.cur.tile fun t =>
        t.modInst s.cur.work.ctx s.cur.work.n fun i => { i with haltRes := true } })

/-- LAUNCH (R369, R370). -/
def execLaunch (f : Slot) (s : State) : Host.Outcome State Fault Refusal :=
  let fm := formOf (.launch f)
  .next (firePlain fm f kData 2 5 s fun l _ =>
    if l.extractLsb' 80 48 != 0 then s.finish f fm (.fault s.cur Cause.blockForm 4)
    else
      let va := l.extractLsb' 0 80
      s.readBlockAt f fm va 128 16 fun s1 bs bad =>
        if bad then s1.finish f fm (.fault s.cur Cause.poison 5 va)
        else s1.launch f fm (BitVec.ofNat 1024 (bytesToNat bs)))

/-- YIELD (R368): L goes on at once; the hold begins at commit. -/
def execYield (f : Slot) (s : State) : Host.Outcome State Fault Refusal :=
  let fm := formOf (.yield f)
  .next (fireTrigR fm f s fun l r =>
    if 65535 < lane0 r then s.finish f fm (.fault s.cur Cause.blockForm 4)
    else s.finish f fm { Result.all l with lsid := some (.yield (BitVec.ofNat 32 (lane0 r))) })

/-- SPAWN (R365, R366). -/
def execSpawn (f : Slot) (s : State) : Host.Outcome State Fault Refusal :=
  let fm := formOf (.spawn f)
  .next (fireTrigR' fm f s fun l r =>
    let al := if fld l 79 72 == 0 then 32 else fld l 79 72
    let k := fld l 68 64 + 1
    let t := s.pk.tile s.cur.tile
    let limit := s.pk.tagLimit s.cur.tile
    if fld l 127 80 != 0 || fld l 71 69 != 0 || al < 2 || 128 < al then s.finish f fm (.fault s.cur Cause.blockForm 4)
    else if limit < 2 * (t.contexts + popCount t.spawnMask + k) then s.finish f fm (.fault s.cur Cause.tagExhausted 2)
    else if k ≤ t.available.length && 2 * k ≤ t.freeTags limit then
      let mask : BitVec 32 := (t.available.take k).foldl (fun m j => m ||| BitVec.ofNat 32 (2 ^ j)) 0
      let s1 := { s with pk := s.pk.modTile s.cur.tile fun t =>
        { t with spawnRes := t.spawnRes ++ [(s.cur.work.ctx, s.cur.work.n, mask)] } }
      s1.finish f fm { Result.all (dataTok (n32Word [mask.toNat])) with
        lsid := some (.spawn mask al (l.extractLsb' 0 64) r) }
    else s.finish f fm { Result.all (dataTok (n32Word [0, 1])) with lsid := some (.spawn 0 al (l.extractLsb' 0 64) r) })
where
  /-- Both operands are data (R358). -/
  fireTrigR' (fm : Form) (f : Slot) (s : State) (body : W128 → W128 → State) : State :=
    firePlain fm f kData 5 5 s body

/-- JOIN (R367): waits to be the oldest, so that the children its older instances spawn stand. -/
def execJoin (f : Slot) (s : State) : Host.Outcome State Fault Refusal :=
  let fm := formOf (.join f)
  let c := s.cur.work.ctx
  .next (fireTrigR fm f s fun l r =>
    let mask : BitVec 32 := BitVec.ofNat 32 (lane0 r)
    let t := s.pk.tile s.cur.tile
    if mask == 0 then s.fireWait f fm l (.joined 0) {}
    else if !t.isOldest c s.cur.work.n then s.putBack
    else if !(setBits mask).all (t.isChild c) then s.finish f fm (.fault s.cur Cause.blockForm 4)
    else if mask &&& ~~~ (t.ctx c).cur.done == 0 then
      s.fireWait f fm l (.joined mask) ((setBits mask).foldl (fun fl k => fl.join (t.ctx (Fin.ofNat 32 k)).brings) {})
    else s.putBack)

/-- CALLX (R363). -/
def execCallx (f : Slot) (s : State) : Host.Outcome State Fault Refusal :=
  let fm := formOf (.callx f)
  .next (fireDecision fm f kData s fun l =>
    if entryWordOk l.val then s.finish f fm { t0 := some l } else s.finish f fm (.fault s.cur Cause.blockForm 4))

/-- TAGQ (R377): a snapshot; with `.clr` the throttle counter is cleared at commit. -/
def execTagq (f : Slot) (s : State) : Host.Outcome State Fault Refusal :=
  let fm := formOf (.tagq f)
  let t := s.pk.tile s.cur.tile
  let c := s.cur.work.ctx
  .next (fireTrig fm f s fun _ =>
    let w := n32Word [(t.ctx c).cur.thr.toNat, t.tagsOf c, (t.ctx c).cur.alloc, t.freeTags (s.pk.tagLimit s.cur.tile)]
    s.finish f fm { Result.all (dataTok w) with lsid := some .tagqClr })

/-- TQPUT (R378). -/
def execTqput (f : Slot) (s : State) : Host.Outcome State Fault Refusal :=
  let fm := formOf (.tqput f)
  .next (firePlain fm f kData 5 5 s fun l r =>
    let rec_ : BitVec 256 := r ++ l
    if queueCapacity ≤ (s.pk.tile s.cur.tile).tasks.length then
      s.finish f fm { Result.all (dataTok (n32Word [1])) with lsid := some (.tqput rec_ false) }
    else
      let e : TaskEntry := { record := rec_, st := .reserved s.cur.work.ctx s.cur.work.n ((lsidOf fm f).getD 0) }
      let s1 := { s with pk := s.pk.modTile s.cur.tile fun t => { t with tasks := t.tasks ++ [e] } }
      s1.finish f fm { Result.all (dataTok (n32Word [0])) with lsid := some (.tqput rec_ true) })

/-- TQGET (R379). -/
def execTqget (f : Slot) (s : State) : Host.Outcome State Fault Refusal :=
  let fm := formOf (.tqget f)
  let c := s.cur.work.ctx
  let t := s.pk.tile s.cur.tile
  .next (fireTrig fm f s fun l =>
    match if t.bufferTaken c then none else (t.ctx c).cur.stl with
    | some r => s.takeTask f fm r true (t.ctx c).stlFloor
    | none =>
      match if t.olderTqget s.cur.tile s.cur.work then none else takeNewest c s.cur.work.n t.tasks with
      | some (e, ts) =>
        if s.pk.unput e then s.putBack
        else { s with pk := s.pk.modTile s.cur.tile fun t => { t with tasks := ts } }.takeTask f fm e.record false e.floor
      | none => if f.mode.getLsbD 0 then s.finish f fm { t1 := some l } else s.putBack)

/-- TQSTEAL (R349, R380): takes the buffer, or sends one request and waits for its reply. -/
def execTqsteal (f : Slot) (s : State) : Host.Outcome State Fault Refusal :=
  let fm := formOf (.tqsteal f)
  let c := s.cur.work.ctx
  let tl := s.cur.tile
  let t := s.pk.tile tl
  .next (fireTrigR fm f s fun l r =>
    let v := lane0 r
    match s.pk.regionTile tl (v % 8) (v / 8) with
    | none => s.finish f fm (.fault s.cur Cause.blockForm 4)
    | some victim =>
      if victim == tl then s.finish f fm (.fault s.cur Cause.blockForm 4)
      else match if t.bufferTaken c then none else (t.ctx c).cur.stl with
        | some rec_ => s.takeTask f fm rec_ true (t.ctx c).stlFloor
        | none =>
          if (t.ctx c).stealFrom.isSome || s.pk.inTransitTo tl c then s.putBack
          else if ((s.inst?).map (·.requested)).getD false then s.finish f fm { t1 := some l }
          else
            let ask (t : Tile) : Tile := t.modCtx c fun x => { x with stealFrom := some victim.n }
            let note (t : Tile) : Tile := t.modInst c s.cur.work.n fun i => { i with requested := true }
            { s.putBack with pk := s.putBack.pk.modTile tl fun t => note (ask t) })

end Sys2Proof.Machine
end

