-- ==== Sys2Proof/Machine/System.lean ====
section
/-! DEFINITION. The system instructions at their firing (R395-R401, R416-R424): traps, special registers,
translations, error records, poison, context images and pre-emption; and the layouts of a fault record (R408) and
of a context image (R415). -/

namespace Sys2Proof.Machine

/-! ### Layouts -/

/-- The 64 bytes of a fault record (R408). -/
def FaultRec.bits (r : FaultRec) : BitVec 512 :=
  r.elap ++ (r.plseq ++ (r.pkseq ++ (r.va ++ (r.block ++ (r.itb ++ (r.coord ++ (r.rh ++
    (BitVec.ofNat 6 r.vi.val ++ (r.cls ++ (BitVec.ofBool r.ovf ++ (BitVec.ofBool r.lvl ++ (r.ty ++ (r.tx ++
      (BitVec.ofNat 3 r.die.val ++ (BitVec.ofNat 5 r.ctx.val ++ ((0 : Byte) ++ (r.kind ++ (r.sub ++ (r.cause ++
        (0 : Byte))))))))))))))))))))

def FaultRec.bytes (r : FaultRec) : List Byte := natToBytes 64 r.bits.toNat

/-- The return stack, newest first: the entries held, then those in the return area (R355). -/
def CtxImage.stack (c : CtxImage) : List W64 := c.rs ++ c.ra

/-- Entries 0 to 15 and the return area, oldest first (R415): the newest 16 stand in the stack. -/
def CtxImage.held (c : CtxImage) : List W64 := (c.stack.take 16).reverse
def CtxImage.area (c : CtxImage) : List W64 := (c.stack.drop 16).reverse

def padBytes (n : Nat) (bs : List Byte) : List Byte := (bs ++ List.replicate (n - bs.length) 0).take n

def wordBytes (n : Nat) (ws : List W64) : List Byte := padBytes (8 * n) (ws.flatMap fun w => natToBytes 8 w.toNat)

def CtxImage.pendBits (c : CtxImage) : BitVec 128 := c.pend.foldl (fun m x => withBit m x.1 true) 0

/-- The 8 KiB trapped image (R415). -/
def CtxImage.bytes (c : CtxImage) (r : FaultRec) : List Byte :=
  let cnt := (List.range 8).foldl (fun n k => n + (c.cnt.toList.getD k 0).val * 2 ^ (6 * k)) 0
  let w820 := c.thr.toNat * 2 ^ 32 + (if c.lvl then 2 ^ 23 else 0) + c.seqn % 128 * 2 ^ 16 + c.alloc % 256 * 2 ^ 8 + c.fpf.toNat
  padBytes 8192 (
    (c.g.toList.flatMap fun w => natToBytes 16 w.toNat) ++ natToBytes 16 c.gpois.toNat ++
    natToBytes 8 (entryOf c.pc).toNat ++ natToBytes 8 cnt ++ natToBytes 8 w820 ++
    natToBytes 8 (c.yld.toNat * 2 ^ 32 + c.done.toNat) ++ natToBytes 8 (c.lpn.toNat * 2 ^ 32 + c.lpi.toNat) ++
    natToBytes 8 c.lpk.toNat ++ wordBytes 8 c.arg.toList ++
    natToBytes 32 ((c.stl.map (·.toNat)).getD 0) ++ natToBytes 16 (if c.stl.isSome then 1 else 0) ++
    natToBytes 16 c.pendBits.toNat ++ List.replicate 64 0 ++
    wordBytes 16 c.held ++ padBytes 128 (natToBytes 8 c.stack.length) ++ padBytes 1536 r.bytes ++
    wordBytes 240 c.area)

def bytesAt (bs : List Byte) (off n : Nat) : Nat := bytesToNat ((bs.drop off).take n)

/-- CTXREST's test of an image (R422). -/
def imageOk (bs : List Byte) : Bool :=
  bytesAt bs 0x81E 2 == 0 && bytesAt bs 0x823 1 == 0 && bytesAt bs 0x820 1 < 32 && bytesAt bs 0x838 8 < 4 &&
    bytesAt bs 0x8A0 8 < 2 && bytesAt bs 0x980 8 < 512 && (bs.drop 0xA40).take 0x5C0 == List.replicate 0x5C0 0 &&
    (bs.drop 0x1780).take 0x880 == List.replicate 0x880 0 &&
    2 ≤ bytesAt bs 0x821 1 && bytesAt bs 0x821 1 ≤ 128 && bytesAt bs 0x980 8 ≤ 256 && bytesAt bs 0x838 8 != 3

/-- The RW fields of an image's bytes; the others are left as they were when it is taken (R415, R422). -/
def parseImage (bs : List Byte) : CtxImage :=
  let w64 (off : Nat) : W64 := BitVec.ofNat 64 (bytesAt bs off 8)
  let depth := bytesAt bs 0x980 8
  let old := (List.range (depth - 16)).map fun k => w64 (0x1000 + 8 * k)
  let new := (List.range (min depth 16)).map fun k => w64 (0x900 + 8 * k)
  { g := Vector.ofFn fun (k : Fin 128) => BitVec.ofNat 128 (bytesAt bs (16 * k.val) 16)
    gpois := BitVec.ofNat 128 (bytesAt bs 0x800 16)
    pc := blockAddr (w64 0x810)
    thr := BitVec.ofNat 32 (bytesAt bs 0x824 4)
    alloc := bytesAt bs 0x821 1
    fpf := BitVec.ofNat 5 (bytesAt bs 0x820 1)
    yld := BitVec.ofNat 32 (bytesAt bs 0x82C 4)
    lpn := BitVec.ofNat 32 (bytesAt bs 0x834 4)
    lpi := BitVec.ofNat 32 (bytesAt bs 0x830 4)
    lpk := BitVec.ofNat 2 (bytesAt bs 0x838 1)
    arg := Vector.ofFn fun (k : Fin 8) => w64 (0x840 + 8 * k.val)
    pend := (setBits (BitVec.ofNat 128 (bytesAt bs 0x8B0 16))).map fun k => (k, 0)
    rs := new.reverse, ra := old.reverse }

/-- The RW fields replace those of the trapped image; a pending bit written 0 cancels, written 1 changes
nothing (R415). -/
def CtxImage.replaceWith (c i : CtxImage) : CtxImage :=
  { i with
    pend := c.pend.filter fun x => i.pend.any fun y => y.1 == x.1
    cnt := c.cnt, lvl := c.lvl, seqn := c.seqn, done := c.done, stl := c.stl, yldWaits := c.yldWaits }

/-! ### Special registers (R118, R395) -/

def sreg (f : Slot) : Nat := fld f.imm 5 0

/-- Registers that are read at S only. -/
def needsS (n : Nat) : Bool := 0x18 ≤ n && n ≤ 0x1B

/-- Registers that an older instance may yet write. -/
def committedReg (n : Nat) : Bool := n == 0x10 || (8 ≤ n && n < 16)

/-- The word SRD emits. -/
def State.special (s : State) (n : Nat) : W128 :=
  let t := s.cur.tile
  let x := s.pk.ctx t s.cur.work.ctx
  let d := s.pk.die t.die
  if n == 0 then BitVec.ofNat 128 s.cur.work.ctx.val
  else if n == 1 then BitVec.ofNat 128 (if s.cur.work.stream then s.cur.work.n else (s.inst?.map (·.iter)).getD 0)
  else if n == 2 then
    match s.pk.resOf t with
    | some (_, r) => BitVec.ofNat 128 (r.number t)
    | none => 0
  else if n == 3 then BitVec.ofNat 128 t.die.val
  else if n == 4 then s.pk.member.setWidth 128
  else if n == 5 then
    if x.cur.lvl then BitVec.ofNat 128 ((s.pk.tileVi t).val + (s.pk.vi (s.pk.tileVi t)).pvi.toNat * 2 ^ 16) else 0
  else if 8 ≤ n && n < 16 then (x.cur.arg.toList.getD (n - 8) 0).setWidth 128
  else if n == 0x10 then x.cur.fpf.setWidth 128
  else if n == 0x11 then (s.pk.tile t).clk.setWidth 128
  else if n == 0x12 then d.elap.setWidth 128
  else if n == 0x18 then x.tcause.setWidth 128
  else if n == 0x19 then x.tblock.setWidth 128
  else if n == 0x1A then x.tinfo.setWidth 128
  else if n == 0x1B then x.tval.setWidth 128
  else n32Word [d.floorKHz.toNat, d.pendingFloor.toNat, quarters d.rhoNow]

/-! ### Shared operations -/

/-- An instruction that needs S (R386, R416). -/
def State.needS (s : State) (f : Slot) (fm : Form) (body : State) : State :=
  if s.level then body else s.finish f fm (.fault s.cur Cause.priv 0)

/-- An instruction of trap handling (R417): S, in a context that handles a trap. -/
def State.inHandler (s : State) (f : Slot) (fm : Form) (body : State) : State :=
  s.needS f fm
    (if (s.pk.ctx s.cur.tile s.cur.work.ctx).tcause == 0 then s.finish f fm (.fault s.cur Cause.blockForm 9) else body)

/-- ERET at firing (R420): L goes to its exit; the action is the commit's. -/
def eretInstr (fm : Form) (f : Slot) (op : BitVec 2) (s : State) : State :=
  fireTrig fm f s fun l => s.inHandler f fm (s.finish f fm { t0 := some l, lsid := some (.eret op) })

/-- XLINV.all and XLINV.rng at firing (R398). -/
def xlinvInstr (fm : Form) (f : Slot) (form : BitVec 2) (s : State) : State :=
  fireTrig fm f s fun _ => s.needS f fm (s.giveCmd f fm (.xlinv form (f.mode.extractLsb' 2 2) 0 0))

/-- PREEMPT at firing (R424). -/
def preemptInstr (fm : Form) (f : Slot) (op : BitVec 2) (s : State) : State :=
  fireDesc fm f s fun l => s.needS f fm (s.giveCmd f fm (.preempt op (l.extractLsb' 0 32)))

/-- The command words of a stream of bytes. -/
def cmdWords (n : Nat) (bs : List Byte) : List W32 := (List.range n).map fun k => BitVec.ofNat 32 (bytesAt bs (4 * k) 4)

/-- CFGCHK's word: the failing step, its coordinate, and the words read (R401). -/
def chkWord (e : Option CheckFail) (words : Nat) (bad : Bool) : Token :=
  dataTok (n32Word [(e.map (·.step)).getD 0, (e.map (·.coord.toNat)).getD 0, words, 0]) bad

/-! ### Meanings -/

/-- TRAP (R418): SYSCALL is delivered after the commit. -/
def execTrap (f : Slot) (s : State) : Host.Outcome State Fault Refusal :=
  let fm := formOf (.trap f)
  .next (fireDesc fm f s fun l => s.finish f fm { lsid := some (.trap f.mode (l.extractLsb' 0 80)) })

/-- ERET.rs (R420). -/
def execEretRs (f : Slot) (s : State) : Host.Outcome State Fault Refusal :=
  .next (eretInstr (formOf (.eretRs f)) f 0 s)

/-- ERET.nb (R419, R420). -/
def execEretNb (f : Slot) (s : State) : Host.Outcome State Fault Refusal :=
  .next (eretInstr (formOf (.eretNb f)) f 1 s)

/-- ERET.ab (R420). -/
def execEretAb (f : Slot) (s : State) : Host.Outcome State Fault Refusal :=
  .next (eretInstr (formOf (.eretAb f)) f 2 s)

/-- ERET.dr (R420). -/
def execEretDr (f : Slot) (s : State) : Host.Outcome State Fault Refusal :=
  .next (eretInstr (formOf (.eretDr f)) f 3 s)

/-- No older instance of the firing's context lives: for a beat of a section, none that was spawned before it was armed (R46,
R142). -/
def State.olderCommitted (s : State) : Bool :=
  let t := s.pk.tile s.cur.tile
  ((t.live s.cur.work.ctx).all fun i => !ageLt (i.stamp, 0) (t.ageOf s.cur.work))

/-- SRD (R397): a poisoned trigger gives a poisoned word. -/
def execSrd (f : Slot) (s : State) : Host.Outcome State Fault Refusal :=
  let fm := formOf (.srd f)
  let n := sreg f
  .next (fireWith fm f kTrig kData s fun l _ =>
    if needsS n && !s.level then s.finish f fm (.fault s.cur Cause.priv 0)
    else if committedReg n && !s.olderCommitted then s.putBack
    else s.finish f fm (.all (dataTok (s.special n) l.poison)))

/-- SWR (R397): written at commit. -/
def execSwr (f : Slot) (s : State) : Host.Outcome State Fault Refusal :=
  let fm := formOf (.swr f)
  .next (firePlain fm f kData 7 5 s fun l _ =>
    s.finish f fm { lsid := some (.swr (BitVec.ofNat 6 (sreg f)) (l.extractLsb' 0 64)) })

/-- BKPT (R419): a fault token, or nothing in the first instance after ERET.nb. -/
def execBkpt (f : Slot) (s : State) : Host.Outcome State Fault Refusal :=
  let fm := formOf (.bkpt f)
  .next (fireTrig fm f s fun _ =>
    if (s.inst?.map (·.skipBkpt)).getD false then s.finish f fm { lsid := some .null }
    else s.finish f fm (.fault s.cur Cause.breakpoint 0))

/-- XLINV.pg (R398). -/
def execXlinvPg (f : Slot) (s : State) : Host.Outcome State Fault Refusal :=
  let fm := formOf (.xlinvPg f)
  .next (firePlain fm f kData 5 5 s fun l r =>
    s.needS f fm
      (s.giveChecked f fm (fld l 79 72 == 0xFF && 1 ≤ lane0 r && lane0 r ≤ 65536)
        (.xlinv 0 (f.mode.extractLsb' 2 2) (l.extractLsb' 0 80) (lane0 r))))

/-- XLINV.all (R398). -/
def execXlinvAll (f : Slot) (s : State) : Host.Outcome State Fault Refusal :=
  .next (xlinvInstr (formOf (.xlinvAll f)) f 1 s)

/-- XLINV.rng (R398). -/
def execXlinvRng (f : Slot) (s : State) : Host.Outcome State Fault Refusal :=
  .next (xlinvInstr (formOf (.xlinvRng f)) f 2 s)

/-- ERRQ (R423): holds the oldest record of the VI's queue on the die; written and removed at commit. -/
def execErrq (f : Slot) (s : State) : Host.Outcome State Fault Refusal :=
  let fm := formOf (.errq f)
  let d := s.cur.tile.die
  let v := (s.pk.tileVi s.cur.tile).val
  .next (firePlain fm f kData 2 5 s fun l _ =>
    s.needS f fm (s.withBlock f fm .store false (l.extractLsb' 0 80) 64 fun s1 =>
      let q := sget {} (s1.pk.die d).errq v
      match q.recs with
      | r :: rest =>
        let s2 := { s1 with pk := s1.pk.modDie d fun x => { x with errq := sset {} x.errq v { q with recs := rest, held := q.held + 1 } } }
        s2.finish f fm { Result.all (dataTok (n32Word [1, rest.length])) with
          lsid := some (.errq (l.extractLsb' 0 80) (some r)) }
      | [] =>
        if f.mode.getLsbD 0 then s1.putBack
        else s1.finish f fm { Result.all (dataTok 0) with lsid := some (.errq (l.extractLsb' 0 80) none) }))

/-- PCLR (R421): L without its poison bit; end-of-run passes unchanged. -/
def execPclr (f : Slot) (s : State) : Host.Outcome State Fault Refusal :=
  let fm := formOf (.pclr f)
  let l := opL fm f s.cur
  let p := if wantsP f then s.cur.p else none
  .next (
    if l.isEor && predPasses f s.cur && p.all (fun k => k.kind == .pred && !k.poison) then
      s.needS f fm (s.finish f fm (.all l))
    else fireWith fm f kTrig kData s fun l _ => s.needS f fm (s.finish f fm (.all { l with poison := false })))

/-- CTXSAVE (R422): the trapped image is written at commit. -/
def execCtxsave (f : Slot) (s : State) : Host.Outcome State Fault Refusal :=
  let fm := formOf (.ctxsave f)
  .next (firePlain fm f kData 2 5 s fun l _ =>
    s.inHandler f fm (s.withBlock f fm .store false (l.extractLsb' 0 80) 64 fun s1 =>
      s1.finish f fm { lsid := some (.ctxsave (l.extractLsb' 0 80)) }))

/-- CTXREST (R422): reads an image; an acceptable one replaces the trapped image's RW fields at commit. -/
def execCtxrest (f : Slot) (s : State) : Host.Outcome State Fault Refusal :=
  let fm := formOf (.ctxrest f)
  .next (firePlain fm f kData 2 5 s fun l _ =>
    s.inHandler f fm (s.readBlockAt f fm (l.extractLsb' 0 80) 64 1024 fun s1 bs bad =>
      if !bad && imageOk bs then
        s1.finish f fm { Result.all (dataTok 0) with lsid := some (.ctxrest (some (parseImage bs))) }
      else s1.finish f fm { Result.all (dataTok (n32Word [1])) with lsid := some (.ctxrest none) }))

/-- PREEMPT.stop (R424). -/
def execPreemptStop (f : Slot) (s : State) : Host.Outcome State Fault Refusal :=
  .next (preemptInstr (formOf (.preemptStop f)) f 0 s)

/-- PREEMPT.res (R424). -/
def execPreemptRes (f : Slot) (s : State) : Host.Outcome State Fault Refusal :=
  .next (preemptInstr (formOf (.preemptRes f)) f 1 s)

/-- PREEMPT.ab (R424). -/
def execPreemptAb (f : Slot) (s : State) : Host.Outcome State Fault Refusal :=
  .next (preemptInstr (formOf (.preemptAb f)) f 2 s)

/-- PREEMPT.be (R424). -/
def execPreemptBe (f : Slot) (s : State) : Host.Outcome State Fault Refusal :=
  .next (preemptInstr (formOf (.preemptBe f)) f 3 s)

/-- CFGCHK (R401): the check of R103 on an image as it is read. -/
def execCfgchk (f : Slot) (s : State) : Host.Outcome State Fault Refusal :=
  let fm := formOf (.cfgchk f)
  .next (firePlain fm f kData 2 5 s fun l _ =>
    let va : VA := l.extractLsb' 0 80
    if l.extractLsb' 80 48 != 0 then s.finish f fm (.fault s.cur Cause.blockForm 4)
    else s.readBlockAt f fm va 64 8 fun s1 hb badH =>
      let hdr : BitVec 512 := BitVec.ofNat 512 (bytesToNat hb)
      let emit (s : State) (e : Option CheckFail) (n : Nat) (bad : Bool) : State :=
        s.finish f fm { Result.all (chkWord e n bad) with lsid := some .waited }
      match checkHeader hdr [] with
      | some ⟨1, e, k⟩ => emit s1 (some ⟨1, e, k⟩) 0 badH
      | some ⟨2, e, k⟩ => emit s1 (some ⟨2, e, k⟩) 0 badH
      | _ =>
        let n := Header.length hdr
        s1.withWords f fm va (8 + ceilDiv n 2) fun bs bad =>
          let img : Image := { addr := va, vi := s.pk.tileVi s.cur.tile, hdr := hdr, cmds := cmdWords n (bs.drop 64) }
          emit s1 img.check n bad)

end Sys2Proof.Machine
end

