-- ==== Sys2Proof/Machine/Deliver.lean ====
section
/-! DEFINITION. Configuration commands (R84-R87) and tokens on their way: routes and their converters (R95-R98,
R318), the matching stores (R43, R45), the resolution of reads (R49), write entries, exits and the requests they
make (R51, R353-R355), and the egress ports of a section (R58, R59). -/

namespace Sys2Proof.Machine

/-! ### Configuration commands -/

/-- A plane's element changes; an address that names no element blocks its place (R104). -/
def State.onElem (s : State) (a : BitVec 12) (f : ElemState → ElemState) : State :=
  { s with pk := s.pk.modTile s.cmd.tile fun t => t.modPlane s.cmd.active fun p => p.modElem a f }

/-- Tokens that matching stores hold for a cleared slot are discarded (R85). -/
def Tile.dropHeld (t : Tile) (a : BitVec 12) : Tile := { t with store := t.store.filter fun e => e.elem != a }

/-- CONFIG_COMMAND (R84, R85): one field of one element. -/
def execConfigCommand (elem : BitVec 12) (field : BitVec 4) (value : W16) (s : State) : Host.Outcome State Fault Refusal :=
  .next (s.onElem elem fun e =>
    if commandOk elem field then
      let e1 := e.setField field.toNat value
      { e1 with img := if s.cmd.img.isSome then s.cmd.img else e1.img }
    else e.bar 4 field)

/-- CLEAR_COMMAND (R85): the element becomes unconfigured, and in the active plane its held tokens go. -/
def execClearCommand (elem : BitVec 12) (s : State) : Host.Outcome State Fault Refusal :=
  let s1 := s.onElem elem fun _ => {}
  .next { s1 with pk := s1.pk.modTile s.cmd.tile fun t => if s.cmd.active then t.dropHeld elem else t }

/-! ### Routes (R95-R98) -/

/-- The token after the boxes it crosses, with the flags its converters raise; none where a box holds no route
for it, or a blocked one (R104, R318). Where an older image's entry with the same key still stands in the box, the
lowest-numbered acts (log 77, DESIGN CHOICE). -/
def crossBoxes (es : List (Nat × ElemState)) (key : W16) : List Nat → Token × BitVec 5 → Option (Token × BitVec 5)
  | [], k => some k
  | b :: bs, k =>
    match routesIn es b key with
    | [] => none
    | x :: _ =>
      if x.blocked then none
      else match Ty.ofCode ((x.field 1).extractLsb' 12 4), Ty.ofCode ((x.field 1).extractLsb' 8 4) with
      | some a, some c =>
        let r := convertTok a c (bit (x.field 1) 4) (Rnd.ofCode ((x.field 1).extractLsb' 5 3)) k.1
        crossBoxes es key bs (r.1, k.2 ||| r.2)
      | _, _ => none

/-- A token's way from its producer's element to a side. -/
def Tile.route (t : Tile) (src : BitVec 12) (to_ : Side) (k : Token) : Option (Token × BitVec 5) :=
  match decodeElem src with
  | .ok (.slot sd row col n) => if sd == to_ then some (k, 0) else crossBoxes t.active.elems (routeKey sd to_ row col n) (boxes sd to_) (k, 0)
  | _ => some (k, 0)

/-! ### The matching store (R43, R45) -/

/-- A section holds a run-aware slot: its beats are counted anew there (R185). -/
def Tile.renumbers (t : Tile) (x : Section) : Bool :=
  t.active.elems.any fun e => e.1 < 0x800 && e.2.img == some x.img && t.isRun (BitVec.ofNat 12 e.1)

/-- The beats of a section that stand on the tile: in links, in matching stores, in loads (of `as`). -/
def Tile.beatsOn (t : Tile) (as : List Access) (x : Section) : List Nat :=
  (t.links.filter fun k => k.work.ofSection x).map (·.work.n) ++ (t.store.filter fun k => k.work.ofSection x).map (·.work.n) ++
    (as.filter fun a => a.isLoad && a.work.ofSection x).map (·.work.n)

/-- The next beats of the egress ports that end-of-stream has not reached. -/
def Section.due (x : Section) : List Nat := (x.outPos.filter fun q => !x.closed.contains (0xB00 + q.1)).map (·.2)

/-- The oldest unretired beat of a section: the lowest that an egress waits for or that stands on the tile; the next to
enter when there is none. Where run-aware slots number the beats anew only those on the tile count. -/
def Tile.lowBeat (t : Tile) (as : List Access) (x : Section) : Nat :=
  let waits := if t.renumbers x then [] else x.due
  (minOf (waits ++ t.beatsOn as x)).getD ((minOf (x.inPos.map (·.2))).getD 0)

/-- The oldest live work of a tile (R45): no instance and no section's oldest beat is older. -/
def Tile.isOldestWork (t : Tile) (as : List Access) (w : Work) : Bool :=
  let mine := t.ageOf w
  t.insts.all (fun i => !ageLt (i.stamp, 0) mine) &&
    t.sections.all fun x => !ageLt (x.stamp, t.lowBeat as x) mine

/-- A run-aware slot of a section has no token on an operand side, and waits for its head (R185). -/
def Tile.headless (t : Tile) (a : BitVec 12) (o : OpSide) (w : Work) : Bool :=
  w.stream && t.isRun a &&
    t.store.all fun e => !(e.elem == a && e.work.ctx == w.ctx && e.work.img == w.img && e.work.stream && (e.at_ o).isSome)

/-- Room in a PE's store for one more entry: 60 shared, 4 for the oldest live work. The head that a run-aware slot waits for
may take one of the 4 too (log 86, DESIGN CHOICE). -/
def Tile.storeRoom (t : Tile) (as : List Access) (a : BitVec 12) (o : OpSide) (w : Work) : Bool :=
  let n := (t.store.filter fun e => peOf e.elem == peOf a).length
  n < 60 || (n < 64 && (t.isOldestWork as w || t.headless a o w))

/-- Work that still runs on a tile. -/
def Tile.alive (t : Tile) (w : Work) : Bool :=
  if w.stream then (t.section? w.ctx w.img).isSome else (t.inst? w.ctx w.n).isSome

/-- A slot takes tokens on an operand side: configured, not blocked, and needing it (R104, R318). -/
def Tile.accepts (t : Tile) (a : BitVec 12) (o : OpSide) : Bool :=
  let e := t.active.elem a
  e.configured && !e.blocked &&
    (match decodeStep5 e.fields with
      | .ok _ => operandNeeded e o
      | .error _ => true)

/-- A slot holds a store of a section (R59). -/
def Tile.isStoreSlot (t : Tile) (a : BitVec 12) : Bool :=
  match t.instrAt a with
  | .ok (.st _) | .ok (.stl _) => true
  | _ => false

/-- A second token for an operand side (R43): the instance may not commit; a beat gets a fault token, which at a store of
its section is the fault of R58. -/
def Pack.secondToken (p : Pack) (t : TileId) (a : BitVec 12) (w : Work) : Pack :=
  let k := faultTok Cause.blockForm 2 a 0
  let ts := looseTargets ((p.tile t).active.elem a).fields
  let p1 := p.modTile t fun x =>
    let y := { x with store := x.store.filter fun e => !(e.elem == a && e.work == w) }
    if w.stream then (y.send a w ts.1 k).send a w ts.2 k
    else y.modInst w.ctx w.n fun i => { i with second := some (i.second.getD k) }
  if w.stream && (p.tile t).isStoreSlot a then p1.sectionFault t w k else p1

/-- A token reaches a slot. -/
def Pack.deliverSlot (p : Pack) (t : TileId) (a : BitVec 12) (w : Work) (o : OpSide) (k : Token) : Pack :=
  match (p.tile t).store.find? fun e => e.elem == a && e.work == w with
  | some e =>
    if (e.at_ o).isSome then p.secondToken t a w
    else p.modTile t fun x => { x with store := modifyFirst (fun e => e.elem == a && e.work == w) (·.put o k) x.store }
  | none => p.modTile t fun x => { x with store := x.store ++ [({ elem := a, work := w } : MatchEntry).put o k] }

/-! ### Reads (R49, R288) -/

/-- What a read of gN of an instance comes to: a value, or a wait. -/
def Pack.resolveIn (p : Pack) (t : TileId) (cur : CtxImage) (n : Nat) : List Inst → Option Token
  | [] =>
    if cur.pend.any fun x => x.1 == n then none
    else
      let g := cur.getG n
      some (dataTok g.1 g.2)
  | i :: older =>
    match p.imageOf t i.img with
    | none => none
    | some img =>
      match (List.range (Header.nwrite img.hdr)).find? fun k => img.writeReg k == n with
      | none => p.resolveIn t cur n older
      | some k =>
        match alookup k i.writes with
        | none => none
        | some (.pending _) => none
        | some (.tok v) => if v.isNull then p.resolveIn t cur n older else some v

/-- The read entries of one instance that can deliver now. -/
def Pack.resolveInst (p : Pack) (t : TileId) (c : CtxId) (i : Inst) : Pack :=
  match p.imageOf t i.img with
  | none => p
  | some img =>
    let older := (((p.tile t).live c).filter fun j => j.seq < i.seq).reverse
    (List.range (Header.nread img.hdr)).foldl (fun p k =>
      if i.reads.contains k then p
      else
        let e := img.readEntry k
        match p.resolveIn t (p.ctx t c).cur e.reg older with
        | none => p
        | some v =>
          let src := BitVec.ofNat 12 (0xC00 + k)
          let w : Work := { ctx := c, img := i.img, n := i.seq }
          p.modTile t fun x => ((x.send src w e.t0 v).send src w e.t1 v).modInst c i.seq fun j => { j with reads := j.reads ++ [k] }) p

/-- Every read of a context that can deliver does. -/
def Pack.resolveReads (p : Pack) (t : TileId) (c : CtxId) : Pack :=
  ((p.tile t).live c).foldl (fun p i => p.resolveInst t c i) p

/-! ### Exits (R51-R54, R352-R355) -/

/-- The return stack of a context after one exit: pushed by a call, popped by a return. -/
def CtxImage.push (c : CtxImage) (v : W64) : CtxImage :=
  if c.rs.length < 16 then { c with rs := v :: c.rs }
  else { c with rs := v :: c.rs.take 15, ra := (c.rs.drop 15).take 1 ++ c.ra }

def CtxImage.pop (c : CtxImage) : CtxImage :=
  match c.rs with
  | _ :: rest => { c with rs := rest }
  | [] => { c with ra := c.ra.drop 1 }

/-- What the exit that fired does to the stack. -/
def exitStack (e : ExitEntry) (c : CtxImage) : CtxImage :=
  match e.kind.toNat with
  | 1 => c.push e.ret
  | 2 => c.pop
  | _ => c

/-- The one exit of an instance. -/
def Inst.exit? (i : Inst) : Option (Nat × Token) := i.exits.head?

/-- The stack as every older live instance will leave it (R354). -/
def Pack.stackView (p : Pack) (t : TileId) (c : CtxId) (seq : Nat) : CtxImage :=
  (((p.tile t).live c).filter fun i => i.seq < seq).foldl (fun im i =>
    match i.exit?, p.imageOf t i.img with
    | some (n, _), some img => exitStack (img.exitEntry n) im
    | _, _ => im) (p.ctx t c).cur

/-- The block an exit selects; none for a halt, or a return with nothing to return to. -/
def exitDest (e : ExitEntry) (k : Token) (view : CtxImage) : Option VA :=
  match e.kind.toNat with
  | 2 => view.stack.head?.map blockAddr
  | 3 => none
  | _ => some (blockAddr (if e.ind then k.val.extractLsb' 0 64 else e.dest))

/-- Instructions whose commit holds or replaces the successor's request (R354, R368, R420). -/
def holdsRequest : Instr → Bool
  | .yield _ | .eretRs _ | .eretNb _ | .eretAb _ | .eretDr _ => true
  | _ => false

/-- Exits whose successor is requested only at commit (R354): those that TQGET and TQSTEAL fire, and those of an image that
yields or returns from a trap. -/
def lateExit (img : Image) (i : Inst) : Bool := i.late || img.instrs.any fun x => holdsRequest x.2

/-- The loop-back exit goes on with its loop (R64, R65): not after the last iteration, and not after CONT's false. -/
def Inst.continues (i : Inst) (e : ExitEntry) (k : Token) : Bool :=
  if e.kind == 4 then (match i.loop with | some r => decide (i.iter + 1 < r.n.toNat) | none => false)
  else e.kind == 5 && bit k.val 0

/-- The request of an exit's successor. One of an older instance, which broke a loop, stands: its commit squashes what is
younger (R64). -/
def Ctx.ask (x : Ctx) (seq : Nat) (va : VA) : Ctx :=
  if (x.req.bind (·.after)).any fun n => n < seq then x else { x with req := some { va := va, after := some seq } }

/-- A slot holds an instruction that takes task records. -/
def Tile.takesTasks (t : Tile) (a : BitVec 12) : Bool :=
  match t.instrAt a with
  | .ok (.tqget _) | .ok (.tqsteal _) => true
  | _ => false

/-- An exit is fired by a token of element `src`: the successor is requested at once, but for the exceptions of R354. -/
def Pack.fireExit (p : Pack) (t : TileId) (c : CtxId) (seq n : Nat) (src : BitVec 12) (k : Token) : Pack :=
  match (p.tile t).inst? c seq with
  | none => p
  | some j =>
    let i := { j with late := j.late || (p.tile t).takesTasks src }
    let p1 := p.modTile t fun x => x.modInst c seq fun j => { j with exits := j.exits ++ [(n, k)], late := i.late }
    match p.imageOf t i.img with
    | none => p1
    | some img =>
      if !i.exits.isEmpty || lateExit img i || i.continues (img.exitEntry n) k then p1
      else match exitDest (img.exitEntry n) k (p.stackView t c seq) with
        | none => p1
        | some va => p1.modCtx t c (·.ask seq va)

/-- A fault at an exit: the lowest exit index counts (R53). -/
def Inst.faultExit (i : Inst) (n : Nat) (k : Token) : Inst :=
  match i.exitFault with
  | some (m, _) => if m ≤ n then i else { i with exitFault := some (n, k) }
  | none => { i with exitFault := some (n, k) }

/-- A token reaches an exit (R42, R51). -/
def Pack.deliverExit (p : Pack) (t : TileId) (w : Work) (n : Nat) (src : BitVec 12) (k : Token) : Pack :=
  let el := BitVec.ofNat 12 (0xC40 + n)
  let fault (x : Token) : Pack := p.modTile t fun y => y.modInst w.ctx w.n (·.faultExit n x)
  if k.isFault then fault k
  else if k.isNull then p
  else if k.kind == .eor || k.kind == .digit then fault (faultTok Cause.blockForm 1 el 0)
  else if k.poison then fault (faultTok Cause.poison 4 el 0)
  else p.fireExit t w.ctx w.n n src k

/-- A token reaches a write entry: one that holds no value is a fault of kind (R41, R43). -/
def Pack.deliverWrite (p : Pack) (t : TileId) (w : Work) (n : Nat) (k : Token) : Pack :=
  let v := if k.kind == .eor || k.kind == .digit then faultTok Cause.blockForm 1 (BitVec.ofNat 12 (0xC20 + n)) 0
    else if k.kind == .pred then { k with kind := .data } else k
  (p.modTile t fun x => x.modInst w.ctx w.n (·.giveWrite n (.tok v))).resolveReads t w.ctx

/-! ### TOKEN_DELIVERY (R44) -/

/-- Take the k-th token off the links. -/
def Tile.unlink (t : Tile) (k : Nat) : Tile := { t with links := t.links.eraseIdx k }

/-- An egress port that takes tokens of an image's section: a configured element of that image, it and its converter not
blocked (R104, R318). -/
def Tile.egressOpen (t : Tile) (img : VA) (port : Nat) : Bool :=
  let e := t.active.elem (BitVec.ofNat 12 (0xB00 + port))
  e.configured && !e.blocked && e.img == some img && !(t.active.elem (BitVec.ofNat 12 (0x980 + port))).blocked

/-- The number of entries of a kind that the image of an instance configures. -/
def Pack.entries (p : Pack) (t : TileId) (w : Work) (count : BitVec 512 → Nat) : Nat :=
  ((p.imageOf t w.img).map fun i => count i.hdr).getD 0

/-- A token of a beat at an egress port waits there for its turn. One that comes after its beat has left is a second token
of that beat (R43): the fault of R58 at that beat (log 78, DESIGN CHOICE). In a section taken back, a beat that had left
before comes again and is dropped. -/
def Pack.deliverEgress (p : Pack) (t : TileId) (k : Nat) (x : Transit) (port : Nat) : Pack :=
  let tl := p.tile t
  if !tl.egressOpen x.work.img port then p.modTile t (·.unlink k)
  else match (tl.section? x.work.ctx x.work.img).bind fun y => alookup port y.outPos with
    | none => p.modTile t (·.unlink k)
    | some b =>
      let replay : Nat := (((tl.section? x.work.ctx x.work.img).bind fun y => alookup port y.replays)).getD 0
      if x.work.n < min b replay then p.modTile t (·.unlink k)
      else if x.work.n < b then
        (p.modTile t (·.unlink k)).sectionFault t x.work (faultTok Cause.blockForm 2 (BitVec.ofNat 12 (0xB00 + port)) 0)
      else p

/-- A token at its target. What stands for no element that takes it is discarded (R104, R318). -/
def Pack.deliver (p : Pack) (t : TileId) (k : Nat) (x : Transit) : Pack :=
  let tl := p.tile t
  let gone := p.modTile t (·.unlink k)
  if !tl.alive x.work then gone
  else match x.tgt with
    | .none => gone
    | .output n =>
      if x.work.stream then p.deliverEgress t k x n.toNat
      else if n.toNat < p.entries t x.work Header.nwrite then gone.deliverWrite t x.work n.toNat x.tok else gone
    | .exit n => if !x.work.stream && n.toNat < p.entries t x.work Header.nexit then gone.deliverExit t x.work n.toNat x.src x.tok else gone
    | .operand o sd row col n _ =>
      let a := slotAddr sd row col n
      match tl.route x.src sd x.tok with
      | none => gone
      | some (v, fl) =>
        if !tl.accepts a o then gone
        else if (tl.store.any fun e => e.elem == a && e.work == x.work) || tl.storeRoom (p.tileAccs t) a o x.work then
          (p.modTile t fun y => (y.unlink k).addFlags x.src x.work fl).deliverSlot t a x.work o v
        else p

/-- A token of the tile's residency has moved: its watchdog returns to 0 (R346). -/
def Pack.tokenMoved (p : Pack) (t : TileId) : Pack :=
  match (p.tile t).res with
  | some r => p.modResid r fun x => { x with watchdog := 0 }
  | none => p

/-- The watchdog sees a delivery that took its token off the links. -/
def Pack.noteMove (p : Pack) (t : TileId) (before : Nat) : Pack := if (p.tile t).links.length == before then p else p.tokenMoved t

/-- TOKEN_DELIVERY (R44): the k-th token on the tile's links arrives, or waits in its latch (R45). -/
def execTokenDelivery (t : TileId) (k : Nat) (s : State) : Host.Outcome State Fault Refusal :=
  match (s.pk.tile t).links[k]? with
  | none => .next s
  | some x => .next { s with pk := (s.pk.deliver t k x).noteMove t (s.pk.tile t).links.length }

/-! ### STREAM_EGRESS (R58, R59) -/

/-- The section that an egress port of the active plane belongs to, with the port's next beat. -/
def Tile.egress? (t : Tile) (port : Fin 64) : Option (Section × Nat) :=
  let e := t.active.elem (BitVec.ofNat 12 (0xB00 + port.val))
  match t.sections.find? fun x => e.img == some x.img && (alookup port.val x.outPos).isSome with
  | none => none
  | some x => some (x, (alookup port.val x.outPos).getD 0)

/-- The stream number that the active planes bind to a port. -/
def Tile.boundStream (t : Tile) (egress : Bool) (port : Nat) : Option Nat :=
  firstSome (fun e : Nat × ElemState =>
    if 0xD00 ≤ e.1 && e.1 < 0xD10 && e.2.configured && bit (e.2.field 0) 15 == egress && fld (e.2.field 0) 13 8 == port then
      some (fld (e.2.field 0) 3 0) else none) t.active.elems

/-- The side whose section gives a matrix operation its words (R201). -/
def EngineCmd.side? : EngineCmd → Option Side
  | .mma _ => some .w
  | .mmald _ => some .n
  | _ => none

def Tile.egressDest (t : Tile) (port : Fin 64) : Nat := fld ((t.active.elem (BitVec.ofNat 12 (0xB00 + port.val))).field 0) 11 10

/-- The operation that takes an egress port's beats: a stream operation of kind 011, or, from a port toward the array, the
array operation of its side (R99, R201). -/
def Tile.taker (t : Tile) (port : Fin 64) (x : Section) : Option Op :=
  let dest := t.egressDest port
  if dest == 0 then
    match t.boundStream true port.val with
    | none => none
    | some n => t.streamQ.find? fun o => o.started && !o.stopped && !o.ending && o.held.all (fun h => 2 ^ 64 ≤ h.1) &&
        (match o.snap.getD o.cmd with
          | .strm c => c.fromPort && c.stream.val == n
          | _ => false)
  else if dest == 1 then t.matrixQ.find? fun o => o.id == x.op && o.started && o.cmd.side? == some (portSide (BitVec.ofFin port))
  else none

/-- Flags of the beats below the lowest position of every egress reach s.fpf (R142), but for those that a run-aware slot has
yet to take over. -/
def Tile.retireBeats (t : Tile) (c : CtxId) (img : VA) : Tile :=
  match t.section? c img with
  | none => t
  | some x =>
    let low := (minOf (x.outPos.map (·.2))).getD 0
    let out (b : BitVec 12 × Nat × BitVec 5) : Bool := b.2.1 < low && !t.feeds img b.1
    let fl := (x.flags.filter out).foldl (fun a b => a ||| b.2.2) 0
    (t.modSection c img fun y => { y with flags := y.flags.filter fun b => !out b }).modCtx c
      fun z => { z with cur := { z.cur with fpf := z.cur.fpf ||| fl } }

/-- The converter of an egress port (R99). -/
def Tile.convertEgress (t : Tile) (port : Fin 64) (k : Token) : Token × BitVec 5 :=
  let x := t.active.elem (BitVec.ofNat 12 (0x980 + port.val))
  if !x.configured then (k, 0)
  else match Ty.ofCode ((x.field 0).extractLsb' 12 4), Ty.ofCode ((x.field 0).extractLsb' 8 4) with
    | some a, some b => convertTok a b (bit (x.field 0) 4) (Rnd.ofCode ((x.field 0).extractLsb' 5 3)) k
    | _, _ => (k, 0)

/-- A beat's token as an egress port sees it: what traps there, or what it delivers. -/
def egressFault (port : Fin 64) (double : Bool) (k : Token) : Option Token :=
  let el := BitVec.ofNat 12 (0xB00 + port.val)
  if double then some (faultTok Cause.blockForm 2 el 0)
  else if k.isFault then some k
  else if k.poison then some (faultTok Cause.poison 3 el 0)
  else if k.kind == .digit then some (faultTok Cause.blockForm 1 el 0)
  else none

/-- A beat leaves an egress port. -/
def Tile.passEgress (t : Tile) (x : Section) (port : Fin 64) (b : Nat) (o : Option Op) (k : Token) : Tile :=
  let w : Work := { ctx := x.ctx, img := x.img, stream := true, n := b }
  let r := t.convertEgress port k
  let t1 := { t with links := t.links.filter fun y => !(y.work == w && y.tgt == Target.output (BitVec.ofNat 6 port.val)) }
  let t2 := t1.addFlags (BitVec.ofNat 12 (0xB00 + port.val)) w r.2
  let t3 := match o with
    | some o => t2.modOp o.id fun y => { y with held := y.held ++ [(16 * b + port.val % 16, r.1)] }
    | none => t2
  let t4 := t3.modSection x.ctx x.img fun y => { y with outPos := aset port.val (b + 1) y.outPos }
  (t4.retireBeats x.ctx x.img).reachSink x.ctx x.img (0xB00 + port.val) b k.isEos

/-- STREAM_EGRESS (R58): the port's next beat, in beat order. A beat of a section that has stopped at or below it
is suppressed. A port that no operation of its side or stream takes from delivers nothing: it lets its beat go. -/
def execStreamEgress (t : TileId) (port : Fin 64) (s : State) : Host.Outcome State Fault Refusal :=
  let tl := s.pk.tile t
  match tl.egress? port with
  | none => .next s
  | some (x, b) =>
    let w : Work := { ctx := x.ctx, img := x.img, stream := true, n := b }
    let ks := tl.links.filter fun y => y.work == w && y.tgt == Target.output (BitVec.ofNat 6 port.val)
    let stopped : Bool := match x.stop with | some (h, _) => decide (h ≤ b) | none => false
    match ks with
    | [] => .next s
    | k :: rest =>
      if stopped then .next s
      else match egressFault port (!rest.isEmpty) k.tok with
        | some fk => .next { s with pk := s.pk.sectionFault t w fk }
        | none =>
          let o := tl.taker port x
          if o.isNone && tl.egressDest port == 0 then .next s
          else .next { s with pk := (s.pk.modTile t fun y => y.passEgress x port b o k.tok).tokenMoved t }

end Sys2Proof.Machine
end

