-- ==== Sys2Proof/Machine/Blocks.lean ====
section
/-! DEFINITION. The sequencer's side of a block: requests, fetches, the check and the placement of an image (R48,
R86-R88, R103, R104), and the spawning of instances and loop iterations (R49, R63-R70, R357, R368). -/

namespace Sys2Proof.Machine

/-! ### Images and the active plane -/

/-- The slots and route entries of an image as placed (R88). -/
def Image.collar (i : Image) : List (BitVec 12) :=
  i.elems.filterMap fun e => if e.1 < 0xA00 then some (BitVec.ofNat 12 e.1) else none

/-- Two images address a slot or route entry in common. -/
def Image.meets (i j : Image) : Bool := i.collar.any fun a => j.collar.contains a

/-- The slots and route entries of the active plane hold the image, as it is in the context store now (R48). -/
def Tile.planeHolds (t : Tile) (i : Image) : Bool :=
  t.active.image? i.addr == some i && i.collar.all fun a => let e := t.active.elem a; e.img == some i.addr && !e.blocked

/-- Commands of an image are on their way to a plane. -/
def Tile.pendingCmds (t : Tile) (a : VA) : Bool := t.cfgStream.any fun c => c.img == some a

/-- An image has a live instance or an armed section (R88). -/
def Tile.inUse (t : Tile) (a : VA) : Bool := t.insts.any (·.img == a) || t.sections.any (·.img == a)

/-- No image in use holds a slot or route entry that the image addresses (R48). -/
def Tile.slotsFree (t : Tile) (i : Image) : Bool :=
  !t.inUse i.addr && i.collar.all fun a =>
    match (t.active.elem a).img with
    | some b => !t.inUse b && !t.pendingCmds b
    | none => true

/-- A request of another context, older than `n`, whose image the store holds and the active plane does not: it waits for
slots. -/
def Tile.slotWaiter (t : Tile) (vi : Fin 64) (c : CtxId) (n : Nat) (k : CtxId) : Option Image :=
  if k == c then none
  else match (t.ctx k).req with
    | some q =>
      if q.placed then none
      else match q.stamp, t.image? q.va vi with
        | some m, some j => if m < n && !Header.stream j.hdr && !t.planeHolds j && j.check.isNone then some j else none
        | _, _ => none
    | none => none

/-- An older request waits for slots that the image holds: no new instance of it is spawned (R48). -/
def Tile.olderWaits (t : Tile) (vi : Fin 64) (i : Image) (c : CtxId) (n : Nat) : Bool :=
  allCtxs.any fun k => match t.slotWaiter vi c n k with | some j => j.addr != i.addr && i.meets j | none => false

/-- The clear command of an element (R85). -/
def clearWord (a : BitVec 12) : W32 := a ++ ((15 : BitVec 4) ++ (0 : W16))

def isHeaderEntry (a : BitVec 12) : Bool := a.toNat / 256 == 12

/-- The commands that place an image: its own but for the header entries, each element cleared before its first
(R86, R87). -/
def placeWords (seen : List (BitVec 12)) : List W32 → List W32
  | [] => []
  | w :: ws =>
    let a := cmdElem w
    if isHeaderEntry a then placeWords seen ws
    else if seen.contains a then w :: placeWords seen ws
    else clearWord a :: w :: placeWords (a :: seen) ws

/-- What a plane's record of its contents becomes when an image arrives (R426). -/
def CfgPlane.logImage (p : CfgPlane) (i : Image) : CfgPlane :=
  let old (w : PlaneWrite) : Bool := match w with | .image j _ => j.addr == i.addr | .word _ => false
  { p with log := (p.log.filter fun w => !old w) ++ [.image i (Header.sides i.hdr)] }

/-- The image's commands enter a plane's stream. -/
def Tile.pushImage (t : Tile) (i : Image) (active : Bool) : Tile :=
  let cs : List CfgCommand := (placeWords [] i.cmds).map fun w => { word := w, active := active, img := some i.addr }
  { t with cfgStream := t.cfgStream ++ cs }

/-- R104: the reported element blocks with the fields that the image writes, and every other element of the image is
cleared. -/
def CfgPlane.block (p : CfgPlane) (i : Image) (e : CheckFail) : CfgPlane :=
  let p1 := i.order.foldl (fun p a => if isHeaderEntry a then p else p.modElem a fun _ => {}) p
  match looseElem e.elem with
  | .error _ | .ok (.entry ..) => p1
  | .ok _ => p1.modElem e.elem fun _ => { (i.elem e.elem.toNat).bar e.step e.field with img := some i.addr }

/-! ### The context store (R19, R48) -/

def Image.size (i : Image) : Nat := 64 + 64 * ceilDiv i.cmds.length 16

/-- The store holds 64 images and 256 KiB. -/
def storeFits (is : List Image) : Bool := is.length ≤ 64 && is.foldl (fun n i => n + i.size) 0 ≤ 262144

/-- An image that no instance, request or command needs. -/
def Tile.evictable (t : Tile) (i : Image) : Bool :=
  !t.inUse i.addr && !t.pendingCmds i.addr &&
    t.configQ.all (fun o => match o.cmd with | .cfgld b => !(o.started && b == i.addr) | _ => true) &&
    allCtxs.all fun c => match (t.ctx c).req with | some q => q.va != i.addr | none => true

/-- Two images of one address and VI: the store keeps one. -/
def Image.same (i j : Image) : Bool := i.addr == j.addr && i.vi == j.vi

/-- Images other than `i` leave until the rest fit; which of them is open (log 14). None where they cannot. -/
def Tile.evict (i : Image) : Nat → Tile → Option Tile
  | 0, t => if storeFits t.images then some t else none
  | k + 1, t =>
    if storeFits t.images then some t
    else
      let es := t.images.filter fun j => !j.same i && t.evictable j
      match es[(Config.freeValue (t.stamp + k)).toNat % es.length]? with
      | none => none
      | some o => Tile.evict i k { t with images := t.images.filter fun j => !j.same o }

/-- An image enters the context store; none while it has no room. -/
def Tile.keep (t : Tile) (i : Image) : Option Tile :=
  let t2 := { t with images := (t.images.filter fun (j : Image) => !j.same i) ++ [i] }
  t2.evict i t2.images.length

/-! ### Reading an image -/

/-- What one unit of an image comes to: a fault, or bytes with the memory and package as the read leaves them. -/
def fetchRight (r : Except XErr Mapping) (lvl : Bool) : Option XErr :=
  match r with
  | .error e => some e
  | .ok mp =>
    match mp.permits .fetch lvl with
    | some e => some e
    | none => if mp.cls then some (xerr 5 5) else none

structure Fetched where
  err : Option (XErr × VA) := none
  bytes : List Byte := []
  poison : Bool := false
  state : State

/-- n units of 64 bytes from an address, read for a fetch (R48, R229, R241). Of the last `g` bytes that count, the
granules that hold one. -/
def State.fetchUnits (s : State) (t : TileId) (lvl : Bool) (va : VA) (g : Nat) : Nat → Fetched
  | 0 => { state := s }
  | k + 1 =>
    let vi := s.pk.tileVi t
    let r := translateAt s.mem s.pk t vi va
    let s1 := s.walked t vi r.2
    match fetchRight r.1 lvl, r.1 with
    | some e, _ => { err := some (e, va), state := s1 }
    | none, .error e => { err := some (e, va), state := s1 }
    | none, .ok mp =>
      match paPlace mp.pa with
      | none => { err := some (xerr 4 3, va), state := s1 }
      | some (d, off) =>
        let a := memIndex d off
        let bad := (List.range (min 4 (ceilDiv g 16))).any fun j => s1.mem.badGranule (a + 16 * j)
        let s2 := (List.range 4).foldl (fun (s : State) j => s.stored (settlePlace s.mem s.pk t vi (.home d (off + 16 * j) false 0) 16)) s1
        let rest := s2.fetchUnits t lvl (va + 64) (g - 64) k
        { rest with bytes := readBytes s.mem.cells a 64 ++ rest.bytes, poison := bad || rest.poison }

/-- A whole image: its header, and as many words as its length allows (R100). -/
def State.fetchImage (s : State) (t : TileId) (lvl : Bool) (a : VA) : Fetched × Image :=
  let h := s.fetchUnits t lvl a 64 1
  let hdr : BitVec 512 := BitVec.ofNat 512 (bytesToNat h.bytes)
  let n := if Header.length hdr ≤ 4080 && h.err.isNone then Header.length hdr else 0
  let c := h.state.fetchUnits t lvl (a + 64) (4 * n) (ceilDiv n 16)
  ({ err := h.err.or c.err, poison := h.poison || c.poison, state := c.state },
   { addr := a, vi := s.pk.tileVi t, hdr := hdr, cmds := cmdWords n c.bytes })

/-! ### Conditions on a context -/

/-- The tile's sequencer works: its residency runs and no pre-emption has arrived (R346, R427). -/
def Pack.running (p : Pack) (t : TileId) : Bool :=
  match p.resOf t with
  | some (_, r) => r.st == .resident && !r.aborted
  | none => false

/-- YIELD holds the context (R368). -/
def Tile.yieldHeld (t : Tile) (x : Ctx) : Bool :=
  x.cur.yld != 0 || (setBits x.cur.yldWaits).any fun k => (t.ctx (Fin.ofNat 32 k)).st == .live

/-- The sequencer serves the context: live, with no trap raised or due (R412), not stopped and not held. -/
def Pack.serves (p : Pack) (t : TileId) (c : CtxId) : Bool :=
  let x := p.ctx t c
  p.running t && x.st == .live && x.raised.isNone && (x.precs.isEmpty || x.tcause != 0) && !x.stopped && !(p.tile t).yieldHeld x

/-- An exact trap at a block boundary, once the preceding instance has committed. -/
def Pack.refuseEntry (p : Pack) (t : TileId) (c : CtxId) (e : XErr) (block va : VA) (coord : W16 := 0) : Pack :=
  if ((p.tile t).live c).isEmpty then p.raiseAt t c e.cause e.sub block va 0 coord else p

def Pack.setReq (p : Pack) (t : TileId) (c : CtxId) (q : Option BlockReq) : Pack := p.modCtx t c fun x => { x with req := q }

/-! ### BLOCK_REQUEST (R48) -/

def isLoop (i : Image) : Bool := Header.iterate i.hdr || Header.while_ i.hdr

/-- A window above the context's allotment (R70). -/
def overWindow (x : Ctx) (i : Image) : Bool := isLoop i && x.cur.alloc < Header.window i.hdr

/-- An older request waits for slots: the requests that wait are served oldest first (R48). -/
def Pack.olderFirst (p : Pack) (t : TileId) (vi : Fin 64) (c : CtxId) (n : Nat) : Bool :=
  allCtxs.any fun k => ((p.tile t).slotWaiter vi c n k).isSome && p.serves t k

/-- A request whose image stands in the context store: refused, placed, or waiting for slots. -/
def Pack.place (p : Pack) (t : TileId) (c : CtxId) (q : BlockReq) (i : Image) : Pack :=
  let tl := p.tile t
  let x := p.ctx t c
  let ready := some { q with placed := true }
  if Header.stream i.hdr then p.refuseEntry t c ⟨Cause.blockForm, 6⟩ q.va 0
  else if tl.planeHolds i && i.check.isNone then
    if overWindow x i then p.refuseEntry t c ⟨Cause.tagExhausted, 1⟩ q.va 0 else p.setReq t c ready
  else if !tl.slotsFree i || tl.pendingCmds i.addr || p.olderFirst t i.vi c (q.stamp.getD 0) then p
  else match i.check with
    | some e =>
      if (tl.live c).isEmpty then
        (p.modTile t fun y => { y with active := y.active.block i e }).refuseEntry t c
          ⟨Cause.illegalConfig, BitVec.ofNat 8 e.step⟩ q.va 0 e.coord
      else p
    | none =>
      if overWindow x i then p.refuseEntry t c ⟨Cause.tagExhausted, 1⟩ q.va 0
      else (p.modTile t fun y => { y.pushImage i true with active := y.active.logImage i }).setReq t c ready

/-- The tile asks for an image that its context store lacks. -/
def Tile.ask (t : Tile) (a : VA) : Tile := if t.fetches.contains a then t else { t with fetches := t.fetches ++ [a] }

/-- A request in turn: its image stands in the context store, or is fetched. -/
def Pack.serveRequest (p : Pack) (t : TileId) (c : CtxId) (q : BlockReq) : Pack :=
  match (p.tile t).image? q.va (p.tileVi t) with
  | some i => p.place t c q i
  | none => p.modTile t (·.ask q.va)

/-- The instance after whose commit a request is served still lives (R61). -/
def Tile.reqHeld (t : Tile) (c : CtxId) (q : BlockReq) : Bool :=
  q.afterCommit && (match q.after with | some k => (t.live c).any fun i => i.seq ≤ k | none => false)

/-- BLOCK_REQUEST (R48): the request takes its place among those waiting, and is then served. -/
def execBlockRequest (t : TileId) (c : CtxId) (s : State) : Host.Outcome State Fault Refusal :=
  match (s.pk.ctx t c).req with
  | none => .next s
  | some q =>
    if q.placed || !s.pk.serves t c || (s.pk.tile t).reqHeld c q then .next s
    else match q.stamp with
      | some _ => .next { s with pk := s.pk.serveRequest t c q }
      | none =>
        .next { s with pk := s.pk.modTile t fun y =>
          { y with stamp := y.stamp + 1 }.modCtx c fun x => { x with req := some { q with stamp := some y.stamp } } }

/-! ### IMAGE_FETCH_DONE (R48, R316) -/

/-- The contexts that wait for an image. -/
def Tile.waiters (t : Tile) (a : VA) : List CtxId :=
  allCtxs.filter fun c => match (t.ctx c).req with | some q => q.va == a && !q.placed | none => false

/-- Those of them at one level, whose right of access a fetch shows. -/
def Tile.waitersAt (t : Tile) (a : VA) (lvl : Bool) : List CtxId := (t.waiters a).filter fun c => (t.ctx c).cur.lvl == lvl

/-- The CFGLD at the head of the configuration queue, when it waits for this image. -/
def Tile.loadHead (t : Tile) (a : VA) : Option Op :=
  match t.configQ with
  | o :: _ => (match o.cmd with | .cfgld b => if b == a && !o.started && !o.stopped && !o.ending then some o else none | _ => none)
  | [] => none

/-- A CFGLD of the tile still waits for an image. -/
def Tile.loadWaits (t : Tile) (a : VA) : Bool :=
  t.configQ.any fun o => match o.cmd with | .cfgld b => b == a && !o.started && !o.ending | _ => false

/-- The fetch is over for an address that nothing waits for any more. -/
def Tile.endFetch (t : Tile) (a : VA) : Tile :=
  if (t.waiters a).isEmpty && !t.loadWaits a then { t with fetches := t.fetches.filter (· != a) } else t

/-- Elements of a plane that lie in the planes of given sides (R87). -/
def ElemState.onSides (a : Nat) (e : ElemState) (sides : BitVec 4) : Bool :=
  match looseElem (BitVec.ofNat 12 a) with
  | .ok el => (match el.side (e.field 0) with | some sd => bit sides (sideBit sd) | none => false)
  | .error _ => false

/-- A CFGWR word of a plane's record belongs to an element of given sides. -/
def CfgPlane.wordOn (p : CfgPlane) (w : W32) (sides : BitVec 4) : Bool :=
  let a := (cmdElem w).toNat
  (sget {} p.elems a).onSides a sides

/-- What a plane's record holds of given sides. -/
def CfgPlane.logOf (p : CfgPlane) (sides : BitVec 4) : List PlaneWrite :=
  p.log.filterMap fun w =>
    match w with
    | .image i sd => if sd &&& sides == 0 then none else some (.image i (sd &&& sides))
    | .word v => if p.wordOn v sides then some (.word v) else none

/-- The part of a plane on given sides, and a plane with those sides empty. -/
def CfgPlane.part (p : CfgPlane) (sides : BitVec 4) : CfgPlane :=
  { elems := p.elems.filter fun e => e.2.onSides e.1 sides, log := p.logOf sides }

def CfgPlane.clearSides (p : CfgPlane) (sides : BitVec 4) : CfgPlane :=
  { elems := p.elems.filter fun e => !e.2.onSides e.1 sides, log := p.logOf (~~~ sides) }

/-- A fetch that failed at a level: each context of that level that waits traps at its boundary, and a CFGLD stops at the
fault (R241, R243). -/
def Pack.fetchFault (p : Pack) (t : TileId) (lvl : Bool) (o : Option Op) (a va : VA) (e : XErr) : Pack :=
  let p1 := ((p.tile t).waitersAt a lvl).foldl (fun p c => p.refuseEntry t c e a va) p
  match o with
  | none => p1.modTile t (·.endFetch a)
  | some o =>
    (p1.defer t o.ctx e.cause e.sub va o.block (BitVec.ofNat 48 o.iter) (op := some o.id)).modTile t
      fun y => (y.modOp o.id fun z => { z with stopped := true }).endFetch a

/-- An image that arrived poisoned is not kept (R48, R316). -/
def Pack.fetchPoison (p : Pack) (t : TileId) (o : Option Op) (a : VA) (i : Image) : Pack :=
  let p1 := ((p.tile t).waiters a).foldl (fun p c => p.refuseEntry t c ⟨Cause.poison, 8⟩ a 0) p
  match o with
  | none => p1.modTile t (·.endFetch a)
  | some o =>
    (p1.defer t o.ctx Cause.poison 8 a o.block (BitVec.ofNat 48 o.iter)).modTile t fun y =>
      ({ y with shadow := y.shadow.clearSides (Header.sides i.hdr) }.modOp o.id
        fun z => { z with started := true, ending := true }).endFetch a

/-- An image that arrived: it enters the store once that has room, and CFGLD `o` writes it into the shadow planes. -/
def Tile.fetchGood (t : Tile) (o : Option Op) (a : VA) (i : Image) : Tile :=
  match t.keep i with
  | none => t
  | some y =>
    let y1 := { y with fetches := y.fetches.filter (· != a) }
    match o with
    | none => if t.loadWaits a then { y1 with fetches := y1.fetches ++ [a] } else y1
    | some o => (y1.pushImage i false).modOp o.id fun z => { z with started := true }

/-- The CFGLD that a fetch serves: it waits for every earlier event of its context (R261). -/
def Pack.loadNow (p : Pack) (t : TileId) (a : VA) : Option Op := ((p.tile t).loadHead a).filter fun o => !p.unacked t o.ctx o.po o.lsid

/-- The level at which an image is fetched: that of the CFGLD, and otherwise of the first context that waits. -/
def Tile.fetchLevel (t : Tile) (o : Option Op) (a : VA) : Bool :=
  match o, t.waiters a with
  | some o, _ => o.lvl
  | none, c :: _ => (t.ctx c).cur.lvl
  | none, [] => false

/-- IMAGE_FETCH_DONE (R48): a context-store miss has been read; for an image that has come into the store meanwhile there is
none. -/
def execImageFetchDone (t : TileId) (a : VA) (s : State) : Host.Outcome State Fault Refusal :=
  let tl := s.pk.tile t
  let o := s.pk.loadNow t a
  if !tl.fetches.contains a then .next s
  else if o.isNone && (tl.waiters a).isEmpty then .next { s with pk := s.pk.modTile t (·.endFetch a) }
  else match tl.image? a (s.pk.tileVi t) with
  | some i => .next { s with pk := s.pk.modTile t (·.fetchGood o a i) }
  | none =>
    let lvl := tl.fetchLevel o a
    let r := s.fetchImage t lvl a
    let s1 := r.1.state
    match r.1.err with
    | some (e, va) => .next { s1 with pk := s1.pk.fetchFault t lvl o a va e }
    | none =>
      if r.1.poison then .next { s1 with pk := s1.pk.fetchPoison t o a r.2 }
      else .next { s1 with pk := s1.pk.modTile t (·.fetchGood o a r.2) }

/-! ### Spawning (R49, R63-R69) -/

/-- A tag for one more instance (R68, R69). -/
def Pack.tagFree (p : Pack) (t : TileId) (c : CtxId) : Bool :=
  let tl := p.tile t
  (tl.live c).length < 2 || (tl.tagsOf c < (tl.ctx c).cur.alloc && 0 < tl.freeTags (p.tagLimit t))

/-- Room in the context's forwarding table (R63). -/
def Pack.tableFree (p : Pack) (t : TileId) (c : CtxId) : Bool := (p.tile t).forwardUsed c + 4 ≤ 32

/-- CFGSW has started on a side whose active plane holds slots of the image (R317). -/
def Tile.swapping (t : Tile) (i : Image) : Bool :=
  match t.configQ with
  | o :: _ => (match o.cmd with | .cfgsw m => o.started && Header.sides i.hdr &&& m != 0 | _ => false)
  | [] => false

/-- Everything a spawn of an image needs but its place in the loop. -/
def Pack.maySpawn (p : Pack) (t : TileId) (c : CtxId) (i : Image) (stamp : Nat) : Bool :=
  let tl := p.tile t
  p.serves t c && tl.planeHolds i && !tl.pendingCmds i.addr && !tl.swapping i &&
    !tl.olderWaits i.vi i c stamp && p.tableFree t c && p.tagFree t c

/-- A spawn that waits on a tag or on the forwarding table alone (R69). -/
def Pack.throttled (p : Pack) (t : TileId) (c : CtxId) : Bool := !p.tableFree t c || !p.tagFree t c

/-- A new instance (R49): it takes the sequence number and stamp, and its reads resolve. -/
def Pack.spawnInst (p : Pack) (t : TileId) (c : CtxId) (img : VA) (iter : Nat) (loop : Option LoopRun) : Pack :=
  let x := p.ctx t c
  let made (y : Tile) : Tile :=
    let i : Inst := { ctx := c, img := img, seq := x.cur.seqn, iter := iter, loop := loop, stamp := y.stamp, skipBkpt := x.nbSkip }
    { y with
      insts := y.insts ++ [i]
      stamp := y.stamp + 1
      ctxs := y.ctxs.map (·.mapImages fun z => { z with yldWaits := withBit z.yldWaits c.val false }) }
  let p1 := p.modTile t fun y => (made y).modCtx c fun z =>
    { z with nbSkip := false, loop := loop, cur := { z.cur with seqn := z.cur.seqn + 1 } }
  p1.resolveReads t c

/-- Younger instances than the one whose exit asked for the block still live: that exit broke a loop, and its commit
squashes them (R64). -/
def Tile.breaking (t : Tile) (c : CtxId) (q : BlockReq) : Bool :=
  match q.after with
  | some a => (t.live c).any fun i => a < i.seq
  | none => false

/-- INSTANCE_SPAWN (R48, R49): an instance of a block that is no loop. -/
def execInstanceSpawn (t : TileId) (c : CtxId) (s : State) : Host.Outcome State Fault Refusal :=
  match (s.pk.ctx t c).req with
  | none => .next s
  | some q =>
    match (s.pk.tile t).image? q.va (s.pk.tileVi t) with
    | none => .next { s with pk := s.pk.setReq t c (some { q with placed := false }) }
    | some i =>
      if !q.placed || isLoop i || (s.pk.tile t).pendingCmds i.addr || (s.pk.tile t).breaking c q then .next s
      else if !(s.pk.tile t).planeHolds i then .next { s with pk := s.pk.setReq t c (some { q with placed := false }) }
      else if (s.pk.ctx t c).cur.lpk != 0 && ((s.pk.tile t).live c).isEmpty then
        .next { s with pk := s.pk.raiseAt t c Cause.blockForm 10 q.va 0 }
      else if s.pk.maySpawn t c i (q.stamp.getD 0) then .next { s with pk := (s.pk.setReq t c none).spawnInst t c q.va 0 none }
      else .next s

/-! ### Loops (R64, R65, R357) -/

/-- The loop-back exit of a loop image. -/
def Image.backExit (i : Image) : Option ExitEntry :=
  ((List.range (Header.nexit i.hdr)).map i.exitEntry).find? fun e => e.kind == 4 || e.kind == 5

def Image.loopKind (i : Image) : BitVec 2 := if Header.iterate i.hdr then 1 else 2

/-- The context leaves a loop without an iteration: it goes to the loop-back exit's block (R64). -/
def Pack.skipLoop (p : Pack) (t : TileId) (c : CtxId) (i : Image) : Pack :=
  match i.backExit with
  | none => p
  | some e =>
    p.modCtx t c fun x =>
      { x with req := some { va := blockAddr e.dest }, cur := { x.cur with pc := blockAddr e.dest, lpk := 0, lpn := 0, lpi := 0 } }

/-- The same ahead of the committed state. -/
def Pack.passLoop (p : Pack) (t : TileId) (c : CtxId) (q : BlockReq) (i : Image) : Pack :=
  match i.backExit with
  | none => p
  | some e => p.setReq t c (some { va := blockAddr e.dest, after := q.after })

/-- The committed loop state of a context whose committed state stands at the start of a loop (R415). -/
def CtxImage.inLoop (c : CtxImage) (r : LoopRun) : CtxImage := { c with pc := r.img, lpk := r.kind, lpn := r.n, lpi := 0 }

/-- The sequencer enters a loop. The committed state enters it with the commit of the last instance before it. -/
def Pack.startLoop (p : Pack) (t : TileId) (c : CtxId) (r : LoopRun) : Pack :=
  let idle := ((p.tile t).live c).isEmpty
  p.modCtx t c fun x => { x with req := none, loop := some r, cur := if idle then x.cur.inLoop r else x.cur }

/-- A loop is entered (R64, R65). The count of an iterate block is what read entry 0 delivers, under R49; a count that
cannot be used counts once every older instance has committed, and with a count of 0 the loop-back exit's block is asked for
in its place. A context that returns from a trap goes on with
its loop (R420). -/
def Pack.enterLoop (p : Pack) (t : TileId) (c : CtxId) (q : BlockReq) (i : Image) : Pack :=
  let x := p.ctx t c
  let older := ((p.tile t).live c).reverse
  let run (n : W32) : LoopRun := { img := q.va, kind := i.loopKind, n := n, first := x.cur.seqn }
  if older.isEmpty && x.cur.lpk != 0 then
    if x.cur.lpk != i.loopKind then p.raiseAt t c Cause.blockForm 10 q.va 0
    else if i.loopKind == 1 && x.cur.lpn.toNat ≤ x.cur.lpi.toNat then p.skipLoop t c i
    else p.modCtx t c fun x => { x with req := none, loop := some (run x.cur.lpn) }
  else if i.loopKind == 2 then p.startLoop t c (run 0)
  else
    match p.resolveIn t x.cur (i.readEntry 0).reg older with
    | none => p
    | some v =>
      if v.isFault then p
      else if v.poison then (if older.isEmpty then p.raiseAt t c Cause.poison 4 q.va 0 else p)
      else if lane0 v.val == 0 then (if older.isEmpty then p.skipLoop t c i else p.passLoop t c q i)
      else p.startLoop t c (run (BitVec.ofNat 32 (lane0 v.val)))

/-- An instance has fired an exit that breaks its loop (R64, R65). -/
def Inst.breaks (i : Inst) (img : Image) : Bool :=
  i.exits.any fun e => !((img.exitEntry e.1).kind == 4 || (img.exitEntry e.1).kind == 5)

/-- An iteration of a loop. -/
def Inst.iterates (i : Inst) (r : LoopRun) : Bool := i.loop.any fun q => q.first == r.first

/-- The committed state stands in the loop: no older instance lives. -/
def Pack.committedIn (p : Pack) (t : TileId) (c : CtxId) (r : LoopRun) : Bool :=
  let x := p.ctx t c
  ((p.tile t).live c).all (fun i => r.first ≤ i.seq) && x.cur.lpk != 0 && x.cur.pc == r.img

/-- The next iteration: within the count, or after CONT's true, while none breaks the loop. -/
def Pack.wantedIter (p : Pack) (t : TileId) (c : CtxId) (r : LoopRun) (i : Image) : Option Nat :=
  let ls := ((p.tile t).live c).filter (·.iterates r)
  let k := match ls.getLast? with
    | some y => y.iter + 1
    | none => if p.committedIn t c r then (p.ctx t c).cur.lpi.toNat else 0
  let held := match r.hold with | some n => ((p.tile t).live c).any fun y => y.seq ≤ n | none => false
  if held || ls.any (·.breaks i) then none
  else if r.kind == 1 then (if k < r.n.toNat then some k else none)
  else match ls.getLast? with
    | none => some k
    | some y => if y.conts == [true] then some k else none

/-- It may be spawned within the window. -/
def Pack.nextIter (p : Pack) (t : TileId) (c : CtxId) (r : LoopRun) (i : Image) : Option Nat :=
  if Header.window i.hdr ≤ (((p.tile t).live c).filter (·.iterates r)).length then none else p.wantedIter t c r i

/-- The sequencer's loop of a context, with its image and its next iteration. -/
def Pack.loopNext (p : Pack) (t : TileId) (c : CtxId) : Option (LoopRun × Image × Nat) :=
  match (p.ctx t c).loop with
  | none => none
  | some r => match p.imageOf t r.img with
    | none => none
    | some i => (p.nextIter t c r i).map fun k => (r, i, k)

/-- A loop whose image left the active plane goes on once it has been placed again: when every instance has committed, the
context asks for it. -/
def Pack.loopAgain (p : Pack) (t : TileId) (c : CtxId) : Pack :=
  if ((p.tile t).live c).isEmpty then p.modCtx t c fun x => { x with loop := none, req := some { va := x.cur.pc } } else p

/-- LOOP_SPAWN (R64, R65): a loop is entered, or its next iteration spawned. -/
def execLoopSpawn (t : TileId) (c : CtxId) (s : State) : Host.Outcome State Fault Refusal :=
  let p := s.pk
  let tl := p.tile t
  match (p.ctx t c).req with
  | some q =>
    match tl.image? q.va (p.tileVi t) with
    | none => .next s
    | some i =>
      if !q.placed || !isLoop i || !p.serves t c || tl.pendingCmds i.addr || tl.breaking c q then .next s
      else if !tl.planeHolds i then .next { s with pk := p.setReq t c (some { q with placed := false }) }
      else .next { s with pk := p.enterLoop t c q i }
  | none =>
    if !p.serves t c then .next s
    else match p.loopNext t c with
      | none => .next s
      | some (r, i, k) =>
        if !tl.planeHolds i then .next { s with pk := p.loopAgain t c }
        else if p.maySpawn t c i tl.stamp then .next { s with pk := p.spawnInst t c r.img k (some r) }
        else .next s

end Sys2Proof.Machine
end

