-- ==== Sys2Proof/Machine/Sections.lean ====
section
/-! DEFINITION. Stream sections (R57, R58, R202, R203, R420, R427): arming, taking a section back to a beat, and
closing it; and the operations that feed and drain it. -/

namespace Sys2Proof.Machine

/-! ### Arming (R57, R202, R214) -/

/-- The stream images whose elements stand in the active planes of given sides. -/
def Tile.streamOn (t : Tile) (sides : BitVec 4) : List Image :=
  t.active.imagesIn.filter fun i => Header.stream i.hdr &&
    t.active.elems.any fun e => e.2.img == some i.addr && e.2.onSides e.1 sides

/-- The sides on which a plane holds an image. -/
def CfgPlane.sidesOf (p : CfgPlane) (a : VA) : BitVec 4 :=
  p.log.foldl (fun m w => match w with | .image i sd => if i.addr == a then m ||| sd else m | .word _ => m) 0

/-- The section active on the sides: one image that each of them holds, and for PFIRE one that spans no other side. -/
def Tile.sectionOn (t : Tile) (sides : BitVec 4) (whole : Bool) : Option Image :=
  match t.streamOn sides with
  | [i] =>
    if sides &&& ~~~ t.active.sidesOf i.addr != 0 || (whole && Header.sides i.hdr &&& ~~~ sides != 0) then none else some i
  | _ => none

/-- An armed section on one of the sides. -/
def Tile.armedOn (t : Tile) (sides : BitVec 4) : Bool := t.sections.any fun x => x.sides &&& sides != 0

/-- A port of the active plane that faces the array (R99, R200). -/
def Tile.arrayPort (t : Tile) (egress : Bool) (port : Nat) : Bool :=
  let e := t.active.elem (BitVec.ofNat 12 (portElem egress port))
  if egress then fld (e.field 0) 11 10 == 1 else fld (e.field 2) 11 10 == 1

/-- The ports of a section that face the array on a side. -/
def Tile.arrayPorts (t : Tile) (i : Image) (egress : Bool) (s : Side) : List Nat :=
  (i.ports egress).filter fun q => portSide (BitVec.ofNat 6 q) == s && t.arrayPort egress q

/-- W tags for a section (R57). -/
def Pack.tagsForSection (p : Pack) (t : TileId) (i : Image) : Bool := Header.window i.hdr ≤ (p.tile t).freeTags (p.tagLimit t)

/-- An operation whose command stands in a parameter block (R304). -/
def Op.isPb (o : Op) : Bool := match o.cmd with | .strmpb _ | .sendpb _ => true | _ => false

/-- The stream command of an operation, once known. -/
def Op.stream? (o : Op) : Option StreamCmd :=
  match o.snap.getD o.cmd with
  | .strm c => some c
  | _ => none

/-- The section is armed: beat 0 at every port, where the operations that feed it go on from their positions. -/
def Tile.arm (t : Tile) (c : CtxId) (i : Image) (count : Option Nat) (op : Nat) : Tile :=
  let x : Section :=
    { ctx := c, img := i.addr, sides := Header.sides i.hdr, window := Header.window i.hdr, count := count, stamp := t.stamp,
      op := op, inPos := (i.ports false).map fun q => (q, 0), outPos := (i.ports true).map fun q => (q, 0) }
  let rebase (o : Op) : Op := match o.stream? with
    | some k => if o.started && k.toPort && (x.inPos.any fun q => t.boundStream false q.1 == some k.stream.val) then { o with beat0 := -(o.pos : Int) } else o
    | none => o
  { t with sections := t.sections ++ [x], stamp := t.stamp + 1, streamQ := t.streamQ.map rebase }

/-! ### Beats at an ingress -/

/-- The lowest beat not yet delivered at every egress. -/
def Section.low (x : Section) : Nat := (minOf (x.outPos.map (·.2))).getD 0

/-- The beats of a section's ports that no run-aware slot has taken yet: in links, matching stores and loads. -/
def Tile.freshBeats (t : Tile) (as : List Access) (x : Section) : List Nat :=
  (t.links.filter fun k => k.work.ofSection x && !t.pastRun x.img k.src).map (·.work.n) ++
    (t.store.filter fun k => k.work.ofSection x && !t.pastRun x.img k.elem).map (·.work.n) ++
    (as.filter fun a => a.isLoad && a.work.ofSection x && !t.pastRun x.img a.elem).map (·.work.n)

/-- A run-aware slot of the section holds a token on one side and waits for its head on another, to which no token is on its
way and which the port feeds. -/
def Tile.starved (t : Tile) (as : List Access) (x : Section) (port : Nat) : Bool :=
  let w : Work := { ctx := x.ctx, img := x.img, stream := true, n := 0 }
  let coming (a : BitVec 12) (o : OpSide) : Bool :=
    t.links.any (fun k => k.work.ofSection x && t.leads a o 200 k.tgt) || as.any fun b => b.isLoad && b.work.ofSection x && (t.slotTargets b.elem).any (t.leads a o 200)
  let wants (i : Instr) : OpSide → Bool
    | .l => wantsL (formOf i) (slotOf i)
    | .r => wantsR (formOf i) (slotOf i)
    | .p => wantsP (slotOf i)
  (t.runSlots x.img).any fun a =>
    match t.instrAt a with
    | .error _ => false
    | .ok i =>
      let sides := [OpSide.l, .r, .p].filter (wants i)
      sides.any (fun o => !t.headless a o w) &&
        sides.any fun o => t.headless a o w && !coming a o && (t.portTargets port).any (t.reaches a o 200)

/-- The window admits a beat at a port (R57): at most W beats are live at once, and no two of them W apart. Where run-aware
slots number the beats anew, a beat of a port is live until one takes it (R185); a port that a waiting run-aware slot is
starved of is let in, as the run of R453 needs (log 86, DESIGN CHOICE). -/
def Tile.windowOpen (t : Tile) (as : List Access) (x : Section) (port b : Nat) : Bool :=
  if t.renumbers x then
    let on := t.freshBeats as x
    on.contains b || on.eraseDups.length < x.window || t.starved as x port
  else (x.due ++ t.beatsOn as x).all fun n => b < n + x.window && n < b + x.window

/-- The section still takes a beat: it runs, or a fault has stopped it at a later one, before which every beat is delivered
(R58); where run-aware slots number the beats anew, while an egress waits for a beat before that one. -/
def Tile.runsTo (t : Tile) (x : Section) (b : Nat) : Bool :=
  match x.stop with
  | none => true
  | some (k, some _) => if t.renumbers x then x.due.any (· < k) else b < k
  | some (_, none) => false

/-- A port takes its next beat: the section runs, the window allows it, and the count has room (R202). -/
def Tile.acceptsBeat (t : Tile) (as : List Access) (x : Section) (port : Nat) : Bool :=
  match alookup port x.inPos with
  | none => false
  | some b => t.runsTo x b && t.windowOpen as x port b && !x.ended.contains port &&
      (match x.count with | some n => b < n | none => true)

/-- The converter of an ingress port (R99). -/
def Tile.convertIngress (t : Tile) (port : Nat) (k : Token) : Token × BitVec 5 :=
  let x := t.active.elem (BitVec.ofNat 12 (0x900 + port))
  if !x.configured then (k, 0)
  else match Ty.ofCode ((x.field 0).extractLsb' 12 4), Ty.ofCode ((x.field 0).extractLsb' 8 4) with
    | some a, some b => convertTok a b (bit (x.field 0) 4) (Rnd.ofCode ((x.field 0).extractLsb' 5 3)) k
    | _, _ => (k, 0)

/-- A token enters a section at a port, as its next beat. A blocked port or converter discards it (R104). -/
def Tile.giveBeat (t : Tile) (x : Section) (port : Nat) (k : Token) : Tile :=
  let b := (alookup port x.inPos).getD 0
  let w : Work := { ctx := x.ctx, img := x.img, stream := true, n := b }
  let src := BitVec.ofNat 12 (0xA00 + port)
  let e := t.active.elem src
  let r := t.convertIngress port k
  let blocked := e.blocked || (t.active.elem (BitVec.ofNat 12 (0x900 + port))).blocked
  let t1 := if blocked then t
    else ((t.send src w (targetOf (e.field 0)) r.1).send src w (targetOf (e.field 1)) r.1).addFlags src w r.2
  t1.modSection x.ctx x.img fun y =>
    { y with inPos := aset port (b + 1) y.inPos, ended := if k.isEos then y.ended ++ [port] else y.ended }

/-! ### The operations of a section -/

/-- The port that the active planes bind a stream number to, when there is exactly one (R309). -/
def Tile.boundPort (t : Tile) (egress : Bool) (stream : Nat) : Option Nat :=
  match t.active.elems.filter fun e =>
    0xD00 ≤ e.1 && e.1 < 0xD10 && e.2.configured && !e.2.blocked && bit (e.2.field 0) 15 == egress && fld (e.2.field 0) 3 0 == stream with
  | [e] => some (fld (e.2.field 0) 13 8)
  | _ => none

/-- The port of a section that a stream operation feeds or drains. -/
def Tile.portOf (t : Tile) (o : Op) : Option (Bool × Nat) :=
  match o.stream? with
  | none => none
  | some c => if c.atPort then (t.boundPort c.fromPort c.stream.val).map fun q => (c.fromPort, q) else none

/-- A started stream operation works on a port of the section. -/
def Tile.opOn (t : Tile) (x : Section) (o : Op) : Bool :=
  o.started && (match t.portOf o with
    | some (true, q) => (alookup q x.outPos).isSome
    | some (false, q) => (alookup q x.inPos).isSome
    | none => false)

/-! ### Taking a section back to a beat (R58, R420, R427) -/

/-- A run-aware slot's state at which an output position was next: the first at the highest position up to it. -/
def Tile.runAt (t : Tile) (a : BitVec 12) (x : Section) (n : Nat) : RunState :=
  let cs := (t.runLog.filter fun y => y.elem == a && y.ctx == x.ctx && y.img == x.img) ++ [t.run a x.ctx x.img]
  match argMin (fun y : RunState => n - y.out) (cs.filter fun y => y.out ≤ n) with
  | some y => y
  | none => { elem := a, ctx := x.ctx, img := x.img }

/-- The beat from which a target must be fed again for every egress to be at beat b. `fuel` bounds the number of
slots on a path. -/
def Tile.resumeAt (t : Tile) (x : Section) (b : Nat) : Nat → Target → Nat
  | 0, _ => b
  | fuel + 1, g =>
    match g with
    | .operand o sd row col k _ =>
      let a := slotAddr sd row col k
      match t.instrAt a with
      | .error _ => b
      | .ok i =>
        let f := slotOf i
        let n := (minOf ((expandTarget f.t0 ++ expandTarget f.t1).map (t.resumeAt x b fuel))).getD b
        if runAware i then
          match o with
          | .l => (t.runAt a x n).posL
          | .r => (t.runAt a x n).posR
          | .p => (t.runAt a x n).posP
        else n
    | _ => b

/-- The output position of a run-aware slot for beat b. -/
def Tile.outAt (t : Tile) (x : Section) (b : Nat) (a : BitVec 12) : Nat :=
  match t.instrAt a with
  | .ok i => (minOf ((expandTarget (slotOf i).t0 ++ expandTarget (slotOf i).t1).map (t.resumeAt x b 200))).getD b
  | .error _ => b

def Tile.resumePort (t : Tile) (x : Section) (b : Nat) (port : Nat) : Nat :=
  let e := t.active.elem (BitVec.ofNat 12 (0xA00 + port))
  (minOf ((expandTarget (targetOf (e.field 0)) ++ expandTarget (targetOf (e.field 1))).map (t.resumeAt x b 200))).getD b

/-- The beat that a section is set back to: the lowest not delivered at every egress, and not ended in a slot without a
target. Where run-aware slots number the beats anew, it is counted behind them. -/
def Tile.backBeat (t : Tile) (as : List Access) (x : Section) : Nat :=
  if t.renumbers x then
    let behind := (t.links.filter fun k => k.work.ofSection x && !t.feedsRun x.img k.tgt).map (·.work.n) ++
      (t.store.filter fun e => e.work.ofSection x && !t.isRun e.elem && !(t.slotTargets e.elem).any (t.feedsRun x.img)).map (·.work.n) ++
      (as.filter fun a => a.isLoad && a.work.ofSection x && !(t.slotTargets a.elem).any (t.feedsRun x.img)).map (·.work.n)
    let outs := if x.outPos.isEmpty then (t.runs.filter fun y => y.ctx == x.ctx && y.img == x.img).map (·.out) else x.due
    (minOf (behind ++ outs)).getD x.low
  else t.lowBeat as x

/-- The section stands where beat b was next: its tokens are gone, its run-aware slots and ports are set back, and
the operations that feed it repeat the beats from there. -/
def Tile.takeBack (t : Tile) (x : Section) (b : Nat) : Tile :=
  let pos (q : Nat) : Nat := t.resumePort x b q
  let inPos := x.inPos.map fun q => (q.1, min q.2 (pos q.1))
  let redone (q : Nat) : Bool := match alookup q x.inPos with | some n => decide (pos q < n) | none => false
  let redo := x.inPos.any fun q => redone q.1
  let mine (y : RunState) : Bool := y.ctx == x.ctx && y.img == x.img
  let back (y : RunState) : RunState := if mine y then t.runAt y.elem x (t.outAt x b y.elem) else y
  let runs := t.runs.map back
  let kept (y : RunState) : Bool := !mine y || (match runs.find? fun z => z.elem == y.elem && mine z with
    | some z => y.out ≤ z.out
    | none => true)
  let rewind (o : Op) : Op :=
    match t.portOf o with
    | some (false, q) => if t.opOn x o then { o with pos := min o.pos ((((alookup q inPos).getD 0 : Nat) : Int) - o.beat0).toNat } else o
    | _ => o
  let again := (x.fed.filter fun o =>
    match t.portOf o with
    | some (false, q) => decide ((((alookup q inPos).getD 0 : Nat) : Int) < o.beat0 + o.pos)
    | _ => false).map fun o => { rewind o with ghost := true, ending := false, stopped := false }
  let outs := x.outPos.map fun q => (q.1, max q.2 b)
  let y : Section := { x with inPos := inPos, outPos := outs, replays := outs, stop := none,
                              ended := x.ended.filter fun q => !redone q
                              closed := if redo then x.closed.filter fun k => 0xB00 ≤ k else x.closed
                              flags := x.flags.filter fun k => k.2.1 < b && !t.feeds x.img k.1, fed := [] }
  { t with
    links := t.links.filter fun k => !k.work.ofSection x
    store := t.store.filter fun k => !k.work.ofSection x
    runs := runs
    runLog := t.runLog.filter kept
    streamQ := again ++ t.streamQ.map rewind
    sections := t.sections.map fun z => if z.ctx == x.ctx && z.img == x.img then y else z }

/-- Loads of a section in flight return into nothing. -/
def Pack.dropLoads (p : Pack) (t : TileId) (x : Section) : Pack :=
  { p with accs := p.accs.filter fun a => !(a.tile == t && a.work.ofSection x && a.isLoad) }

def Pack.takeBack (p : Pack) (t : TileId) (x : Section) (b : Nat) : Pack :=
  (p.dropLoads t x).modTile t fun y => y.takeBack x b

/-- A section closes with its engine operations, which complete with no further elements (R420). -/
def Pack.closeSection (p : Pack) (t : TileId) (x : Section) : Pack :=
  (p.dropLoads t x).modTile t fun y =>
    let fin (o : Op) : Op := if y.opOn x o || o.id == x.op then { o with ending := true, stopped := false } else o
    { y with streamQ := y.streamQ.map fin, matrixQ := y.matrixQ.map fin }.dropSection x

/-- The section that a beat-exact trap stopped. -/
def Tile.stoppedSection (t : Tile) (c : CtxId) (r : FaultRec) : Option Section :=
  t.sections.find? fun x => x.ctx == c && some x.op == r.op && x.stop.isSome

/-- ERET and a beat-exact trap (R420): the section is closed, or re-armed at its beat. -/
def Pack.resolveSection (p : Pack) (t : TileId) (c : CtxId) (r : FaultRec) (drop : Bool) : Pack :=
  match (p.tile t).stoppedSection c r with
  | none => p
  | some x =>
    if drop || !(p.tile t).matrixQ.any (fun o => o.id == x.op && !o.ending) then p.closeSection t x
    else match x.stop with
      | some (b, _) => p.takeBack t x b
      | none => p

/-- ERET and a deferred trap of an engine operation (R466): it resumes at its element, or completes. -/
def Tile.resolveOp (t : Tile) (r : FaultRec) (drop : Bool) : Tile :=
  match r.op with
  | none => t
  | some id => t.modOp id fun o => if o.stopped then { o with stopped := false, ending := drop } else o

/-! ### Sections of an aborted swarm (R79) -/

/-- No operation of the tile brings beats to a port, or takes them from it. -/
def Tile.untended (t : Tile) (x : Section) (egress : Bool) (q : Nat) : Bool :=
  if t.arrayPort egress q then t.matrixQ.all fun o => o.id != x.op || o.ending
  else t.streamQ.all fun o => o.ending || !(o.isPb && o.snap.isNone) && t.portOf o != some (egress, q)

/-- A section that cannot run to its end: it has stopped at a beat, or a port that owes beats is untended. -/
def Tile.deserted (t : Tile) (x : Section) : Bool :=
  let whole (n : Nat) : Bool := match x.count with | some k => decide (k ≤ n) | none => false
  x.stop.isSome || (x.inPos.any fun q => !x.ended.contains q.1 && !whole q.2 && t.untended x false q.1) ||
    x.outPos.any fun q => !x.closed.contains (0xB00 + q.1) && fld ((t.active.elem (BitVec.ofNat 12 (portElem true q.1))).field 0) 11 10 ≤ 1 &&
      t.untended x true q.1

/-- A started operation on a port where no section stands, nor can be armed any more. -/
def Tile.stranded (t : Tile) (o : Op) : Bool :=
  let port : Bool := match o.stream? with | some c => c.atPort | none => false
  o.started && port && !(t.sections.any fun x => t.opOn x o) && t.matrixQ.all (·.started)

/-- The operations of an aborted residency run to completion as far as other forked operations let them: one whose section
lacks an operation that feeds or drains it has no further elements (log 69). -/
def Pack.endDeserted (p : Pack) (t : TileId) : Pack :=
  let aborted : Bool := match p.resOf t with | some (_, r) => r.aborted | none => false
  if !aborted then p
  else
    let p1 := ((p.tile t).sections.filter (p.tile t).deserted).foldl (fun p x => p.closeSection t x) p
    p1.modTile t fun y => { y with streamQ := y.streamQ.map fun o => if y.stranded o then { o with ending := true, held := [] } else o }

end Sys2Proof.Machine
end

