-- ==== Sys2Proof/Machine/Issue.lean ====
section
/-! DEFINITION. Issuing engine operations: the range scoreboard (R263, R307), operand slots (R191, R192, R213),
queue space and counters (R296, R302), and what a halt and a completion leave behind (R72, R192, R367). -/

namespace Sys2Proof.Machine

/-! ### The range scoreboard (R263) -/

/-- One entry: a byte range of the scratchpad that an operation reads or writes, up to `hi` excluded. -/
structure Span where
  write : Bool
  lo : Int
  hi : Int
  deriving DecidableEq, Repr

/-- The bounding range of a pattern: all of the scratchpad where an index moves its elements. -/
def StreamCmd.span (c : StreamCmd) (write : Bool) : Span :=
  if c.ixw != 0 then ⟨write, 0, 2 ^ 22⟩
  else
    let reach := List.zipWith (fun (n : Nat) (s : Int) => ((n : Int) - 1) * s) c.n c.s
    let base : Int := (c.base.toNat % 2 ^ 22 : Nat)
    ⟨write, base + reach.foldl (fun a x => a + min x 0) 0, base + reach.foldl (fun a x => a + max x 0) 0 + c.e⟩

/-- The spans of a stream command: its S pattern, its contiguous side, its index array. -/
def StreamCmd.spans (c : StreamCmd) : List Span :=
  (if c.space then [] else [c.span (!c.reads)]) ++
    (if c.contiguous then [⟨c.kind == 1, c.spoff, c.spoff + c.total * c.e⟩] else []) ++
    (if c.ixw == 0 then [] else [⟨false, c.ixoff, c.ixoff + c.total * c.ixBytes⟩])

def SendCmd.span (c : SendCmd) : Span :=
  let last : Int := (c.rows - 1 : Nat) * c.stride
  ⟨false, (c.src : Int) + min last 0, (c.src : Int) + max last 0 + c.rowBytes⟩

/-- One entry for the bounding range of the ranges read, or written. -/
def bounding (write : Bool) (l : List Span) : List Span :=
  match l.filter fun x => x.write == write with
  | [] => []
  | x :: rest => [⟨write, rest.foldl (fun a y => min a y.lo) x.lo, rest.foldl (fun a y => max a y.hi) x.hi⟩]

/-- The ranges that an operation reads and writes. A parameter block not yet read may name any range. -/
def Op.ranges (o : Op) : List Span :=
  match o.snap.getD o.cmd with
  | .strm c => c.spans
  | .send c => [c.span]
  | .strmpb _ => [⟨false, 0, 2 ^ 22⟩, ⟨true, 0, 2 ^ 22⟩]
  | .sendpb _ => [⟨false, 0, 2 ^ 22⟩]
  | .accdrn d =>
    if Drain.section_ d then []
    else [⟨true, 16 * Drain.base d, 16 * (Drain.base d + (Drain.m d - 1) * Drain.stride d) + 256 * Drain.size d⟩]
  | _ => []

/-- An operation's entries: the range it reads and the range it writes (R263). -/
def Op.spans (o : Op) : List Span := bounding false o.ranges ++ bounding true o.ranges

/-- Buffers that sends are filling. -/
def Tile.filling (t : Tile) : List Span :=
  t.handles.toList.filterMap fun h => if h.st == .filling then some ⟨true, h.base, h.base + h.size⟩ else none

/-- Entries of the tile's scoreboard in use. -/
def Tile.scoreboard (t : Tile) : Nat := (t.inFlight.flatMap Op.spans).length + t.filling.length

def Span.meets (x : Span) (off n : Nat) : Bool := decide (x.lo < off + n) && decide ((off : Int) < x.hi)

/-- An S access waits for an entry made before it: a load for a write entry, a store for any (R263). -/
def Tile.scoreHolds (t : Tile) (a : Access) : Bool :=
  match a.place with
  | .scratch off _ =>
    let store := !a.isLoad
    let hit (x : Span) : Bool := (store || x.write) && x.meets off a.n
    let before (o : Op) : Bool := o.ctx == a.work.ctx && !a.work.stream &&
      (a.work.n < o.po || (a.work.n == o.po && a.lsid < o.lsid))
    t.filling.any hit || t.inFlight.any fun o => !before o && o.spans.any hit
  | _ => false

/-! ### Operand slots (R191, R192, R213) -/

/-- The slots that a command names. -/
def EngineCmd.slots : EngineCmd → List Nat
  | .strm c => c.slots
  | .mma d => Mma.slots d
  | .mmald d => Mmald.slots d
  | _ => []

def Op.slots (o : Op) : List Nat := (o.snap.getD o.cmd).slots

def slotAt (om : Vector OmSt 16) (k : Nat) : OmSt := om.get (Fin.ofNat 16 k)

def OmSt.heldBy (c : CtxId) : OmSt → Bool
  | .owned c' | .releasing c' => c' == c
  | .free => false

def setSlots (om : Vector OmSt 16) (mask : W16) (v : OmSt) : Vector OmSt 16 :=
  Vector.ofFn fun k : Fin 16 => if bit mask k.val then v else om.get k

/-- A releasing slot is free once no operation in flight names it (R192). -/
def Tile.settleSlots (t : Tile) : Tile :=
  { t with omSt := Vector.ofFn fun k : Fin 16 =>
      match t.omSt.get k with
      | .releasing c => if t.inFlight.any fun o => o.slots.contains k.val then .releasing c else .free
      | o => o }

/-! ### Halted contexts (R72, R367, R380) -/

/-- A context that halted puts the record in its steal buffer on its tile's queue, once that has room (R380). -/
def Tile.shelveHalted (t : Tile) (c : CtxId) : Tile :=
  match (t.ctx c).cur.stl with
  | some r =>
    if (t.ctx c).st == .halted && t.tasks.length < queueCapacity then
      Tile.modCtx { t with tasks := t.tasks ++ [{ record := r, floor := (t.ctx c).stlFloor }] } c fun x => { x with cur := { x.cur with stl := none } }
    else t
  | none => t

/-- A halted context whose operations have completed, whose slots are free and which waits for no record and holds none
becomes held or free. -/
def Tile.settleHalted (t0 : Tile) (c : CtxId) : Tile :=
  let t := t0.shelveHalted c
  let x := t.ctx c
  if x.st != .halted || t.inFlight.any (·.ctx == c) || t.omSt.toList.any (·.heldBy c) || x.cur.stl.isSome || x.stealFrom.isSome then t
  else match x.parent with
    | some q =>
      if (t.ctx q).st == .live || (t.ctx q).st == .saved then
        (t.modCtx q (·.mapImages fun y => { y with done := withBit y.done c.val true })).modCtx c
          fun y => { y with st := .held }
      else t.modCtx c fun y => { y with st := .free, parent := none }
    | none => t.modCtx c fun y => { y with st := .free }

def Tile.settle (t : Tile) : Tile := allCtxs.foldl Tile.settleHalted t.settleSlots

/-- The parent of children halts: held numbers are free, the others lose their parent (R367). -/
def Tile.orphan (t : Tile) (c : CtxId) : Tile :=
  { t with ctxs := t.ctxs.map fun y =>
      if y.parent == some c then { y with parent := none, st := if y.st == .held then .free else y.st } else y }

/-! ### Queue space (R52, R263, R296, R302) -/

/-- The queue that a command enters: 0 stream, 1 matrix, 2 configuration; none for XLINV and PREEMPT. -/
def EngineCmd.queue : EngineCmd → Option Nat
  | .strm _ | .strmpb _ | .send _ | .sendpb _ => some 0
  | .mma _ | .mmald _ | .accz _ | .accdrn _ | .pfire .. => some 1
  | .cfgld _ | .cfgsw _ | .cfgwr .. => some 2
  | .xlinv .. | .preempt .. => none

/-- The engine commands of an instance. -/
def Inst.commands (i : Inst) : List (EngineCmd × Fin 8) :=
  i.lsids.filterMap fun kv => match kv.2 with | .engine c k => some (c, k) | _ => none

/-- Entries of a queue that have not started. -/
def Tile.queued (t : Tile) (q : Nat) : Nat := ((t.queue q).filter fun o => !o.started && !o.ghost).length

/-- What a queue lacks for an instance: 1 room, 2 a counter below 64, 3 scoreboard entries. -/
def Tile.lacks (t : Tile) (c : CtxId) (i : Inst) (q : Option Nat) : Option Nat :=
  let mine := i.commands.filter fun x => x.1.queue == q
  if mine.isEmpty then none
  else if (match q with | some k => decide (16 < t.queued k + mine.length) | none => false) then some 1
  else if mine.any fun x =>
      63 < ((t.ctx c).cur.cnt.get x.2).val + (i.commands.filter fun y => y.2 == x.2).length then some 2
  else
    let op (x : EngineCmd × Fin 8) : Op := { id := 0, ctx := c, cmd := x.1, ctr := x.2 }
    let need (l : List (EngineCmd × Fin 8)) : Nat := (l.flatMap fun x => (op x).spans).length
    if need mine != 0 && 32 < t.scoreboard + need i.commands then some 3 else none

/-- Queues that make a commit wait, and the strict queue that makes it trap, with the subcode. -/
def Tile.strictLack (t : Tile) (c : CtxId) (i : Inst) : Option Nat :=
  firstSome (fun q => if (t.qmode q).mode == 2 then t.lacks c i (some q) else none) [0, 1, 2]

def Tile.anyLack (t : Tile) (c : CtxId) (i : Inst) : Bool :=
  [some 0, some 1, some 2, none].any fun q => (t.lacks c i q).isSome

/-! ### Entering a queue -/

def CtxImage.count (c : CtxImage) (k : Fin 8) (f : Nat → Nat) : CtxImage :=
  { c with cnt := c.cnt.set k (Fin.ofNat 64 (f (c.cnt.get k).val)) }

/-- An operation enters its queue, and its counter rises (R296, R302, R398). A CFGLD asks for its image. -/
def Tile.issue (t : Tile) (o : Op) : Tile :=
  let t1 := t.modCtx o.ctx fun x => { x with cur := x.cur.count o.ctr (· + 1) }
  match o.cmd.queue with
  | some 0 => { t1 with streamQ := t1.streamQ ++ [o] }
  | some 1 => { t1 with matrixQ := t1.matrixQ ++ [o] }
  | some _ =>
    let f := match o.cmd with | .cfgld a => if t1.fetches.contains a then t1.fetches else t1.fetches ++ [a] | _ => t1.fetches
    { t1 with configQ := t1.configQ ++ [o], fetches := f }
  | none => { t1 with sideQ := t1.sideQ ++ [o] }

/-- An operation performs nothing before every earlier event of its context is acknowledged (R261). -/
def Pack.forked (p : Pack) (t : TileId) (o : Op) : Bool := !p.unacked t o.ctx o.po o.lsid

/-- A completed operation leaves its queue, and its counter falls (R260, R296). -/
def Tile.removeOp (t : Tile) (id : Nat) : Tile :=
  let rest (l : List Op) : List Op := l.filter fun o => o.id != id
  { t with streamQ := rest t.streamQ, matrixQ := rest t.matrixQ, configQ := rest t.configQ, sideQ := rest t.sideQ }

/-- An operation's counter falls, also in the image of a trap taken since it was issued (R411). -/
def Ctx.uncount (o : Op) (x : Ctx) : Ctx :=
  let fall (i : CtxImage) : CtxImage := i.count o.ctr (· - 1)
  { x with cur := fall x.cur, trapped := x.trapped.map fun y => (if o.po < y.1.seqn then fall y.1 else y.1, y.2) }

/-- Accumulators that a matrix operation names (R196). -/
def EngineCmd.names (c : EngineCmd) (a : Fin 4) : Bool :=
  match c with
  | .mma d => Mma.acc d == a
  | .accz b => b == a
  | .accdrn d => Drain.acc d == a
  | _ => false

/-- What a completed operation brings: to a CWAIT on its counter, and to what waits for its accumulator (R262). -/
def Tile.joinOp (t : Tile) (o : Op) : Tile :=
  let named := ((List.finRange 4).filter fun a => o.cmd.names a).map (·.val)
  Tile.modCtx { t with accFloors := named.foldl (fun l a => joinFloor a o.brings l) t.accFloors } o.ctx fun x =>
    { x with joins := joinFloor o.ctr.val o.brings x.joins }

def Tile.complete_ (t : Tile) (o : Op) : Tile :=
  let t1 := t.removeOp o.id
  let t2 := if o.ghost || o.uncounted then t1 else (t1.modCtx o.ctx (·.uncount o)).joinOp o
  t2.settle

end Sys2Proof.Machine
end

