-- ==== Sys2Proof/Machine/Commit.lean ====
section
/-! DEFINITION. The commit of an instance (R51-R54, R142, R288, R352-R357, R364-R368), the exact trap of a faulted
one (R53), and the delivery of traps and records (R411-R414). -/

namespace Sys2Proof.Machine

/-! ### Whether an instance is complete (R50, R51) -/

/-- A fault token that reached an output: the lowest write entry, then LSID, then exit (R53); then a second
token (R43). -/
def Inst.fault? (i : Inst) (img : Image) : Option Token :=
  let write (k : Nat) : Option Token :=
    match alookup k i.writes with
    | some (.tok t) => if t.isFault then some t else none
    | _ => none
  let lsid (k : Nat) : Option Token :=
    match alookup k i.lsids with
    | some (.fault t) => if img.lsidKind k == some .load then none else some t
    | _ => none
  (firstSome write (List.range 32)).or ((firstSome lsid (List.range 32)).or ((i.exitFault.map (·.2)).or i.second))

/-- Every write entry, store and engine LSID has a value or a null, and an exit has fired (R51). -/
def Inst.complete (i : Inst) (img : Image) : Bool :=
  ((List.range (Header.nwrite img.hdr)).all fun k => (alookup k i.writes).isSome) &&
    ((List.range (Header.nlsid img.hdr)).all fun k => img.lsidKind k == some .load || (alookup k i.lsids).isSome) &&
    !i.exits.isEmpty

/-- What stands against a commit. -/
inductive Verdict where
  | go
  | wait
  | trap (cause : Byte) (sub : Nat) (va : VA)
  deriving DecidableEq, Repr

/-- The exit that fired meets the return stack's limits (R355). -/
def exitVerdict (i : Inst) (img : Image) (cur : CtxImage) : Verdict :=
  match i.exits with
  | [(n, _)] =>
    let k := (img.exitEntry n).kind
    if k == 1 && 256 ≤ cur.stack.length then .trap Cause.blockForm 5 0
    else if k == 2 && cur.stack.isEmpty then .trap Cause.blockForm 5 0
    else .go
  | _ => .trap Cause.blockForm 3 0

/-- Slots in LSID order: claims, releases and the operations that name slots (R192, R213). -/
def slotVerdict (c : CtxId) : List (Nat × LsidVal) → Vector OmSt 16 → Verdict
  | [], _ => .go
  | (_, v) :: rest, om =>
    match v with
    | .engine cmd _ => if cmd.slots.all fun k => (slotAt om k).heldBy c then slotVerdict c rest om else .trap Cause.omSlot 2 0
    | .omClaim wait mask =>
      let mine := (setBits mask).filter fun k => (slotAt om k).heldBy c
      let other := (setBits mask).filter fun k => !(slotAt om k).heldBy c
      if other.all fun k => slotAt om k == .free then slotVerdict c rest (setSlots om mask (.owned c))
      else if wait && mine.length ≤ 16 then .wait
      else .trap Cause.omSlot 1 0
    | .omRel mask =>
      if (setBits mask).all fun k => slotAt om k == .owned c then slotVerdict c rest (setSlots om mask (.releasing c))
      else .trap Cause.omSlot 2 0
    | _ => slotVerdict c rest om

/-- Handles released by the instance are draining, and its own or unbound (R299). -/
def Tile.handleVerdict (t : Tile) (c : CtxId) (vs : List (Nat × LsidVal)) : Verdict :=
  let hs := vs.filterMap fun kv => match kv.2 with | .hrel h _ _ => some h | _ => none
  let ok (h : Fin 64) : Bool :=
    let x := t.handles.get h
    x.st == .draining && (x.owner == some c || x.size == 0) && hs.count h == 1
  if hs.all ok then .go else .trap Cause.blockForm 4 0

/-- The last line of what CTXSAVE writes is checked too: its image may cross into another page (R417). -/
def State.saveVerdict (s : State) (t : TileId) (c : CtxId) (vs : List (Nat × LsidVal)) : Verdict :=
  match firstSome (fun kv : Nat × LsidVal =>
      match kv.2 with
      | .ctxsave va =>
        match (checkG s.mem s.pk t (s.pk.ctxLevel t c) .store (va + 8128) 64).1 with
        | .error e => some (e, va + 8128)
        | .ok pl => if pl.isP then some (xerr 5 5, va + 8128) else none
      | _ => none) vs with
  | some (e, va) => .trap e.cause e.sub.toNat va
  | none => .go

/-- A sequence queue has a slot for every sequenced operation that would enter it (R255, R285). -/
def Pack.slotVerdict (p : Pack) (d : DieId) (vs : List (Nat × LsidVal)) : Verdict :=
  let ok (v : LsidVal) : Bool := match v with
    | .access a => !a.kind.isSeq || p.seqRoom d a.seqPlain
    | _ => true
  if vs.all fun kv => ok kv.2 then .go else .wait

def Verdict.andThen (a b : Verdict) : Verdict := match a with | .go => b | v => v

/-- LSIDs in order. -/
def Inst.ordered (i : Inst) : List (Nat × LsidVal) := i.lsids.mergeSort fun x y => x.1 ≤ y.1

/-- Everything that a complete oldest instance needs to commit. -/
def State.verdict (s : State) (t : TileId) (c : CtxId) (i : Inst) (img : Image) : Verdict :=
  let tl := s.pk.tile t
  let vs := i.ordered
  (exitVerdict i img (tl.ctx c).cur).andThen ((tl.handleVerdict c vs).andThen ((slotVerdict c vs tl.omSt).andThen
    ((s.saveVerdict t c vs).andThen ((s.pk.slotVerdict t.die vs).andThen
      (match tl.strictLack c i with
        | some k => .trap Cause.queueStrict k 0
        | none => if tl.anyLack c i then .wait else .go)))))

/-- The exact trap of an instance: its block and iteration (R53, R407). -/
def Pack.exactTrap (p : Pack) (t : TileId) (c : CtxId) (i : Inst) (cause sub : Byte) (va : VA) (coord : W16) : Pack :=
  let p1 := p.squash t c 0
  p1.raise t c { p1.baseRec t c with cause := cause, sub := sub, block := i.img, va := va,
                                     itb := BitVec.ofNat 48 i.iter, coord := coord, cls := 0 }

/-! ### What each LSID does at commit -/

/-- 16-byte stores of a run of bytes, at one place in program order (R422, R423). An address that no longer
translates is a deferred fault. -/
def State.storeRun (s : State) (t : TileId) (c : CtxId) (i : Inst) (k : Nat) (va : VA) : List Byte → Nat → State
  | _, 0 => s
  | bs, fuel + 1 =>
    if bs.isEmpty then s
    else
      let r := checkG s.mem s.pk t (s.pk.ctxLevel t c) .store va 16
      let s0 := s.walked t (s.pk.tileVi t) r.2
      let s1 := match r.1 with
        | .error e => { s0 with pk := s0.pk.defer t c e.cause e.sub va i.img (BitVec.ofNat 48 i.iter) }
        | .ok pl =>
          s0.post { id := s.nextId, tile := t, work := { ctx := c, img := i.img, n := i.seq }, lsid := k, kind := .st, va := va,
                    place := pl, n := 16, ty := .w128, data := BitVec.ofNat 128 (bytesToNat (bs.take 16)), block := i.img,
                    iter := i.iter, res := (s.pk.tile t).res }
      s1.storeRun t c i k (va + 16) (bs.drop 16) fuel

/-- A message or event that waits its turn among the context's accesses. -/
def State.postKind (s : State) (t : TileId) (c : CtxId) (i : Inst) (k : Nat) (kind : AccKind) : State :=
  s.post { id := s.nextId, tile := t, work := { ctx := c, img := i.img, n := i.seq }, lsid := k, kind := kind,
           block := i.img, iter := i.iter }

/-- The entry that a TQPUT reserved is appended at the tail as ready (R378). -/
def publishTask (c : CtxId) (seq lsid put : Nat) (l : List TaskEntry) : List TaskEntry :=
  let mine (e : TaskEntry) : Bool := e.st == .reserved c seq lsid
  (l.filter fun e => !mine e) ++ (l.filter mine).map fun e => { e with st := .ready, put := put }

/-- SPAWN at commit (R366): the reserved numbers become contexts, which start once the commit's earlier writes
are acknowledged. No YIELD waits for a number's earlier context (R368). -/
def Tile.create (t : Tile) (c : CtxId) (mask : BitVec 32) (alloc : Nat) (entry : W64) (arg : W128) : Tile :=
  let x := t.ctx c
  let ks := setBits mask
  let born (j : Nat) : CtxImage :=
    (({ pc := blockAddr entry, alloc := alloc, arg := x.cur.arg, lvl := x.cur.lvl } : CtxImage).setG 0 arg false).setG 1
      (BitVec.ofNat 128 j) false
  let fresh (y : CtxImage) : CtxImage := { y with yldWaits := y.yldWaits &&& ~~~ mask }
  let undone (y : CtxImage) : CtxImage := { y with done := y.done &&& ~~~ mask }
  let t0 := Tile.modCtx { t with ctxs := t.ctxs.map (·.mapImages fresh) } c (·.mapImages undone)
  (List.range ks.length).foldl (fun t j =>
    t.modCtx (Fin.ofNat 32 (ks.getD j 0)) fun _ => { st := .live, cur := born j, parent := some c }) t0

/-- What one LSID's value does at commit, in LSID order (R52). -/
def State.perform (s : State) (t : TileId) (c : CtxId) (i : Inst) (k : Nat) (v : LsidVal) : State :=
  let onTile (f : Tile → Tile) : State := { s with pk := s.pk.modTile t f }
  let onCur (f : CtxImage → CtxImage) : State := { s with pk := s.pk.modCur t c f }
  match v with
  | .null | .fault _ | .loaded _ | .waited | .hwaited _ => s
  | .access a =>
    match a.place with
    | .acc b w =>
      { onTile fun x => { x with accBuf := x.accBuf ++ [{ id := s.nextId, a := b, index := w, v := a.data }] } with nextId := s.nextId + 1 }
    | _ => s.post { a with id := s.nextId, st := .waiting }
  | .barInit b scope e => { s with pk := s.pk.barInit t c b scope e }
  | .barArr b => s.postKind t c i k (.arrive b (((s.pk.resBar t b).scope).getD 0))
  | .barSync b _ _ => { s with pk := s.pk.modCtx t c fun x => { x with bar := x.bar.set b { x.bar.get b with o := true } } }
  | .hrel h base size =>
    let s1 := onTile (·.modHandle h fun x => { x with base := base, size := size, owner := none })
    s1.postKind t c i k (.hrel h)
  | .joined mask =>
    let freed (x : Tile) (j : Nat) : Tile := x.modCtx (Fin.ofNat 32 j) fun y => if y.st == .held then { y with st := .free, parent := none } else y
    let s1 := onCur fun x => { x with done := x.done &&& ~~~ mask }
    { s1 with pk := s1.pk.modTile t fun x => (setBits mask).foldl freed x }
  | .trig => s.postKind t c i k .trig
  | .engine cmd ctr =>
    let o : Op := { id := s.nextId, ctx := c, cmd := cmd, ctr := ctr, lvl := s.pk.ctxLevel t c, block := i.img, iter := i.iter,
                    po := i.seq, lsid := k }
    { onTile (·.issue o) with nextId := s.nextId + 1 }
  | .omClaim _ mask => onTile fun x => { x with omSt := setSlots x.omSt mask (.owned c) }
  | .omRel mask => onTile fun x => { x with omSt := setSlots x.omSt mask (.releasing c) }
  | .engqSet q mode =>
    let m : QueueMode := { mode := mode }
    onTile fun x => match q.toNat with
      | 0 => { x with streamMode := m }
      | 1 => { x with matrixMode := m }
      | _ => { x with configMode := m }
  | .launch ticket desc deps queued _ => if queued then s.postKind t c i k (.launch ticket desc deps) else s
  | .yield cycles =>
    let waits (x : Tile) : BitVec 32 := allCtxs.foldl (fun m j =>
      let y := x.ctx j
      if j != c && y.st == .live && (y.req.isSome || (s.pk.loopNext t j).isSome) then withBit m j.val true else m) 0
    let longer (a : W32) : W32 := if a.toNat < cycles.toNat then cycles else a
    onTile fun x => x.modCtx c fun y =>
      { y with cur := { y.cur with yld := longer y.cur.yld, yldWaits := y.cur.yldWaits ||| waits x } }
  | .spawn mask alloc entry arg =>
    if mask == 0 then s
    else
      let gone (x : CtxId × Nat × BitVec 32) : Bool := x.1 == c && x.2.1 == i.seq && x.2.2 == mask
      (onTile fun x => { x.create c mask alloc entry arg with spawnRes := x.spawnRes.filter fun y => !gone y }).postKind t c i k
        (.spawned mask)
  | .tagqClr => onCur fun x => { x with thr := 0 }
  | .tqput record queued =>
    if queued then (onTile fun x => { x with tasks := publishTask c i.seq k s.nextId x.tasks }).postKind t c i k (.tqput record) else s
  | .trap _ _ | .eret _ => s
  | .swr reg v =>
    onCur fun x =>
      if reg == 0x10 then { x with fpf := v.extractLsb' 0 5 }
      else { x with arg := x.arg.set (Fin.ofNat 8 reg.toNat) v }
  | .ctxsave va =>
    match (s.pk.ctx t c).trapped with
    | some (im, r) => s.storeRun t c i k va (im.bytes r) 512
    | none => s
  | .ctxrest image =>
    match image with
    | none => s
    | some im => { s with pk := s.pk.modCtx t c fun x => { x with trapped := x.trapped.map fun y => (y.1.replaceWith im, y.2) } }
  | .errq va taken =>
    match taken with
    | some r =>
      let given (q : ErrQueue) : ErrQueue := { q with held := q.held - 1 }
      { s with pk := s.pk.modDie t.die fun d =>
          { d with errq := sset {} d.errq (s.pk.tileVi t).val (given (sget {} d.errq (s.pk.tileVi t).val)) } }.storeRun t c i k va r.bytes 4
    | none => s

/-! ### Registers (R52, R288) -/

/-- One write entry at commit: a value, a pending register, or nothing for a null. `ids` gives the access that
each LSID became. -/
def CtxImage.commitWrite (cur : CtxImage) (reg : Nat) (ids : List (Nat × Nat)) (v : WriteVal) : CtxImage :=
  match v with
  | .tok k =>
    if k.isNull then cur
    else { cur.setG reg k.val k.poison with pend := cur.pend.filter fun x => x.1 != reg }
  | .pending l =>
    { cur with pend := (cur.pend.filter fun x => x.1 != reg) ++ [(reg, (alookup l.toNat ids).getD 0)] }

def CtxImage.commitWrites (cur : CtxImage) (img : Image) (ids : List (Nat × Nat)) (i : Inst) : CtxImage :=
  (List.range (Header.nwrite img.hdr)).foldl (fun cur k =>
    match alookup k i.writes with
    | some v => cur.commitWrite (img.writeReg k) ids v
    | none => cur) cur

/-! ### The exit (R352, R364, R379) -/

/-- The arguments that a taken task record gives (R80). -/
def CtxImage.taskArgs (cur : CtxImage) (r : BitVec 256) : CtxImage :=
  let a (k : Nat) : W64 := (r.extractLsb' (64 + 48 * k) 48).setWidth 64
  { cur with arg := Vector.ofFn fun j : Fin 8 => if j.val < 4 then a j.val else cur.arg.get j }

/-- A record that an instance took leaves its queue or its buffer. -/
def Tile.spendTask (t : Tile) (c : CtxId) (i : Inst) : Tile :=
  match i.taskArgs with
  | none => t
  | some (r, buffer) =>
    let t1 := t.modCtx c fun x =>
      { x with cur := { x.cur.taskArgs r with stl := if buffer then none else x.cur.stl } }
    if buffer then t1 else { t1 with tasks := t1.tasks.filter fun e => e.st != .held c i.seq }

/-- A record that its context cannot take goes to the error queue, and what it stopped ends (R413, R466). -/
def Pack.storeRecord (p : Pack) (t : TileId) (c : CtxId) (res : Option Nat) (r : FaultRec) : Pack :=
  let p1 := if r.cls == 1 then p.resolveSection t c r true else p.modTile t (·.resolveOp r true)
  p1.note { of := some (t, c), res := res, fr := { r with kind := 2 } }

/-- Records pending for a context that halts are stored (R413). -/
def Pack.storePrecs (p : Pack) (t : TileId) (c : CtxId) : Pack :=
  ((p.ctx t c).precs.foldl (fun p r => p.storeRecord t c (p.tile t).res r) p).modCtx t c fun y => { y with precs := [] }

/-- The context halts (R72, R213, R367). -/
def Pack.halt (p : Pack) (t : TileId) (c : CtxId) : Pack :=
  (p.storePrecs t c).modTile t fun x =>
    ({ x.orphan c with omSt := x.omSt.map (OmSt.release c) }.modCtx c fun y =>
      { y with st := .halted, req := none, cur := { y.cur with lpk := 0, lpn := 0, lpi := 0, yld := 0, yldWaits := 0 } })

/-- HALT.res at commit: every tile of the residency stops (R364). -/
def Pack.haltRes (p : Pack) (t : TileId) : Pack :=
  match p.resOf t with
  | some (_, r) => r.tiles.foldl (fun p v => p.modTile v fun x => { x with halting := true }) p
  | none => p

/-- The committed state stands where the sequencer went on ahead of it: at the next instance of the context, or at what it
is to spawn next; it enters the loop entered there, and has passed every loop without an iteration (R64). -/
def Pack.enterCommitted (p : Pack) (t : TileId) (c : CtxId) : Pack :=
  let at_ (a : VA) (l : Option LoopRun) : Pack :=
    p.modCur t c fun x => match l with | some r => x.inLoop r | none => { x with pc := a }
  match ((p.tile t).live c).head?, (p.ctx t c).loop, (p.ctx t c).req with
  | some j, _, _ => at_ j.img j.loop
  | none, some r, _ => at_ r.img (some r)
  | none, none, some q => at_ q.va none
  | none, none, none => p

/-- The sequencer has left the loop of a committed iteration. -/
def Ctx.quitLoop (i : Inst) (x : Ctx) : Ctx :=
  match x.loop with
  | some r => if r.first ≤ i.seq then { x with loop := none } else x
  | none => x

/-- An exit that leaves the block, or the loop. -/
def Pack.leave (p : Pack) (t : TileId) (c : CtxId) (i : Inst) (img : Image) (e : ExitEntry) (k : Token) : Pack :=
  if e.kind == 3 then (if i.haltRes then (p.halt t c).haltRes t else p.halt t c)
  else match exitDest e k (p.ctx t c).cur with
    | none => p
    | some va =>
      (p.modCtx t c fun x =>
        { (x.quitLoop i) with
          cur := { exitStack e x.cur with pc := va, lpk := 0, lpn := 0, lpi := 0 }
          req := if lateExit img i then some { va := va } else x.req }).enterCommitted t c

/-- Younger iterations than one that breaks its loop live; without one, a younger instance is of the block after the loop. -/
def Pack.younger (p : Pack) (t : TileId) (c : CtxId) (i : Inst) : Bool :=
  ((p.tile t).live c).any fun j => i.seq < j.seq && (match i.loop with | some r => j.loop.any fun q => q.first == r.first | none => false)

/-- The exit of a committed instance. -/
def Pack.takeExit (p : Pack) (t : TileId) (c : CtxId) (i : Inst) (img : Image) : Pack :=
  match i.exits with
  | (n, k) :: _ =>
    let e := img.exitEntry n
    let cur := (p.ctx t c).cur
    if !isLoop img then p.leave t c i img e k
    else
      let back := e.kind == 4 || e.kind == 5
      let more := back && (if Header.iterate img.hdr then decide (cur.lpi.toNat + 1 < cur.lpn.toNat) else i.conts == [true])
      if more then p.modCur t c fun x => { x with pc := i.img, lpi := x.lpi + 1 }
      else (if back || !p.younger t c i then p else p.squash t c (i.seq + 1)).leave t c i img e k
  | [] => p

/-! ### ERET at commit (R420) -/

def Inst.eret? (i : Inst) : Option (BitVec 2) :=
  firstSome (fun kv : Nat × LsidVal => match kv.2 with | .eret op => some op | _ => none) i.lsids

/-- Operations that a handler issued count on no counter once it has returned (R411). -/
def Tile.uncountFrom (t : Tile) (c : CtxId) (k : Nat) : Tile :=
  let f (o : Op) : Op := if o.ctx == c && k ≤ o.po then { o with uncounted := true } else o
  { t with streamQ := t.streamQ.map f, matrixQ := t.matrixQ.map f, configQ := t.configQ.map f, sideQ := t.sideQ.map f }

/-- The return from a trap; a context that HALT.res has stopped meanwhile halts (R364). -/
def Pack.eret (p : Pack) (t : TileId) (c : CtxId) (op : BitVec 2) : Pack :=
  let x := p.ctx t c
  match x.trapped with
  | none => p
  | some (im, r) =>
    if op == 2 then
      match p.resOf t with
      | some (_, y) => p.abortSwarm y.swarm (x.tcause.extractLsb' 0 8)
      | none => p
    else
      let p1 := p.squash t c 0
      let p2 := if r.cls == 1 then p1.resolveSection t c r (op == 3) else p1.modTile t (·.resolveOp r (op == 3))
      let p3 := (p2.modTile t (·.uncountFrom c im.seqn)).modCtx t c fun y => { y.restore with nbSkip := op == 1 }
      if (p3.tile t).resStopped then p3.halt t c else p3

/-! ### COMMIT (R51, R52) -/

/-- Tokens and outstanding loads of a committed instance are gone. -/
def Pack.retire (p : Pack) (t : TileId) (c : CtxId) (i : Inst) : Pack :=
  let mine (w : Work) : Bool := w.ctx == c && !w.stream && w.n == i.seq
  let p1 := p.modTile t fun x =>
    { x with
      insts := x.insts.filter fun j => !(j.ctx == c && j.seq == i.seq)
      links := x.links.filter fun k => !mine k.work
      store := x.store.filter fun k => !mine k.work }
  { p1 with accs := p1.accs.filter fun a => !(a.tile == t && mine a.work && a.isLoad) }

def Inst.syscall? (i : Inst) : Option (BitVec 6 × VA) :=
  firstSome (fun kv : Nat × LsidVal => match kv.2 with | .trap n a => some (n, a) | _ => none) i.lsids

/-- SYSCALL is exact at the boundary after the commit (R418); a context that the commit halted takes no trap, and the record
is stored (R413). -/
def Pack.syscall (p : Pack) (t : TileId) (c : CtxId) (i : Inst) : Pack :=
  match i.syscall? with
  | none => p
  | some (n, a) =>
    let p1 := p.squash t c 0
    let r : FaultRec := { p1.baseRec t c with cause := Cause.syscall, sub := n.setWidth 8, block := i.img, va := a,
                                              itb := BitVec.ofNat 48 i.iter, cls := 0 }
    if (p1.ctx t c).st == .live then p1.raise t c r else p1.note { of := some (t, c), res := (p1.tile t).res, fr := { r with kind := 2 } }

/-- Perform the LSIDs in order, collecting the access that each became. -/
def State.performAll (s : State) (t : TileId) (c : CtxId) (i : Inst) : List (Nat × LsidVal) → List (Nat × Nat) → State × List (Nat × Nat)
  | [], ids => (s, ids)
  | (k, v) :: rest, ids => (s.perform t c i k v).performAll t c i rest (ids ++ [(k, s.nextId)])

/-- The marks of a context's track that no event to come, and none on its way, can precede hold for all. -/
def Pack.settleTrack (p : Pack) (t : TileId) (c : CtxId) : Pack :=
  let seqs := ((p.tile t).live c).map (·.seq) ++
    ((p.tileAccs t).filter fun a => a.ofContext && a.work.ctx == c).map (·.work.n) ++
    ((p.tile t).inFlight.filter fun o => o.ctx == c && o.floor.isNone).map (·.po)
  p.modCtx t c fun x => { x with track := x.track.settle ((minOf seqs).getD x.cur.seqn) }

/-- The commit itself (R52). -/
def State.commitInst (s : State) (t : TileId) (c : CtxId) (i : Inst) (img : Image) : State :=
  let r := s.performAll t c i i.ordered []
  let p0 := r.1.pk
  let p1 := p0.modCur t c fun x =>
    let y := x.commitWrites img r.2 i
    { y with fpf := y.fpf ||| i.flags }
  let p2 := (p1.modTile t fun x => x.spendTask c i).retire t c i
  let p3 := match i.eret? with
    | some op => p2.eret t c op
    | none => p2.takeExit t c i img
  { r.1 with pk := (((p3.syscall t c i).resolveReads t c).modTile t Tile.settle).settleTrack t c }

/-- A record has reached the context, and its trap is taken at this boundary (R407, R412). -/
def Ctx.trapDue (x : Ctx) : Bool := !x.precs.isEmpty && x.tcause == 0

/-- COMMIT (R51, R52): the oldest complete instance of a context commits, waits for room, or traps. -/
def execCommit (t : TileId) (c : CtxId) (s : State) : Host.Outcome State Fault Refusal :=
  match (s.pk.tile t).oldest? c with
  | none => .next s
  | some i =>
    match s.pk.imageOf t i.img with
    | none => .next s
    | some img =>
      if !s.pk.running t || (s.pk.ctx t c).trapDue || (i.fault? img).isSome || !i.complete img then .next s
      else match s.verdict t c i img with
        | .wait => .next s
        | .trap cause sub va => .next { s with pk := s.pk.exactTrap t c i cause (BitVec.ofNat 8 sub) va 0 }
        | .go => .next (s.commitInst t c i img)

/-! ### Traps (R53, R411-R414) -/

/-- TRAP_EXACT (R53): the oldest instance of a context holds a fault at an output. -/
def execTrapExact (t : TileId) (c : CtxId) (s : State) : Host.Outcome State Fault Refusal :=
  match (s.pk.tile t).oldest? c with
  | none => .next s
  | some i =>
    match (s.pk.imageOf t i.img).bind i.fault? with
    | none => .next s
    | some k =>
      if !s.pk.running t || (s.pk.ctx t c).raised.isSome then .next s
      else .next { s with pk := s.pk.exactTrap t c i k.cause k.sub k.fva k.coord }

/-- A trap is taken, and what the read of its vector meets is corrected or recorded (R229, R411). -/
def State.trapTo (s : State) (t : TileId) (c : CtxId) (r : FaultRec) : State :=
  let note : WalkNote := if (s.pk.ctx t c).tcause == 0 then (s.pk.handlerRead s.mem t).2 else {}
  State.walked { s with pk := s.pk.takeTrap s.mem t c r } t (s.pk.tileVi t) note

/-- A deferred or beat-exact record that is taken: its context stands at its committed PC (R407, R412). -/
def State.takePending (s : State) (t : TileId) (c : CtxId) (r : FaultRec) : State :=
  State.trapTo { s with pk := s.pk.modCtx t c fun x => { x with precs := x.precs.drop 1 } } t c { r with block := (s.pk.ctx t c).cur.pc }

/-- The residency is about to stop, and its contexts take their pending traps when it is resumed (R413). -/
def Pack.stopping (p : Pack) (t : TileId) : Bool :=
  match p.resOf t with
  | some (_, r) => r.stopCause.isSome
  | none => false

/-- Every event of a context that was committed is performed and acknowledged, so that a mark for it may leave (R257,
R409). -/
def Pack.markReady (p : Pack) (t : TileId) (c : CtxId) : Bool :=
  let first : Nat := match ((p.tile t).live c).head? with | some i => i.seq | none => (p.ctx t c).cur.seqn
  !p.unacked t c first 0

/-- TRAP_DELIVERY (R411): a raised trap, or the first pending record of a context that handles none; the die can
send the record's mark. -/
def execTrapDelivery (t : TileId) (c : CtxId) (s : State) : Host.Outcome State Fault Refusal :=
  let x := s.pk.ctx t c
  if x.st != .live || !s.pk.running t || !s.pk.canMark t.die || !s.pk.markReady t c then .next s
  else match x.raised with
    | some r => .next (s.trapTo t c r)
    | none =>
      match x.precs with
      | r :: _ => if x.tcause != 0 || s.pk.stopping t then .next s else .next (s.takePending t c r)
      | [] => .next s

/-- Every beat below b of a section has been delivered in full, at its egresses and its stores (R58). -/
def Pack.beatsDone (p : Pack) (t : TileId) (x : Section) (b : Nat) : Bool :=
  let tl := p.tile t
  let late (w : Work) (a : BitVec 12) : Bool := w.ofSection x && w.n < b && (!tl.renumbers x || tl.pastRun x.img a && !tl.feeds x.img a)
  x.due.all (fun n => b ≤ n) && !p.accs.any (fun a => a.tile == t && late a.work a.elem) &&
    !tl.links.any (fun k => late k.work k.src) && !tl.store.any (fun e => late e.work e.elem) &&
    (tl.renumbers x || ((tl.beatsOn (p.tileAccs t) x).all (fun n => b ≤ n) && x.inPos.all fun q => x.ended.contains q.1 || b ≤ q.2))

/-- A beat-exact record waits until the beats before its own have been delivered. -/
def Pack.noteDue (p : Pack) (t : TileId) (c : CtxId) (r : PendRec) : Bool :=
  r.ctx == some (t, c) &&
    (r.fr.cls != 1 || r.res != (p.tile t).res || (match (p.tile t).stoppedSection c r.fr with
      | some x => (match x.stop with | some (b, _) => p.beatsDone t x b | none => true)
      | none => true))

/-- The first noted record for a context. -/
def Pack.takeNote (p : Pack) (t : TileId) (c : CtxId) : Option (PendRec × Pack) :=
  match takeFirst (p.noteDue t c) p.pending with
  | none => none
  | some (r, rest) => some (r, { p with pending := rest })

/-- A record reaches a context of a saved residency (R429), or goes to the error queue. -/
def Pack.giveSaved (p : Pack) (r : PendRec) (t : TileId) (c : CtxId) : Pack :=
  match r.res.bind p.resid?, r.res with
  | some x, some k =>
    let i := x.number t
    let takes : Bool := match x.saved[i]? with
      | some y => (y.ctx c).st == .live && decide ((y.ctx c).precs.length < 8)
      | none => false
    if takes then
      let add (y : Tile) : Tile := y.modCtx c fun z => { z with precs := z.precs ++ [r.fr] }
      p.modResid k fun x => { x with saved := x.saved.modify i add }
    else (p.modResid k fun x => { x with saved := x.saved.modify i (·.resolveOp r.fr true) }).note { of := some (t, c), res := r.res, fr := { r.fr with kind := 2 } }
  | _, _ => p.note { fr := { r.fr with kind := 2 } }

/-- DEFERRED_RECORD_DELIVERY (R412, R413): a record reaches its context, or goes to the error queue. -/
def execDeferredRecordDelivery (t : TileId) (c : CtxId) (s : State) : Host.Outcome State Fault Refusal :=
  match s.pk.takeNote t c with
  | none => .next s
  | some (r, p) =>
    let x := p.ctx t c
    if r.res != (p.tile t).res then .next { s with pk := p.giveSaved r t c }
    else if (x.st == .live || x.st == .saved) && x.precs.length < 8 then
      .next { s with pk := p.modCtx t c fun y => { y with precs := y.precs ++ [r.fr] } }
    else
      .next { s with pk := p.storeRecord t c r.res r.fr }

/-- The swarm of a record of kind 0x02 ends as aborted with its cause (R413). -/
def Pack.blame (p : Pack) (r : PendRec) : Pack :=
  match r.res.bind p.resid? with
  | some x => if r.fr.kind == 2 then p.modSwarm x.swarm fun w => { w with deferredKind2 := some (w.deferredKind2.getD r.fr.cause) } else p
  | none => p

/-- The 256 records stand in the queue or are held by ERRQs. -/
def ErrQueue.full (q : ErrQueue) : Bool := 256 ≤ q.recs.length + q.held

/-- A record enters its VI's queue on a die, or is dropped (R413). -/
def ErrQueue.add (q : ErrQueue) (r : FaultRec) : ErrQueue :=
  if q.full then { q with dropped := true }
  else { q with recs := q.recs ++ [{ r with ovf := q.dropped }], dropped := false }

/-- The mark of a record may leave for the context concerned, and for the management core at once (R409). -/
def Pack.markFree (p : Pack) (r : PendRec) : Bool :=
  match r.of with
  | some (t, c) => (p.tile t).res != r.res || p.markReady t c
  | none => true

/-- ERROR_QUEUE_STORE (R409, R413): the oldest noted record of a die that names no context is formed and stored. -/
def execErrorQueueStore (d : DieId) (s : State) : Host.Outcome State Fault Refusal :=
  match takeFirst (fun r : PendRec => r.ctx.isNone && r.on.getD r.fr.die == d && s.pk.markFree r) s.pk.pending with
  | none => .next s
  | some (r, rest) =>
    if !s.pk.canMark d then .next s
    else
      let f := ({ s.pk with pending := rest } : Pack).form d r.fr
      let q := sget {} (s.pk.die d).errq r.fr.vi.val
      let p1 := f.2.modDie d fun x => { x with errq := sset {} x.errq r.fr.vi.val (q.add f.1) }
      .next { s with pk := if q.full then p1 else p1.blame r }

end Sys2Proof.Machine
end

