-- ==== Sys2Proof/Machine/Float.lean ====
section
/-! DEFINITION. The floating-point instructions (R165-R170). -/

namespace Sys2Proof.Machine

/-! ### Shared operations -/

/-- Round a value into the slot's type, with the flags its operation raised. -/
def roundLane (f : Slot) (v : ValFl) : Nat × BitVec 5 :=
  let r := roundTo f.ty.fmt false (rndOf f) v.1
  (r.1, r.2 ||| v.2)

/-- A rounding instruction of two operands, and of one. -/
def calcFloat (fm : Form) (f : Slot) (s : State) (op : Val → Val → ValFl) : State :=
  calcFlags fm f s fun a b => roundLane f (op (f.ty.val a) (f.ty.val b))

def calcFloat1 (fm : Form) (f : Slot) (s : State) (op : Val → ValFl) : State :=
  calcFlags fm f s fun a _ => roundLane f (op (f.ty.val a))

/-- FMA and FNMA (R158, R167): the product exact, the sum rounded once into f32. -/
def fmaWord (f : Slot) (negate : Bool) (l r : W128) : W128 × BitVec 5 :=
  let vs := joinFlags ((packedInputs f.ty .f32 l r).map fun x =>
    let p := (f.ty.val x.1).mul (f.ty.val x.2.1)
    roundTo .f32 false (rndOf f) ((if negate then p.negate else p).add (rndOf f) (Fmt.f32.value x.2.2)))
  (wordOf .f32 vs.1, vs.2)

/-- RoundF32(a + b) of f32 patterns. -/
def addF32 (rm : Rnd) (a b : Val) : Nat × BitVec 5 := roundTo .f32 false rm (a.add rm b)

/-- Dot4 of R168. -/
def dot4 (rm : Rnd) (a b : List Val) : Nat × BitVec 5 :=
  let p := List.zipWith Val.mul a b
  let q (k : Nat) : Val := p.getD k (.fin false 0 0 false)
  let x := addF32 rm (q 0) (q 1)
  let y := addF32 rm (q 2) (q 3)
  let z := addF32 rm (Fmt.f32.value x.1) (Fmt.f32.value y.1)
  (z.1, x.2 ||| y.2 ||| z.2)

/-- The sign of a bit pattern cleared or inverted; NaNs become canonical (R169). -/
def signLane (t : Ty) (flip : Bool) (a : Nat) : Nat :=
  let m := a % t.fmt.signBit
  if (t.val a).isNan then t.fmt.nanCode
  else t.fmt.signed (flip && m == a) m

/-- The class bit of a value (R169). -/
def classBit (t : Ty) (a : Nat) : Nat :=
  match t.val a with
  | .nan s => if s then 8 else 9
  | .inf n => if n then 0 else 7
  | .fin n m _ _ =>
    if m == 0 then (if n then 3 else 4)
    else if m < 2 ^ t.fmt.frac then (if n then 2 else 5)
    else (if n then 1 else 6)

/-- FRND (R170). -/
def frndLane (f : Slot) (a : Nat) : Nat × BitVec 5 :=
  match f.ty.val a with
  | .nan s => (f.ty.fmt.nanCode, raiseIf s Fl.nv)
  | .inf _ => (a, 0)
  | .fin n m e st =>
    let r := roundInt (rndOf f) n m e st
    ((roundTo f.ty.fmt false .rne (.fin n r.1.natAbs 0 false)).1, raiseIf (r.2 && f.mode.getLsbD 0) Fl.nx)

/-- A value times a power of two. -/
def Val.scale (x : Val) (k : Int) : Val :=
  match x with
  | .fin n m e s => .fin n m (e + k) s
  | v => v

/-- A lane word of f32 results. -/
def f32Word (vs : List (Nat × BitVec 5)) : W128 × BitVec 5 :=
  let r := joinFlags vs
  (wordOf .f32 r.1, r.2)

/-! ### Meanings -/

/-- FADD (R165). -/
def execFadd (f : Slot) (s : State) : Host.Outcome State Fault Refusal :=
  .next (calcFloat (formOf (.fadd f)) f s fun a b => (a.add (rndOf f) b, 0))

/-- FSUB (R165). -/
def execFsub (f : Slot) (s : State) : Host.Outcome State Fault Refusal :=
  .next (calcFloat (formOf (.fsub f)) f s fun a b => (a.sub (rndOf f) b, 0))

/-- FMUL (R165). -/
def execFmul (f : Slot) (s : State) : Host.Outcome State Fault Refusal :=
  .next (calcFloat (formOf (.fmul f)) f s fun a b => (a.mul b, 0))

/-- FMA (R165, R167). -/
def execFma (f : Slot) (s : State) : Host.Outcome State Fault Refusal :=
  .next (calcWord (formOf (.fma f)) f s (fmaWord f false))

/-- FNMA (R165, R167). -/
def execFnma (f : Slot) (s : State) : Host.Outcome State Fault Refusal :=
  .next (calcWord (formOf (.fnma f)) f s (fmaWord f true))

/-- FDIV (R165, R166). -/
def execFdiv (f : Slot) (s : State) : Host.Outcome State Fault Refusal :=
  .next (calcFloat (formOf (.fdiv f)) f s Val.div)

/-- FSQRT (R165, R166). -/
def execFsqrt (f : Slot) (s : State) : Host.Outcome State Fault Refusal :=
  .next (calcFloat1 (formOf (.fsqrt f)) f s fun a => (a.sqrt, 0))

/-- FRCP (R165, R166). -/
def execFrcp (f : Slot) (s : State) : Host.Outcome State Fault Refusal :=
  .next (calcFloat1 (formOf (.frcp f)) f s Val.recip)

/-- FRSQ (R165, R166). -/
def execFrsq (f : Slot) (s : State) : Host.Outcome State Fault Refusal :=
  .next (calcFloat1 (formOf (.frsq f)) f s Val.rsqrt)

/-- FEXP2 (R165, R166). -/
def execFexp2 (f : Slot) (s : State) : Host.Outcome State Fault Refusal :=
  .next (calcFloat1 (formOf (.fexp2 f)) f s fun a => (a.exp2, 0))

/-- FLOG2 (R165, R166). -/
def execFlog2 (f : Slot) (s : State) : Host.Outcome State Fault Refusal :=
  .next (calcFloat1 (formOf (.flog2 f)) f s Val.log2)

/-- FMIN (R169). -/
def execFmin (f : Slot) (s : State) : Host.Outcome State Fault Refusal :=
  .next (calcFlags (formOf (.fmin f)) f s (fminmax f.ty.fmt false))

/-- FMAX (R169). -/
def execFmax (f : Slot) (s : State) : Host.Outcome State Fault Refusal :=
  .next (calcFlags (formOf (.fmax f)) f s (fminmax f.ty.fmt true))

/-- FABS (R169). -/
def execFabs (f : Slot) (s : State) : Host.Outcome State Fault Refusal :=
  .next (calcLanes (formOf (.fabs f)) f s fun a _ => signLane f.ty false a)

/-- FNEG (R169). -/
def execFneg (f : Slot) (s : State) : Host.Outcome State Fault Refusal :=
  .next (calcLanes (formOf (.fneg f)) f s fun a _ => signLane f.ty true a)

/-- FRND (R170). -/
def execFrnd (f : Slot) (s : State) : Host.Outcome State Fault Refusal :=
  .next (calcFlags (formOf (.frnd f)) f s fun a _ => frndLane f a)

/-- FSCALE (R170): R is i32 for f32, i16 otherwise. -/
def execFscale (f : Slot) (s : State) : Host.Outcome State Fault Refusal :=
  .next (calcFlags (formOf (.fscale f)) f s fun a b =>
    roundLane f ((f.ty.val a).scale (signedOf f.ty.laneWidth b), 0))

/-- FCLASS (R169). -/
def execFclass (f : Slot) (s : State) : Host.Outcome State Fault Refusal :=
  .next (calcWord (formOf (.fclass f)) f s fun l _ =>
    (ofLanes f.ty.laneWidth ((lanesOf f.ty l).map fun a => 2 ^ classBit f.ty a), 0))

/-- FDOT4 (R168). -/
def execFdot4 (f : Slot) (s : State) : Host.Outcome State Fault Refusal :=
  .next (calcWord (formOf (.fdot4 f)) f s fun l r =>
    let a := (lanesOf f.ty l).map f.ty.val
    let b := (lanesOf f.ty r).map f.ty.val
    if f.ty == .f32 then f32Word [dot4 (rndOf f) a b]
    else f32Word [dot4 (rndOf f) (a.take 4) (b.take 4), dot4 (rndOf f) (a.drop 4) (b.drop 4)])

/-- FREDS (R168): the lanes convert to f32 exactly, a tree of rounded sums, and one more with R. -/
def execFreds (f : Slot) (s : State) : Host.Outcome State Fault Refusal :=
  .next (calcWord (formOf (.freds f)) f s fun l r =>
    let xs := joinFlags ((lanesOf f.ty l).map (convertLane f.ty .f32 false .rne))
    let t := tree (fun a b => addF32 (rndOf f) (Fmt.f32.value a) (Fmt.f32.value b)) 3 xs.1
    let z := addF32 (rndOf f) (Fmt.f32.value t.1) (Fmt.f32.value (laneNat 32 r 0))
    let fl := if f.ty == .f32 then raiseIf ((lanesOf f.ty l).any fun a => (f.ty.val a).signals) Fl.nv else xs.2
    (wordOf .f32 [z.1], t.2 ||| z.2 ||| fl))

end Sys2Proof.Machine
end

