-- ==== Sys2Proof/Machine/Convert.lean ====
section
/-! DEFINITION. The conversion instructions (R171-R176) and the BX and MX words (R126-R130, R175). -/

namespace Sys2Proof.Machine

/-! ### BX words (R127, R128, R130) -/

/-- Mantissa width of a width code. -/
def bxBits (code : Nat) : Nat :=
  match code with
  | 0 => 4 | 1 => 6 | 2 => 8 | _ => 12

/-- A bx word from its fields. -/
def bxWord (q width exp : Nat) (mants : List Nat) : W128 :=
  BitVec.ofNat 128 (packLanes 12 mants + exp * 2 ^ 96 + width * 2 ^ 104 + q * 2 ^ 106)

/-- The code 1 followed by zeros, which no writer of the part produces. -/
def excluded (m v : Nat) : Bool := v % 2 ^ m == 2 ^ (m - 1)

/-- A mantissa's value: the excluded code reads as -(2^(m-1) - 1). -/
def mantOf (m v : Nat) : Int := if excluded m v then -((2 ^ (m - 1) - 1 : Nat) : Int) else signedOf m v

def bxMant (x : W128) (j : Nat) : Nat := laneNat 12 x j

/-! ### Blocks -/

/-- The elements that an f32 half or a 16-bit word carries, with the index of the first (R173, R175). -/
def quarter (t : Ty) (half : Bool) (x : W128) : List Val × Nat :=
  ((lanesOf t x).map t.val, if t == .f32 && half then 4 else 0)

/-- floor(log2 a) of a finite non-zero value. -/
def ilog2 : Val → Int
  | .fin _ m e _ => e + Nat.log2 m
  | _ => 0

/-- min(max(x, 0), 254). -/
def clampExp (x : Int) : Nat := min x.toNat 254

/-- One mantissa of QBLK: x / 2^eps rounded and clamped, and whether it differs from x. -/
def qblkMant (rm : Rnd) (m : Nat) (eps : Int) (x : Val) : Nat × BitVec 5 :=
  match x with
  | .fin n mm e s =>
    let r := roundInt rm n mm (e - eps) s
    let top : Int := (2 ^ (m - 1) : Nat) - 1
    let c := if r.1 < -top then -top else if top < r.1 then top else r.1
    (lowBits 12 c, raiseIf (r.2 || c != r.1) Fl.nx)
  | _ => (0, 0)

/-- Values placed at elements first, first + 1, ... of eight. -/
def atElems (first : Nat) (vs : List Nat) : List Nat := List.replicate first 0 ++ vs

/-- QBLK (R173). -/
def qblkWord (f : Slot) (l r : W128) : W128 × BitVec 5 :=
  let width := fld f.mode 1 0
  let m := bxBits width
  let a := (Fmt.f32.value (laneNat 32 r 0)).abs
  let (xs, first) := quarter f.ty (f.mode.getLsbD 4) l
  let all := a :: xs
  if all.any fun x => x.isNan || x.isInf then
    (bxWord (fld f.mode 3 2) width 0xFF [], raiseIf (all.any fun x => x.signals || x.isInf) Fl.nv)
  else
    let e := if a.isZero then 0 else clampExp (ilog2 a + 128)
    let vs := joinFlags (xs.map (qblkMant (rndOf f) m ((e : Int) - 127 - ((m : Int) - 1))))
    (bxWord (fld f.mode 3 2) width e (atElems first vs.1), vs.2)

/-- One element of DQBLK: its value, and the flag of an excluded code. -/
def dqblkLane (f : Slot) (m e v : Nat) : Nat × BitVec 5 :=
  if e == 0xFF then (f.ty.fmt.nanCode, 0)
  else
    let r := roundTo f.ty.fmt false (rndOf f) ((Val.ofInt (mantOf m v)).scale ((e : Int) - 127 - ((m : Int) - 1)))
    (r.1, r.2 ||| raiseIf (excluded m v) Fl.nv)

/-- The element indices of a result word: all eight, or a half for f32. -/
def resultElems (t : Ty) (hi : Bool) : List Nat := if t == .f32 then (List.range 4).map (· + if hi then 4 else 0) else List.range 8

def dqblkWord (f : Slot) (l : W128) : W128 × BitVec 5 :=
  let m := bxBits (fld l 105 104)
  let vs := joinFlags ((resultElems f.ty (f.mode.getLsbD 0)).map fun j => dqblkLane f m (fld l 103 96) (bxMant l j))
  (wordOf f.ty vs.1, vs.2)

/-- MX element formats by code, their widths and emax (R171, R175). -/
def mxFmt (code : Nat) : Fmt :=
  match code with
  | 0 => .e4m3 | 1 => .e5m2 | 2 => .e3m2 | 3 => .e2m3 | _ => .e2m1

def mxBits (code : Nat) : Nat :=
  match code with
  | 0 | 1 => 8 | 2 | 3 => 6 | _ => 4

def mxEmax (code : Nat) : Int :=
  match code with
  | 0 => 8 | 1 => 15 | 2 => 4 | 3 => 2 | _ => 2

/-- MXPK (R175). -/
def mxpkWord (f : Slot) (l r : W128) : W128 × BitVec 5 :=
  let code := fld f.mode 2 0
  let a := (Fmt.f32.value (laneNat 32 r 0)).abs
  let (xs, first) := quarter f.ty (f.mode.getLsbD 4) l
  if a.isNan || a.isInf || xs.any Val.isNan then
    (BitVec.ofNat 128 (0xFF * 2 ^ 120), raiseIf (a.isInf || a.signals || xs.any Val.signals) Fl.nv)
  else
    let x := if a.isZero then 0 else clampExp (ilog2 a - mxEmax code + 127)
    let vs := joinFlags (xs.map fun v => roundTo (mxFmt code) (f.mode.getLsbD 3) (rndOf f) (v.scale (127 - (x : Int))))
    (BitVec.ofNat 128 (packLanes (mxBits code) (atElems first vs.1) + x * 2 ^ 120), vs.2)

/-- MXUNPK (R175). -/
def mxunpkWord (f : Slot) (l : W128) : W128 × BitVec 5 :=
  let code := fld f.mode 2 0
  let x := fld l 127 120
  let vs := joinFlags ((resultElems f.ty (f.mode.getLsbD 4)).map fun j =>
    if x == 0xFF then (f.ty.fmt.nanCode, 0)
    else roundTo f.ty.fmt false (rndOf f) (((mxFmt code).value (laneNat (mxBits code) l j)).scale ((x : Int) - 127)))
  (wordOf f.ty vs.1, vs.2)

/-! ### Meanings -/

/-- CVT (R172). -/
def execCvt (f : Slot) (s : State) : Host.Outcome State Fault Refusal :=
  let u := (Ty.ofCode (f.mode.extractLsb' 0 4)).getD f.ty
  .next (calcWord (formOf (.cvt f)) f s fun l _ => convertWord f.ty u (f.mode.getLsbD 4) (f.mode.getLsbD 5) (rndOf f) l)

/-- QBLK (R173). -/
def execQblk (f : Slot) (s : State) : Host.Outcome State Fault Refusal :=
  .next (calcWord (formOf (.qblk f)) f s (qblkWord f))

/-- DQBLK (R174). -/
def execDqblk (f : Slot) (s : State) : Host.Outcome State Fault Refusal :=
  .next (calcWord (formOf (.dqblk f)) f s fun l _ => dqblkWord f l)

/-- MXPK (R175). -/
def execMxpk (f : Slot) (s : State) : Host.Outcome State Fault Refusal :=
  .next (calcWord (formOf (.mxpk f)) f s (mxpkWord f))

/-- MXUNPK (R175). -/
def execMxunpk (f : Slot) (s : State) : Host.Outcome State Fault Refusal :=
  .next (calcWord (formOf (.mxunpk f)) f s fun l _ => mxunpkWord f l)

/-- The inter-word form of HSTEP (R176): sums to target0, differences to target1. -/
def hstepWords (f : Slot) (l r : W128) (poison : Bool) : Result :=
  let go (op : Val → Val → Val) := joinFlags (List.zipWith (fun a b =>
    roundTo f.ty.fmt false (rndOf f) (op (f.ty.val a) (f.ty.val b))) (lanesOf f.ty l) (lanesOf f.ty r))
  let a := go (Val.add (rndOf f))
  let b := go (Val.sub (rndOf f))
  { t0 := some (dataTok (wordOf f.ty a.1) poison), t1 := some (dataTok (wordOf f.ty b.1) poison), flags := a.2 ||| b.2 }

/-- The intra-word form at distance d. -/
def hstepLanes (f : Slot) (d : Nat) (l : W128) : W128 × BitVec 5 :=
  let x := lanesOf f.ty l
  let at_ (k : Nat) : Val := f.ty.val (nth x k)
  let vs := joinFlags ((List.range x.length).map fun k =>
    roundTo f.ty.fmt false (rndOf f)
      (if k / d % 2 == 0 then (at_ k).add (rndOf f) (at_ (k + d)) else (at_ (k - d)).sub (rndOf f) (at_ k)))
  (wordOf f.ty vs.1, vs.2)

/-- HSTEP (R176). -/
def execHstep (f : Slot) (s : State) : Host.Outcome State Fault Refusal :=
  .next (
    if f.mode.getLsbD 3 then
      fireResult (formOf (.hstep f)) f kData kData s fun l r => hstepWords f l.val r.val (l.poison || r.poison)
    else calcWord (formOf (.hstep f)) f s fun l _ => hstepLanes f (2 ^ fld f.mode 1 0) l)

end Sys2Proof.Machine
end

