-- ==== Sys2Proof/Machine/Compare.lean ====
section
/-! DEFINITION. The compare, select and predicate instructions (R177-R180). -/

namespace Sys2Proof.Machine

/-- The conditions of R177 on an order: less, equal, greater. -/
def condHolds (cond : Nat) (lt eq : Bool) : Bool :=
  match cond with
  | 0 => eq
  | 1 => !eq
  | 2 => lt
  | 3 => lt || eq
  | 4 => !lt && !eq
  | 5 => !lt
  | 6 => false
  | _ => true

/-- FCMP's condition and its invalid flag (R178). -/
def fcmpLane (f : Slot) (a b : Nat) : Bool × BitVec 5 :=
  let x := f.ty.val a
  let y := f.ty.val b
  let cond := fld f.mode 2 0
  if x.isNan || y.isNan then
    (cond == 1 || cond == 6, raiseIf (x.signals || y.signals || (2 ≤ cond && cond ≤ 5)) Fl.nv)
  else (condHolds cond (decide (x.key < y.key)) (x.key == y.key), 0)

def icmpLane (f : Slot) (a b : Nat) : Bool × BitVec 5 :=
  (condHolds (fld f.mode 2 0) (decide (f.ty.int a < f.ty.int b)) (f.ty.int a == f.ty.int b), 0)

/-- A comparison on lane 0 or on every lane (R178). -/
def compareResult (f : Slot) (op : Nat → Nat → Bool × BitVec 5) (l r : Token) : Result :=
  let poison := l.poison || r.poison
  let cs := List.zipWith op (lanesOf f.ty l.val) (lanesOf f.ty r.val)
  if f.mode.getLsbD 3 then
    .all (dataTok (wordOf f.ty (cs.map fun c => if c.1 then 2 ^ f.ty.valueWidth - 1 else 0)) poison)
      (cs.foldl (fun a c => a ||| c.2) 0)
  else
    let c := cs.headD (false, 0)
    .all (predTok c.1 poison) c.2

/-- ICMP (R178). -/
def execIcmp (f : Slot) (s : State) : Host.Outcome State Fault Refusal :=
  .next (fireResult (formOf (.icmp f)) f kData kData s (compareResult f (icmpLane f)))

/-- FCMP (R178). -/
def execFcmp (f : Slot) (s : State) : Host.Outcome State Fault Refusal :=
  .next (fireResult (formOf (.fcmp f)) f kData kData s (compareResult f (fcmpLane f)))

/-- SEL (R179): R to target0 on true, to target1 on false. -/
def execSel (f : Slot) (s : State) : Host.Outcome State Fault Refusal :=
  .next (fireResult (formOf (.sel f)) f kPred kData s fun l r =>
    if l.poison then .fault s.cur Cause.poison 4
    else if bit l.val 0 then { t0 := some r } else { t1 := some r })

/-- PAND (R180). -/
def execPand (f : Slot) (s : State) : Host.Outcome State Fault Refusal :=
  .next (fireResult (formOf (.pand f)) f kPred kPred s fun l r =>
    .all (predTok (bit l.val 0 && bit r.val 0) (l.poison || r.poison)))

/-- POR (R180). -/
def execPor (f : Slot) (s : State) : Host.Outcome State Fault Refusal :=
  .next (fireResult (formOf (.por f)) f kPred kPred s fun l r =>
    .all (predTok (bit l.val 0 || bit r.val 0) (l.poison || r.poison)))

/-- PNOT (R180). -/
def execPnot (f : Slot) (s : State) : Host.Outcome State Fault Refusal :=
  .next (fireResult (formOf (.pnot f)) f kPred kPred s fun l _ => .all (predTok (!bit l.val 0) l.poison))

/-- TESTP's four forms on the lanes' tests (R180). -/
def testpForm (m : Nat) (ts : List Bool) : Bool :=
  match m with
  | 0 => ts.headD false
  | 1 => ts.any id
  | 2 => ts.all id
  | _ => !ts.any id

/-- TESTP (R180). -/
def execTestp (f : Slot) (s : State) : Host.Outcome State Fault Refusal :=
  .next (fireResult (formOf (.testp f)) f kData kData s fun l r =>
    .all (predTok (testpForm (fld f.mode 1 0)
      (List.zipWith (fun a b => a &&& b != 0) (lanesOf f.ty l.val) (lanesOf f.ty r.val))) (l.poison || r.poison)))

end Sys2Proof.Machine
end

