-- ==== Sys2Proof/Machine/Digit.lean ====
section
/-! DEFINITION. Digit streams (R131-R134) and the digit instructions (R181-R183). -/

namespace Sys2Proof.Machine

/-- The digit of a code, where it has one (R131). -/
def digitOf (c : Nat) : Option Int :=
  match c with
  | 0 => some 0 | 1 => some 1 | 2 => some 2 | 6 => some (-2) | 7 => some (-1) | _ => none

def digitCode (d : Int) : Nat := lowBits 3 d

/-- Positions of a mantissa width (R132). -/
def positions (code : Nat) : Nat := bxBits code / 2

/-- The digit at position j of a mantissa of m bits (R132). -/
def recode (m j : Nat) (v : Int) : Int :=
  let i := m / 2 - 1 - j
  let b (k : Nat) : Int := if (lowBits m v).testBit k then 1 else 0
  b (2 * i) + (if i == 0 then 0 else b (2 * i - 1)) - 2 * b (2 * i + 1)

/-- A digit token's payload (R133). -/
def digitWord (last : Bool) (pos width exp : Nat) (digits : List Nat) : W128 :=
  BitVec.ofNat 128 (packLanes 3 digits + exp * 2 ^ 96 + width * 2 ^ 104 + pos * 2 ^ 106 + (if last then 2 ^ 109 else 0))

def dLast (x : W128) : Bool := bit x 109
def dPos (x : W128) : Nat := fld x 108 106
def dWidth (x : W128) : Nat := fld x 105 104
def dExp (x : W128) : Nat := fld x 103 96
def dDigit (x : W128) (k : Nat) : Nat := laneNat 3 x k

/-- The digits of elements first to first + n - 1, if every code is one of R131. -/
def digitsAt (x : W128) (first n : Nat) : Option (List Int) :=
  ((List.range n).map fun k => digitOf (dDigit x (first + k))).foldr
    (fun d acc => match d, acc with | some a, some l => some (a :: l) | _, _ => none) (some [])

/-- Every code of a digit token is one of R131. -/
def digitsOk (x : W128) : Bool := (digitsAt x 0 32).isSome

/-- The weight of a position (R134): 4^(D-1-pos), none beyond the last. -/
def digitWeight (x : W128) : Int := ((4 ^ (positions (dWidth x) - 1 - dPos x) : Nat) : Int)

/-- Fault token BLOCK_FORM in place of a result: a reserved code or header (log 21). -/
def digitFault (c : Firing) : Result := .fault c Cause.blockForm 4

/-- DREC's word (R182). -/
def drecResult (f : Slot) (c : Firing) (l : Token) : Result :=
  let width := fld l.val 105 104
  let m := bxBits width
  let q := fld l.val 107 106
  let j := fld f.mode 2 0
  let e := fld l.val 103 96
  if m / 2 ≤ j then digitFault c
  else
    let mants := (List.range 8).map fun k => bxMant l.val k
    let ds := mants.map fun v => digitCode (recode m j (mantOf m v))
    let bad := e != 0xFF && mants.any (excluded m)
    .all { kind := .digit, poison := l.poison,
           val := digitWord (j + 1 == m / 2) j width e (atElems (8 * q) ds) } (raiseIf bad Fl.nv)

/-- DCUT's three cases (R131, R182). A poisoned token that is cut gives a clean null, as any other: the manual does not
say what becomes of its poison (log 79, DESIGN CHOICE). -/
def dcutResult (f : Slot) (c : Firing) (l : Token) : Result :=
  let d := fld f.mode 2 0
  let p := dPos l.val
  if !digitsOk l.val then digitFault c
  else if p + 1 < d then .all l
  else if p + 1 == d then .all { l with val := withBit l.val 109 true }
  else .all nullTok

/-- DADD's sum (R183). -/
def daddResult (c : Firing) (l r : Token) : Result :=
  if dPos l.val != dPos r.val || dWidth l.val != dWidth r.val || dExp l.val != dExp r.val then digitFault c
  else
    match digitsAt l.val 0 32, digitsAt r.val 0 32 with
    | some a, some b =>
      let sums := List.zipWith (· + ·) a b
      let clamp (x : Int) : Int := if x < -2 then -2 else if 2 < x then 2 else x
      .all { kind := .digit, poison := l.poison || r.poison,
             val := digitWord (dLast l.val || dLast r.val) (dPos l.val) (dWidth l.val) (dExp l.val)
               (sums.map fun x => digitCode (clamp x)) }
        (raiseIf (sums.any fun x => clamp x != x) Fl.nv)
    | _, _ => digitFault c

/-- A null where another operand stands is a missing digit (R182, R183): the firing with `t` in its place. Beside an
end-of-run token it still counts as a digit, so that the firing mixes the two and gives the fault of R41 (log 79, DESIGN
CHOICE). -/
def Firing.missing (c : Firing) (right : Bool) (t : Token) : Firing :=
  if right then (if (c.r.map (·.isNull)).getD false then { c with r := some t } else c)
  else if (c.l.map (·.isNull)).getD false then { c with l := some t } else c

/-- A firing run with its missing digit filled in. -/
def State.fillDigit (s : State) (right : Bool) (t : Token) (run : State → State) : State :=
  { run { s with cur := s.cur.missing right t } with cur := s.cur }

/-- All digits zero, at position 0 of the narrowest width. -/
def zeroDigit : Token := { kind := .digit }

/-- DREC (R182). -/
def execDrec (f : Slot) (s : State) : Host.Outcome State Fault Refusal :=
  .next (fireResult (formOf (.drec f)) f kData kData s fun l _ => drecResult f s.cur l)

/-- DCUT (R182). -/
def execDcut (f : Slot) (s : State) : Host.Outcome State Fault Refusal :=
  .next (fireResult (formOf (.dcut f)) f kDigit kData s fun l _ => dcutResult f s.cur l)

/-- A digit token that passes unchanged, if its codes are digits (R131). -/
def passDigit (c : Firing) (k : Token) : Result := if digitsOk k.val then .all k else digitFault c

/-- DADD (R183): a null on one side passes the other digit token unchanged. Its digits are zeros beside whatever else the other
side has: an end-of-run there gives the fault of R41 (log 79, DESIGN CHOICE). -/
def execDadd (f : Slot) (s : State) : Host.Outcome State Fault Refusal :=
  let null (k : Option Token) : Bool := (k.map (·.isNull)).getD false
  let lNull := null s.cur.l && !null s.cur.r
  let rNull := null s.cur.r && !null s.cur.l
  .next (
    if lNull then
      s.fillDigit false zeroDigit fun s' => fireResult (formOf (.dadd f)) f kDigit kDigit s' fun _ r => passDigit s.cur r
    else if rNull then
      s.fillDigit true zeroDigit fun s' => fireResult (formOf (.dadd f)) f kDigit kDigit s' fun l _ => passDigit s.cur l
    else fireResult (formOf (.dadd f)) f kDigit kDigit s (daddResult s.cur))

/-- DMUL (R183): a null L gives the zero word. -/
def execDmul (f : Slot) (s : State) : Host.Outcome State Fault Refusal :=
  .next (s.fillDigit false zeroDigit fun s' => fireResult (formOf (.dmul f)) f kDigit kData s' fun l r =>
    match digitsOk l.val, digitsAt l.val (4 * fld f.mode 2 0) 4 with
    | false, _ | _, none => digitFault s.cur
    | true, some ds =>
      .all (dataTok (wordOf .i32 (List.zipWith (fun d x => Ty.i32.wrap (d * digitWeight l.val * Ty.i32.int x)) ds
        (lanesOf .i32 r.val))) (l.poison || r.poison)))

/-- DVAL (R183): a null R gives L. -/
def execDval (f : Slot) (s : State) : Host.Outcome State Fault Refusal :=
  .next (s.fillDigit true zeroDigit fun s' => fireResult (formOf (.dval f)) f kData kDigit s' fun l r =>
    match digitsOk r.val, digitsAt r.val (8 * fld f.mode 1 0) 8 with
    | false, _ | _, none => digitFault s.cur
    | true, some ds =>
      .all (dataTok (wordOf .i16 (List.zipWith (fun x d => Ty.i16.wrap (Ty.i16.int x + d * digitWeight r.val))
        (lanesOf .i16 l.val) ds)) (l.poison || r.poison)))

end Sys2Proof.Machine
end

