-- ==== Sys2Proof/Machine/HomeSteps.lean ====
section
/-! DEFINITION. Accesses performed at their homes (R224-R231, R246-R249, R278-R290), what a write does to the loads
deferred on its word (R225), requests from other packages (R237, R392), and walks (R239). -/

namespace Sys2Proof.Machine

/-! ### Writes and their faults -/

/-- Against whom a write's faults are raised: its tile, context, address, block and iteration. -/
structure Writer where
  tile : TileId
  ctx : CtxId
  va : VA := 0
  block : VA := 0
  iter : Nat := 0
  op : Option Nat := none
  /-- The residency, when the write may outlive its stay on the tile. -/
  res : Option Nat := none
  /-- The VI, of a write for another package. -/
  vi : Option (Fin 64) := none

/-- A deferred trap for a context of a residency that has left its tile: it waits with the saved context, or names
neither context nor residency (R413, R429). -/
def Pack.deferGone (p : Pack) (r : Nat) (t : TileId) (c : CtxId) (cause sub : Byte) (va block : VA) (itb : BitVec 48) : Pack :=
  match p.resid? r with
  | none => p
  | some x =>
    let f : FaultRec := { vi := x.vi, die := t.die, cause := cause, sub := sub, va := va, block := block, itb := itb, cls := 2 }
    if x.st == .ended then p.note { fr := { f with kind := 2 } }
    else
      let lvl := ((x.saved[x.number t]?).map fun y => (y.ctx c).cur.lvl).getD x.lvl
      p.note { ctx := some (t, c), res := some r, fr := { f with rh := x.handle, ctx := c, lvl := lvl, tx := BitVec.ofNat 3 (x.relX t), ty := BitVec.ofNat 3 (x.relY t) } }

def Pack.deferRes (p : Pack) (r : Option Nat) (t : TileId) (c : CtxId) (cause sub : Byte) (va block : VA) (itb : BitVec 48) : Pack :=
  match r with
  | some k => if (p.tile t).res == some k then p.defer t c cause sub va block itb else p.deferGone k t c cause sub va block itb
  | none => p.defer t c cause sub va block itb

def Writer.defer (w : Writer) (p : Pack) (cause sub : Byte) : Pack :=
  p.deferRes w.res w.tile w.ctx cause sub w.va w.block (BitVec.ofNat 48 w.iter)

/-- What the read part of a write met is recorded (R230, R231). -/
def Pack.noteWrite (p : Pack) (t : TileId) (vi : Fin 64) (pl : Place) (e : Ecc) : Pack :=
  match pl with
  | .home d off _ _ => p.noteRead vi (memIndex d off) e
  | .scratch .. => if e == .found then p.softError t.die vi 3 else p
  | _ => p

/-- The faults of a write (R227, R230, R231). -/
def Wrote.report (r : Wrote) (w : Writer) (p : Pack) : Pack :=
  let p1 := if r.dropped then w.defer p Cause.writeOnce 0 else p
  match r.ecc with
  | some k => w.defer p1 Cause.eccDeferred k
  | none => p1

/-! ### The end of an access -/

def Pack.dropAcc (p : Pack) (id : Nat) : Pack := { p with accs := p.accs.filter fun a => a.id != id }

def State.dropAcc (s : State) (id : Nat) : State := { s with pk := s.pk.dropAcc id }

def Pack.modAcc (p : Pack) (id : Nat) (f : Access → Access) : Pack := { p with accs := modifyFirst (fun a => a.id == id) f p.accs }

def Access.writer (a : Access) : Writer :=
  let o := a.owner.getD (a.tile, a.res)
  { tile := o.1, ctx := a.work.ctx, va := a.va, block := a.block, iter := a.iter, op := a.op, res := o.2, vi := a.vi }

/-- The VI that an access is for. -/
def Access.viIn (a : Access) (p : Pack) : Fin 64 := a.vi.getD (p.tileVi a.tile)

/-- Writes of an engine operation that are not yet performed (R260). -/
def Pack.opAccs (p : Pack) (id : Nat) : Bool := p.accs.any fun a => a.op == some id && !a.isLoad

def Pack.answer (p : Pack) (m : Fin 16) (id : Nat) (r : RemoteAnswer) : Pack := { p with outgoing := p.outgoing ++ [.reply m id r] }

/-- Tokens for a load's targets, if its work still runs. -/
def Tile.loadTokens (t : Tile) (a : Access) (x y : Token) : Tile :=
  if t.alive a.work then (t.send a.elem a.work a.t0 x).send a.elem a.work a.t1 y else t

/-- A load is done: its tokens leave, an engine operation holds its element, or the reply goes to the package that asked. -/
def State.deliverLoad (s : State) (a : Access) (x y : Token) : State :=
  let s1 := s.dropAcc a.id
  match a.origin, a.op with
  | some (m, id), _ => { s1 with pk := s1.pk.answer m id (.data (x.val.extractLsb' 0 64) x.poison) }
  | none, some id => { s1 with pk := s1.pk.modTile a.tile (·.modStream id (a.elem == 1) fun o => { o with held := o.held ++ [(a.lsid, x)] }) }
  | none, none => { s1 with pk := s1.pk.modTile a.tile (·.loadTokens a x y) }

/-- What an acquire brings besides the releases it has heard: ACCRD joins the operations on its accumulator (R262); of another
package the releases are not known here, and everything performed so far stands for them (log 82). -/
def Pack.beyond (p : Pack) (a : Access) : Floor :=
  match a.place with
  | .remote _ => .all p.hist.writes
  | .acc b _ => (alookup b.val (p.tile a.tile).accFloors).getD {}
  | _ => {}

/-- An acquire of a program forgets the lines of its tile's block cache (R304), and what follows it sees more. -/
def Pack.acquire (p : Pack) (a : Access) : Pack :=
  if a.isAcquire && a.ofProgram then (p.learn a { floor := p.beyond a }).modTile a.tile Tile.forgetLines else p

/-- A load returns. -/
def State.finishLoad (s : State) (a : Access) (x y : Token) : State :=
  let s1 := s.deliverLoad a x y
  { s1 with pk := s1.pk.acquire a }

/-- A load's fault token (R42, R243). -/
def State.faultLoad (s : State) (a : Access) (e : XErr) : State :=
  match a.origin with
  | some (m, id) => let s1 := s.dropAcc a.id; { s1 with pk := s1.pk.answer m id (.fault e.cause e.sub) }
  | none => let k := faultTok e.cause e.sub a.elem a.va; s.deliverLoad a k k

/-- A load whose words all stand in `got`, some of them put there by the writes that filled them. Poison of storage leaves
the value open. -/
def State.returnLoad (s : State) (a : Access) : State :=
  let word (k : Nat) : W64 × Bool := match a.got.find? fun g => g.1 == k with | some g => g.2 | none => (0, false)
  let ws := (wordOffsets a.n).map word
  let poison := ws.any (·.2)
  let bs := (ws.flatMap fun w => natToBytes 8 w.1.toNat).take a.n
  let v := if poison && (match a.place with | .acc .. => false | _ => true) then Config.freeValue s.freeCount else placeLoad a.ty a.v bs
  let s0 := { s with pk := s.pk.hear a a.heard }
  let s1 := if poison then { s0 with freeCount := s0.freeCount + 1 } else s0
  s1.finishLoad a (dataTok v poison) (if a.kind == AccKind.ldpq then predTok true else dataTok v poison)

/-! ### Loads (R225, R278, R281) -/

/-- Stores of the context's table that give a byte of the access. -/
def Tile.overlapping (t : Tile) (a : Access) : List Access :=
  match a.base with
  | none => []
  | some (sp, b) => (t.forwardTable a).filter fun x => (List.range a.n).any fun k => (x.byteAt sp (b + k)).isSome

/-- Piece k of a load as it reads it in a state of its word. -/
def State.readIn (s : State) (a : Access) (k : Nat) (old : Option PastState) : Access :=
  { a with got := a.got ++ [s.readWord a k old], heard := joinHeard a.heard (s.heardBy a k old) }

/-- A word of a load is read, in one of the states that its agent may see. -/
def State.readOne (s : State) (a : Access) (k : Nat) : State × Access :=
  let c := s.whichState a k true
  (c.2, c.2.readIn a k c.1)

/-- An error that a read of some pieces meets is corrected, or found (R229, R231). -/
def State.settled (s : State) (a : Access) (ks : List Nat) : State :=
  let vi := a.viIn s.pk
  s.stored (ks.foldl (fun (x : Memory × Pack) k => settlePlace x.1 x.2 a.tile vi (a.place.shift k) a.wordLen) (s.mem, s.pk))

/-- Words of a load are read now. -/
def State.takeWords (s : State) (a : Access) (ks : List Nat) : State × Access :=
  let r := ks.foldl (fun (x : State × Access) k => x.1.readOne x.2 k) (s.settled a ks, a)
  ({ r.1 with pk := r.1.pk.modAcc a.id fun _ => r.2 }, r.2)

/-- The deferred-read table that a word's home keeps: a die's controller or a bank of the scratchpad. -/
def Access.table (a : Access) : Nat × Nat :=
  match a.place with
  | .scratch off _ => (1 + 64 * a.tile.die.val + a.tile.n.val, off / 16 % 32)
  | .home d _ _ _ => (0, d.val)
  | _ => (0, 8)

def Pack.tableFull (p : Pack) (a : Access) : Bool :=
  let n := (p.accs.filter fun b => b.st == .deferred && b.table == a.table).length
  match a.place with
  | .scratch .. => 64 ≤ n
  | _ => 1024 ≤ n

def State.setAccSt (s : State) (id : Nat) (st : AccSt) : State := { s with pk := s.pk.modAcc id fun a => { a with st := st } }

/-- Pieces of a load are read, and it returns when none is left. -/
def State.takeMore (s : State) (a : Access) (ks : List Nat) : State :=
  let r := s.takeWords a ks
  if r.2.missing.isEmpty then r.1.returnLoad r.2 else r.1

/-- One of several: which is open (R246). -/
def State.pick (s : State) (ks : List Nat) : Nat × State :=
  (ks.getD (Config.choice s.freeCount % ks.length) 0, { s with freeCount := s.freeCount + 1 })

/-- LDPQ found a word empty: it forms no edge (R281). -/
def State.finishMissing (s : State) (a : Access) : State :=
  match a.origin with
  | some (m, id) => let s1 := s.dropAcc a.id; { s1 with pk := s1.pk.answer m id .missing }
  | none => s.deliverLoad a nullTok (predTok false)

/-- A load of the scratchpad is one event; one of package memory reads one word (R246). -/
def State.loadPieces (s : State) (a : Access) (ks : List Nat) : State :=
  if a.place.isS then s.takeMore a ks
  else let r := s.pick ks; r.2.takeMore a [r.1]

/-- A P load that has found a word empty waits at its home, or is sent back where the table is full (R225). -/
def State.deferLoad (s : State) (a : Access) : State :=
  if a.st == .deferred then s
  else if !s.pk.tableFull a then s.setAccSt a.id .deferred
  else match a.origin with
    | some (m, id) => let s1 := s.dropAcc a.id; { s1 with pk := s1.pk.answer m id .retry }
    | none => s.setAccSt a.id (.retry 0)

/-- A load has read a piece, which may be its last. -/
def State.tookPiece (s : State) (a : Access) : State :=
  if a.missing.isEmpty then s.returnLoad a else { s with pk := s.pk.modAcc a.id fun _ => a }

/-- A P load: each word is read in a full state; one that it finds empty defers it (R225), or ends an LDPQ (R281). The
scratchpad's words are read at one instant; one of package memory is read in a state that the load may see, and a load that
is deferred already reads the words that stand full. -/
def State.loadP (s0 : State) (a : Access) : State :=
  let s := s0.settled a a.missing
  let full := a.missing.filter fun k => placeFull s.mem s.pk a.tile (a.place.shift k) a.wordLen
  let none_ (s : State) : State := if a.kind == AccKind.ldpq then s.finishMissing a else s.deferLoad a
  if a.place.isS then (if full == a.missing then s.takeMore a full else none_ s)
  else
    let r := s.pick (if a.st == .deferred then full else a.missing)
    if a.st == .deferred && full.isEmpty then s
    else
      let c := r.2.whichState a r.1 true
      let isFull : Bool := match c.1 with | some x => x.full | none => full.contains r.1
      if isFull then c.2.tookPiece (c.2.readIn a r.1 c.1) else none_ c.2

/-! ### Requests to other packages (R237) -/

/-- The bytes that the forwarding table gives a load to another package (R60). -/
def State.forwarded (s : State) (a : Access) : List (Nat × Byte) :=
  match a.base with
  | some (sp, b) =>
    let ts := (s.pk.tile a.tile).forwardTable a
    if a.work.stream || a.onP then []
    else (List.range a.n).filterMap fun j => (firstSome (fun x : Access => x.byteAt sp (b + j)) ts).map fun v => (j, v)
  | none => []

/-- What an access asks of another package, by its identity (R237). -/
def Access.request (a : Access) : Option RemoteReq :=
  let addr : BitVec 72 := a.va.setWidth 72
  let w := 8 * elemBytes a.ty
  match a.kind with
  | .ld | .lda _ => some (.load a.lvl addr a.n a.id)
  | .ldpq => some (.ldpq a.lvl addr a.id)
  | .st | .stl _ => some (.store a.lvl addr (natToBytes a.n a.data.toNat) a.poison a.id)
  | .empty => some (.empty a.lvl addr a.id)
  | .amo op _ _ => some (.atomic a.lvl addr a.ty op (a.data.setWidth 64) a.id)
  | .cas _ _ => some (.cas a.lvl addr a.ty (BitVec.ofNat 64 (a.data.toNat % 2 ^ w)) (BitVec.ofNat 64 (a.data.toNat / 2 ^ w % 2 ^ w)) a.id)
  | _ => none

/-- An access leaves for its package, under the VI's plain-wide number. -/
def State.sendOut (s : State) (a : Access) (m : Fin 16) : State :=
  let b := { a with st := .remote a.age, fwd := if a.isLoad then s.forwarded a else [] }
  let p := s.pk.modAcc a.id fun _ => b
  match a.request with
  | some q => { s with pk := { p with outgoing := p.outgoing ++ [.access m (s.pk.vi (a.viIn s.pk)).pvi q] } }
  | none => { s with pk := p }

/-- Engine operations that an ACCRD waits for (R196) are in flight. -/
def Tile.accBusy (t : Tile) (a : Fin 4) (id : Nat) : Bool := t.matrixQ.any fun o => o.id < id && o.cmd.names a

/-- The newest value of an accumulator word: the forwarding table, the write buffer, the tile (R196). -/
def State.readAcc (s : State) (b : Access) (a : Fin 4) (k : Nat) : W128 × Bool :=
  let t := s.pk.tile b.tile
  match firstSome (fun x : Access => if x.place == .acc a k then some x.data else none) (t.forwardTable b) with
  | some v => (v, false)
  | none =>
    match t.accBuf.reverse.find? fun w => w.a == a && w.index == k with
    | some w => (w.v, false)
    | none => (sget 0 t.acc (a.val * 16384 + k), sget false t.accPoison (a.val * 16384 + k))

/-- A load in its turn. -/
def State.loadStep (s : State) (a : Access) : State :=
  match a.place with
  | .none => s.dropAcc a.id
  | .acc t k =>
    if (s.pk.tile a.tile).accBusy t a.id then s
    else
      let v := s.readAcc a t k
      s.finishLoad a (dataTok v.1 v.2) (dataTok v.1 v.2)
  | pl =>
    match if a.onP && !a.work.stream && a.origin.isNone then (s.pk.tile a.tile).overlapping a else [] with
    | x :: xs => if (x :: xs).any fun x => x.work.n == a.work.n then s.faultLoad a ⟨Cause.blockForm, 8⟩ else s
    | [] =>
      match pl with
      | .remote m => s.sendOut a m
      | _ => if pl.isP then s.loadP a else s.loadPieces a a.missing

/-! ### Stores (R227, R230, R246) -/

/-- The store is done: one of another package is answered, with what went wrong; of the data of a send only that is told
here. -/
def State.finishStore (s : State) (a : Access) (r : Wrote) : State :=
  let s1 := s.dropAcc a.id
  match a.origin with
  | none => { s1 with pk := (r.report a.writer s1.pk).modTile a.writer.tile (·.storeLine a.va a.n) }
  | some (m, id) =>
    let bad : Option RemoteAnswer := if r.dropped then some (.fault Cause.writeOnce 0) else r.ecc.map fun k => .fault Cause.eccDeferred k
    match bad with
    | some x => { s1 with pk := s1.pk.answer m id x }
    | none => if a.op.isSome then s1 else { s1 with pk := s1.pk.answer m id .ack }

/-- What the pieces of a store that are done came to. -/
def Access.outcome (a : Access) : Wrote :=
  { dropped := a.got.any fun g => g.2.2
    ecc := firstSome (fun g : Nat × W64 × Bool => if g.2.1 == 0 then none else some (g.2.1.extractLsb' 0 8)) a.got }

/-- The words of a place of n bytes that a P write drops, for they are full (R227), by their offsets. -/
def fullWords (m : Memory) (p : Pack) (t : TileId) (pl : Place) (n : Nat) : List Nat :=
  if pl.isP then (wordOffsets n).filter fun k => placeFull m p t (pl.shift k) (min n 8) else []

/-- Bytes of a store reach storage: poison in their place where the data is poisoned (R311). A poisoned write of two words of a
granule, one of which is full, is dropped whole, for the poison would be that word's too (log 80, DESIGN CHOICE). -/
def Access.write (a : Access) (m : Memory) (p : Pack) (pl : Place) (bs : List Byte) : Memory × Pack × Wrote :=
  if a.kind == .empty then let r := emptyPlace m p a.tile pl bs.length; (r.1, r.2, {})
  else if a.poison then
    if (fullWords m p a.tile pl bs.length).isEmpty then
      let r := poisonPlace m p a.tile pl bs.length
      (r.1, r.2, {})
    else (m, p, { dropped := true })
  else writePlace m p a.tile pl bs

/-- A write takes its place in the coherence order: each word of it that is not dropped. -/
def State.recorded (s : State) (a : Access) (pl : Place) (n : Nat) (p : Pack) : Pack :=
  match if a.kind == .empty then [] else fullWords s.mem s.pk a.tile pl n with
  | [] => p.record s.mem a pl n
  | full =>
    if a.poison then p
    else ((wordOffsets n).filter fun k => !full.contains k).foldl (fun p k => p.record s.mem a (pl.shift k) (min n 8)) p

/-- A store's bytes are written at a place, and what the write met is recorded. A P write reads the presence of its words, and
so finds an error there (R229). -/
def State.writeAt (s0 : State) (a : Access) (pl : Place) (bs : List Byte) : State × Wrote :=
  let s := if pl.isP then s0.stored (settlePlace s0.mem s0.pk a.tile (a.viIn s0.pk) pl bs.length) else s0
  let r := a.write s.mem s.pk pl bs
  let s1 := s.stored (r.1, s.recorded a pl bs.length r.2.1)
  ({ s1 with pk := s1.pk.noteWrite a.tile (a.viIn s.pk) pl r.2.2.read }, r.2.2)

/-- One piece of a store, and its end with the last. -/
def State.storePiece (s : State) (a : Access) (k : Nat) : State :=
  let r := s.writeAt a (a.place.shift k) ((a.bytes.drop k).take a.wordLen)
  let b := { a with got := a.got ++ [(k, BitVec.ofNat 64 ((r.2.ecc.map (·.toNat)).getD 0), r.2.dropped)] }
  if b.missing.isEmpty then r.1.finishStore b b.outcome else { r.1 with pk := r.1.pk.modAcc a.id fun _ => b }

/-- The whole of a store at one instant: an S access of a program, a 16-byte write that covers a poisoned granule of an M
mapping (R230, R246), and one of poison, which is a granule's (R311). -/
def State.storeWhole (s : State) (a : Access) : State :=
  let r := s.writeAt a a.place a.bytes
  r.1.finishStore a (a.outcome.join r.2)

def State.storeStep (s : State) (a : Access) : State :=
  match a.place with
  | .remote m => s.sendOut a m
  | .acc b w =>
    let s1 := s.dropAcc a.id
    { s1 with pk := s1.pk.modTile a.tile fun x => { x with accBuf := x.accBuf ++ [{ id := a.id, a := b, index := w, v := a.data }] } }
  | .none => s.dropAcc a.id
  | pl =>
    let covers := !pl.isS && !pl.isP && a.n == 16 && !a.poison && placeBad s.mem s.pk a.tile pl a.n
    let granule := !pl.isS && a.n == 16 && a.poison
    if a.kind != .empty && (covers || granule || (pl.isS && a.op.isNone)) then s.storeWhole a
    else let r := s.pick a.missing; r.2.storePiece a r.1

/-! ### Atomics (R286-R290) -/

/-- The new value of AMO. -/
def amoValue (ty : Ty) (op : AtomOp) (old v : Nat) : Nat :=
  match op with
  | .add => if ty == .f32 then (faddLane .f32 .rne old v).1 else ty.wrap (ty.int old + ty.int v)
  | .and_ => old &&& v
  | .or_ => old ||| v
  | .xor_ => old ^^^ v
  | .min => if ty == .f32 then (fminmax ty.fmt false old v).1 else ty.wrap (min (ty.int old) (ty.int v))
  | .max => if ty == .f32 then (fminmax ty.fmt true old v).1 else ty.wrap (max (ty.int old) (ty.int v))
  | .swap => v

/-- The new value, if one is written, and the reply. -/
def atomicResult (a : Access) (old : Nat) : Option Nat × W128 :=
  let w := 8 * a.n
  match a.kind with
  | .cas .. =>
    let hit := old == laneNat w a.data 0
    (if hit then some (laneNat w a.data 1) else none, ofLanes w [old, if hit then 2 ^ w - 1 else 0])
  | .amo op _ _ => (some (amoValue a.ty op old (laneNat w a.data 0)), ofLanes w [old])
  | _ => (none, 0)

/-- A reply fills the registers that wait for it, wherever their context stands (R288). -/
def CtxImage.fill (c : CtxImage) (id : Nat) (v : W128) (poison : Bool) : CtxImage :=
  { (c.pend.filter fun x => x.2 == id).foldl (fun c x => c.setG x.1 v poison) c with pend := c.pend.filter fun x => x.2 != id }

def Ctx.fill (x : Ctx) (id : Nat) (v : W128) (poison : Bool) : Ctx :=
  { x with cur := x.cur.fill id v poison, trapped := x.trapped.map fun y => (y.1.fill id v poison, y.2) }

def Tile.fill (t : Tile) (id : Nat) (v : W128) (poison : Bool) : Tile := { t with ctxs := t.ctxs.map fun (x : Ctx) => x.fill id v poison }

def Pack.fill (p : Pack) (t : TileId) (c : CtxId) (id : Nat) (v : W128) (poison : Bool) : Pack :=
  let p1 := p.modTile t fun x => x.fill id v poison
  let p2 := { p1 with resids := p1.resids.map fun (r : Resid) => { r with saved := r.saved.map fun (x : Tile) => x.fill id v poison } }
  p2.resolveReads t c

/-- An atomic returns. -/
def State.finishAtomic (s : State) (a : Access) (v : W128) (poison : Bool) : State :=
  let s1 := s.dropAcc a.id
  match a.origin with
  | some (m, id) => { s1 with pk := s1.pk.answer m id (.data (v.extractLsb' 0 64) poison) }
  | none =>
    let p := (s1.pk.fill a.tile a.work.ctx a.id v poison).modTile a.tile (·.storeLine a.va a.n)
    { s1 with pk := if a.kind.isSeq && (p.tile a.tile).res == a.res then p.joined a.tile a.work a.lsid a.floor else p }

/-- An atomic at its home: one read-modify-write; a poisoned granule keeps its poison (R290). -/
def State.atomicHere (s : State) (a : Access) : State :=
  let s1 := s.stored (settlePlace s.mem s.pk a.tile (a.viIn s.pk) a.place a.n)
  if placeBad s1.mem s1.pk a.tile a.place a.n then
    let sub := match a.place with | .home d off _ _ => eccSub (memIndex d off) | _ => 3
    match a.origin with
    | some (m, id) => let s2 := s1.dropAcc a.id; { s2 with pk := s2.pk.answer m id (.fault Cause.eccDeferred sub) }
    | none =>
      State.finishAtomic { s1 with pk := a.writer.defer s1.pk Cause.eccDeferred sub, freeCount := s1.freeCount + 1 } a
        (Config.freeValue s1.freeCount) true
  else
    let r := atomicResult a (bytesToNat (readPlace s1.mem s1.pk a.tile a.place a.n))
    let heard := s1.pk.hear a (s1.pk.readsFrom a 0 a.n none)
    match r.1 with
    | some v =>
      let w := writePlace s1.mem heard a.tile a.place (natToBytes a.n v)
      (s1.stored (w.1, w.2.1.record s1.mem a a.place a.n)).finishAtomic a r.2 false
    | none => { s1 with pk := heard }.finishAtomic a r.2 false

def Access.sequenced (a : Access) : Bool := a.origin.isNone && a.kind.isSeq

def State.atomicStep (s : State) (a : Access) : State :=
  if a.sequenced then
    if s.pk.seqRoom a.tile.die a.seqPlain then
      let s1 := s.setAccSt a.id .sent
      { s1 with pk := s1.pk.enqueueSeq a.tile.die a.seqPlain a.id (.atomic a) }
    else s
  else match a.place with
    | .remote m => s.sendOut a m
    | .home .. => s.atomicHere a
    | _ => s.dropAcc a.id

/-! ### Accumulating sends (R246, R314) -/

/-- One lane of an accumulating send (R314). -/
def accLane (ty : Ty) (op : BitVec 3) (old v : Nat) : Nat :=
  match op.toNat with
  | 1 => if ty.isFloat then (faddLane ty .rne old v).1 else ty.wrap (ty.int old + ty.int v)
  | 2 => if ty.isFloat then (fminmax ty.fmt false old v).1 else ty.wrap (min (ty.int old) (ty.int v))
  | 3 => if ty.isFloat then (fminmax ty.fmt true old v).1 else ty.wrap (max (ty.int old) (ty.int v))
  | _ => v

/-- The bytes of elements of a type after an accumulation. -/
def accumulate (op : BitVec 3) (code : BitVec 4) (old new : List Byte) : List Byte :=
  let ty := (Ty.ofCode code).getD .i32
  let lanes (bs : List Byte) : List Nat := lanesOf ty (BitVec.ofNat 128 (bytesToNat bs))
  natToBytes old.length (wordOf ty (List.zipWith (accLane ty op) (lanes old) (lanes new))).toNat

/-- One event of an accumulating send. Poison in either operand stays. -/
def State.accumStep (s : State) (a : Access) (op : BitVec 3) (code : BitVec 4) : State :=
  let s1 := s.stored (settlePlace s.mem s.pk a.tile (a.viIn s.pk) a.place a.n)
  let b := { a with poison := a.poison || placeBad s1.mem s1.pk a.tile a.place a.n }
  let r := s1.writeAt b a.place (accumulate op code (readPlace s1.mem s1.pk a.tile a.place a.n) a.bytes)
  r.1.finishStore a r.2

/-! ### Events that touch no storage -/

/-- TRIG (R375): the first of a residency marks it, with what it brings a WAITDEP, and every die is told. -/
def Pack.trigger (p : Pack) (t : TileId) (fl : Floor) : Pack :=
  match p.resOf t with
  | some (r, x) =>
    if x.triggered then p
    else allDies.foldl (fun p d => p.modDie d fun y => { y with notices := y.notices ++ [r] }) (p.modResid r fun y => { y with triggered := true, told := y.told.join fl })
  | none => p

/-- A launch record enters its die's store (R371, R372). -/
def Pack.storeLaunch (p : Pack) (t : TileId) (ticket : W32) (desc : BitVec 1024) (deps : List W64) : Pack :=
  match p.resOf t with
  | some (_, x) =>
    match p.swarmOf x with
    | none => p
    | some w =>
      let r : LaunchRec :=
        { desc := desc, ticket := ticket, vi := x.vi, queue := BitVec.ofNat 14 (w.queue - (p.vi x.vi).qbase), cls := w.cls,
          prio := w.prio, die := t.die, parent := x.swarm, deps := deps }
      p.modDie t.die fun d => { d with launches := d.launches ++ [r], launchHeld := d.launchHeld - 1 }
  | none => p

/-- Contexts created by SPAWN ask for their block, and what happens-before the SPAWN happens-before all they do (R366). -/
def Tile.startSpawned (t : Tile) (c : CtxId) (mask : BitVec 32) (fl : Floor) : Tile :=
  (setBits mask).foldl (fun t j =>
    t.modCtx (Fin.ofNat 32 j) fun x =>
      if x.st == .live && x.parent == some c then { x with req := some { va := x.cur.pc }, track := x.track.gain fl } else x) t

/-- The record of a TQPUT brings its taker what happens-before the put (R381). -/
def Tile.putDone (t : Tile) (put : Nat) (fl : Floor) : Tile :=
  { t with tasks := t.tasks.map fun e => if e.put == put then { e with floor := fl } else e }

/-- A fence, message or publication in its turn. -/
def State.eventStep (s : State) (a : Access) : State :=
  let done (p : Pack) : State := { s with pk := p.dropAcc a.id }
  let fl := s.pk.floorOf a
  match a.kind with
  | .fence _ sc =>
    let seen : View := ((s.pk.track? a).map fun x => x.at_ a.work.n a.lsid).getD {}
    let p := s.pk.learn a (seen.fence a.kind.acqFence a.kind.relFence sc a.tile)
    done (if a.kind.acqFence then p.modTile a.tile Tile.forgetLines else p)
  | .seqf plain =>
    if a.st == .sent then (if s.pk.unsent a.id || s.pk.atomicsDue plain a.id then s else done (s.pk.joined a.tile a.work a.lsid a.floor))
    else if s.pk.seqRoom a.tile.die plain then
      let s1 := s.setAccSt a.id .sent
      { s1 with pk := s1.pk.enqueueSeq a.tile.die plain a.id .fence }
    else s
  | .arrive b _ => if s.pk.barRoom a.tile b then done (s.pk.barArr a.tile a.work.ctx b a.id fl) else s
  | .trig => done (s.pk.trigger a.tile fl)
  | .launch ticket desc deps => done (s.pk.storeLaunch a.tile ticket desc deps)
  | .tqput _ => done (s.pk.modTile a.tile (·.putDone a.id fl))
  | .spawned mask => done (s.pk.modTile a.tile (·.startSpawned a.work.ctx mask fl))
  | .hrel h => done (s.pk.modTile a.tile (·.modHandle h fun x => { x with st := .free, bytes := 0, floor := fl }))
  | .landed h =>
    if s.pk.accs.any fun b => b.op == a.op && b.id != a.id then s
    else
      (match ((s.pk.tile a.tile).handles.get h).far with
        | none => done s.pk
        | some f => done ((s.pk.modTile a.tile (·.modHandle h fun y =>
            { y with bytes := f.bytes, st := .full, far := none, floor := .all s.pk.hist.writes })).answer f.member f.reply .ack))
  | _ => s

/-! ### Meanings -/

/-- HOME_ACCESS (R224, R249): an access of an agent is performed when its order allows. -/
def execHomeAccess (id : Nat) (s : State) : Host.Outcome State Fault Refusal :=
  match s.pk.accs.find? fun a => a.id == id with
  | none => .next s
  | some a =>
    match a.st with
    | .remote _ | .retry _ | .done => .next s
    | .sent => .next (s.eventStep a)
    | .deferred => .next (if a.missing.isEmpty then s.returnLoad a else s.loadStep a)
    | .waiting =>
      if (s.pk.tile a.tile).scoreHolds a && a.ofProgram then .next s
      else match a.kind with
        | .ld | .lda _ | .ldpq => .next (if a.missing.isEmpty then s.returnLoad a else if s.pk.loadReady s.mem a then s.loadStep a else s)
        | .st | .stl _ | .empty => .next (if s.pk.heldByPosted a || s.pk.beatHolds s.mem a then s else s.storeStep a)
        | .accum op ty => .next (s.accumStep a op ty)
        | .amo .. | .cas .. => .next (if s.pk.heldByPosted a then s else s.atomicStep a)
        | _ => .next (if s.pk.heldByPosted a then s else s.eventStep a)

/-- LOAD_RETRY (R225): a load sent back by a full table goes again after 64 cycles. -/
def execLoadRetry (id : Nat) (s : State) : Host.Outcome State Fault Refusal :=
  match s.pk.accs.find? fun a => a.id == id with
  | some a =>
    match a.st with
    | .retry n => .next (if 64 ≤ n then s.setAccSt id .waiting else s)
    | _ => .next s
  | none => .next s

/-- The first entry that a walk reads, or all of a walk that reads no more than one (R246). -/
def WalkNote.first (n : WalkNote) : WalkNote :=
  if n.read.length ≤ 1 then n else { read := n.read.take 1, entries := n.entries.take 1 }

/-- PAGE_WALK (R239): a walk reads the next entry that the die translation cache lacks; the tile's TLB keeps the page. -/
def execPageWalk (t : TileId) (va : VA) (s : State) : Host.Outcome State Fault Refusal :=
  let vi := s.pk.tileVi t
  if (s.pk.tile t).res.isSome then
    .next (s.walked t vi (walk s.mem s.pk t.die vi (va.toNat % 2 ^ 72 / 2 ^ 16)).2.first)
  else .next s

/-- SCRUB_STEP (R231): it reads, corrects and rewrites one word of a bank, which no program sees. -/
def execScrubStep (_t : TileId) (_bank : Fin 32) (s : State) : Host.Outcome State Fault Refusal := .next s

/-! ### Requests from other packages (R237, R392) -/

/-- The enabled VI of a plain-wide number that lets the sender in. -/
def Pack.viOf (p : Pack) (pvi : BitVec 12) (member : Fin 16) : Option (Fin 64) :=
  (List.finRange 64).find? fun v => let x := p.vi v; x.en && x.pvi == pvi && bit x.pmask member.val

/-- A within-package address of a remote request. -/
def localVa (a : BitVec 72) : VA := (0xFF : BitVec 8) ++ a

/-- The die that receives requests of a member: the lowest that a data plain joins to it (log 80). -/
def Pack.receiver (p : Pack) (member : Fin 16) : DieId :=
  (allDies.find? fun d => (List.finRange 11).any fun j => bit ((p.die d).reach.get j) member.val).getD 0

/-- Where a remote request goes, with the checks of R235 at the target under the level it carries (log 37), and what its
translation leaves behind. -/
def remotePlace (m : Memory) (p : Pack) (d : DieId) (vi : Fin 64) (lvl : Bool) (role : Role) (va : VA) (n : Nat) :
    Except XErr Place × WalkNote :=
  let r := translateVi m p d vi va
  match r.1 with
  | .error e => (.error e, r.2)
  | .ok mp =>
    match mp.permits role.need lvl with
    | some e => (.error e, r.2)
    | none =>
      if !role.classOk mp.cls n then (.error (xerr 5 5), r.2)
      else match paPlace mp.pa with
        | some (d, off) => (.ok (.home d off mp.cls mp.scope), r.2)
        | none => (.error (xerr 4 3), r.2)

/-- What a request of another package asks of one address. -/
structure Wanted where
  lvl : Bool
  role : Role
  kind : AccKind
  addr : BitVec 72
  n : Nat
  ty : Ty
  data : W128 := 0
  poison : Bool := false

/-- The type of an access of n bytes. -/
def tyOfBytes (n : Nat) : Ty := if n == 1 then .n8 else if n == 2 then .n16 else if n == 4 then .n32 else if n == 8 then .n64 else .w128

/-- The storage that a request names, with its name for the reply; none for one that names a handle or a queue. -/
def RemoteReq.wanted : RemoteReq → Option (Nat × Wanted)
  | .load lvl addr n reply => some (reply, { lvl := lvl, role := .load, kind := .ld, addr := addr, n := n, ty := tyOfBytes n })
  | .ldpq lvl addr reply => some (reply, { lvl := lvl, role := .ldpq, kind := .ldpq, addr := addr, n := 8, ty := .n64 })
  | .store lvl addr bytes poison reply =>
    some (reply, { lvl := lvl, role := .store, kind := .st, addr := addr, n := bytes.length, ty := tyOfBytes bytes.length,
                   data := BitVec.ofNat 128 (bytesToNat bytes), poison := poison })
  | .empty lvl addr reply => some (reply, { lvl := lvl, role := .empty, kind := .empty, addr := addr, n := 8, ty := .n64 })
  | .atomic lvl addr ty op v reply =>
    some (reply, { lvl := lvl, role := .atomic, kind := .amo op false false, addr := addr, n := elemBytes ty, ty := ty, data := v.setWidth 128 })
  | .cas lvl addr ty cmp new reply =>
    some (reply, { lvl := lvl, role := .atomic, kind := .cas false false, addr := addr, n := elemBytes ty, ty := ty,
                   data := ofLanes (8 * elemBytes ty) [cmp.toNat, new.toNat] })
  | .withdraw _ | .sendData .. | .taskNotice .. => none

/-- A request is an access of no tile's program; its translation is part of its arrival. -/
def State.remoteAccess (s : State) (vi : Fin 64) (member : Fin 16) (reply : Nat) (q : Wanted) : Except XErr Access × State :=
  let d := s.pk.receiver member
  let r := remotePlace s.mem s.pk d vi q.lvl q.role (localVa q.addr) q.n
  let s1 := s.walkedOn d vi r.2
  match r.1 with
  | .error e => (.error e, s1)
  | .ok pl =>
    let h : DieId := match pl with | .home h _ _ _ => h | _ => 0
    (.ok { id := s1.nextId, tile := ⟨h, 0⟩, work := { stream := true }, kind := q.kind, va := localVa q.addr, place := pl, n := q.n,
           ty := q.ty, data := q.data, poison := q.poison, origin := some (member, reply), vi := some vi }, s1)

def State.postRemote (s : State) (vi : Fin 64) (member : Fin 16) (reply : Nat) (q : Wanted) : State :=
  match s.remoteAccess vi member reply q with
  | (.error e, s1) => { s1 with pk := s1.pk.answer member reply (.fault e.cause e.sub) }
  | (.ok a, s1) => s1.post a

/-- What a send's destination comes to: none exists, or a tile, which may be absent for now (R298, R313). -/
inductive Dest where
  | absent
  | later
  | tile (v : TileId)
  deriving DecidableEq, Repr

/-- Tile (x, y) of a swarm's residency on a die. -/
def Pack.destIn (p : Pack) (k : Nat) (die : DieId) (x y : Nat) : Dest :=
  match p.swarms[k]? with
  | none => .absent
  | some w =>
    if !bit (Desc.dies w.desc) die.val || Desc.width w.desc ≤ x || Desc.height w.desc ≤ y then .absent
    else match p.resids.find? fun r => r.swarm == k && r.die == die with
      | none => .later
      | some r =>
        if r.st == .ended then .absent
        else if r.st == .resident || r.st == .saving then .tile (r.tileAt x y) else .later

/-- The swarm of a VI that has a residency in a plain group (R312, R392). -/
def Pack.groupSwarm (p : Pack) (vi : Fin 64) (group : W16) : Option Nat :=
  (p.resids.find? fun r => r.vi == vi && r.st != .ended && ((p.swarmOf r).map fun w => Desc.pgroup w.desc) == some group).map (·.swarm)

/-- Where the traffic of another package for a tile goes; nowhere when the VI has no residency in the group it names
(R392). -/
def Pack.spotDest (p : Pack) (vi : Fin 64) (x : Spot) : Option Dest :=
  (p.groupSwarm vi x.group).map fun k => p.destIn k x.die (x.xy.toNat % 8) (x.xy.toNat / 8)

/-- The events of a unit of 16 bytes that a send writes at an offset of a tile's scratchpad: its words, or the elements it
accumulates into (R246, R314). `base` gives what they have in common. -/
def State.postUnit (s : State) (base : Access) (off : Nat) (bs : List Byte) (op : BitVec 3) (code : BitVec 4) : State :=
  let isP := s.pk.padP base.tile off
  let size := if op == 0 then 16 else if isP then 8 else max 1 (elemBytes ((Ty.ofCode code).getD .i32))
  (List.range (16 / size)).foldl (fun s k =>
    s.post { base with id := s.nextId, kind := if op == 0 then .st else .accum op code, place := .scratch (off + size * k) isP,
                       n := size, ty := tyOfBytes size, data := BitVec.ofNat 128 (bytesToNat ((bs.drop (size * k)).take size)) }) s

/-- The data of a remote send, unit by unit, from unit u on; a unit outside the footprint is not written (R389). -/
def State.postUnits (s : State) (base : Access) (start u : Nat) (bs : List Byte) (op : BitVec 3) (code : BitVec 4) : Nat → State
  | 0 => s
  | k + 1 =>
    let off := start + 16 * u
    (if s.pk.padBreach base.tile off then s else s.postUnit base off (bs.take 16) op code).postUnits base start (u + 1) (bs.drop 16) op code k

/-- The handle that another package's send fills, at the tile that the send names. -/
def Pack.filledBy (p : Pack) (vi : Fin 64) (spot : Spot) (h : Fin 64) (member : Fin 16) (reply : Nat) : Option (TileId × Handle × FarFill) :=
  match p.spotDest vi spot with
  | some (.tile v) =>
    let x := (p.tile v).handles.get h
    x.far.bind fun f => if x.st == .filling && f.member == member && f.reply == reply then some (v, x, f) else none
  | _ => none

/-- Units of a send arrive at the handle reserved for it, each once (R314, R315); the handle is full when all its bytes stand
in it. A unit outside the footprint is a deferred fault of the sender (R237, R389). -/
def State.arriveData (s : State) (vi : Fin 64) (spot : Spot) (h : Fin 64) (member : Fin 16) (offset : Nat) (bytes : List Byte)
    (poison : Bool) (accop : BitVec 3) (acctype : BitVec 4) (reply : Nat) : State :=
  let u := offset / 16
  let n := bytes.length / 16
  let us := (List.range n).map (u + ·)
  match s.pk.filledBy vi spot h member reply with
  | none => s
  | some (v, x, f) =>
    if offset % 16 != 0 || bytes.length % 16 != 0 || f.bytes < offset + bytes.length || us.any f.units.contains then s
    else
      let good := us.filter fun k => !s.pk.padBreach v (x.base + 16 * k)
      let all := f.units ++ good
      let base : Access := { id := 0, tile := v, work := { stream := true }, kind := .st, op := some f.op, origin := some (member, reply),
                             vi := some vi, res := (s.pk.tile v).res, poison := poison }
      let s1 := s.postUnits base x.base u bytes accop acctype n
      let s2 := if 16 * all.length < f.bytes then s1 else s1.post { base with id := s1.nextId, kind := .landed h }
      let p := s2.pk.modTile v (·.modHandle h fun y => { y with idle := 0, far := some { f with units := all } })
      { s2 with pk := if good.length < n then p.answer member reply (.fault Cause.prot 8) else p }

/-- A task record of another package waits at its tile's queue for room, and for its residency where that is saved (R82). One
for a tile that its residency does not have is dropped, and its sender told (log 81, DESIGN CHOICE). -/
def State.arriveTask (s : State) (vi : Fin 64) (spot : Spot) (record : BitVec 256) (member : Fin 16) (reply : Nat) : State :=
  let r := s.pk.resids.findIdx? fun x => s.pk.groupSwarm vi spot.group == some x.swarm && x.die == spot.die && x.st != .ended
  match s.pk.spotDest vi spot with
  | none => s
  | some .absent => { s with pk := s.pk.answer member reply .ack }
  | some _ =>
    match r.bind s.pk.resid? with
    | none => s
    | some x =>
      let a : Arrival := { id := s.nextId, tile := x.tileAt (spot.xy.toNat % 8) (spot.xy.toNat / 8), res := r, record := record,
                           reply := some (member, reply) }
      { s with pk := { s.pk with arrivals := s.pk.arrivals ++ [a] }, nextId := s.nextId + 1 }

/-- REMOTE_REQUEST_ARRIVAL (R237, R315, R392): traffic for no enabled VI that admits the sender is dropped. -/
def execRemoteRequestArrival (member : Fin 16) (pvi : BitVec 12) (q : RemoteReq) (s : State) : Host.Outcome State Fault Refusal :=
  match s.pk.viOf pvi member with
  | none => .next s
  | some vi =>
    match q with
    | .withdraw reply =>
      let mine (a : Access) : Bool := a.origin == some (member, reply) && a.vi == some vi && a.isLoad
      .next { s with pk := { s.pk with accs := s.pk.accs.filter fun a => !mine a } }
    | .sendData spot h offset bytes poison acctype accop reply =>
      .next (s.arriveData vi spot h member offset bytes poison accop acctype reply)
    | .taskNotice spot record reply => .next (s.arriveTask vi spot record member reply)
    | q => match RemoteReq.wanted q with
      | some (reply, w) => .next (s.postRemote vi member reply w)
      | none => .next s

end Sys2Proof.Machine
end

