-- ==== Sys2Proof/Machine/Matrix.lean ====
section
/-! DEFINITION. The matrix engine (R189-R205, R209-R214): the layout of operand tiles, the K-step, the drain, the
start of the operations of its queue, and the accumulator write buffer. -/

namespace Sys2Proof.Machine

/-! ### Operand tiles (R193) -/

/-- A mantissa of a packed block (R129): `byte` reads the span. -/
def packedMant (byte : Nat → Nat) (m b k : Nat) : Nat :=
  let a := 4 * m * b + m * k / 8
  (byte a + 256 * byte (a + 1) + 65536 * byte (a + 2)) / 2 ^ (m * k % 8) % 2 ^ m

/-- Where a tile's exponents begin in its span. -/
def expBase (width : BitVec 2) : Nat := if bxSlots width == 1 then 0xC000 else 0x18000

/-- A byte of the span that begins at a slot; no slot follows slot 15. -/
def Tile.spanByte (t : Tile) (slot a : Nat) : Nat :=
  if slot * 65536 + a < 2 ^ 20 then (sget 0 t.om (slot * 65536 + a)).toNat else (Config.outsideSlot (slot * 65536 + a)).toNat

/-- The 8-byte word of operand memory at an offset holds an uncorrectable error or a poisoned element. -/
def Tile.badWord (t : Tile) (a : Nat) : Bool := sget false t.omPoison (a / 8)

/-- Whether a block of the tile at a slot has such a word. -/
def Tile.badBlock (t : Tile) (slot : Nat) (width : BitVec 2) (b : Nat) : Bool :=
  let m := bxWidth width
  let base := slot * 65536
  ((List.range (4 * m)).any fun k => t.badWord (base + 4 * m * b + k)) || t.badWord (base + expBase width + b)

/-- The bytes of a span, without zeros. -/
def Tile.span (t : Tile) (slot n : Nat) : List (Nat × Byte) :=
  (List.range n).filterMap fun a => let v := t.spanByte slot a; if v == 0 then none else some (a, BitVec.ofNat 8 v)

/-- The shadow plane takes the B tile at a slot and is ready (R209, R210). -/
def Tile.loadPlane (t : Tile) (slot : Nat) (width : BitVec 2) : Tile :=
  { t with
    wShadow := { width := width, bytes := t.span slot (65536 * bxSlots width),
                 bad := (List.range 2048).filter (t.badBlock slot width) }
    wReady := true }

/-- A ready shadow plane becomes the active plane (R189). -/
def Tile.swapPlanes (t : Tile) : Tile :=
  if t.wReady then { t with wActive := t.wShadow, wShadow := {}, wReady := false } else t

/-! ### Words of an array section (R201) -/

/-- The word of an array section, if data came to it from one of the operation's ports. -/
def Op.word? (o : Op) (w : Nat) : Option W128 :=
  match if o.ports.contains (w % 16) then alookup w o.held else none with
  | some k => if k.kind == .data then some k.val else none
  | none => none

/-- Mantissa k of a block whose quarter 0 is word w, and the block's exponent. A position with no port carries
nothing. -/
def Op.blockMant (o : Op) (m w k : Nat) : Nat := ((o.word? (w + k / 8)).map fun x => bxMant x (k % 8) % 2 ^ m).getD 0

def Op.blockExp (o : Op) (w : Nat) : Nat := ((o.word? w).map fun x => fld x 103 96).getD 0

/-- Every array port has delivered a beat. -/
def Op.delivered (o : Op) (b : Nat) : Bool :=
  o.ports.all fun i => match alookup (16 * b + i) o.held with | some k => !k.isEos | none => false

/-- The shadow plane from the 512 beats of an N section. -/
def Tile.loadFrom (t : Tile) (o : Op) (width : BitVec 2) : Tile :=
  let m := bxWidth width
  let mants := (List.range 2048).flatMap fun b => natToBytes (4 * m) (packLanes m ((List.range 32).map (o.blockMant m (4 * b))))
  let exps := (List.range 2048).map fun b => BitVec.ofNat 8 (o.blockExp (4 * b))
  let at_ (base : Nat) (bs : List Byte) : List (Nat × Byte) :=
    (List.range bs.length).filterMap fun k => let v := bs.getD k 0; if v == 0 then none else some (base + k, v)
  { t with wShadow := { width := width, bytes := at_ 0 mants ++ at_ (expBase width) exps, bad := [] }, wReady := true }

/-! ### A K-step (R134, R197) -/

/-- P_d of a mantissa of m bits; the excluded code reads as its neighbour (R128). -/
def prefixOf (d m v : Nat) : Int :=
  let x := mantOf m v
  (List.range (min d (m / 2))).foldl (fun a j => a + recode m j x * ((4 ^ (m / 2 - 1 - j) : Nat) : Int)) 0

def blockEps (m e : Nat) : Int := (e : Int) - 127 - ((m - 1 : Nat) : Int)

/-- Step 1: the exact sum of one K-block. -/
def blockSum (d ma mb : Nat) (a b : Nat → Nat) : Int :=
  (List.range 32).foldl (fun s k => s + prefixOf d ma (a k) * mantOf mb (b k)) 0

/-- Step 2: its exact value; NaN where a block stands for NaNs. -/
def blockVal (d ma mb : Nat) (h : Bool) (ea eb : Nat) (a b : Nat → Nat) : Val :=
  if ea == 0xFF || eb == 0xFF then .nan false
  else
    let s := blockSum d ma mb a b
    .fin (decide (s < 0)) s.natAbs (blockEps ma ea + blockEps mb eb - (if h then 5 else 0)) false

/-- Step 3: one rounding. -/
def accAdd (acc : Nat) (v : Val) : Nat := (roundTo .f32 false .rne ((Fmt.f32.value acc).add .rne v)).1

/-- The A tile of a K-step: mantissas and exponents by row and block, its width, and its bad blocks. -/
structure ATile where
  m : Nat
  mant : Nat → Nat → Nat → Nat
  exp : Nat → Nat → Nat
  bad : Nat → Nat → Bool

/-- A from operand slots. -/
def Tile.aSlots (t : Tile) (slot : Nat) (width : BitVec 2) : ATile :=
  let m := bxWidth width
  { m := m
    mant := fun r kb k => packedMant (t.spanByte slot) m (8 * r + kb) k
    exp := fun r kb => t.spanByte slot (expBase width + 8 * r + kb)
    bad := fun r kb => t.badBlock slot width (8 * r + kb) }

/-- A from the beats of K-step t of a W section: block (r, kb) begins at word 16 b + 4 (kb mod 4) of beat
b = 2 M t + 2 r + kb div 4. -/
def Op.aSection (o : Op) (rows t : Nat) (width : BitVec 2) : ATile :=
  let m := bxWidth width
  let w (r kb : Nat) : Nat := 16 * (2 * rows * t + 2 * r + kb / 4) + 4 * (kb % 4)
  { m := m, mant := fun r kb k => o.blockMant m (w r kb) k, exp := fun r kb => o.blockExp (w r kb), bad := fun _ _ => false }

def WeightPlane.byte (p : WeightPlane) (a : Nat) : Nat := (sget 0 p.bytes a).toNat

/-- One value of the accumulator tile after the K-step: K-blocks in ascending order. -/
def kstepLane (p : WeightPlane) (a : ATile) (d : Nat) (h : Bool) (r n old : Nat) : Nat :=
  let mb := bxWidth p.width
  (List.range 8).foldl (fun acc kb =>
    accAdd acc (blockVal d a.m mb h (a.exp r kb) (p.byte (expBase p.width + 8 * n + kb)) (a.mant r kb)
      (packedMant p.byte mb (8 * n + kb)))) old

/-- One word of the tile after the K-step, with its poison (R216). -/
def Tile.kstepWord (t : Tile) (a : ATile) (acc : Fin 4) (d : Nat) (h : Bool) (r g : Nat) : Tile :=
  let i := acc.val * 16384 + 64 * r + g
  let old := sget 0 t.acc i
  let v := ofLanes 32 ((List.range 4).map fun j => kstepLane t.wActive a d h r (4 * g + j) (laneNat 32 old j))
  let bad := (List.range 8).any fun kb => a.bad r kb || (List.range 4).any fun j => t.wActive.bad.contains (8 * (4 * g + j) + kb)
  { t with acc := sset 0 t.acc i v, accPoison := if bad then sset false t.accPoison i true else t.accPoison }

/-- A K-step over the given rows (R197). -/
def Tile.kstep (t : Tile) (a : ATile) (acc : Fin 4) (d : Nat) (h : Bool) (rows : List Nat) : Tile :=
  rows.foldl (fun t r => (List.range 64).foldl (fun t g => t.kstepWord a acc d h r g) t) t

/-! ### Drains (R198, R212) -/

/-- Step 4: the product of the scale pair. -/
def Tile.drainScale (t : Tile) (a : Fin 4) : Val :=
  let s := t.accScale.get a
  Fmt.f32.value (roundTo .f32 false .rne ((Fmt.f32.value s.1.toNat).mul (Fmt.f32.value s.2.toNat))).1

/-- Step 5 on one value. -/
def drainLane (st : Val) (x : Nat) : Nat := (roundTo .f32 false .rne ((Fmt.f32.value x).mul st)).1

/-- A word after steps 4 and 5, with its poison. -/
def Tile.drainWord (t : Tile) (a : Fin 4) (w : Nat) : Token :=
  let i := a.val * 16384 + w
  let st := t.drainScale a
  dataTok (ofLanes 32 ((List.range 4).map fun j => drainLane st (laneNat 32 (sget 0 t.acc i) j))) (sget false t.accPoison i)

namespace Drain

def fmtOf (d : W128) : Fmt := ((Ty.ofCode (fmt d)).getD .f32).fmt

/-- 16-byte units of a row on the direct route, and values and words of a unit. -/
def rowUnits (d : W128) : Nat := 16 * size d
def perUnit (d : W128) : Nat := 16 / size d
def units (d : W128) : Nat := m d * rowUnits d

/-- The words of the tile whose values unit u holds, in order. -/
def wordsOf (d : W128) (u : Nat) : List Nat :=
  let w := 64 * (row0 d + u / rowUnits d) + u % rowUnits d * perUnit d / 4
  (List.range (perUnit d / 4)).map (w + ·)

/-- The scratchpad offset of unit u. -/
def offset (d : W128) (u : Nat) : Nat := 16 * (base d + u / rowUnits d * stride d) + 16 * (u % rowUnits d)

end Drain

/-- Step 6: the bytes of unit u. -/
def Tile.drainUnit (t : Tile) (d : W128) (u : Nat) : List Byte :=
  let vs := (Drain.wordsOf d u).flatMap fun w => (List.range 4).map fun j => laneNat 32 (t.drainWord (Drain.acc d) w).val j
  vs.flatMap fun y => natToBytes (Drain.size d) (roundTo (Drain.fmtOf d) (Drain.sat d) (Rnd.ofCode (Drain.rnd d)) (Fmt.f32.value y)).1

/-! ### Stopping and completing -/

def Op.writer (o : Op) (t : TileId) : Writer := { tile := t, ctx := o.ctx, block := o.block, iter := o.iter, op := some o.id }

/-- The engine stops at an element: a deferred trap against the issuing context (R243, R466). -/
def Pack.stopOp (p : Pack) (t : TileId) (o : Op) (e : XErr) (va : VA) (itb : Nat) : Pack :=
  (p.modTile t fun x => x.modOp o.id fun y => { y with stopped := true, pos := o.pos }).defer t o.ctx e.cause e.sub va o.block
    (BitVec.ofNat 48 itb) 0 (some o.id)

/-- The operation completes with no effect and a deferred trap (R202, R304, R308). -/
def Pack.failOp (p : Pack) (t : TileId) (o : Op) (e : XErr) (va : VA := 0) : Pack :=
  (p.modTile t fun x => x.modOp o.id fun y => { y with started := true, ending := true, snap := none }).defer t o.ctx e.cause e.sub va o.block
    (BitVec.ofNat 48 o.iter)

def Pack.completeOp (p : Pack) (t : TileId) (o : Op) : Pack := p.modTile t fun x => x.complete_ o

/-- The tile's engines start operations while its residency stands on it (R79, R364, R427). -/
def Pack.enginesRun (p : Pack) (t : TileId) : Bool :=
  match p.resOf t with
  | some (_, r) => r.st == .resident
  | none => false

/-! ### Starting (R204, R205) -/

/-- The MMA descriptor of an operation: a follower's once paired takes the leader's shape (R204). -/
def Op.mma? (o : Op) : Option W128 :=
  match o.snap.getD o.cmd with
  | .mma d => some d
  | _ => none

/-- Fields that a follower takes from its leader: M, d, n, A's slot and width, asrc and h. -/
def gangMask : W128 := BitVec.ofNat 128 (0xFF + 0x700 + 0xF0000 + 0xF000000 + 3 * 2 ^ 32 + 2 ^ 36 + 2 ^ 37)

def gangMerge (leader follower : W128) : W128 := (leader &&& gangMask) ||| (follower &&& ~~~ gangMask)

/-- Operations before one in the matrix queue. -/
def Tile.olderMatrix (t : Tile) (o : Op) : List Op := t.matrixQ.takeWhile fun x => x.id != o.id

/-- The oldest operation of a queue that has not started. -/
def firstWaiting (q : List Op) : Option Op := q.find? fun o => !o.started

/-- An operation has begun its last K-step. -/
def Op.lastBegun (o : Op) : Bool :=
  match o.mma? with
  | some d => o.started && (Mma.n d ≤ o.pos || (Mma.n d == o.pos + 1 && o.mark))
  | none => true

def EngineCmd.isMma (c : EngineCmd) : Bool := match c with | .mma _ => true | _ => false
def EngineCmd.isMmald (c : EngineCmd) : Bool := match c with | .mmald _ => true | _ => false

/-- Every ACCWR to a tile that entered the buffer before the operation was issued has been applied (R196). -/
def Tile.bufferClear (t : Tile) (o : Op) (a : Fin 4) : Bool := t.accBuf.all fun w => !(w.a == a && w.id < o.id)

/-- No older operation in flight names the tile (R205). -/
def Tile.accFree (t : Tile) (o : Op) (a : Fin 4) : Bool := (t.olderMatrix o).all fun x => !x.cmd.names a

/-- The conditions of R205 but for arming and pairing. -/
def Tile.mayStart (t : Tile) (o : Op) : Bool :=
  let older := t.olderMatrix o
  match o.cmd with
  | .mmald _ => older.all fun x => x.lastBegun && !x.cmd.isMmald
  | .mma d =>
    older.all (fun x => !x.cmd.isMma && !x.cmd.isMmald) && t.accFree o (Mma.acc d) && t.bufferClear o (Mma.acc d)
  | .accz a => t.accFree o a && t.bufferClear o a
  | .accdrn d => t.accFree o (Drain.acc d) && t.bufferClear o (Drain.acc d)
  | _ => true

/-- What an arming comes to (R202): it fails, waits, or finds its image. -/
inductive Arm where
  | fail
  | wait
  | ok (i : Image)
  deriving DecidableEq, Repr

def Pack.arming (p : Pack) (t : TileId) (sides : BitVec 4) (whole : Bool) (need : Image → Bool) : Arm :=
  let tl := p.tile t
  if tl.armedOn sides then .wait
  else match tl.sectionOn sides whole with
    | none => .fail
    | some i =>
      if !need i then .fail
      else if tl.armedOn (Header.sides i.hdr) || tl.swapping i || tl.pendingCmds i.addr || !p.tagsForSection t i then .wait
      else .ok i

/-- The section that an operation arms, its side's array ports, and its beats. -/
def Pack.armFor (p : Pack) (t : TileId) (cmd : EngineCmd) : Option (Arm × List Nat × Option Nat) :=
  let tl := p.tile t
  let side (sides : BitVec 4) (egress : Bool) (s : Side) (n : Nat) : Arm × List Nat × Option Nat :=
    let a := p.arming t sides false fun i => !(tl.arrayPorts i egress s).isEmpty
    let ps := match a with | .ok i => (tl.arrayPorts i egress s).map (· % 16) | _ => []
    (a, ps, some n)
  match cmd with
  | .mma d => if Mma.asrc d && !Mma.follower d then some (side 8 true .w (2 * Mma.m d * Mma.n d)) else none
  | .mmald d => if Mmald.src d then some (side 1 true .n 512) else none
  | .accdrn d => if Drain.section_ d then some (side 4 false .s (4 * Drain.m d)) else none
  | .pfire tiles d =>
    let free (i : Image) : Bool :=
      (i.ports true).all (fun q => !tl.arrayPort true q) && (i.ports false).all fun q => !tl.arrayPort false q
    some (p.arming t (Pfire.sides d) true free, [], Pfire.beats tiles d)
  | _ => none

/-- Slots and accumulator tiles of an operation that lie over state saved in place (R389). -/
def Pack.matrixBreach (p : Pack) (t : TileId) (o : Op) : Bool :=
  (o.slots.any fun k => p.omBreach t k) ||
    (match o.cmd with
      | .mma d => p.accBreach t (Mma.acc d).val
      | .accz a => p.accBreach t a.val
      | .accdrn d => p.accBreach t (Drain.acc d).val
      | _ => false)

/-- K-step `pos` begins: a ready plane is swapped in, and the next B tile is loaded (R210). -/
def Tile.beginStep (t : Tile) (o : Op) : Tile :=
  match o.mma? with
  | none => t
  | some d =>
    if Mma.n d ≤ o.pos then t
    else
      let t1 := t.swapPlanes
      let t2 := if o.pos + 1 < Mma.n d then t1.loadPlane (Mma.bslot d + o.pos * bxSlots (Mma.bwidth d)) (Mma.bwidth d) else t1
      t2.modOp o.id fun x => { x with mark := true }

/-- An operation starts: its section is armed, an MMA sets the scale pair and begins its first K-step. -/
def Tile.startMatrix (t : Tile) (o : Op) (arm : Option (Image × List Nat × Option Nat)) : Tile :=
  let t1 := t.modOp o.id fun x => { x with started := true, ports := (arm.map (·.2.1)).getD [] }
  let t2 := match arm with | some (i, _, n) => t1.arm o.ctx i n o.id | none => t1
  match o.mma? with
  | some d => { t2 with accScale := t2.accScale.set (Mma.acc d) (Mma.sa d, Mma.sb d) }.beginStep o
  | none => t2

/-- The follower tile of a leader's tile, or the leader of a follower's. -/
def Pack.gangTile (p : Pack) (t : TileId) (leader : Bool) : Option TileId :=
  match p.resOf t with
  | none => none
  | some (_, r) =>
    let x := r.relX t
    if leader then (if x + 1 < r.w then some (r.tileAt (x + 1) (r.relY t)) else none)
    else if 1 ≤ x then some (r.tileAt (x - 1) (r.relY t)) else none

/-- An operation may start, but for its arming and its partner (R205). -/
def Pack.startable (p : Pack) (t : TileId) (o : Op) : Bool :=
  (p.tile t).mayStart o && !o.stopped && !o.ending && !p.unacked t o.ctx o.po o.lsid

/-- The oldest follower MMA of a tile, when it is next in its queue and can start (R204). -/
def Pack.readyFollower (p : Pack) (v : TileId) : Option (Op × W128) :=
  match firstWaiting (p.tile v).matrixQ with
  | some o =>
    (match o.cmd with
      | .mma d => if Mma.follower d && p.startable v o then some (o, d) else none
      | _ => none)
  | none => none

/-- An operation that needs a follower has one that can start with it. -/
def Pack.paired (p : Pack) (t : TileId) (o : Op) : Bool :=
  match o.mma? with
  | some d => !Mma.leader d || ((p.gangTile t true).bind p.readyFollower).isSome
  | none => true

/-- A leader MMA of a tile is next in its queue and could start with a follower. -/
def Pack.readyLeader (p : Pack) (v : TileId) : Bool :=
  match firstWaiting (p.tile v).matrixQ with
  | some o => ((o.mma?.map Mma.leader).getD false) && p.startable v o && (match p.armFor v o.cmd with | some (.wait, _, _) => false | _ => true)
  | none => false

/-- A context's gang operation could start, and waits for its partner alone (R204, R347). -/
def Pack.gangWaits (p : Pack) (t : TileId) (c : CtxId) : Bool :=
  match firstWaiting (p.tile t).matrixQ with
  | some o =>
    (match o.mma? with
      | some d => o.ctx == c && p.startable t o &&
          ((Mma.leader d && p.readyLeader t && !p.paired t o) || (Mma.follower d && !((p.gangTile t false).map p.readyLeader).getD false))
      | none => false)
  | none => false

/-- An operation that begins has before it what its issue brings, and the operations that R196 makes it wait for (R261,
R262). -/
def Pack.begin (p : Pack) (t : TileId) (o : Op) : Pack :=
  let named := (p.tile t).accFloors.filter fun x => o.cmd.names (Fin.ofNat 4 x.1)
  (p.fork t o).modTile t (·.modOp o.id fun y => { y with gained := named.foldl (fun f x => f.join x.2) y.gained
                                                         floor := y.floor.map fun f => named.foldl (fun f x => f.join x.2) f })

/-- A footprint breach of one operation stops it (R389); otherwise it starts. -/
def Pack.startChecked (p : Pack) (t : TileId) (o : Op) (arm : Option (Image × List Nat × Option Nat)) : Pack :=
  if p.matrixBreach t o then p.stopOp t o (xerr 5 8) 0 0 else (p.begin t o).modTile t fun x => x.startMatrix o arm

/-- A leader and its follower start together. -/
def Pack.startGang (p : Pack) (t : TileId) (o : Op) (arm : Option (Image × List Nat × Option Nat)) : Pack :=
  match p.gangTile t true with
  | none => p
  | some v =>
    match p.readyFollower v, o.mma? with
    | some (f, df), some d =>
      let f' := { f with snap := some (.mma (gangMerge d df)), partner := some t }
      if p.matrixBreach t o then p.stopOp t o (xerr 5 8) 0 0
      else if p.matrixBreach v f' then p.stopOp v f (xerr 5 8) 0 0
      else
        let p1 := ((p.begin t o).begin v f).modTile t fun x => (x.modOp o.id fun y => { y with partner := some v }).startMatrix o arm
        p1.modTile v fun x => (x.modOp f.id fun y => { y with snap := f'.snap, partner := f'.partner }).startMatrix f' none
    | _, _ => p

/-- The oldest waiting operation of a matrix queue starts, if it can. -/
def Pack.startOldest (p : Pack) (t : TileId) (o : Op) : Pack :=
  if o.stopped then p
  else if o.ending then p.modTile t fun x => x.modOp o.id fun y => { y with started := true }
  else if !(p.tile t).mayStart o || p.unacked t o.ctx o.po o.lsid || !p.paired t o then p
  else
    let go (arm : Option (Image × List Nat × Option Nat)) : Pack :=
      match o.cmd with
      | .mma d => if Mma.leader d then p.startGang t o arm else p.startChecked t o arm
      | _ => p.startChecked t o arm
    match p.armFor t o.cmd with
    | none => go none
    | some (.fail, _, _) => p.failOp t o ⟨Cause.blockForm, 6⟩
    | some (.wait, _, _) => p
    | some (.ok i, ps, n) => go (some (i, ps, n))

/-- Sections of a tile that may close do (R59), and those that an abort leaves without an end (R79). -/
def Pack.closeSections (p : Pack) (t : TileId) : Pack := (p.modTile t (·.closeDone (p.tileAccs t))).endDeserted t

/-- The oldest waiting operation of a tile's matrix queue is tried; a follower's leader in its place. -/
def Pack.tryMatrix (p : Pack) (t : TileId) : Pack :=
  match firstWaiting (p.tile t).matrixQ with
  | none => p
  | some o =>
    let follows : Bool := match o.cmd with | .mma d => Mma.follower d && !o.ending | _ => false
    if !p.enginesRun t then p
    else if !follows then p.startOldest t o
    else match p.gangTile t false with
      | none => p
      | some v =>
        match firstWaiting (p.tile v).matrixQ with
        | some q => (match q.cmd with | .mma e => if Mma.leader e then p.startOldest v q else p | _ => p)
        | none => p

/-- MATRIX_OP_START (R205): sections that may close do (R59), and the oldest waiting operation starts if it can. -/
def execMatrixOpStart (t : TileId) (s : State) : Host.Outcome State Fault Refusal :=
  .next { s with pk := (s.pk.closeSections t).tryMatrix t }

/-! ### KSTEP (R197, R203, R204) -/

/-- The section that an operation armed, if it has not closed. -/
def Tile.sectionOf (t : Tile) (o : Op) : Option Section := t.sections.find? fun x => x.op == o.id

/-- The beat at which a fault has stopped the section of an array operation. -/
def Tile.faultBeat (t : Tile) (o : Op) : Option Nat :=
  ((t.sectionOf o).bind (·.stop)).bind fun k => if k.2.isSome then some k.1 else none

/-- Every beat below b of an operation's section has been delivered. -/
def Tile.allBefore (t : Tile) (as : List Access) (o : Op) (b : Nat) : Bool :=
  match t.sectionOf o with
  | none => true
  | some x => t.renumbers x || decide (b ≤ t.lowBeat as x)

/-- The section of an array operation delivers nothing more: it has closed, or a fault has stopped it and the beats before
the fault have been delivered (R203). -/
def Tile.sectionOver (t : Tile) (as : List Access) (o : Op) : Bool :=
  (t.sectionOf o).isNone || (match t.faultBeat o with | some k => t.allBefore as o k | none => false)

/-- A beat of an array section has come whole, and no fault of this or an earlier beat can stop it any more. -/
def Tile.beatGood (t : Tile) (as : List Access) (o : Op) (b : Nat) : Bool :=
  o.delivered b && t.allBefore as o (b + 1) && (match t.faultBeat o with | some k => decide (b < k) | none => true)

/-- The running MMA of a tile. -/
def Tile.runningMma (t : Tile) : Option (Op × W128) :=
  firstSome (fun o : Op => match o.mma? with | some d => if o.started && !o.ending && !o.stopped && o.pos < Mma.n d then some (o, d) else none | none => none)
    t.matrixQ

/-- The rows that K-step `pos` can add, and whether they are all that it will ever have. -/
def Tile.stepRows (t : Tile) (as : List Access) (o : Op) (d : W128) : Option (List Nat) :=
  let all := List.range (Mma.m d)
  if !Mma.asrc d then some all
  else
    let b (r : Nat) : Nat := 2 * Mma.m d * o.pos + 2 * r
    let have_ := all.filter fun r => t.beatGood as o (b r) && t.beatGood as o (b r + 1)
    if have_.length == all.length || t.sectionOver as o then some have_ else none

/-- A started MMA stands inside a K-step for want of its section's beats. -/
def Tile.lacksBeats (t : Tile) (as : List Access) (o : Op) : Bool :=
  match o.mma? with
  | some d => o.started && o.mark && (t.stepRows as o d).isNone
  | none => false

/-- An MMA between two K-steps gets the B tile of the next one back from its slot (R215). -/
def Tile.reloadB (t : Tile) (o : Op) : Tile :=
  match o.mma? with
  | some d =>
    if o.started && !o.mark && 1 ≤ o.pos && o.pos < Mma.n d then t.loadPlane (Mma.bslot d + (o.pos - 1) * bxSlots (Mma.bwidth d)) (Mma.bwidth d)
    else t
  | none => t

/-- One tile's part of a K-step; the operation goes on, or ends where its section did. -/
def Tile.addStep (t : Tile) (o : Op) (d : W128) (a : ATile) (rows : List Nat) (more : Bool) : Tile :=
  let t1 := t.kstep a (Mma.acc d) (Mma.digits d) (Mma.h d) rows
  let o' := { o with pos := o.pos + 1, mark := false, ending := rows.length != Mma.m d }
  let t2 := t1.modOp o.id fun x => { x with pos := o'.pos, mark := false, ending := o'.ending }
  if more && !o'.ending then t2.beginStep o' else t2

/-- The next K-step of a leader, or of an operation without a gang, with its follower's (R204). -/
def Pack.kstep (p : Pack) (t : TileId) (o : Op) (d : W128) (rows : List Nat) : Pack :=
  let tl := p.tile t
  let a := if Mma.asrc d then o.aSection (Mma.m d) o.pos (Mma.awidth d)
    else tl.aSlots (Mma.aslot d + o.pos * bxSlots (Mma.awidth d)) (Mma.awidth d)
  let more := p.enginesRun t
  let p1 := p.modTile t fun x => x.addStep o d a rows more
  match o.partner with
  | none => p1
  | some v =>
    match (p.tile v).runningMma with
    | some (f, df) => p1.modTile v fun x => x.addStep f df a rows more
    | none => p1

/-- KSTEP (R197): one K-step, begun at its operation's start or when the one before it ended. -/
def execKstep (t : TileId) (s : State) : Host.Outcome State Fault Refusal :=
  match (s.pk.tile t).runningMma with
  | none => .next s
  | some (o, d) =>
    if Mma.follower d then .next s
    else if !o.mark then
      if !s.pk.enginesRun t then .next s
      else
        let p1 := s.pk.modTile t fun x => x.beginStep o
        .next { s with pk := match o.partner with
          | some v => p1.modTile v fun x => match x.runningMma with | some (f, _) => x.beginStep f | none => x
          | none => p1 }
    else match (s.pk.tile t).stepRows (s.pk.tileAccs t) o d with
      | none => .next s
      | some rows => .next { s with pk := s.pk.kstep t o d rows }

/-! ### Completion of matrix operations (R202, R203, R211, R212) -/

/-- ACCZ (R211). -/
def Tile.zeroAcc (t : Tile) (a : Fin 4) : Tile :=
  let other (i : Nat) : Bool := i / 16384 != a.val
  { t with
    acc := t.acc.filter fun x => other x.1
    accPoison := t.accPoison.filter fun x => other x.1
    accScale := t.accScale.set a (0x3F800000, 0x3F800000) }

/-- What the accesses of an engine operation have in common. -/
def Op.access (o : Op) (t : TileId) : Access :=
  { id := 0, tile := t, work := { ctx := o.ctx, stream := true, n := o.id }, kind := .st, lvl := o.lvl, op := some o.id, block := o.block, iter := o.iter }

/-- The direct route from unit `o.pos` on, for n units: it goes on, or stops at a unit (R212, R389). -/
def State.drainFrom (s : State) (t : TileId) (o : Op) (d : W128) : Nat → State
  | 0 => { s with pk := s.pk.modTile t fun x => x.modOp o.id fun y => { y with pos := o.pos } }
  | k + 1 =>
    let tl := s.pk.tile t
    match (Drain.wordsOf d o.pos).find? fun w => sget false tl.accPoison ((Drain.acc d).val * 16384 + w) with
    | some w => { s with pk := s.pk.stopOp t o ⟨Cause.poison, 6⟩ 0 (w + 16384 * (Drain.acc d).val) }
    | none =>
      let off := Drain.offset d o.pos
      if s.pk.padBreach t off then { s with pk := s.pk.stopOp t o (xerr 5 8) 0 o.pos }
      else (s.postUnit (o.access t) off (tl.drainUnit d o.pos) 0 0).drainFrom t { o with pos := o.pos + 1 } d k

/-- The direct route goes row by row, and ends once its last write has been performed (R205, R212). -/
def State.drainRow (s : State) (t : TileId) (o : Op) (d : W128) : State :=
  if s.pk.opAccs o.id then s
  else if Drain.units d ≤ o.pos then { s with pk := s.pk.completeOp t o }
  else s.drainFrom t o d (Drain.rowUnits d - o.pos % Drain.rowUnits d)

/-- The section route (R201, R202): the next beat at every array port of the S side, then end-of-stream. -/
def Pack.drainBeat (p : Pack) (t : TileId) (o : Op) (d : W128) : Pack :=
  let tl := p.tile t
  let as := p.tileAccs t
  match tl.sectionOf o with
  | none => p.completeOp t o
  | some x =>
    if tl.sectionOver as o then p.completeOp t o
    else
      let ports := o.ports.map (32 + ·)
      let last := decide (4 * Drain.m d ≤ o.pos)
      let give (y : Tile) (q : Nat) : Tile :=
        match y.sectionOf o with
        | none => y
        | some z =>
          let k := if last then eorTok true else y.drainWord (Drain.acc d) (64 * Drain.row0 d + 16 * o.pos + q % 16)
          y.giveBeat z q k
      let ok (q : Nat) : Bool := if last then x.stop.isNone && !x.ended.contains q && tl.windowOpen as x q o.pos else tl.acceptsBeat as x q
      if ports.all ok then p.modTile t fun y => (ports.foldl give y).modOp o.id fun z => { z with pos := z.pos + 1 }
      else p

/-- A started matrix operation's last step. -/
def State.endMatrix (s : State) (t : TileId) (o : Op) : State :=
  let tl := s.pk.tile t
  let done (f : Tile → Tile) : State := { s with pk := (s.pk.modTile t f).completeOp t o }
  match o.cmd with
  | .mmald d =>
    let as := s.pk.tileAccs t
    if !Mmald.src d then done (·.loadPlane (Mmald.slot d) (Mmald.width d))
    else if (List.range 512).all (tl.beatGood as o) then done (·.loadFrom o (Mmald.width d))
    else if tl.sectionOver as o then done fun x => { x with wShadow := {}, wReady := false }
    else s
  | .mma _ =>
    match o.mma? with
    | some d => if Mma.n d ≤ o.pos then done id else s
    | none => s
  | .accz a => done (·.zeroAcc a)
  | .accdrn d =>
    if Drain.section_ d then { s with pk := s.pk.drainBeat t o d } else s.drainRow t o d
  | .pfire _ _ => if (tl.sectionOf o).isNone then done id else s
  | _ => s

/-! ### ACC_WRITE_APPLY (R196) -/

/-- The head of the write buffer reaches its tile. -/
def Tile.applyAcc (t : Tile) : Tile :=
  match t.accBuf with
  | [] => t
  | w :: rest =>
    if t.matrixQ.any fun o => o.id < w.id && o.cmd.names w.a then t
    else
      let i := w.a.val * 16384 + w.index
      { t with accBuf := rest, acc := sset 0 t.acc i w.v, accPoison := sset false t.accPoison i false }

/-- ACC_WRITE_APPLY (R196, R208). -/
def execAccWriteApply (t : TileId) (s : State) : Host.Outcome State Fault Refusal :=
  .next { s with pk := s.pk.modTile t Tile.applyAcc }

end Sys2Proof.Machine
end

