-- ==== Sys2Proof/Machine/Streams.lean ====
section
/-! DEFINITION. The stream engine (R302, R304-R311): the elements of a pattern, the beats of a port, the start of
an operation with its parameter block, and the memory port's slots. -/

namespace Sys2Proof.Machine

/-! ### The order of a pattern (R307, R308) -/

/-- Elements of one outer iteration: of loop 1 for STRM, of loop 3 for STRMPB. -/
def StreamCmd.outer (c : StreamCmd) (pb : Bool) : Nat :=
  if pb then c.n.getD 0 1 * c.n.getD 1 1 * c.n.getD 2 1 else c.n.getD 0 1

/-- What a port receives at one position of an operation of kind 000. -/
inductive Delivery where
  | beat (first n : Nat)
  | eor (eos : Bool)
  | done
  deriving DecidableEq, Repr

/-- Beats that carry one run of m elements. -/
def StreamCmd.beats (c : StreamCmd) (m : Nat) : Nat := ceilDiv m c.perBeat

/-- Positions before end-of-stream. -/
def StreamCmd.positions (c : StreamCmd) (pb : Bool) : Nat :=
  let m := c.outer pb
  if c.eor then c.total / m * (c.beats m + 1) else c.beats c.total

def StreamCmd.delivery (c : StreamCmd) (pb : Bool) (pos : Nat) : Delivery :=
  let m := c.outer pb
  let run (first left : Nat) : Delivery := .beat first (min c.perBeat left)
  if c.positions pb ≤ pos then (if c.eos && pos == c.positions pb then .eor true else .done)
  else if c.eor then
    let j := pos % (c.beats m + 1)
    if j == c.beats m then .eor false else run (pos / (c.beats m + 1) * m + j * c.perBeat) (m - j * c.perBeat)
  else run (pos * c.perBeat) (c.total - pos * c.perBeat)

/-- The offset of element k, given its index entry (R307). -/
def StreamCmd.offset (c : StreamCmd) (k : Nat) (idx : Int) : Int :=
  let n (j : Nat) : Nat := c.n.getD j 1
  let s (j : Nat) : Int := c.s.getD j 0
  let i0 : Int := (k % n 0 : Nat)
  let i1 : Int := (k / n 0 % n 1 : Nat)
  let i2 : Int := (k / (n 0 * n 1) % n 2 : Nat)
  let i3 : Int := (k / (n 0 * n 1 * n 2) : Nat)
  i1 * s 1 + i2 * s 2 + i3 * s 3 + (if c.ixw == 0 then i0 * s 0 else idx * ((2 ^ c.ixsh : Nat) : Int))

/-! ### Elements -/

/-- Where an element lies: known once its index entry, of n bytes at a place, has been read under a key; a fault; or a place
with its address. -/
inductive Reach where
  | index (pl : Place) (n key : Nat)
  | fault (e : XErr) (va : VA)
  | at_ (pl : Place) (va : VA)
  deriving DecidableEq, Repr

/-- The number under which an operation holds an index entry. -/
def indexKey (k : Nat) : Nat := 2 ^ 64 + k

/-- Index entry k: what the operation has read of it, or where in the scratchpad it is to be read, as an event of its own
(R246, R307). -/
def State.indexOf (s : State) (t : TileId) (o : Op) (c : StreamCmd) (k : Nat) : Except Reach Int :=
  let off := c.ixoff + k * c.ixBytes
  match alookup (indexKey k) o.held with
  | some x => if x.poison then .error (.fault ⟨Cause.poison, 2⟩ 0) else .ok (if c.ixw == 3 then signedOf 32 x.val.toNat else x.val.toNat)
  | none => .error (if s.pk.padBreach t off then .fault (xerr 5 8) 0 else .index (.scratch off (s.pk.padP t off)) c.ixBytes (indexKey k))

/-- The place of element k on the pattern's side, with its checks (R218, R235, R243, R307), and what its translation leaves
behind. A writing operation pushes an element of any size to another package. -/
def State.reach (s : State) (t : TileId) (o : Op) (c : StreamCmd) (k : Nat) : Reach × WalkNote :=
  let role : Role := if c.reads then .load else .store
  match if c.ixw == 0 then .ok 0 else s.indexOf t o c k with
  | .error r => (r, {})
  | .ok idx =>
    if c.space then
      let va := addrG ((c.base.setWidth 128 : W128)) (c.offset k idx)
      match checkFar s.mem s.pk t o.lvl role va c.e (if c.reads then 8 else 16) with
      | (.error e, g) => (.fault e va, g)
      | (.ok (.remote m), g) => if c.reads then (.fault (xerr 5 6) va, g) else (.at_ (.remote m) va, g)
      | (.ok pl, g) => (.at_ pl va, g)
    else
      match checkS s.pk t role (((c.base.toNat % 2 ^ 22 : Nat) : Int) + c.offset k idx) c.e with
      | .error e => (.fault e 0, {})
      | .ok pl => (.at_ pl 0, {})

/-- The contiguous side's place for element k (R308). -/
def State.flat (s : State) (t : TileId) (c : StreamCmd) (role : Role) (k : Nat) : Reach :=
  match checkS s.pk t role ((c.spoff + k * c.e : Nat) : Int) c.e with
  | .error e => .fault e 0
  | .ok pl => .at_ pl 0

/-- The operation reads n bytes at a place, as one event, and holds them under a key: in a state of their word that it may see,
an error met being corrected or found (R229, R246, R253, R311). A P word found empty defers the read, which its home then
serves (R225); one that is deferred already is not read again. -/
def State.readInto (s : State) (t : TileId) (o : Op) (pl : Place) (va : VA) (n key : Nat) : Option State :=
  let a : Access :=
    { o.access t with id := s.nextId, kind := .ld, va := va, place := pl, n := n, ty := tyOfBytes n, lsid := key
                      elem := if o.ghost then 1 else 0 }
  if s.pk.accs.any fun b => b.op == some o.id && b.isLoad && b.lsid == key && b.elem == a.elem then none
  else
    let c := (s.settled a [0]).whichState a 0 true
    let full : Bool := !pl.isP || (match c.1 with | some x => x.full | none => placeFull c.2.mem c.2.pk t pl n)
    if !full then some (c.2.post a)
    else
      let b := c.2.readIn a 0 c.1
      let k := b.got.map fun g => (key, dataTok (g.2.1.setWidth 128) g.2.2)
      some { c.2 with pk := (c.2.pk.hear b b.heard).modTile t fun x => x.modStream o.id o.ghost fun y => { y with held := y.held ++ k } }

/-- A write of an element at a place, as accesses of the operation: its bytes, or the poison of what was read (R246,
R311). -/
def State.writeElem (s : State) (t : TileId) (o : Op) (pl : Place) (va : VA) (bs : List Byte) (bad : Bool) : State :=
  let a : Access :=
    { o.access t with id := s.nextId, va := va, place := pl, n := bs.length, ty := tyOfBytes bs.length,
                      data := BitVec.ofNat 128 (bytesToNat bs), poison := bad }
  s.post a

/-- A write of an element into operand memory, whose words carry poison (R216, R311). -/
def Tile.writeOm (t : Tile) (a : Nat) (bs : List Byte) (bad : Bool) : Tile :=
  let n := ceilDiv bs.length 8
  { t with
    om := if bad then t.om else writeBytes t.om a bs
    omPoison := if bad then setMarks t.omPoison (a / 8) true n
      else if 8 ≤ bs.length then setMarks t.omPoison (a / 8) false n else t.omPoison }

/-! ### Transfers -/

/-- Set an operation's position. -/
def State.setPos (s : State) (t : TileId) (o : Op) (pos : Nat) : State :=
  { s with pk := s.pk.modTile t fun x => x.modOp o.id fun y => { y with pos := pos } }

/-- Pieces of an element that are read as one event each: its words, or itself (R246). -/
def StreamCmd.perElem (c : StreamCmd) : Nat := if c.e == 16 then 2 else 1

/-- Piece j, word w of an element, is read, or first its index entry. A fault of the element that is next stops the operation
there, at element `due`. -/
def State.takePiece (s : State) (t : TileId) (o : Op) (r : Reach × WalkNote) (w n j : Nat) (due : Option Nat) : Option State :=
  let s1 := s.walked t (s.pk.tileVi t) r.2
  match r.1 with
  | .index pl m key => s1.readInto t o pl 0 m key
  | .fault e va => due.map fun k => { s1 with pk := s1.pk.stopOp t o e va k }
  | .at_ pl va => s1.readInto t o (pl.shift (8 * w)) (va + BitVec.ofNat 80 (8 * w)) n j

/-- The engine reads a piece that it has not read: one of those due, or any later one, for its accesses have no order
among themselves (R259). `per` pieces of n bytes make an element, of which there are `total`. -/
def State.readAhead (s : State) (t : TileId) (o : Op) (src : Nat → Reach × WalkNote) (per n total itb : Nat) (due : List Nat) : Option State :=
  let c := Config.choice s.freeCount
  let first := due.headD 0
  let later := first + c / 2 % (per * total - first)
  let far := c % 2 == 1 && !due.contains later && (alookup later o.held).isNone
  let j := if far then later else due.getD (c / 2 % due.length) 0
  { s with freeCount := s.freeCount + 1 }.takePiece t o (src (j / per)) (j % per) n j (if far then none else some itb)

/-- The pieces with given numbers that the operation has read: none if one is missing. -/
def Op.pieces? (o : Op) (js : List Nat) : Option (List Token) :=
  let ks := js.filterMap fun j => alookup j o.held
  if ks.length == js.length then some ks else none

/-- Pieces and index entries that are spent. -/
def Op.without (o : Op) (js : List Nat) : Op := { o with held := o.held.filter fun h => !js.contains h.1 }

/-- The index entries of elements from k on, n of them. -/
def indexKeys (k n : Nat) : List Nat := (List.range n).map fun j => indexKey (k + j)

/-- Bytes of pieces of n bytes. -/
def pieceBytes (n : Nat) (ks : List Token) : List Byte := ks.flatMap fun k => natToBytes n k.val.toNat

/-- The place that element k is read from (R308). -/
def State.source (s : State) (t : TileId) (o : Op) (c : StreamCmd) (k : Nat) : Reach × WalkNote :=
  if c.kind == 4 then (s.flat t c .load k, {}) else s.reach t o c k

/-- Pieces of n elements from element k on. -/
def StreamCmd.piecesOf (c : StreamCmd) (k n : Nat) : List Nat := (List.range (n * c.perElem)).map (c.perElem * k + ·)

/-- The pieces of elements, or the step that reads one more of them. -/
def State.gather (s : State) (t : TileId) (o : Op) (c : StreamCmd) (k n : Nat) : Option State ⊕ (List Byte × Bool) :=
  let js := c.piecesOf k n
  match o.pieces? js with
  | some ks => .inr (pieceBytes (min c.e 8) ks, ks.any (·.poison))
  | none => .inl (s.readAhead t o (s.source t o c) c.perElem (min c.e 8) c.total k (js.filter fun j => (alookup j o.held).isNone))

/-- The section that has a port, armed. -/
def Tile.sectionAt (t : Tile) (egress : Bool) (port : Nat) : Option Section :=
  t.sections.find? fun x => (alookup port (if egress then x.outPos else x.inPos)).isSome

/-- No older operation of the queue works on the same port: repeated beats go first. -/
def Tile.firstOnPort (t : Tile) (o : Op) : Bool :=
  (t.streamQ.takeWhile fun x => x.id != o.id || x.ghost != o.ghost).all fun x => !(x.started && t.portOf x == t.portOf o)

/-- The next delivery of an operation of kind 000. -/
def State.feed (s : State) (t : TileId) (o : Op) (c : StreamCmd) : Option State :=
  let tl := s.pk.tile t
  match tl.portOf o with
  | none => none
  | some (_, q) =>
    match tl.sectionAt false q with
    | none => none
    | some x =>
      if !tl.acceptsBeat (s.pk.tileAccs t) x q || !tl.firstOnPort o then none
      else
        let base : Int := ((alookup q x.inPos).getD 0 : Nat) - (o.pos : Int)
        let give (s : State) (js : List Nat) (k : Token) : State :=
          { s with pk := s.pk.modTile t fun y =>
              (y.giveBeat x q k).modStream o.id o.ghost fun z => { z.without js with pos := o.pos + 1, beat0 := base } }
        match c.delivery o.isPb o.pos with
        | .done => none
        | .eor eos => some (give s [] (eorTok eos))
        | .beat k n =>
          match s.gather t o c k n with
          | .inl r => r
          | .inr (bs, bad) =>
            let js := c.piecesOf k n ++ indexKeys k n
            if bad then some { give s js (dataTok (Config.freeValue s.freeCount) true) with freeCount := s.freeCount + 1 }
            else some (give s js (dataTok (placeLoad (tyOfBytes c.e) (!c.sc) bs)))

/-- The bytes of lane j of a beat. -/
def beatBytes (c : StreamCmd) (x : W128) (j : Nat) : List Byte := ((takeStore (tyOfBytes c.e) (!c.sc) x).drop (j * c.e)).take c.e

/-- The beat taken from an egress, among what the operation holds. -/
def Op.beat? (o : Op) : Option (Nat × Token) := o.held.find? fun h => h.1 < indexKey 0

/-- The operation goes on to an element: index entries of those before it are spent, and, where it is the last of its beat, the
beat. -/
def Op.goOn (o : Op) (pos : Nat) (whole : Bool) : Op :=
  { o with pos := pos, held := o.held.filter fun h => (!whole && h.1 < indexKey 0) || indexKey pos ≤ h.1 }

/-- Elements of a beat from an egress, from position `pos` on; the beat is kept until its last one. -/
def State.writeBeat (s : State) (t : TileId) (o : Op) (c : StreamCmd) (x : W128) (pos : Nat) : Nat → State
  | 0 =>
    let whole : Bool := pos % c.perBeat == 0 || decide (c.total ≤ pos)
    { s with pk := s.pk.modTile t fun y => y.modOp o.id fun z => z.goOn pos whole }
  | n + 1 =>
    let r := s.reach t o c pos
    let s1 := s.walked t (s.pk.tileVi t) r.2
    match r.1 with
    | .index pl m key => ((s1.setPos t o pos).readInto t o pl 0 m key).getD (s1.setPos t o pos)
    | .fault e va => { s1 with pk := s1.pk.stopOp t { o with pos := pos } e va pos }
    | .at_ pl va => (s1.writeElem t o pl va (beatBytes c x (pos % c.perBeat)) false).writeBeat t o c x (pos + 1) n

/-- The tile's residency is on its way to its stop points (R427). -/
def Pack.nearStop (p : Pack) (t : TileId) : Bool :=
  match p.resOf t with
  | some (_, r) => r.st == .saving && !r.cut
  | none => false

/-- The beat that an operation of kind 011 holds (R308). -/
def State.drainPort (s : State) (t : TileId) (o : Op) (c : StreamCmd) : Option State :=
  match o.beat? with
  | none => none
  | some (key, k) =>
    let drop (f : Op → Op) : State := { s with pk := s.pk.modTile t fun y => y.modOp o.id fun z => f (z.goOn z.pos true) }
    if k.isEos then some (drop fun z => { z with ending := true })
    else if k.isEor then some (drop id)
    else if k.isNull then some (drop fun z => { z with pos := min (z.pos + c.perBeat) c.total })
    else if c.total ≤ o.pos then
      if o.mark then some (drop id)
      else
        let s1 := drop fun z => { z with mark := true }
        some { s1 with pk := s1.pk.defer t o.ctx Cause.blockForm 7 0 o.block (BitVec.ofNat 48 (key / 16)) }
    else
      let n := min (c.perBeat - o.pos % c.perBeat) (c.total - o.pos)
      let m := c.outer o.isPb
      some (s.writeBeat t o c k.val o.pos (if s.pk.nearStop t then min n (m - o.pos % m) else n))

/-- An element for an operand slot is read: it becomes visible with its 16-byte unit (R194). -/
def Op.fill (o : Op) (a : Nat) (bs : List Byte) (bad : Bool) : Op := { o with fills := o.fills ++ [(a, bs, bad)] }

/-- The 16-byte units of a fill that are read whole, or as far as they go: the operation will read no more of them now. -/
def Op.filledUnits (o : Op) (c : StreamCmd) : List Nat :=
  let next := (c.slot.val * 65536 + o.pos * c.e) / 16
  let open_ (u : Nat) : Bool := u == next && decide (o.pos < c.total) && !o.stopped && !o.ending
  ((o.fills.map fun f => f.1 / 16).eraseDups).filter fun u => !open_ u

/-- A unit of a fill becomes visible in its slot, wholly (R194). -/
def Tile.landFill (t : Tile) (o : Op) (u : Nat) : Tile :=
  let now := o.fills.filter fun f => f.1 / 16 == u
  (now.foldl (fun t f => t.writeOm f.1 f.2.1 f.2.2) t).modOp o.id fun z => { z with fills := z.fills.filter fun f => f.1 / 16 != u }

/-- The units of a fill become visible in no decided order (R259): a free value picks the next one, or none for now. -/
def State.landSome (s : State) (t : TileId) (o : Op) (c : StreamCmd) (must : Bool) : Option State :=
  let us := o.filledUnits c
  let v := (Config.freeValue s.freeCount).toNat
  if us.isEmpty || (!must && v % 2 == 1) then none
  else some { s with pk := s.pk.modTile t fun x => x.landFill o (us.getD (v / 2 % us.length) 0), freeCount := s.freeCount + 1 }

/-- A copied element reaches its destination. -/
def State.copyTo (s : State) (t : TileId) (o : Op) (c : StreamCmd) (bs : List Byte) (bad : Bool) : State :=
  let k := o.pos
  let step (s : State) : State := { s with pk := s.pk.modTile t fun x => x.modOp o.id fun z => { z.without (c.piecesOf k 1 ++ indexKeys k 1) with pos := k + 1 } }
  if c.kind == 2 then
    let a := c.slot.val * 65536 + k * c.e
    if s.pk.omBreach t (a / 65536) then { s with pk := s.pk.stopOp t o (xerr 5 8) 0 k }
    else step { s with pk := s.pk.modTile t fun x => x.modOp o.id fun z => z.fill a bs bad }
  else
    let r : Reach × WalkNote := if c.kind == 1 then (s.flat t c .store k, {}) else s.reach t o c k
    let s1 := s.walked t (s.pk.tileVi t) r.2
    match r.1 with
    | .index pl n key => (s1.readInto t o pl 0 n key).getD s1
    | .fault e va => { s1 with pk := s1.pk.stopOp t o e va k }
    | .at_ pl va => step (s1.writeElem t o pl va bs bad)

/-- The next element of a copy is read and passed on. -/
def State.copyNext (s : State) (t : TileId) (o : Op) (c : StreamCmd) : Option State :=
  if c.total ≤ o.pos then none
  else match s.gather t o c o.pos 1 with
    | .inl r => r
    | .inr (bs, bad) => some (s.copyTo t o c bs bad)

/-- The next step of a copy, of kinds 001, 010 and 100: a unit read for an operand slot becomes visible, or the next element is
taken. -/
def State.copyElem (s : State) (t : TileId) (o : Op) (c : StreamCmd) : Option State :=
  match s.landSome t o c false with
  | some s1 => some s1
  | none => (s.copyNext t o c).or (s.landSome t o c true)

/-! ### Sends (R312-R315) -/

/-- The send command of an operation, once known. -/
def Op.send? (o : Op) : Option SendCmd :=
  match o.snap.getD o.cmd with
  | .send c => some c
  | _ => none

/-- The destination of a local send: within its own swarm (R312). -/
def Pack.sendDest (p : Pack) (t : TileId) (c : SendCmd) : Dest :=
  match p.resOf t with
  | none => .absent
  | some (_, r) => p.destIn r.swarm c.die c.x.toNat c.y.toNat

/-- The destination of a send as it is named to another package, in the VI's plain-wide number and this swarm's plain group
(R312). -/
def Pack.sendSpot (p : Pack) (t : TileId) (c : SendCmd) : BitVec 12 × Spot :=
  ((p.vi (p.tileVi t)).pvi, { group := Desc.pgroup (p.tileDesc t), die := c.die, xy := c.y ++ c.x })

/-- The destination of a send in another package; none when it stays here. -/
def Pack.sendPeer (p : Pack) (t : TileId) (c : SendCmd) : Except XErr (Option (Fin 16)) :=
  p.peerCheck (p.tileVi t) (BitVec.ofNat 80 (c.peer.toNat * 2 ^ 72))

/-- Units of a send, and the source of unit k. -/
def SendCmd.total (c : SendCmd) : Nat := c.rows * c.units

def SendCmd.source (c : SendCmd) (k : Nat) : Nat := ((c.src : Int) + (k / c.units : Nat) * c.stride + (16 * (k % c.units) : Nat)).toNat

/-- A unit goes to the buffer of the handle that the send fills, as accesses of the operation (R246, R314). -/
def State.landUnit (s : State) (t v : TileId) (o : Op) (c : SendCmd) (bs : List Byte) (bad : Bool) : State :=
  let off := ((s.pk.tile v).handles.get c.handle).base + 16 * o.pos
  if s.pk.padBreach v off then { s with pk := s.pk.stopOp t o (xerr 5 8) 0 o.pos }
  else
    let base : Access := { o.access t with tile := v, poison := bad, owner := some (t, (s.pk.tile t).res) }
    let s1 := s.postUnit base off bs c.accop c.acctype
    { s1 with pk := s1.pk.modTile v (·.modHandle c.handle fun y => { y with bytes := y.bytes + 16 }) }

/-- The two words of a unit, by number. -/
def unitPieces (k : Nat) : List Nat := [2 * k, 2 * k + 1]

/-- The place of unit k in the sender's scratchpad. -/
def State.unitAt (s : State) (t : TileId) (c : SendCmd) (k : Nat) : Reach × WalkNote :=
  let off := c.source k
  (if s.pk.padBreach t off then .fault (xerr 5 8) 0 else .at_ (.scratch off (s.pk.padP t off)) 0, {})

/-- A unit that has been read leaves: to another package, or to a handle of this one. A member that no longer may be reached
stops the send (R234). -/
def State.passUnit (s : State) (t : TileId) (o : Op) (c : SendCmd) (bs : List Byte) (bad : Bool) : Option State :=
  let step (s : State) : State :=
    { s with pk := s.pk.modTile t fun x => x.modOp o.id fun y =>
        { y.without (unitPieces o.pos) with pos := o.pos + 1, cycles := if o.pos == 0 then 0 else y.cycles } }
  match s.pk.sendPeer t c with
  | .error e => some { s with pk := s.pk.stopOp t o e (BitVec.ofNat 80 (c.peer.toNat * 2 ^ 72)) o.pos }
  | .ok (some m) =>
    let dest := s.pk.sendSpot t c
    some (step { s with pk := { s.pk with outgoing := s.pk.outgoing ++ [.send m dest.1 dest.2 c.handle (16 * o.pos) bs bad c.acctype c.accop o.id] } })
  | .ok none => match s.pk.sendDest t c with
    | .tile v =>
      let s1 := s.landUnit t v o c bs bad
      some (if ((s1.pk.tile t).streamQ.any fun x => x.id == o.id && x.stopped) then s1 else step s1)
    | _ => none

/-- The next step of a started send: a word of its source is read, or a unit leaves. -/
def State.sendUnit (s : State) (t : TileId) (o : Op) (c : SendCmd) : Option State :=
  if c.total ≤ o.pos then none
  else
    let js := unitPieces o.pos
    match o.pieces? js with
    | some ks => s.passUnit t o c (pieceBytes 8 ks) (ks.any (·.poison))
    | none => s.readAhead t o (s.unitAt t c) 2 8 c.total o.pos (js.filter fun j => (alookup j o.held).isNone)

/-! ### MEMORY_PORT_SLOT (R310) -/

/-- A stop point of an operation (R215, R319): an outer iteration's end, 16 KiB of a send, the end of a K-step or of a row,
or completion. -/
def Op.atStop (o : Op) : Bool :=
  match o.snap.getD o.cmd with
  | .strm c =>
    let m := c.outer o.isPb
    if c.toPort then
      (match c.delivery o.isPb o.pos with | .beat k _ => decide (k % m < c.perBeat) | .eor eos => eos | .done => true)
    else o.pos % m == 0 && o.fills.isEmpty
  | .send _ => o.pos % 1024 == 0
  | .mma _ => !o.mark
  | .accz _ => false
  | .accdrn d => Drain.section_ d || o.pos % Drain.rowUnits d == 0
  | _ => true

/-- An operation goes on: its residency runs, or is on its way to its stop point (R427). -/
def Pack.opRuns (p : Pack) (t : TileId) (o : Op) : Bool :=
  match p.resOf t with
  | some (_, r) => r.st == .resident || (r.st == .saving && !r.cut && !o.atStop)
  | none => false

/-- The next transfer of an active operation, when it has one waiting. -/
def State.transfer (s : State) (t : TileId) (o : Op) : Option State :=
  if !o.started || !s.pk.opRuns t o then none
  else if o.stopped || o.ending then (match o.stream? with | some c => s.landSome t o c true | none => none)
  else match o.snap.getD o.cmd with
    | .strm c => if c.toPort then s.feed t o c else if c.fromPort then s.drainPort t o c else s.copyElem t o c
    | .send c => s.sendUnit t o c
    | _ => none

/-- The operations that work on a stream number. -/
def Tile.onStream (t : Tile) (n : Nat) : List Op :=
  t.streamQ.filter fun o => match o.stream? with | some c => c.atPort && c.stream.val == n | none => false

def Tile.unbound (t : Tile) : List Op :=
  t.streamQ.filter fun o => match o.stream? with | some c => !c.atPort | none => o.send?.isSome

/-- The stream that a slot-table entry names, if it is valid; and the number it holds. -/
def Tile.slotEntry (t : Tile) (j : Nat) : Bool × Nat :=
  let e := t.active.elem (BitVec.ofNat 12 (0xE00 + j))
  (e.configured && bit (e.field 0) 15, fld (e.field 0) 3 0)

/-- The order in which a cycle is offered: the entry's stream, the next stream numbers, the oldest of the rest. -/
def Tile.offered (t : Tile) : List Op :=
  let e := t.slotEntry t.portSlot.toNat
  let next := (List.range 16).map fun k => (e.2 + 1 + k) % 16
  ((if e.1 then [e.2] else []) ++ next).flatMap t.onStream ++ t.unbound

/-- MEMORY_PORT_SLOT (R310): one cycle of the memory port. -/
def execMemoryPortSlot (t : TileId) (s : State) : Host.Outcome State Fault Refusal :=
  let s1 := (firstSome (s.transfer t) (s.pk.tile t).offered).getD s
  .next { s1 with pk := s1.pk.modTile t fun x => { x with portSlot := x.portSlot + 1 } }

/-! ### STREAM_OP_START (R302, R304, R309) -/

/-- Operations that count against the sixteen. -/
def Tile.activeStreams (t : Tile) : Nat := (t.streamQ.filter fun o => o.started && !o.ghost).length

/-- The parameter block's limits (R306, R308, R313). -/
def StreamCmd.blockOk (c : StreamCmd) (p : Pack) (t : TileId) : Bool :=
  c.limitsOk && (match c.task with
    | some (_, xy) => (p.regionTile t (xy.toNat % 8) (xy.toNat / 8)).isSome
    | none => true)

/-- A parsed block, if it keeps its map's limits. -/
def parseBlock (p : Pack) (t : TileId) (send : Bool) (b : BitVec 512) : Option EngineCmd :=
  if send then
    let c := parseSend b true
    if sendpbReserved b && c.limitsOk then some (.send c) else none
  else
    let c := parseStrmpb b
    if strmpbReserved b && c.blockOk p t then some (.strm c) else none

/-- A parameter block read: a fault, or its bytes and poison. -/
inductive BlockRead where
  | fault (e : XErr) (va : VA)
  | ok (bs : List Byte) (bad : Bool)
  deriving DecidableEq, Repr

/-- The block is read as one event, or served by the tile's cache (R304). -/
def State.readBlock (s : State) (t : TileId) (o : Op) (va : VA) : BlockRead × State :=
  match (s.pk.tile t).blockCache.find? fun k => k.1 == va with
  | some (_, b) =>
    if Config.choice s.freeCount % 2 == 0 then (.ok (natToBytes 64 b.toNat) false, { s with freeCount := s.freeCount + 1 })
    else fresh { s with freeCount := s.freeCount + 1 }
  | none => fresh s
where
  /-- From memory. -/
  fresh (s : State) : BlockRead × State :=
    let vi := s.pk.tileVi t
    let r := checkG s.mem s.pk t o.lvl .load va 64
    let s1 := s.walked t vi r.2
    match r.1 with
    | .error e => (.fault e va, s1)
    | .ok (.home d off false _) =>
      let a := memIndex d off
      let bad := (List.range 4).any fun j => s1.mem.badGranule (a + 16 * j)
      let s2 := (List.range 4).foldl (fun s j => s.stored (readGranule s.mem s.pk vi (a + 16 * j))) s1
      let bs := readBytes s1.mem.cells a 64
      let keep (y : Tile) : Tile :=
        if bad then y else { y with blockCache := ((va, BitVec.ofNat 512 (bytesToNat bs)) :: y.blockCache.filter fun k => k.1 != va).take 16 }
      (.ok bs bad, { s2 with pk := s2.pk.modTile t keep })
    | .ok _ => (.fault (xerr 5 5) va, s1)

/-- A stream command starts, waits, or completes with no effect. -/
def Pack.startStrm (p : Pack) (t : TileId) (o : Op) (c : StreamCmd) : Pack :=
  let tl := p.tile t
  if (c.eor || c.eos) && !c.toPort then p.failOp t o ⟨Cause.blockForm, 6⟩
  else if o.isPb && !c.slots.all (fun k => (slotAt tl.omSt k).heldBy o.ctx) then p.failOp t o ⟨Cause.omSlot, 2⟩
  else if c.atPort && tl.streamQ.any (fun x => x.started && (match x.stream? with | some d => d.atPort && d.stream == c.stream | none => false)) then p
  else if c.atPort && (tl.boundPort c.fromPort c.stream.val).isNone then p.failOp t o ⟨Cause.blockForm, 6⟩
  else
    let base : Int := match tl.boundPort false c.stream.val with
      | some q => ((tl.sectionAt false q).bind fun x => alookup q x.inPos).getD 0
      | none => 0
    p.modTile t fun x => x.modOp o.id fun y => { y with started := true, snap := some (.strm c), pos := 0, beat0 := if c.toPort then base else 0 }

/-- A waiter for a handle still waits: its operation has not started, or its member is up (R298). -/
def Pack.stillWaits (p : Pack) : HandleWait → Bool
  | .own t op => (p.tile t).streamQ.any fun o => o.id == op && !o.started && !o.ending
  | .far m .. => bit p.membersUp m.val

/-- A send arrives at its handle, and waits there after those that came before. -/
def Pack.waitFor (p : Pack) (v : TileId) (h : Fin 64) (w : HandleWait) : Pack :=
  p.modTile v (·.modHandle h fun x =>
    let ws := x.waiters.filter p.stillWaits
    { x with waiters := if ws.contains w then ws else ws ++ [w] })

/-- The handle's next waiter. -/
def Pack.nextFor (p : Pack) (v : TileId) (h : Fin 64) : Option HandleWait := ((p.tile v).handles.get h).waiters.find? p.stillWaits

def Pack.doneFor (p : Pack) (v : TileId) (h : Fin 64) (w : HandleWait) : Pack :=
  p.modTile v (·.modHandle h fun x => { x with waiters := x.waiters.filter (· != w) })

/-- A send is made ready: its peer is judged, and another package is asked for the handle, once (R313, R315). -/
def Pack.startSend (p : Pack) (t : TileId) (o : Op) (c : SendCmd) : Pack :=
  let known := p.modTile t fun x => x.modOp o.id fun y => { y with snap := some (.send c) }
  match p.sendPeer t c with
  | .error e => p.failOp t o e (BitVec.ofNat 80 (c.peer.toNat * 2 ^ 72))
  | .ok none => match p.sendDest t c with
    | .absent => p.failOp t o (xerr 5 7)
    | .later => known
    | .tile v => known.waitFor v c.handle (.own t o.id)
  | .ok (some m) =>
    let asked := known.modTile t fun x => x.modOp o.id fun y => { y with cycles := 0, mark := true }
    let dest := p.sendSpot t c
    if o.mark then p else { asked with outgoing := asked.outgoing ++ [.reserve m dest.1 dest.2 c.handle c.bytes o.id] }

/-- An operation's block has not been read: it is read as soon as what its context did before the issue is acknowledged,
and before the operation starts (R304). -/
def Op.unread (o : Op) : Bool := o.isPb && o.snap.isNone && !o.started && !o.ending && !o.stopped

/-- An operation's block is read; a bad one makes it complete with no effect. -/
def State.snapshot (s : State) (t : TileId) (o : Op) : State :=
  let block (va : VA) (send : Bool) : State :=
    match s.readBlock t o va with
    | (.fault e a, s1) => { s1 with pk := s1.pk.stopOp t o e a 0 }
    | (.ok bs bad, s1) =>
      if bad then { s1 with pk := s1.pk.failOp t o ⟨Cause.poison, 5⟩ va }
      else match parseBlock s1.pk t send (BitVec.ofNat 512 (bytesToNat bs)) with
        | none => { s1 with pk := s1.pk.failOp t o ⟨Cause.blockForm, 4⟩ va }
        | some c => { s1 with pk := s1.pk.modTile t fun x => x.modOp o.id fun y => { y with snap := some c } }
  match o.cmd with
  | .strmpb va => block va false
  | .sendpb va => block va true
  | _ => s

/-- The oldest waiting operation of the stream queue starts, waits or fails. -/
def Pack.startStream (p : Pack) (t : TileId) (o : Op) : Pack :=
  match o.snap.getD o.cmd with
  | .strm k => p.startStrm t o k
  | .send k => p.startSend t o k
  | _ => p

/-- STREAM_OP_START (R302, R304, R309): a block not yet read is read; else the oldest waiting operation is tried. -/
def execStreamOpStart (t : TileId) (s : State) : Host.Outcome State Fault Refusal :=
  let tl := s.pk.tile t
  match tl.streamQ.find? fun o => o.unread && s.pk.forked t o with
  | some o => .next (State.snapshot { s with pk := s.pk.fork t o } t o)
  | none =>
    match firstWaiting tl.streamQ with
    | none => .next s
    | some o =>
      if o.stopped || o.unread || !s.pk.enginesRun t then .next s
      else if o.ending then .next { s with pk := s.pk.modTile t fun x => x.modOp o.id fun y => { y with started := true } }
      else if 16 ≤ tl.activeStreams || !s.pk.forked t o then .next s
      else .next { s with pk := (s.pk.fork t o).startStream t o }

end Sys2Proof.Machine
end

