-- ==== Sys2Proof/Machine/Residency.lean ====
section
/-! DEFINITION. Residencies as a whole (R73-R79, R215, R319, R382, R387-R389, R426-R431): a tile as a residency
finds it, the region a residency takes and leaves, the save at the last issue, and the return of a saved one. -/

namespace Sys2Proof.Machine

/-! ### Tiles between residencies -/

/-- A tile as a residency finds it (R191, R231, R298, R303): its clock, its occupancy and the marks of state in
place stay. -/
def Tile.cleared (t : Tile) : Tile :=
  { clk := t.clk, stretched := t.stretched, stretches := t.stretches, excess := t.excess, fenced := t.fenced, ret := t.ret
    retCycles := t.retCycles, res := t.res, inPlace := t.inPlace }

/-- A residency takes its tiles, which hold nothing of earlier work (R191, R231, R387, R389): state in place of another VI,
or any where the footprint is 0, is saved out first. -/
def Pack.occupy (p : Pack) (r : Nat) : Pack :=
  match p.resid? r with
  | none => p
  | some x =>
    let desc := ((p.swarmOf x).map (·.desc)).getD 0
    let out := footprint desc == 0
    let mine (k : Nat) : Bool := !out && ((p.resid? k).map fun y => y.vi == x.vi).getD false
    x.tiles.foldl (fun p t => p.modTile t fun y => { y.cleared with res := some r, inPlace := y.inPlace.filter mine }) p

/-- A tile whose residency has ended: its memories and registers stand until the next one takes it (R191, R328). -/
def Tile.left (t : Tile) (r : Nat) : Tile :=
  { t with res := none, inPlace := t.inPlace.filter (· != r), links := [], store := [], insts := [], cfgStream := [], fetches := [] }

/-- The tiles of a residency that is lost, or saved out, return to the scheduler. -/
def Pack.vacate (p : Pack) (x : Resid) (r : Nat) : Pack :=
  x.tiles.foldl (fun p t => p.modTile t fun y =>
    if y.res == some r then { y.cleared with res := none, inPlace := y.inPlace.filter (· != r) } else y) p

/-- Every tile of a region is free: no residency, not fenced, not in retention (R341). -/
def Pack.regionFree (p : Pack) (d : DieId) (x0 y0 w h : Nat) : Bool :=
  (regionTiles x0 y0 w h).all fun n =>
    let t := p.tile ⟨d, n⟩
    t.res.isNone && !t.fenced && t.ret == .active

/-- Best-effort work begins and ends a stay on its tiles (R394); stays that the average has left behind go. -/
def Pack.startStay (p : Pack) (r : Nat) : Pack :=
  match p.resid? r with
  | none => p
  | some x =>
    if x.bounded then p
    else p.modDie x.die fun d => { d with stays := d.stays ++ [{ res := r, vi := x.vi, tiles := x.w * x.h, start := d.now }] }

def Pack.endStay (p : Pack) (r : Nat) : Pack :=
  match p.resid? r with
  | none => p
  | some x =>
    let close (now : Nat) (k : Stay) : Stay := if k.res == r && k.stop.isNone then { k with stop := some now } else k
    let kept (now : Nat) (k : Stay) : Bool := match k.stop with | some e => decide (now < e + 2 ^ 24) | none => true
    p.modDie x.die fun d => { d with stays := (d.stays.map (close d.now)).filter (kept d.now) }

/-- A new residency of a swarm on a region, which its tiles now belong to. -/
def Pack.newResid (p : Pack) (w : Nat) (d : DieId) (x0 y0 bound : Nat) : Pack :=
  match p.swarm? w with
  | none => p
  | some x =>
    let r := p.resids.length
    let y : Resid := { swarm := w, die := d, x0 := x0, y0 := y0, w := Desc.width x.desc, h := Desc.height x.desc, vi := x.vi,
                       lvl := x.lvl, bounded := x.cls, bound := bound, placedAt := (p.die d).now,
                       firstAt := (p.die d).now }
    (({ p with resids := p.resids ++ [y] }).occupy r).startStay r

/-- A residency ends (R75, R79): its tiles are free. -/
def Pack.endResid (p : Pack) (r : Nat) : Pack :=
  match p.resid? r with
  | none => p
  | some x =>
    let brings (f : Floor) (t : TileId) : Floor := (p.tile t).ctxs.toList.foldl (fun f c => f.join c.brings) f
    let p1 := x.tiles.foldl (fun p t => p.modTile t fun y => if y.res == some r then y.left r else y) p
    (p1.endStay r).modResid r fun y => { y with st := .ended, saved := [], told := x.tiles.foldl brings y.told }

/-! ### Stopping -/

/-- The die scheduler requests pre-emption (R426); `hold` keeps the residency stopped after it, for a cause. -/
def Pack.requestPreempt (p : Pack) (r : Nat) (hold : Bool) (cause : Option Byte) : Pack :=
  p.modResid r fun x =>
    if x.st == .resident && x.pre.isNone then { x with pre := some 0, preHold := hold, stopCause := cause } else x

/-- The save pool of its die can hold the residency now (R430, log 84). -/
def Pack.poolHolds (p : Pack) (r : Nat) : Bool :=
  match p.resid? r with
  | some x => Config.poolHolds x.die r (p.die x.die).now
  | none => false

/-- The residency has stopped and placement may take it up again (R424, R462). -/
def Pack.toPlacement (p : Pack) (r : Nat) (bounded : Bool) : Pack :=
  p.modResid r fun x =>
    { x with st := .saved, preHold := false, stopCause := none, thermal := false, bounded := x.bounded && bounded
             waitSince := (p.die x.die).now, watchdog := 0 }

/-! ### Arrival of a pre-emption (R427) -/

/-- A context as pre-emption leaves it: a faulted instance recurs on replay; SYSCALL, whose instance has committed,
stays raised (R418, R429). -/
def Ctx.paused (x : Ctx) : Ctx :=
  let sys := match x.raised with | some r => r.cause == Cause.syscall | none => false
  if x.st != .live then x
  else if sys then { x with req := none }
  else { x with raised := none, req := some { va := x.cur.pc } }

/-- A started MMALD goes back to its start, with an empty shadow plane (R215). -/
def Tile.dropLoad (t : Tile) (o : Op) : Tile :=
  let back (t : Tile) : Tile :=
    { t with wShadow := {}, wReady := false }.modOp o.id fun x => { x with started := false, held := [], ports := [] }
  match o.cmd with
  | .mmald d =>
    if !Mmald.src d then back t
    else match t.sectionOf o with
      | none => t
      | some x => (t.takeBack x 0).modOp o.id fun y => { y with held := [] }
  | _ => t

/-- A started CFGLD goes back to its start; its shadow planes are cleared (R319, R428). -/
def Tile.dropConfig (t : Tile) (vi : Fin 64) : Tile :=
  match t.configQ with
  | o :: _ =>
    (match o.cmd with
      | .cfgld a =>
        if !o.started || o.ending || o.stopped then t
        else
          let sides := match (t.shadow.image? a).or (t.image? a vi) with | some i => Header.sides i.hdr | none => 0
          { t with shadow := t.shadow.clearSides sides, cfgStream := t.cfgStream.filter fun c => c.active }.modOp o.id
            fun x => { x with started := false }
      | _ => t)
  | [] => t

/-- Arrival at one tile. -/
def Pack.arrive (p : Pack) (t : TileId) : Pack :=
  let p1 := allCtxs.foldl (fun p c => p.squash t c 0) p
  p1.modTile t fun x =>
    let loads := x.matrixQ.filter fun o => o.started && !o.ending && !o.stopped && o.cmd.isMmald
    let y := (loads.foldl Tile.dropLoad x).dropConfig (p.tileVi t)
    { y with ctxs := y.ctxs.map Ctx.paused, fetches := [] }

/-! ### The last issue (R426, R427) -/

/-- No token of a section is under way, or a fault stopped it. -/
def Pack.drained (p : Pack) (t : TileId) (x : Section) : Bool :=
  let tl := p.tile t
  x.stop.isSome ||
    (!(tl.links.any fun k => k.work.ofSection x) && !(tl.store.any fun k => k.work.ofSection x) &&
      !(p.accs.any fun a => a.tile == t && a.work.ofSection x && a.isLoad))

/-- An operation stands at a stop point. -/
def Op.settled (o : Op) : Bool := !o.started || o.stopped || o.ending || o.atStop

def Pack.settled (p : Pack) (t : TileId) (cut : Bool) : Bool :=
  let tl := p.tile t
  tl.matrixQ.all Op.settled && (cut || tl.streamQ.all Op.settled) && tl.sections.all (p.drained t)

/-- What the save always waits for: commands and HALT.res stops under way, parameter blocks not yet read (R304), steals in
transit, and the residency's accesses but those that another package has yet to answer. -/
def Pack.quiet (p : Pack) (t : TileId) (r : Nat) : Bool :=
  let tl := p.tile t
  tl.cfgStream.isEmpty && !tl.halting && !tl.streamQ.any Op.unread &&
    tl.tasks.all (fun e => match e.st with | .transit _ _ => false | _ => true) &&
    p.accs.all fun a => a.tile != t || a.res != some r || (a.op.isSome && a.isLoad) || (match a.st with | .remote _ => true | _ => false)

/-- An undrained section is set back to its lowest beat not delivered at every egress. -/
def Pack.stopSections (p : Pack) (t : TileId) : Pack :=
  (p.tile t).sections.foldl (fun p x =>
    if x.stop.isSome then p else p.takeBack t x ((p.tile t).backBeat (p.tileAccs t) x)) p

/-- The tile's state is saved in place, without steal requests that no victim has served and reads of its operations that wait
for a word, and the tile is free for another residency (R389, R426). -/
def Pack.saveTile (p : Pack) (r : Nat) (t : TileId) : Pack :=
  let p1 := p.stopSections t
  let unasked (x : Ctx) : Ctx := { x with stealFrom := none }
  let tl := p1.tile t
  let old := { tl with ctxs := tl.ctxs.map unasked }
  let asked (a : Access) : Bool := a.tile == t && a.res == some r && a.op.isSome && a.isLoad
  let p2 := { p1 with accs := p1.accs.filter fun a => !asked a }.modResid r fun x => { x with saved := x.saved ++ [old] }
  p2.modTile t fun y => { y.cleared with res := none, inPlace := y.inPlace.filter (· != r) ++ [r] }

def Pack.saveResid (p : Pack) (r : Nat) : Pack :=
  match p.resid? r with
  | none => p
  | some x =>
    let p1 := (x.tiles.foldl (fun p t => p.saveTile r t) (p.modResid r fun y => { y with saved := [] })).endStay r
    p1.modResid r fun y =>
      { y with st := if y.preHold then .stopped else .saved, pre := none, cut := false, waitSince := (p.die x.die).now }

/-! ### The return of a saved residency (R428, R431) -/

/-- A CFGWR word in a plane, with step 4 alone checked (R318). A written element stays its image's; a cleared one is no image's
any more (log 77, DEDUCED). -/
def CfgPlane.putWord (p : CfgPlane) (w : W32) : CfgPlane :=
  let a := cmdElem w
  match decodeCommand w with
  | .ok (.clearCommand _) => p.modElem a fun _ => {}
  | .ok (.configCommand e f v) =>
    p.modElem a fun x => if commandOk e f then x.setField f.toNat v else x.bar 4 f
  | _ => p.modElem a (·.bar 4 (BitVec.ofNat 4 (cmdField w)))

/-- An image's elements in the planes of given sides; an image that fails its check blocks (R104, R428). -/
def CfgPlane.putImage (p : CfgPlane) (i : Image) (sides : BitVec 4) : CfgPlane :=
  match i.check with
  | some e => p.block i e
  | none =>
    i.elems.foldl (fun p e =>
      if isHeaderEntry (BitVec.ofNat 12 e.1) || !e.2.onSides e.1 sides then p
      else p.modElem (BitVec.ofNat 12 e.1) fun _ => e.2) p

/-- One write of a plane's record is made again. -/
def State.putWrite (s : State) (t : TileId) (lvl active : Bool) (w : PlaneWrite) : State :=
  match w with
  | .word v =>
    let put (p : CfgPlane) : CfgPlane := { p.putWord v with log := p.log ++ [w] }
    { s with pk := s.pk.modTile t fun x => x.modPlane active put }
  | .image i sides =>
    let r := s.fetchImage t lvl i.addr
    let s1 := r.1.state
    if r.1.err.isSome || r.1.poison then s1
    else
      let put (p : CfgPlane) : CfgPlane := { p.putImage r.2 sides with log := p.log ++ [.image r.2 sides] }
      { s1 with pk := s1.pk.modTile t fun x => x.modPlane active put }

/-- Elements that were blocked stay blocked (R104). -/
def CfgPlane.keepBlocked (p old : CfgPlane) : CfgPlane :=
  old.elems.foldl (fun p e => if e.2.blocked then p.modElem (BitVec.ofNat 12 e.1) fun _ => e.2 else p) p

/-- A plane is written again from its record. -/
def State.restorePlane (s : State) (t : TileId) (lvl active : Bool) (old : CfgPlane) : State :=
  let s1 := old.log.foldl (fun s w => s.putWrite t lvl active w) s
  { s1 with pk := s1.pk.modTile t fun x => x.modPlane active fun p => p.keepBlocked old }

/-- Images that the configuration queue waits for are asked for again. -/
def Tile.askImages (t : Tile) : Tile :=
  { t with fetches := t.configQ.filterMap fun o => match o.cmd with | .cfgld a => if o.started then none else some a | _ => none }

/-- One tile of a saved residency returns. -/
def State.restoreTile (s : State) (r : Nat) (x : Resid) (t : TileId) (old : Tile) : State :=
  let here (y : Tile) : Tile :=
    { old with
      clk := y.clk, stretched := y.stretched, stretches := y.stretches, excess := y.excess, fenced := y.fenced, ret := y.ret, retCycles := y.retCycles
      res := some r, inPlace := y.inPlace.filter (· != r)
      images := [], fetches := [], blockCache := [], tlb := [], ranges := s.mem.loadRanges (s.pk.vi x.vi)
      active := {}, shadow := {}, cfgStream := [] }
  let s0 := { s with pk := s.pk.modTile t fun y => old.matrixQ.foldl Tile.reloadB (here y) }
  let s1 := s0.loadRanges x.die x.vi
  let s2 := (s1.restorePlane t x.lvl true old.active).restorePlane t x.lvl false old.shadow
  { s2 with pk := s2.pk.modTile t Tile.askImages }

/-- Tiles of a residency that has moved (R431): every name of them follows. -/
def Resid.moved (x : Resid) (x0 y0 : Nat) (t : TileId) : TileId :=
  if x.tiles.contains t then { x with x0 := x0, y0 := y0 }.tileAt (x.relX t) (x.relY t) else t

def HandleWait.rename (f : TileId → TileId) : HandleWait → HandleWait
  | .own t op => .own (f t) op
  | w => w

def Handle.rename (f : TileId → TileId) (h : Handle) : Handle :=
  { h with sender := h.sender.map fun s => (f s.1, s.2), waiters := h.waiters.map (HandleWait.rename f) }

def Tile.rename (f : TileId → TileId) (t : Tile) : Tile :=
  { t with handles := t.handles.map (Handle.rename f), matrixQ := t.matrixQ.map fun o => { o with partner := o.partner.map f } }

/-- A saved residency goes to another region of its shape. Only the tiles of its own swarm name its tiles (R383). -/
def Pack.moveResid (p : Pack) (r x0 y0 : Nat) : Pack :=
  match p.resid? r with
  | none => p
  | some x =>
    let f := x.moved x0 y0
    let kin (y : Resid) : Bool := y.swarm == x.swarm
    let here (y : Tile) : Tile := if ((y.res.bind p.resid?).map kin).getD false then y.rename f else y
    let p1 := { p with
      accs := p.accs.map fun (a : Access) => 
        let b := if a.res == some r then { a with tile := f a.tile } else a
        { b with owner := b.owner.map fun (o : TileId × Option Nat) => if o.2 == some r then (f o.1, o.2) else o }
      arrivals := p.arrivals.map fun (a : Arrival) => if a.res == some r then { a with tile := f a.tile } else a
      pending := p.pending.map fun (n : PendRec) => if n.res == some r then { n with ctx := n.ctx.map fun (c : TileId × CtxId) => (f c.1, c.2) } else n
      dies := p.dies.map fun (d : Die) => { d with tiles := d.tiles.map here }
      resids := p.resids.map fun (y : Resid) => if kin y then { y with saved := y.saved.map (Tile.rename f) } else y }
    p1.modResid r fun y => { y with x0 := x0, y0 := y0 }

/-- A saved residency returns to its region. -/
def State.resume (s : State) (r : Nat) : State :=
  match s.pk.resid? r with
  | none => s
  | some x =>
    let s1 := { s with pk := s.pk.occupy r }
    let s2 := (x.tiles.zip x.saved).foldl (fun s y => s.restoreTile r x y.1 y.2) s1
    { s2 with pk := (s2.pk.startStay r).modResid r fun y =>
      { y with st := .resident, saved := [], placedAt := (s.pk.die x.die).now, watchdog := 0, pre := none, cut := false } }

/-! ### Residencies, tiles and dies that are lost (R18, R254, R439, R456) -/

/-- Accesses of a residency whose tiles are gone: those to memory go on. -/
def Pack.loseAccs (p : Pack) (r : Nat) : Pack :=
  { p with accs := p.accs.filter fun a => a.res != some r || (!a.isLoad && (match a.place with | .home .. | .remote _ => true | _ => false)) }

/-- A record sent to a context that has not taken it, as the context takes it: in its steal buffer, or on its tile's queue. -/
def Tile.receive (t : Tile) (c : CtxId) (e : TaskEntry) : Tile :=
  let t1 := t.modCtx c fun y => { y with stealFrom := none }
  if (t.ctx c).cur.stl.isNone then t1.modCtx c fun y => { y with cur := { y.cur with stl := some e.record }, stlFloor := e.floor }
  else { t1 with tasks := t1.tasks ++ [{ e with st := .ready }] }

/-- Records that lost tiles have sent belong to their thieves (R350). -/
def Pack.handOver (p : Pack) (ts : List TileId) (lost : TileId → Bool) : Pack :=
  (ts.filter lost).foldl (fun p t => (p.tile t).tasks.foldl (fun p e =>
    match e.st with
    | .transit v c => if !lost v && (p.ctx v c).stealFrom == some t.n then p.modTile v (·.receive c e) else p
    | _ => p) p) p

/-- The state of a residency's tiles where some are lost: of the others, what stands on them or is saved. -/
def Pack.remains (p : Pack) (x : Resid) (r : Nat) (lost : TileId → Bool) : List Tile :=
  (List.range x.tiles.length).map fun k =>
    let t := x.tiles.getD k ⟨0, 0⟩
    if lost t then {} else if (p.tile t).res == some r then p.tile t else x.saved.getD k {}

/-- A residency that loses a tile is stopped for good (R18, R439). The state of its other tiles stays with it, so that the
supervisor can read their queues (R350). -/
def Pack.stopLost (p : Pack) (r : Nat) (lost : TileId → Bool) (cause : Byte) : Pack :=
  match p.resid? r with
  | none => p
  | some x =>
    if x.st == .ended then p
    else
      let p := p.handOver x.tiles lost
      let p1 := (((p.loseAccs r).vacate x r).endStay r).modResid r fun y =>
        { y with st := if y.aborted then .ended else .stopped, fencedOut := true, stopCause := some cause, pre := none, cut := false
                 saved := if y.aborted then [] else p.remains x r lost }
      let left := if x.aborted then [] else x.tiles.filter fun t => !lost t
      let p2 := left.foldl (fun p t => p.modTile t fun y => { y with inPlace := y.inPlace ++ [r] }) p1
      p2.note { res := some r, fr := p.resRec r 3 cause 0 }

/-- The residencies with state on a tile. -/
def Tile.tenants (t : Tile) : List Nat := t.res.toList ++ t.inPlace

/-- The physical row of a logical tile, by its column (R17). -/
def Die.physical (d : Die) (n : Fin 64) : Nat × Nat :=
  let y := n.val / 8
  (n.val % 8, match d.skip.get (Fin.ofNat 8 n.val) with | some k => if y < k then y else y + 1 | none => y)

/-- The tile is out of service until the next boot of its die, which maps the failure. -/
def Pack.fence (p : Pack) (t : TileId) (cause : Byte) : Pack :=
  let p1 := ((p.tile t).tenants).foldl (fun p r => p.stopLost r (· == t) cause) p
  let p2 := p1.modDie t.die fun d => { d with enabled := d.enabled - 1, defects := d.defects ++ [d.physical t.n] }
  p2.modTile t fun x => { x.cleared with fenced := true, res := none, inPlace := [] }

/-- The ring without a die: its queue is lost, and the token goes on (R456). -/
def Order.without (o : Order) (d next : DieId) : Order :=
  { o with queues := o.queues.set d [], late := o.late.set d [], holder := if o.holder == d then next else o.holder }

/-- A die's registers after a reset, or with its power gated: the defect map, the floor, which never rises again, and the
stack mode chosen for the reset stay, and gating keeps the elapsed count (R6, R31, R457; log 89, DESIGN CHOICE). -/
def Die.afterReset (d : Die) (n : Nat) : Die :=
  { defects := d.defects, smode := d.smode, mpool := mpoolReset n, gated := d.gated, outside := d.outside, elap := if d.gated then d.elap else 0
    floorKHz := d.floorKHz, pendingFloor := d.pendingFloor }

/-- A die leaves the package (R254, R456): its residencies are stopped, its state is lost. Records that its error queues would
take go to the lowest die that stays. -/
def Pack.downDie (p : Pack) (d : DieId) : Pack :=
  let rs := (List.range p.resids.length).filter fun r => ((p.resid? r).map fun x => x.die == d).getD false
  let other : Option DieId := allDies.find? fun c => c != d && p.onRing c
  let p0 := rs.foldl (fun p r => p.stopLost r (fun t => t.die == d) 0) p
  let away (n : PendRec) : PendRec := if n.ctx.isNone && n.on.getD n.fr.die == d then { n with on := other } else n
  let p1 := { p0 with pending := p0.pending.map away }
  let up := p1.ringUp &&& ~~~ BitVec.ofNat 8 (2 ^ d.val)
  let next : DieId := (((List.range 8).map fun k => Fin.ofNat 8 (d.val + 1 + k)).find? fun c => bit up c.val && (p.die c).ready).getD d
  { p1.modDie d fun x => x.afterReset d.val with
    ringUp := up
    ring := p1.ring.without d next
    plain := if d == 0 && p1.member == 0xFF then {}
             else { p1.plain with queues := p1.plain.queues.set d [], late := p1.plain.late.set d [] } }

end Sys2Proof.Machine
end

