-- ==== Sys2Proof/Machine/Finish.lean ====
section
/-! DEFINITION. How engine operations begin filling a handle, end, and what they owe at their end: sends and
handles (R298, R312-R315), task puts (R82), completion (R260, R296), configuration (R316-R318), XLINV (R399),
PREEMPT (R424), and replies and timeouts of other packages (R237, R348). -/

namespace Sys2Proof.Machine

/-! ### Operations by name -/

def Tile.openOp (t : Tile) (id : Nat) (f : Op → Op) : Tile := t.modOp id f

/-- An operation that ended in another way than by its last element moves on to its task put. -/
def Tile.toSide (t : Tile) (o : Op) (record : BitVec 256) : Tile :=
  let t1 := t.removeOp o.id
  { t1 with sideQ := t1.sideQ ++ [{ o with record := some record, mark := false, ending := false }] }

/-! ### ENGINE_ELEMENT_FAULT (R243, R466) -/

/-- What an operation does next. -/
def State.tryOp (s : State) (t : TileId) (o : Op) : State :=
  if o.cmd.queue == some 0 then (s.transfer t o).getD s
  else if o.cmd.queue == some 1 && o.started && !o.stopped && !o.ending then s.endMatrix t o else s

/-- ENGINE_ELEMENT_FAULT (R466): an operation whose next element faults stops there, and stays in flight. -/
def execEngineElementFault (t : TileId) (op : Nat) (s : State) : Host.Outcome State Fault Refusal :=
  match (s.pk.tile t).op? op with
  | none => .next s
  | some o =>
    let s1 := s.tryOp t o
    if !o.stopped && (((s1.pk.tile t).op? op).map (·.stopped)).getD false then .next s1 else .next s

/-! ### Handles and sends -/

/-- A handle starts filling (R298, R314). -/
def Handle.startFill (h : Handle) (sender : Option (TileId × Nat)) (far : Option FarFill) : Handle :=
  { h with st := .filling, bytes := 0, idle := 0, sender := sender, far := far, floor := {} }

/-- A local send that is next in its queue: it takes its handle once that is free and the sends that came before have been
served (R298). -/
def Pack.startLocal (p : Pack) (t : TileId) (o : Op) (c : SendCmd) : Pack :=
  match p.sendDest t c with
  | .absent => p.failOp t o (xerr 5 7)
  | .later => p
  | .tile v =>
    let w : HandleWait := .own t o.id
    let p1 := p.waitFor v c.handle w
    let h := (p1.tile v).handles.get c.handle
    if h.st != .free || p1.nextFor v c.handle != some w then p1
    else if h.size < c.bytes then (p1.doneFor v c.handle w).failOp t o (xerr 5 7)
    else if 32 ≤ (p1.tile v).scoreboard then p1
    else
      let told (f : Option Floor) : Option Floor := some ((f.getD {}).join h.floor)
      ((p1.doneFor v c.handle w).modTile v (·.modHandle c.handle (·.startFill (some (t, o.id)) none))).modTile t
        fun x => x.modOp o.id fun y => { y with started := true, pos := 0, floor := told y.floor }

/-- SEND_START (R314): a local send's handle is free and becomes filling. -/
def execSendStart (t : TileId) (op : Nat) (s : State) : Host.Outcome State Fault Refusal :=
  match firstWaiting (s.pk.tile t).streamQ with
  | none => .next s
  | some o =>
    if o.id != op || o.snap.isNone || o.stopped || o.ending || !s.pk.enginesRun t || 16 ≤ (s.pk.tile t).activeStreams then .next s
    else match o.send? with
      | none => .next s
      | some c => match s.pk.sendPeer t c with
        | .ok none => .next { s with pk := s.pk.startLocal t o c }
        | _ => .next s

/-- Another package's send waits at a handle in its turn, and fills it once it is free. -/
def State.reserve (s : State) (t : TileId) (h : Fin 64) (member : Fin 16) (bytes reply : Nat) (w : HandleWait) : State :=
  let p1 := s.pk.waitFor t h w
  let x := (p1.tile t).handles.get h
  if x.st != .free || 32 ≤ (p1.tile t).scoreboard || p1.nextFor t h != some w then { s with pk := p1 }
  else
    let p2 := p1.doneFor t h w
    if x.size < bytes then { s with pk := p2.answer member reply (.fault Cause.prot 7) }
    else
      let f : FarFill := { member := member, reply := reply, op := s.nextId, bytes := bytes }
      { s with pk := (p2.modTile t (·.modHandle h (·.startFill none (some f)))).answer member reply (.granted x.size), nextId := s.nextId + 1 }

/-- HANDLE_RESERVE (R298, R315): another package's send asks for a handle of a residency of its VI and plain group; without
one the request is dropped (R392), and a tile that the residency does not have is an error (R313). Where the residency is
saved, the send waits. -/
def execHandleReserve (spot : Spot) (h : Fin 64) (member : Fin 16) (pvi : BitVec 12) (bytes reply : Nat) (s : State) :
    Host.Outcome State Fault Refusal :=
  match (s.pk.viOf pvi member).bind fun vi => s.pk.spotDest vi spot with
  | none | some .later => .next s
  | some .absent => .next { s with pk := s.pk.answer member reply (.fault Cause.prot 7) }
  | some (.tile t) => .next (s.reserve t h member bytes reply (.far member pvi spot bytes reply))

/-- Units of 16 bytes of the scratchpad, by offset, whose values are not decided. -/
def Tile.blur (t : Tile) (count : Nat) : List Nat → Tile
  | [] => t
  | off :: offs => { t with pad := writeBytes t.pad off (natToBytes 16 (Config.freeValue count).toNat) }.blur (count + 1) offs

/-- HANDLE_FILL_TIMEOUT (R315): a handle that another package fills has seen no data for 2^22 cycles. -/
def execHandleFillTimeout (t : TileId) (h : Fin 64) (s : State) : Host.Outcome State Fault Refusal :=
  let x := (s.pk.tile t).handles.get h
  match x.far with
  | none => .next s
  | some f =>
    if x.st == .filling && 2 ^ 22 ≤ x.idle then
      let p1 := s.pk.modTile t fun y =>
        (y.blur s.freeCount (f.units.map fun k => x.base + 16 * k)).modHandle h fun z => { z with st := .free, bytes := 0, far := none, idle := 0 }
      .next { s with pk := { p1 with accs := p1.accs.filter fun a => a.op != some f.op }, freeCount := s.freeCount + f.units.length }
    else .next s

/-- The handle of a local send that ends is full, with the bytes that arrived (R298). -/
def Pack.fillHandle (p : Pack) (t v : TileId) (o : Op) (c : SendCmd) : Pack :=
  p.modTile v (·.modHandle c.handle fun h =>
    if h.sender == some (t, o.id) && h.st == .filling then { h with st := .full, sender := none, floor := o.brings } else h)

/-! ### TASK_PUT (R82, R313, R350) -/

/-- A record enters a tile's queue, if it has room, with what it brings its taker. -/
def Pack.putTask (p : Pack) (v : TileId) (record : BitVec 256) (fl : Floor) : Option Pack :=
  if (p.tile v).tasks.length < queueCapacity then some (p.modTile v fun x => { x with tasks := x.tasks ++ [{ record := record, floor := fl }] })
  else none

/-- A message that has not been sent leaves its queue. -/
def Order.unqueue (o : Order) (id : Nat) : Order := 
  let out (q : List Message) : List Message := q.filter fun m => m.id != id
  { o with queues := o.queues.map out, late := o.late.map out }

/-- A record for a tile of another package goes as a message of the plain, and the operation completes once that package has
put it (R82). A member that goes down before the notice cancels the put; after it the record is the member's (R350). -/
def Pack.putRemote (p : Pack) (t : TileId) (o : Op) (c : SendCmd) (m : Fin 16) (record : BitVec 256) : Pack :=
  if o.ending then p.completeOp t o
  else if !bit p.membersUp m.val then
    if o.mark && !p.unsent o.id then p.completeOp t o
    else
      let p1 := { p with ring := p.ring.unqueue o.id, plain := p.plain.unqueue o.id }
      (p1.defer t o.ctx Cause.remoteTimeout 4 0 o.block (BitVec.ofNat 48 o.iter)).completeOp t o
  else if o.mark || !p.plainRoom t.die then p
  else (p.enqueuePlain t.die o.id (.task m (p.sendSpot t c).1 (p.sendSpot t c).2 record)).modTile t fun x => x.modOp o.id fun y => { y with mark := true }

/-- A record of another package is put once its queue has room, and its sender is told; one whose residency has ended is
dropped. -/
def Pack.putArrival (p : Pack) (a : Arrival) : Pack :=
  let gone := { p with arrivals := p.arrivals.filter fun b => b.id != a.id }
  let tell (p : Pack) : Pack := match a.reply with | some (m, id) => p.answer m id .ack | none => p
  if ((a.res.bind p.resid?).map fun x => x.st == .ended).getD true then gone
  else if (p.tile a.tile).res != a.res then p
  else match gone.putTask a.tile a.record (.all p.hist.writes) with
    | some q => tell q
    | none => p

/-- TASK_PUT (R82): the record of an operation whose last byte is visible, or one that came from another package. A send
whose destination no longer hosts a residency that takes the record completes, and the record is dropped (log 81, DESIGN
CHOICE). -/
def execTaskPut (t : TileId) (op : Nat) (s : State) : Host.Outcome State Fault Refusal :=
  match (s.pk.tile t).sideQ.find? fun o => o.id == op with
  | none => match s.pk.arrivals.find? fun a => a.id == op && a.tile == t with
    | some a => .next { s with pk := s.pk.putArrival a }
    | none => .next s
  | some o =>
    match o.record with
    | none => .next s
    | some r =>
      match o.send?, o.stream? with
      | some c, _ =>
        (match s.pk.sendPeer t c with
          | .ok (some m) => .next { s with pk := s.pk.putRemote t o c m r }
          | .error _ => .next { s with pk := s.pk.putRemote t o c (Fin.ofNat 16 c.peer.toNat) r }
          | .ok none => match s.pk.sendDest t c with
            | .later => .next s
            | .absent => .next { s with pk := s.pk.completeOp t o }
            | .tile v => match s.pk.putTask v r o.brings with
              | some p => .next { s with pk := (p.fillHandle t v o c).completeOp t o }
              | none => .next s)
      | none, some c =>
        (match c.task.bind fun x => s.pk.regionTile t (x.2.toNat % 8) (x.2.toNat / 8) with
          | none => .next { s with pk := s.pk.completeOp t o }
          | some v => match s.pk.putTask v r o.brings with
            | some p => .next { s with pk := p.completeOp t o }
            | none => .next s)
      | none, none => .next { s with pk := s.pk.completeOp t o }

/-! ### The end of stream operations and sends (R260, R308) -/

/-- Every element has been delivered or written. -/
def Op.allDone (o : Op) : Bool :=
  (o.ending && o.fills.isEmpty) ||
    (match o.snap.getD o.cmd with
      | .strm c => if c.toPort then c.delivery o.isPb o.pos == .done else !c.fromPort && decide (c.total ≤ o.pos) && o.fills.isEmpty
      | .send c => decide (c.total ≤ o.pos) && !o.mark
      | _ => false)

/-- A completed operation that fed an armed section is remembered with it (R420). -/
def Tile.rememberFed (t : Tile) (o : Op) : Tile :=
  match t.portOf o with
  | some (false, q) =>
    (match t.sectionAt false q with
      | some x => if o.ghost then t else t.modSection x.ctx x.img fun y => { y with fed := y.fed ++ [o] }
      | none => t)
  | _ => t

/-- The task record that a copy names, read at its end within the footprint (R389); a poisoned one is an engine operand
that traps (R425, R465). -/
def Pack.taskRecord (p : Pack) (t : TileId) (off : Nat) : Except XErr (BitVec 256) :=
  let tl := p.tile t
  if p.padBreach t off || p.padBreach t (off + 31) then .error (xerr 5 8)
  else if (List.range 4).any fun k => tl.padBadWord (off / 8 + k) then .error (xerr 8 5)
  else .ok (BitVec.ofNat 256 (bytesToNat (readBytes tl.pad off 32)))

/-- A copy's record goes to its task put; without one that can be read the operation completes, with a deferred trap. -/
def Pack.recordPut (p : Pack) (t : TileId) (o : Op) (off : Nat) : Pack :=
  match p.taskRecord t off with
  | .ok r => p.modTile t (·.toSide o r)
  | .error e => (p.defer t o.ctx e.cause e.sub 0 o.block (BitVec.ofNat 48 o.iter)).completeOp t o

/-- A send without a record completes, its handle being full; it waits for a destination that is saved (R298, R314). -/
def Pack.endSend (p : Pack) (t : TileId) (o : Op) (c : SendCmd) : Pack :=
  match p.sendPeer t c with
  | .ok none => match p.sendDest t c with
    | .tile v => (p.fillHandle t v o c).completeOp t o
    | .later => p
    | .absent => p.completeOp t o
  | _ => p.completeOp t o

/-- A stream operation ends. -/
def State.endStream (s : State) (t : TileId) (o : Op) : State :=
  if !o.started || o.stopped || !o.allDone || s.pk.opAccs o.id then s
  else if o.ghost then
    let gone (x : Tile) : Tile := { x with streamQ := x.streamQ.filter fun y => !(y.id == o.id && y.ghost) }
    { s with pk := s.pk.modTile t gone }
  else
    let s1 := { s with pk := s.pk.modTile t (·.rememberFed o) }
    match o.snap.getD o.cmd with
    | .strm c =>
      (match c.task with
        | some (off, _) =>
          if o.ending && !c.fromPort then { s1 with pk := s1.pk.completeOp t o }
          else { s1 with pk := s1.pk.recordPut t o off }
        | none => { s1 with pk := s1.pk.completeOp t o })
    | .send c =>
      (match if o.ending then none else c.task with
        | some r => { s1 with pk := s1.pk.modTile t (·.toSide o r) }
        | none => { s1 with pk := s1.pk.endSend t o c })
    | _ => { s1 with pk := s1.pk.completeOp t o }

/-! ### The end of configuration operations (R316, R318) -/

/-- CFGLD: the image has been written and is checked. -/
def Pack.endLoad (p : Pack) (t : TileId) (o : Op) (a : VA) : Pack :=
  let tl := p.tile t
  if o.ending then p.completeOp t o
  else if !o.started || o.stopped || tl.pendingCmds a then p
  else match tl.image? a (p.tileVi t) with
    | none => p.completeOp t o
    | some i =>
      match i.check with
      | none => (p.modTile t fun x => { x with shadow := x.shadow.logImage i }).completeOp t o
      | some e =>
        ((p.modTile t fun x => { x with shadow := x.shadow.block i e }).defer t o.ctx Cause.illegalConfig (BitVec.ofNat 8 e.step) a
          a (BitVec.ofNat 48 o.iter) e.coord).completeOp t o

/-- CFGWR on its tile: the word is written with step 4 alone checked; a failure stops the tile's contexts when the
plane is active. -/
def Tile.writeWord (t : Tile) (active : Bool) (w : W32) (ok : Bool) : Tile :=
  let put (p : CfgPlane) : CfgPlane := { p.putWord w with log := p.log ++ [.word w] }
  let t1 := t.modPlane active put
  if !ok then (if active then { t1 with ctxs := t1.ctxs.map fun x => if x.st == .live then { x with stopped := true } else x } else t1)
  else if active && cmdField w == 15 then t1.dropHeld (cmdElem w) else t1

/-- A word that names a header entry or class 111 writes nothing (R318). -/
def unwritable (w : W32) : Bool := (cmdElem w).toNat / 256 == 12 || (cmdElem w).toNat / 256 == 15

def wordOk (w : W32) : Bool :=
  match decodeCommand w with
  | .ok (.clearCommand _) => true
  | .ok (.configCommand e f _) => commandOk e f
  | _ => false

def Pack.endWord (p : Pack) (t : TileId) (o : Op) (active : Bool) (w : W32) (x y : BitVec 3) : Pack :=
  let bad (p : Pack) : Pack :=
    p.defer t o.ctx Cause.illegalConfig 4 0 o.block (BitVec.ofNat 48 o.iter) (BitVec.ofNat 16 (cmdField w * 4096 + (cmdElem w).toNat))
  if !p.enginesRun t || !p.forked t o then p
  else match p.regionTile t x.toNat y.toNat with
    | none => p.completeOp t o
    | some v =>
      if unwritable w then (bad p).completeOp t o
      else
        let p1 := p.modTile v (·.writeWord active w (wordOk w))
        if wordOk w then p1.completeOp t o else (bad p1).completeOp t o

/-! ### CONFIG_PLANE_SWAP (R317) -/

/-- The elements of two planes in one. A binding number that both hold, for ports of different sides, keeps the one of the
second, which a swap brings in (R87, log 77, DESIGN CHOICE). -/
def CfgPlane.join (p q : CfgPlane) : CfgPlane :=
  { elems := q.elems.foldl (fun l e => sset {} l e.1 e.2) p.elems, log := p.log ++ q.log }

/-- The side whose plane an operand target or a slot belongs to lies in a mask. -/
def onMask (a : BitVec 12) (m : BitVec 4) : Bool :=
  match decodeElem a with
  | .ok (.slot sd _ _ _) => bit m (sideBit sd)
  | .ok (.route b _) => bit m (sideBit (Side.ofCode b))
  | .ok (.ingress q) | .ok (.egress q) => bit m (sideBit (portSide q))
  | _ => false

def targetOnMask (m : BitVec 4) : Target → Bool
  | .operand _ sd _ _ _ _ => bit m (sideBit sd)
  | _ => false

/-- Nothing uses the active planes of a mask: no live instance, section or token. -/
def Pack.planesIdle (p : Pack) (t : TileId) (m : BitVec 4) : Bool :=
  let tl := p.tile t
  let sidesOf (a : VA) : BitVec 4 := match p.imageOf t a with | some i => Header.sides i.hdr | none => 15
  tl.cfgStream.isEmpty && tl.insts.all (fun i => sidesOf i.img &&& m == 0) && tl.sections.all (fun x => x.sides &&& m == 0) &&
    tl.links.all (fun k => !targetOnMask m k.tgt && !Machine.onMask k.src m) && tl.store.all fun e => !Machine.onMask e.elem m

/-- The planes of a mask change places; a blocked shadow element keeps them (R317). -/
def Pack.swapConfig (p : Pack) (t : TileId) (o : Op) (m : BitVec 4) : Pack :=
  let tl := p.tile t
  match (tl.shadow.part m).elems.find? fun e => e.2.blocked with
  | some e =>
    (p.defer t o.ctx Cause.illegalConfig (BitVec.ofNat 8 e.2.step) 0 o.block (BitVec.ofNat 48 o.iter)
      (e.2.badField ++ BitVec.ofNat 12 e.1)).completeOp t o
  | none =>
    (p.modTile t fun x =>
      { x with active := (x.active.clearSides m).join (x.shadow.part m)
               shadow := (x.shadow.clearSides m).join (x.active.part m) }).completeOp t o

/-- CONFIG_PLANE_SWAP (R317): CFGSW starts at the head of its queue, and swaps once nothing uses the planes. -/
def execConfigPlaneSwap (t : TileId) (s : State) : Host.Outcome State Fault Refusal :=
  match (s.pk.tile t).configQ with
  | [] => .next s
  | o :: _ =>
    match o.cmd with
    | .cfgsw m =>
      if !s.pk.enginesRun t then .next s
      else if !o.started then
        .next (if s.pk.forked t o then { s with pk := s.pk.modTile t fun x => x.modOp o.id fun y => { y with started := true } } else s)
      else if s.pk.planesIdle t m then .next { s with pk := s.pk.swapConfig t o m }
      else .next s
    | _ => .next s

/-! ### XLINV (R399) -/

/-- The dies and tiles of a scope: tile, die, package. -/
def scopeTiles (t : TileId) (scope : BitVec 2) : List TileId :=
  if scope == 0 then [t]
  else if scope == 1 then allTiles.map fun n => ⟨t.die, n⟩
  else allDies.flatMap fun d => allTiles.map fun n => ⟨d, n⟩

def scopeDies (t : TileId) (scope : BitVec 2) : List DieId := if scope.toNat < 2 then [t.die] else allDies

/-- Units first to last are covered: all for `.all`, none for `.rng`, whose ranges are covered instead. -/
def coversUnits (form : BitVec 2) (va : VA) (count first last : Nat) : Bool :=
  if form == 1 then true
  else if form == 0 then
    let u := va.toNat % 2 ^ 72 / 2 ^ 16
    decide (first < u + count) && decide (u ≤ last)
  else false

def RangeEntry.covered (form : BitVec 2) (va : VA) (count : Nat) (e : RangeEntry) : Bool :=
  form == 2 || e.poison || coversUnits form va count (fld e.bits 55 0) (fld e.bits 119 64)

/-- The units that a table entry of a level maps. -/
def TabEntry.first (e : TabEntry) : Nat := e.index * 2 ^ (walkLevels.getD (e.level - 1) (0, 0, 0, true)).1

def TabEntry.last (e : TabEntry) : Nat := e.first + 2 ^ (walkLevels.getD (e.level - 1) (0, 0, 0, true)).1 - 1

/-- Covered entries are dropped, covered ranges loaded again. -/
def Tile.dropTrans (m : Memory) (v : ViBlock) (vi : Fin 64) (form : BitVec 2) (va : VA) (count : Nat) (t : Tile) : Tile :=
  let new := m.loadRanges v
  let swap (k : Nat) (e : RangeEntry) : RangeEntry := if e.covered form va count then new.getD k {} else e
  { t with
    tlb := t.tlb.filter fun e => !(e.vi == vi && coversUnits form va count e.first e.last)
    ranges := if form == 2 then new else (List.range t.ranges.length).map fun k => swap k (t.ranges.getD k {}) }

/-- An access translated with an entry that the operation covers. -/
def Access.coveredBy (form : BitVec 2) (va : VA) (count : Nat) (a : Access) : Bool :=
  (match a.place with | .home .. => true | _ => false) &&
    (form == 2 || coversUnits form va count (a.va.toNat % 2 ^ 72 / 2 ^ 16) ((a.va.toNat % 2 ^ 72 + a.n - 1) / 2 ^ 16))

/-- An instance that holds such an access, not committed. -/
def Inst.coveredBy (form : BitVec 2) (va : VA) (count : Nat) (i : Inst) : Bool :=
  i.lsids.any fun kv => match kv.2 with | .access a => a.coveredBy form va count | _ => false

/-- Contexts of a tile that hold such accesses start again from their committed state. -/
def Pack.squashCovered (p : Pack) (t : TileId) (form : BitVec 2) (va : VA) (count : Nat) : Pack :=
  ((p.tile t).insts.filter (·.coveredBy form va count)).foldl (fun p i => p.squashAll t i.ctx) p

/-- The entries in scope go. `pos` then holds the number that later accesses reach. -/
def State.invalidate (s : State) (t : TileId) (o : Op) (form scope : BitVec 2) (va : VA) (count : Nat) : State :=
  let vi := s.pk.tileVi t
  let ts := (scopeTiles t scope).filter fun v => s.pk.tileVi v == vi && (s.pk.tile v).res.isSome
  let p1 := ts.foldl (fun p v => (p.squashCovered v form va count).modTile v (·.dropTrans s.mem (s.pk.vi vi) vi form va count)) s.pk
  let drop (d : Die) : Die := { d with cache := d.cache.filter fun e => !(e.vi == vi && (coversUnits form va count e.first e.last)) }
  let p2 := (scopeDies t scope).foldl (fun p d => p.modDie d drop) p1
  let s1 := ts.foldl (fun s v => s.loadRanges v.die vi) { s with pk := p2 }
  { s1 with pk := s1.pk.modTile t fun x => x.modOp o.id fun y => { y with started := true, pos := s1.nextId } }

/-- An earlier access of the VI, another package's among them, translated with a covered entry is still under way. -/
def Pack.coveredLeft (p : Pack) (t : TileId) (o : Op) (form scope : BitVec 2) (va : VA) (count : Nat) : Bool :=
  let vi := p.tileVi t
  let here (a : Access) : Bool := match a.origin with
    | some (m, _) => scope != 0 && (scopeDies t scope).contains (p.receiver m)
    | none => (scopeTiles t scope).contains a.tile
  p.accs.any fun a => a.id < o.pos && here a && a.vi == some vi && a.coveredBy form va count

def State.endXlinv (s : State) (t : TileId) (o : Op) (form scope : BitVec 2) (va : VA) (count : Nat) : State :=
  if !o.started then (if s.pk.forked t o then s.invalidate t o form scope va count else s)
  else if s.pk.coveredLeft t o form scope va count then s
  else { s with pk := s.pk.completeOp t o }

/-! ### PREEMPT (R424) -/

/-- The operation is not allowed: a record of kind 0x07. -/
def Pack.refuseControl (p : Pack) (t : TileId) (o : Op) : Pack :=
  let b := p.baseRec t o.ctx
  (p.note { fr := { b with kind := 7, cls := 0 } }).completeOp t o

/-- The residency that a handle of the issuing VI names, other than the issuing one. -/
def Pack.named (p : Pack) (t : TileId) (h : W32) : Option (Nat × Resid) :=
  match p.findHandle h with
  | none => none
  | some r =>
    match p.resid? r with
    | none => none
    | some x => if x.vi != p.tileVi t || (p.tile t).res == some r || fld h 15 9 != 0 then none else some (r, x)

/-- Stopped by PREEMPT.stop or the watchdog, on tiles that still work (R424, R439). -/
def Resid.mayResume (x : Resid) : Bool :=
  x.st == .stopped && !x.fencedOut && !x.thermal &&
    (match x.stopCause with | none => true | some k => k == 0 || k == Cause.deadlock)

def Pack.endPreempt (p : Pack) (t : TileId) (o : Op) (op : BitVec 2) (h : W32) : Pack :=
  if !p.forked t o then p
  else match p.named t h with
    | none => p.refuseControl t o
    | some (r, x) =>
      if x.st == .saving || x.pre.isSome then p
      else if o.started then p.completeOp t o
      else match op.toNat with
        | 0 =>
          if x.st == .resident && !x.aborted then
            if !p.poolHolds r then p
            else (p.requestPreempt r true (some 0)).modTile t fun y => y.modOp o.id fun z => { z with started := true }
          else p.refuseControl t o
        | 1 => if x.mayResume && !x.aborted then (p.toPlacement r true).completeOp t o else p.refuseControl t o
        | 2 => if x.st == .resident || x.st == .stopped then (p.abortSwarm x.swarm 0).completeOp t o else p.refuseControl t o
        | _ => if x.st == .stopped && !x.fencedOut && !x.aborted then (p.toPlacement r false).completeOp t o else p.refuseControl t o

/-! ### ENGINE_OP_COMPLETE (R260) -/

/-- The head of the configuration queue. -/
def State.endConfig (s : State) (t : TileId) (o : Op) : State :=
  if ((s.pk.tile t).configQ.head?.map (·.id)) != some o.id then s
  else match o.cmd with
    | .cfgld a => { s with pk := s.pk.endLoad t o a }
    | .cfgwr active w x y => { s with pk := s.pk.endWord t o active w x y }
    | _ => if o.ending then { s with pk := s.pk.completeOp t o } else s

def State.endSide (s : State) (t : TileId) (o : Op) : State :=
  if o.record.isSome then s
  else match o.cmd with
    | .xlinv form scope va count => s.endXlinv t o form scope va count
    | .preempt op h => { s with pk := s.pk.endPreempt t o op h }
    | _ => s

/-- ENGINE_OP_COMPLETE (R260): the operation's last step, and its completion. -/
def execEngineOpComplete (t : TileId) (op : Nat) (s : State) : Host.Outcome State Fault Refusal :=
  let s := { s with pk := s.pk.closeSections t }
  let tl := s.pk.tile t
  match tl.streamQ.find? fun o => o.id == op with
  | some o => .next (s.endStream t o)
  | none =>
    match tl.matrixQ.find? fun o => o.id == op with
    | some o =>
      if !o.started || o.stopped then .next s
      else if s.pk.opAccs o.id then .next s
      else if o.ending then .next { s with pk := s.pk.completeOp t o }
      else if !s.pk.opRuns t o then .next s
      else .next (s.endMatrix t o)
    | none =>
      match tl.configQ.find? fun o => o.id == op with
      | some o => .next (s.endConfig t o)
      | none =>
        match tl.sideQ.find? fun o => o.id == op with
        | some o => .next (s.endSide t o)
        | none => .next s

/-! ### Replies and timeouts of other packages (R225, R237, R278, R279, R290, R315, R348) -/

/-- The stream operation with an identity: on its tile, or saved with its residency. -/
def Pack.findSend (p : Pack) (id : Nat) : Option (TileId × Op) :=
  firstSome (fun t : TileId => ((p.tile t).streamQ.find? fun o => o.id == id).map fun o => (t, o))
    (allDies.flatMap fun d => allTiles.map fun n => ⟨d, n⟩)

/-- The operation wherever its residency stands. -/
def Pack.modSend (p : Pack) (id : Nat) (f : Op → Op) : Pack :=
  let on (x : Tile) : Tile := { x with streamQ := modifyFirst (·.id == id) f x.streamQ }
  { p with
    dies := p.dies.map fun (d : Die) => { d with tiles := d.tiles.map on }
    resids := p.resids.map fun (r : Resid) => { r with saved := r.saved.map on } }

/-- The context that a saved send belongs to. -/
def Pack.savedSend (p : Pack) (id : Nat) : Option (Nat × TileId × Op) :=
  firstSome (fun k : Nat => match p.resid? k with
    | none => none
    | some x => firstSome (fun y : TileId × Tile => (y.2.streamQ.find? fun o => o.id == id).map fun o => (k, y.1, o)) (x.tiles.zip x.saved))
    (List.range p.resids.length)

/-- A send of another package's handle ends with a deferred trap. -/
def Pack.dropSend (p : Pack) (id : Nat) (cause sub : Byte) : Pack :=
  let q := p.modSend id fun o => { o with started := true, ending := true, mark := false }
  match p.findSend id with
  | some (t, o) => q.defer t o.ctx cause sub 0 o.block (BitVec.ofNat 48 o.iter)
  | none => match p.savedSend id with
    | some (k, t, o) => q.deferGone k t o.ctx cause sub 0 o.block (BitVec.ofNat 48 o.iter)
    | none => q

/-- A send whose data fault at their destination stops there (R237, R243). -/
def Pack.haltSend (p : Pack) (id : Nat) (cause sub : Byte) : Pack :=
  let q := p.modSend id fun o => { o with stopped := true }
  match p.findSend id with
  | some (t, o) => q.defer t o.ctx cause sub 0 o.block (BitVec.ofNat 48 o.pos) (op := some id)
  | none => match p.savedSend id with
    | some (k, t, o) => q.deferGone k t o.ctx cause sub 0 o.block (BitVec.ofNat 48 o.pos)
    | none => q

/-- A send that waits for another package's answer: it has asked for a handle, or its data are not acknowledged. -/
def Pack.waitingSend (p : Pack) (id : Nat) : Option Op :=
  let o := (p.findSend id).map (·.2) |>.or ((p.savedSend id).map (·.2.2))
  o.bind fun o => if o.send?.isSome && o.mark && !o.ending then some o else none

/-- An operation that awaits the put of its record in another package learns of it. -/
def Pack.putDone (p : Pack) (id : Nat) : Pack :=
  let done (o : Op) : Op := if o.id == id && o.record.isSome && o.mark then { o with ending := true } else o
  let on (x : Tile) : Tile := { x with sideQ := x.sideQ.map done }
  { p with
    dies := p.dies.map fun (d : Die) => { d with tiles := d.tiles.map on }
    resids := p.resids.map fun (r : Resid) => { r with saved := r.saved.map on } }

/-- A load given up is withdrawn at its home (R225). -/
def Pack.withdraw (p : Pack) (a : Access) : Pack :=
  match a.place with
  | .remote m => { p with outgoing := p.outgoing ++ [.withdraw m (p.vi (a.viIn p)).pvi a.id] }
  | _ => p

/-- Cycles since an access for another package was first sent, while its answer is due: a load sent back by a full table is still
under way (R225, R348). -/
def Access.waited (a : Access) : Option Nat :=
  match a.st, a.place with
  | .remote n, _ => some n
  | .retry _, .remote _ => some a.age
  | .waiting, .remote _ => if a.age == 0 then none else some a.age
  | _, _ => none

/-- A send has its handle and has sent nothing, so that no time runs for it. -/
def Op.unsent (o : Op) : Bool := o.started && o.pos == 0

/-- REMOTE_TIMEOUT (R348): no answer for 2^22 cycles. -/
def execRemoteTimeout (id : Nat) (s : State) : Host.Outcome State Fault Refusal :=
  match s.pk.accs.find? fun a => a.id == id with
  | some a =>
    match a.waited with
    | some n =>
      if n < 2 ^ 22 then .next s
      else
        let told (sub : Byte) : State := { s with pk := a.writer.defer s.pk Cause.remoteTimeout sub, freeCount := s.freeCount + 1 }
        let v := Config.freeValue s.freeCount
        match a.kind with
        | .amo .. | .cas .. => .next ((told 2).finishAtomic a v true)
        | .st | .stl _ | .empty => .next ((told 5).finishStore a {})
        | _ =>
          let s1 := told 1
          .next (State.finishLoad { s1 with pk := s1.pk.withdraw a } a (dataTok v true) (dataTok v true))
    | none => .next s
  | none =>
    match s.pk.waitingSend id with
    | some o => if 2 ^ 22 ≤ o.cycles && !o.unsent then .next { s with pk := s.pk.dropSend id Cause.remoteTimeout 3 } else .next s
    | none => .next s

/-- The bytes of a reply, under those that the forwarding table gave when the load was sent (R60); it is poisoned where one
of its own bytes counts. -/
def Access.replied (a : Access) (v : W64) (bad : Bool) : List Byte × Bool :=
  ((List.range a.n).map fun j => (alookup j a.fwd).getD ((natToBytes 8 v.toNat).getD j 0),
    bad && (List.range a.n).any fun j => (alookup j a.fwd).isNone)

/-- The reply to an access. -/
def State.replyAccess (s : State) (a : Access) (r : RemoteAnswer) : State :=
  match a.kind, r with
  | .ld, .data v b | .lda _, .data v b | .ldpq, .data v b =>
    let x := a.replied v b
    let k := if x.2 then Config.freeValue s.freeCount else placeLoad a.ty a.v x.1
    { s with freeCount := if x.2 then s.freeCount + 1 else s.freeCount }.finishLoad a (dataTok k x.2)
      (if a.kind == AccKind.ldpq then predTok true else dataTok k x.2)
  | .ldpq, .missing => s.finishMissing a
  | .ld, .retry | .lda _, .retry =>
    let sent : Nat := match a.st with | .remote n => n | _ => 0
    { s with pk := s.pk.modAcc a.id fun b => { b with st := .retry 0, age := max sent 1 } }
  | .ld, .fault c e | .lda _, .fault c e | .ldpq, .fault c e => s.faultLoad a ⟨c, e⟩
  | .amo .., .data v bad | .cas .., .data v bad =>
    if bad then
      { s with pk := a.writer.defer s.pk Cause.eccDeferred 1, freeCount := s.freeCount + 1 }.finishAtomic a (Config.freeValue s.freeCount) true
    else s.finishAtomic a (atomicResult a (v.toNat % 2 ^ (8 * a.n))).2 false
  | .amo .., .fault c e | .cas .., .fault c e =>
    { s with pk := a.writer.defer s.pk c e, freeCount := s.freeCount + 1 }.finishAtomic a (Config.freeValue s.freeCount) true
  | .st, .ack | .stl _, .ack | .empty, .ack => s.finishStore a {}
  | .st, .fault c e | .stl _, .fault c e | .empty, .fault c e => { s with pk := a.writer.defer s.pk c e }.finishStore a {}
  | _, _ => s

/-- The answer to a send: its reservation, or its acknowledgement. -/
def Pack.replySend (p : Pack) (id : Nat) (o : Op) (r : RemoteAnswer) : Pack :=
  match r with
  | .fault c e => if o.started then p.haltSend id c e else p.dropSend id c e
  | .granted size =>
    if o.started then p
    else match o.send? with
      | some c => if size < c.bytes then p.dropSend id Cause.prot 7 else p.modSend id fun y => { y with started := true, mark := true, pos := 0, cycles := 0 }
      | none => p
  | .ack =>
    let sent : Bool := match o.send? with | some c => decide (c.total ≤ o.pos) | none => false
    if o.started && sent then p.modSend id fun y => { y with mark := false } else p
  | .data _ _ | .missing | .retry => p

/-- What a request sent has reached its member: the runs of failures of its flits end (R434). -/
def Pack.flitHeard (p : Pack) (id : Nat) : Pack := { p with flits := p.flits.filter fun f => f.flit.id != id }

/-- REMOTE_REPLY (R237): a reply that nothing waits for any more is discarded. -/
def execRemoteReply (id : Nat) (r : RemoteAnswer) (s : State) : Host.Outcome State Fault Refusal :=
  let s := { s with pk := s.pk.flitHeard id }
  match s.pk.accs.find? fun a => a.id == id with
  | some a =>
    match a.st with
    | .remote _ => .next (s.replyAccess a r)
    | _ => .next s
  | none =>
    match s.pk.waitingSend id with
    | some o => .next { s with pk := s.pk.replySend id o r }
    | none => .next (if r == .ack then { s with pk := s.pk.putDone id } else s)

end Sys2Proof.Machine
end

