-- ==== Sys2Proof/Machine/RingSteps.lean ====
section
/-! DEFINITION. The steps of the sequence orders and the optical links (R26, R254-R257, R264, R434-R436): a visit of
the Pass token, a die acting on a message, the relay of plain messages, and lost flits and tokens. -/

namespace Sys2Proof.Machine

/-! ### Members -/

/-- Bit d of a mask of dies. -/
def dieBit (d : DieId) : BitVec 8 := BitVec.ofNat 8 (2 ^ d.val)

/-- The die the token visits next: dies off the ring are skipped (R456). -/
def Pack.nextHolder (p : Pack) (h : DieId) : DieId :=
  (((List.range 8).map fun k => Fin.ofNat 8 (h.val + 1 + k)).find? p.onRing).getD h

/-- The lowest die of some on the ring (R436). -/
def Pack.lowestDie (p : Pack) (up : BitVec 8) : Option DieId := allDies.find? fun d => bit up d.val && p.onRing d

/-! ### PASS_TOKEN_VISIT (R255, R256, R435) -/

/-- What becomes of a message that is sent: the dies, and the members of the plain, that fail its CRC. -/
structure Loss where
  dies : W64 → BitVec 8
  members : W64 → BitVec 16

def Message.sentWith (m : Message) (loss : Loss) : Message := { m with missing := loss.dies m.num, lack := loss.members m.num }

/-- Messages of a queue take numbers from the token's on. -/
def numbered (num : W64) (loss : Loss) : List Message → List Message
  | [] => []
  | m :: rest => Message.sentWith { m with num := num } loss :: numbered (num + 1) loss rest

/-- A message that a receiver has marked as missing. -/
def Message.marked (m : Message) : Bool := m.missing != 0 || m.lack != 0

/-- The marked messages that the holder sends again in a visit: those of its own earlier ones. -/
def Order.again (o : Order) (own : Message → Bool) : List Message := (o.sent.filter fun m => own m && m.marked).take (8 - o.visit)

/-- A visit: at most 8 messages, the marked ones of the holder's earlier visits first, then its oldest. One that every die of
the ring has acted on is kept only while it is marked. -/
def Order.visitBy (o : Order) (h next : DieId) (up : BitVec 8) (own : Message → Bool) (loss : Loss) : Order :=
  let again := (o.again own).map (·.num)
  let fresh := (o.queues.get h).take (8 - o.visit - again.length)
  let resend (m : Message) : Message := if again.contains m.num then m.sentWith loss else m
  let o1 : Order := { o with
    sent := (o.sent.map resend ++ numbered o.num loss fresh).filter fun m => m.marked || up &&& ~~~ m.acted != 0
    num := o.num + BitVec.ofNat 64 fresh.length
    queues := o.queues.set h ((o.queues.get h).drop fresh.length)
    holder := next, visit := 0, idle := 0 }
  o1.refill h

/-- The plain group of a residency (R291). -/
def Pack.groupOf (p : Pack) (x : Resid) : BitVec 12 × W16 :=
  ((p.vi x.vi).pvi, ((p.swarmOf x).map fun w => Desc.pgroup w.desc).getD 0)

/-- A sequenced atomic for another package's home leaves with its message, and its reply is awaited from here on (R257,
R348). -/
def Access.leaves (a : Access) (ms : List Message) : Access :=
  let told (m : Message) : Bool := match m.body with | .atomic b => b.id == a.id | _ => false
  match a.place with
  | .remote _ => if a.st == .sent && ms.any told then { a with st := .remote 0 } else a
  | _ => a

/-- What a plain message says to the other packages, naming its package, VI and plain group (R256, R392). -/
def Pack.wire (p : Pack) (m : Message) : ForeignMsg :=
  let me : Fin 16 := Fin.ofNat 16 p.member.toNat
  match m.body with
  | .atomic a =>
    (match a.request with
      | some q => .atomic me (p.vi (a.viIn p)).pvi q
      | none => .fence)
  | .arrive r b =>
    (match p.resid? r with
      | some x => .barrier me (p.groupOf x).1 (p.groupOf x).2 b
      | none => .fence)
  | .memberChange k alive => if alive then .memberUp k else .memberDown k
  | .task _ pvi spot record => .task me pvi spot record m.id
  | .foreign f => f
  | _ => .fence

/-- Plain messages go to the other packages as well (R256). -/
def Pack.tellPackages (p : Pack) (ms : List Message) : Pack :=
  if p.member == 0xFF then p
  else { p with outgoing := p.outgoing ++ ms.map fun m => .plain m.num m.id (p.wire m), accs := p.accs.map (·.leaves ms) }

/-- The members of the plain that are up, but this package. -/
def Pack.others (p : Pack) : BitVec 16 :=
  if p.member == 0xFF then 0 else p.membersUp &&& ~~~ BitVec.ofNat 16 (2 ^ (p.member.toNat % 16))

/-- A plain message of this package. -/
def Message.ours (m : Message) : Bool := match m.body with | .foreign _ => false | _ => true

def Pack.modOrder (p : Pack) (plain : Bool) (f : Order → Order) : Pack :=
  if plain then { p with plain := f p.plain } else { p with ring := f p.ring }

/-- A sequenced operation has its number: what the order's operations so far bring it, and what it brings those to come (R258).
Of another package's, everything performed so far stands for what it brings (log 82). -/
def Pack.sequence (plain : Bool) (p : Pack) (m : Message) : Pack :=
  match m.body with
  | .fence | .atomic _ =>
    (match p.accs.find? fun a => a.id == m.id with
      | some a => (p.modAcc a.id fun b => { b with floor := (p.order plain).floor }).modOrder plain fun o => { o with floor := o.floor.join (p.floorOf a) }
      | none => p)
  | .foreign _ => p.modOrder plain fun o => { o with floor := .all p.hist.writes }
  | _ => p

/-- The write of a sequenced atomic happens-before the operations behind it in its order (R258). -/
def Pack.tellOrder (p : Pack) (plain : Bool) (num : W64) (fl : Floor) : Pack :=
  let later := ((p.order plain).sent.filter fun m => num.toNat < m.num.toNat).map (·.id)
  let told (a : Access) : Access := if later.contains a.id then { a with floor := a.floor.join fl } else a
  { p with accs := p.accs.map told }.modOrder plain fun o => { o with floor := o.floor.join fl }

/-- PASS_TOKEN_VISIT (R255, R256): the ring's holder, or die 0 for the plain, sends and passes the token on. -/
def execPassTokenVisit (plain : Bool) (s : State) : Host.Outcome State Fault Refusal :=
  let p := s.pk
  let h : DieId := if plain then 0 else p.ring.holder
  let own (m : Message) : Bool := if plain then m.ours else m.die == h
  let next : DieId := if plain then 0 else p.nextHolder h
  let loss : Loss :=
    { dies := fun n => if plain then 0 else Config.ringLoss s.freeCount n.toNat &&& ~~~ dieBit h
      members := fun n => if plain then Config.plainLoss s.freeCount n.toNat &&& p.others else 0 }
  if p.tokenLost plain || !p.onRing h then .next s
  else
    let o := (p.order plain).visitBy h next p.ringUp own loss
    let again := (p.order plain).again own
    let fresh := o.sent.filter fun m => (p.order plain).num.toNat ≤ m.num.toNat
    let p1 := fresh.foldl (Pack.sequence plain) (p.modOrder plain fun _ => o)
    .next { s with pk := if plain then p1.tellPackages (again ++ fresh) else p1, freeCount := s.freeCount + 1 }

/-! ### SEQUENCED_MESSAGE_ACT (R255-R257, R264) -/

/-- The message that a die acts on next, if the die has it: the lowest it has not acted on. -/
def Order.nextFor (o : Order) (d : DieId) : Option Message :=
  match o.sent.find? fun m => !bit m.acted d.val with
  | none => none
  | some m => if bit m.heard d.val && !bit m.missing d.val then some m else none

/-- A die has acted on a message; one that every member has acted on is done. -/
def Order.markActed (o : Order) (d : DieId) (up : BitVec 8) (n : W64) : Order :=
  let mark (m : Message) : Message := if m.num == n then { m with acted := m.acted ||| dieBit d } else m
  { o with sent := (o.sent.map mark).filter fun m => !(m.num == n && up &&& ~~~ m.acted == 0 && m.lack == 0), last := o.last.set d n }

/-- A residency's copy of a barrier counts an arrival of a given scope (R264, R291). -/
def Resid.counts (x : Resid) (b : Fin 16) (scope : BitVec 2) : Bool :=
  x.st != .ended && ((x.bars.get b).scope == none || (x.bars.get b).scope == some scope)

/-- The arrival is counted by every member residency on a die, with what it brings its phase. -/
def Pack.countArrival (p : Pack) (d : DieId) (b : Fin 16) (scope : BitVec 2) (fl : Floor) (isMember : Resid → Bool) : Pack :=
  let count (x : Resid) : Resid :=
    if x.die == d && x.counts b scope && isMember x then { x with bars := x.bars.set b ((x.bars.get b).arrive fl) } else x
  { p with resids := p.resids.map count }

/-- An entry in transit to a tile that is gone is ready again (R350). -/
def TaskEntry.revert (lost : TileId → Bool) (e : TaskEntry) : TaskEntry :=
  match e.st with
  | .transit t _ => if lost t then { e with st := .ready } else e
  | _ => e

/-- A die acts on the announcement of a reset, gated or fenced die or tile, for the queues of its tiles and of the
residencies that it holds saved or stopped (R350); a die that leaves does so once it acts on its own (R456). -/
def Pack.hearGone (p : Pack) (d gone : DieId) (tile : Option (Fin 64)) : Pack :=
  if d == gone && tile.isNone then p.downDie d else
  let lost (t : TileId) : Bool := t.die == gone && (match tile with | some n => t.n == n | none => true)
  let back (t : Tile) : Tile := { t with tasks := t.tasks.map (TaskEntry.revert lost) }
  let kept (x : Resid) : Resid := if x.die == d then { x with saved := x.saved.map back } else x
  { p.modDie d fun x => { x with tiles := x.tiles.map back } with resids := p.resids.map kept }

/-- Die 0's action on a member change sets the package's peer state (R234); firmware changes each die's reach in
the order of S_plain (R457). -/
def Pack.hearMember (p : Pack) (d : DieId) (plain : Bool) (m : Fin 16) (alive : Bool) : Pack :=
  let p1 := if d == 0 then { p with membersUp := withBit p.membersUp m.val alive } else p
  let now (x : Die) (j : Fin 11) : Bool := alive && decide (5 ≤ x.stage.toNat) && bit (Config.reach d j) m.val
  if plain then p1.modDie d fun x => { x with reach := Vector.ofFn fun j => withBit (x.reach.get j) m.val (now x j) } else p1

/-- A record sent by another package reaches its tile, and waits there for room in its queue (R82, R350). -/
def State.hearTask (s : State) (d : DieId) (member : Fin 16) (pvi : BitVec 12) (spot : Spot) (record : BitVec 256) (reply : Nat) : State :=
  if spot.die != d then s
  else match s.pk.viOf pvi member with
    | some vi => s.arriveTask vi spot record member reply
    | none => s

/-- An atomic of an order is performed at its home; those behind it in the order follow its write. -/
def State.sequencedAtomic (s : State) (a : Access) (plain : Bool) (num : W64) : State :=
  let s1 := s.atomicHere a
  match a.place with
  | .home d off _ _ =>
    if s1.pk.hist.writes == s.pk.hist.writes then s1
    else { s1 with pk := s1.pk.tellOrder plain num { words := [(memIndex d off / 8, s1.pk.hist.writes)] } }
  | _ => s1

/-- A sequenced atomic of another package is performed by the home that acts on it (R257, R392). -/
def State.hearAtomic (s : State) (num : W64) (d : DieId) (member : Fin 16) (pvi : BitVec 12) (q : RemoteReq) : State :=
  match s.pk.viOf pvi member with
  | none => s
  | some vi =>
    match RemoteReq.wanted q with
    | none => s
    | some (reply, w) =>
      if w.role != .atomic then s
      else match s.remoteAccess vi member reply w with
        | (.error e, s1) => if d == 0 then { s1 with pk := s1.pk.answer member reply (.fault e.cause e.sub) } else s
        | (.ok a, s1) => if a.tile.die == d then s1.sequencedAtomic a true num else s

def State.hearForeign (s : State) (num : W64) (d : DieId) (m : ForeignMsg) : State :=
  match m with
  | .fence => s
  | .barrier member pvi group b =>
    match s.pk.viOf pvi member with
    | some vi => { s with pk := s.pk.countArrival d b 3 (.all s.pk.hist.writes) fun x =>
        x.vi == vi && s.pk.groupOf x == (pvi, group) }
    | none => s
  | .memberUp m => { s with pk := s.pk.hearMember d true m true }
  | .memberDown m => { s with pk := s.pk.hearMember d true m false }
  | .atomic member pvi q => s.hearAtomic num d member pvi q
  | .task member pvi t record reply => s.hearTask d member pvi t record reply

/-- A sequenced atomic of this package: its home performs it; one of another package's home has left with its message
(R257). -/
def State.hearOwnAtomic (s : State) (d : DieId) (id : Nat) (plain : Bool) (num : W64) : State :=
  match s.pk.accs.find? fun a => a.id == id with
  | none => s
  | some a =>
    match a.place with
    | .home h _ _ _ => if h == d then s.sequencedAtomic a plain num else s
    | .remote _ => s
    | _ => s.dropAcc id

/-- A carried plain message reaches die 0's queue (R256), or the die it was relayed to. -/
def Pack.hearCarried (p : Pack) (d : DieId) (m : Message) (num : Option W64) : Option Pack :=
  match num with
  | none =>
    if d != 0 then some p
    else match takeFirst (fun x : Message => x.id == m.id) (p.plain.queues.get m.die) with
      | none => some p
      | some (x, rest) =>
        if !p.plain.room 0 then none
        else
          let q := (p.plain.queues.set m.die rest).set 0 (p.plain.queues.get 0 ++ [x])
          some { p with plain := { p.plain with queues := q } }
  | some n =>
    let hear (x : Message) : Message := if x.num == n then { x with heard := x.heard ||| dieBit d } else x
    some { p with plain := { p.plain with sent := p.plain.sent.map hear } }

/-- What a die does for a message; none where it waits for room in die 0's plain queue. -/
def State.hear (s : State) (d : DieId) (plain : Bool) (m : Message) : Option State :=
  match m.body with
  | .fence | .costart .. | .up _ | .task .. => some s
  | .atomic a => some (s.hearOwnAtomic d a.id plain m.num)
  | .arrive r b =>
    match s.pk.resid? r with
    | none => some s
    | some y =>
      some { s with pk := s.pk.countArrival d b (if plain then 3 else 2) m.floor fun x =>
        if plain then s.pk.groupOf x == s.pk.groupOf y else x.swarm == y.swarm }
  | .gone c t => some { s with pk := s.pk.hearGone d c t }
  | .memberChange k alive => some { s with pk := s.pk.hearMember d plain k alive }
  | .foreign f => some (s.hearForeign m.num d f)
  | .carried num => (s.pk.hearCarried d m num).map fun p => { s with pk := p }

/-- An atomic's home acts on it once the earlier atomics of the order have been performed at theirs (R258). -/
def Pack.atomicWaits (p : Pack) (d : DieId) (plain : Bool) (m : Message) : Bool :=
  match m.body with
  | .atomic a => (match a.place with | .home h _ _ _ => h == d && p.atomicsDue plain m.id | _ => false)
  | .foreign (.atomic ..) => p.atomicsDue plain m.id
  | _ => false

/-- SEQUENCED_MESSAGE_ACT (R255): a die acts on the next message of an order. -/
def execSequencedMessageAct (d : DieId) (plain : Bool) (s : State) : Host.Outcome State Fault Refusal :=
  if !bit s.pk.ringUp d.val then .next s
  else match (s.pk.order plain).nextFor d with
    | none => .next s
    | some m => match if s.pk.atomicWaits d plain m then none else s.hear d plain m with
      | none => .next s
      | some s1 => .next { s1 with pk := s1.pk.modOrder plain fun o => o.markActed d s1.pk.ringUp m.num }

/-! ### PLAIN_RELAY (R256) -/

/-- Die 0 has put the relay of a plain message on the ring. -/
def Pack.relayed (p : Pack) (m : Message) : Bool :=
  let is (x : Message) : Bool := x.body == .carried (some m.num)
  m.heard != 1 || (p.ring.queues.get 0).any is || p.ring.sent.any is

/-- A message of another package reaches die 0: it takes its place in S_plain, or is one that die 0 has marked and that is sent
again with its number (R435). Die 0 may fail its CRC. -/
def State.hearOptical (s : State) (f : ForeignMsg) : State :=
  let p := s.pk
  let loss : BitVec 8 := Config.ringLoss s.freeCount p.plain.num.toNat &&& 1
  let due (m : Message) : Bool := m.body == .foreign f && m.missing != 0
  let m : Message := { id := 0, num := p.plain.num, die := 0, body := .foreign f, heard := 1, missing := loss }
  let o : Order :=
    if p.plain.sent.any due then { p.plain with sent := modifyFirst due (fun x => { x with missing := loss }) p.plain.sent, idle := 0 }
    else { p.plain with sent := p.plain.sent ++ [m], num := p.plain.num + 1, idle := 0 }
  { s with pk := { p with plain := o }, freeCount := s.freeCount + 1 }

/-- PLAIN_RELAY (R256): a message of another package takes its place in S_plain, or die 0 passes the next plain
message on to the package's other dies. -/
def execPlainRelay (foreign : Option ForeignMsg) (s : State) : Host.Outcome State Fault Refusal :=
  let p := s.pk
  if !bit p.ringUp 0 then .next s
  else match foreign with
    | some f =>
      if p.member == 0xFF || p.tokenLost true then .next s else .next (s.hearOptical f)
    | none =>
      match p.plain.sent.find? fun m => !p.relayed m with
      | none => .next s
      | some m => if p.ringRoom 0 && m.missing == 0 then .next { s with pk := p.enqueueRing 0 0 (.carried (some m.num)) } else .next s

/-! ### FLIT_RESEND (R434) -/

/-- A member down is announced in both orders (R254). -/
def Pack.announceMember (p : Pack) (d : DieId) (m : Fin 16) (alive : Bool) : Pack :=
  (p.enqueueRing d 0 (.memberChange m alive)).enqueuePlain d 0 (.memberChange m alive)

/-- FLIT_RESEND (R434): a flit has failed or gone unacknowledged and is sent again; the 16th failure in a row takes
its member down. -/
def execFlitResend (d : DieId) (f : Flit) (s : State) : Host.Outcome State Fault Refusal :=
  let p := s.pk
  let same (x : FlitRun) : Bool := x.die == d && x.flit == f
  let n := ((p.flits.find? same).map (·.fails)).getD 0 + 1
  let rest := p.flits.filter fun x => !same x
  let now : FlitRun := { die := d, flit := f, fails := n }
  if !bit p.membersUp f.member.val then .next s
  else if n < 16 then .next { s with pk := { p with flits := rest ++ [now], outgoing := p.outgoing ++ [.flit d f] } }
  else if p.ringRoom d && p.plainRoom d then .next { s with pk := ({ p with flits := rest }).announceMember d f.member false }
  else .next s

/-! ### TOKEN_LOSS_REGENERATE (R436) -/

/-- A live member holds the message: its sender, or a die that received it. -/
def Message.heldBy (m : Message) (live : BitVec 8) : Bool := live &&& (dieBit m.die ||| (m.heard &&& ~~~ m.missing)) != 0

/-- The messages that live members hold contiguously, each now held by all. -/
def heldRun (held : Message → Bool) (ms : List Message) : List Message :=
  (ms.takeWhile held).map fun m => { m with missing := 0, lack := 0 }

/-- An order after a round: messages that no live member holds never took place, and live senders queue theirs again, each at
the die that `home` names. -/
def Order.regenerate (o : Order) (held : Message → Bool) (home : Message → Option DieId) (holder : DieId) : Order :=
  let keep := heldRun held o.sent
  let fresh (m : Message) : Message := { m with missing := 0, lack := 0, acted := 0 }
  let lostMsgs := o.sent.drop keep.length
  let all (d : DieId) : List Message := (lostMsgs.filter fun m => home m == some d).map fresh ++ o.queues.get d ++ o.late.get d
  { o with
    sent := keep
    num := match lostMsgs with | m :: _ => m.num | [] => o.num
    queues := Vector.ofFn fun d => (all d).take queueRoom
    late := Vector.ofFn fun d => (all d).drop queueRoom
    holder := holder, visit := 0, idle := 0 }

/-- One record of kind 0x06 for each VI's error queue. -/
def Pack.noteLink (p : Pack) (d : DieId) : Pack :=
  ((List.finRange 64).filter fun v => (p.vi v).en).foldl (fun p v => p.note { fr := { vi := v, die := d, kind := 6 } }) p

/-- A die has a reset or the gating of its power under way. -/
def Pack.leaving (p : Pack) (d : DieId) : Bool :=
  (p.ring.queues.get d ++ p.ring.late.get d ++ p.ring.sent).any fun m => m.body == .gone d none && m.die == d

/-- Members that did not answer are announced down; one that was about to leave the package leaves now. -/
def Pack.announceSilent (p : Pack) (d : DieId) (silent : BitVec 8) (leaving : Nat → Bool) : Pack :=
  (setBits silent).foldl (fun p k =>
    let p1 := p.enqueueRing d 0 (.gone (Fin.ofNat 8 k) none)
    if leaving k then p1.downDie (Fin.ofNat 8 k) else p1) { p with ringUp := p.ringUp &&& ~~~ silent }

/-- The members that the round of a plain leaves, and whether this package is the lowest of them. -/
def Pack.leads (p : Pack) (live : BitVec 16) : Bool := (setBits live).head? == some p.member.toNat

/-- TOKEN_LOSS_REGENERATE (R436): `silent` names the members that do not answer the round. -/
def execTokenLossRegenerate (plain : Bool) (silent : BitVec 16) (s : State) : Host.Outcome State Fault Refusal :=
  let p := s.pk
  if !p.tokenLost plain then .next s
  else if plain then
    match p.lowestDie p.ringUp with
    | none => .next s
    | some d =>
      let down := silent &&& p.others
      let supplied (n : Nat) : Bool := bit (Config.freeValue s.freeCount) (n % 128)
      let held (m : Message) : Bool := m.ours || m.missing == 0 || supplied m.num.toNat
      let home (m : Message) : Option DieId := if m.ours then some 0 else none
      let p1 := { p with plain := p.plain.regenerate held home 0 }
      let told := if p.leads (p.membersUp &&& ~~~ down) then setBits down else []
      .next { s with pk := (told.foldl (fun p k => p.announceMember d (Fin.ofNat 16 k) false) p1).noteLink d, freeCount := s.freeCount + 1 }
  else
    let live := p.ringUp &&& ~~~ silent.extractLsb' 0 8
    match p.lowestDie live with
    | none => .next s
    | some d =>
      let home (m : Message) : Option DieId := if bit live m.die.val then some m.die else none
      let p1 := { p with ring := p.ring.regenerate (·.heldBy live) home d }
      let gone (k : Nat) : Bool := p.leaving (Fin.ofNat 8 k)
      .next { s with pk := (p1.announceSilent d (p.ringUp &&& silent.extractLsb' 0 8) gone).noteLink d }

end Sys2Proof.Machine
end

