-- ==== Sys2Proof/Machine/Tasks.lean ====
section
/-! DEFINITION. The queue hardware's part of a steal (R81, R349, R350), and the stop of HALT.res on a tile (R364). -/

namespace Sys2Proof.Machine

/-! ### Steals (R349) -/

/-- The tile that a context's request went to. -/
def stealVictim (t : TileId) (x : Ctx) : Option TileId := x.stealFrom.map fun n => ⟨t.die, n⟩

/-- The oldest ready record is marked in transit. -/
def markOldest (thief : TileId) (c : CtxId) (ts : List TaskEntry) : List TaskEntry :=
  modifyFirst (fun e : TaskEntry => e.st == .ready) (fun e => { e with st := .transit thief c }) ts

/-- A victim's entry on its way to a context. -/
def Tile.sending (t : Tile) (thief : TileId) (c : CtxId) : Option TaskEntry :=
  t.tasks.find? fun e => e.st == .transit thief c

/-- The context has no request under way. -/
def Pack.endSteal (p : Pack) (t : TileId) (c : CtxId) : Pack :=
  p.modTile t fun x => (x.modCtx c fun y => { y with stealFrom := none }).settle

/-- STEAL_REQUEST (R349): the request reaches the victim, which sends its head or replies that it has none. -/
def execStealRequest (t : TileId) (c : CtxId) (s : State) : Host.Outcome State Fault Refusal :=
  match stealVictim t (s.pk.ctx t c) with
  | none => .next s
  | some v =>
    let tl := s.pk.tile v
    if (tl.sending t c).isSome then .next s
    else match if tl.res == (s.pk.tile t).res then tl.tasks.find? (fun e => e.st == .ready) else none with
      | some e =>
        if s.pk.unput e then .next s
        else .next { s with pk := s.pk.modTile v fun x => { x with tasks := markOldest t c x.tasks } }
      | none => .next { s with pk := s.pk.endSteal t c }

/-- A record that arrives for a context that has halted goes to its tile's queue as ready (R380). -/
def Pack.shelve (p : Pack) (t : TileId) (c : CtxId) (e : TaskEntry) : Pack :=
  match p.putTask t e.record e.floor with
  | some q => q.endSteal t c
  | none => p

/-- STEAL_ARRIVAL (R349): the record enters the thief context's steal buffer. -/
def execStealArrival (t : TileId) (c : CtxId) (s : State) : Host.Outcome State Fault Refusal :=
  let x := s.pk.ctx t c
  match (stealVictim t x).bind fun v => (s.pk.tile v).sending t c with
  | none => .next s
  | some e =>
    if x.st != .live then .next { s with pk := s.pk.shelve t c e }
    else if x.cur.stl.isSome then .next s
    else
      let p1 := (s.pk.modCur t c fun y => { y with stl := some e.record }).modCtx t c fun y => { y with stlFloor := e.floor }
      .next { s with pk := p1.endSteal t c }

/-- STEAL_ACK (R349): the acknowledgement of an arrived record empties the victim's entry. -/
def execStealAck (t : TileId) (k : Nat) (s : State) : Host.Outcome State Fault Refusal :=
  match (s.pk.tile t).tasks[k]? with
  | none => .next s
  | some e =>
    match e.st with
    | .transit v c =>
      if stealVictim v (s.pk.ctx v c) == some t then .next s
      else .next { s with pk := s.pk.modTile t fun x => { x with tasks := x.tasks.eraseIdx k }.settle }
    | _ => .next s

/-! ### HALT_RES_STOP (R364) -/

/-- The armed sections close, and what fed or drained them has no further elements. -/
def Pack.endSections (p : Pack) (t : TileId) : Pack := (p.tile t).sections.foldl (fun p x => p.closeSection t x) p

/-- The context is not stopped in a trap that awaits the supervisor. -/
def Ctx.stoppable (x : Ctx) : Bool := x.st == .live && x.tcause == 0 && x.raised.isNone

def Pack.stopCtx (p : Pack) (t : TileId) (c : CtxId) : Pack :=
  if (p.ctx t c).stoppable then (p.squash t c 0).halt t c else p

/-- Ready records and steal buffers are discarded. -/
def Tile.dropTasks (t : Tile) : Tile :=
  let bare (x : Ctx) : Ctx := { x with cur := { x.cur with stl := none } }
  { t with tasks := t.tasks.filter fun e => e.st != .ready, ctxs := t.ctxs.map bare }

/-- HALT_RES_STOP (R364): the stop reaches a tile. -/
def execHaltResStop (t : TileId) (s : State) : Host.Outcome State Fault Refusal :=
  if !(s.pk.tile t).halting then .next s
  else
    let p1 := allCtxs.foldl (fun p c => p.stopCtx t c) s.pk
    .next { s with pk := (p1.endSections t).modTile t fun x => ({ x with halting := false, resStopped := true }.dropTasks).settle }

end Sys2Proof.Machine
end

