-- ==== Sys2Proof/Machine/Queues.lean ====
section
/-! DEFINITION. Host queues and admission (R324-R344, R370-R375): taking a descriptor or a launch record, the admission
of bounded swarms, dependences, triggers, and the records of a ring. -/

namespace Sys2Proof.Machine

/-! ### Queue registers (R324) -/

namespace HostQueue

def en (q : HostQueue) : Bool := bit q.cfg 0
def die (q : HostQueue) : DieId := Fin.ofNat 8 (fld q.cfg 3 1)
def cls (q : HostQueue) : Bool := bit q.cfg 4
def prio (q : HostQueue) : BitVec 3 := q.cfg.extractLsb' 5 3
def size (q : HostQueue) : Nat := 2 ^ (fld q.cfg 11 8 + 4)
def csize (q : HostQueue) : Nat := 2 ^ (fld q.cfg 15 12 + 4)

/-- Entry i of the descriptor ring, and record k of the record ring. -/
def descAt (q : HostQueue) (i : Nat) : VA := (0xFF : BitVec 8) ++ ((0 : BitVec 2) ++ BitVec.ofNat 70 (fld q.base 62 0 * 128 + 128 * (i % q.size)))
def recordAt (q : HostQueue) (k : Nat) : VA := (0xFF : BitVec 8) ++ ((0 : BitVec 2) ++ BitVec.ofNat 70 (fld q.cbase 62 0 * 128 + 32 * (k % q.csize)))

/-- Records written and not consumed. -/
def held (q : HostQueue) : Nat := (q.ctail - q.chead).toNat

/-- Records that a descriptor of the queue causes (R326). -/
def causes (q : HostQueue) : Nat := if q.cls then 2 else 1

/-- An enabled queue with a descriptor to take and room for its records. -/
def takeable (q : HostQueue) : Bool :=
  q.en && q.head != q.tail && decide (q.held + q.waiting.length + q.room + q.causes ≤ q.csize)

/-- An error of QSTAT clears en. -/
def fail (q : HostQueue) (k : Nat) : HostQueue := { q with stat := withBit q.stat k true, cfg := withBit q.cfg 0 false, words := [] }

end HostQueue

/-- The enabled VI that owns a module queue (R384). -/
def Pack.queueVi (p : Pack) (q : Nat) : Option (Fin 64) :=
  (List.finRange 64).find? fun v => let x := p.vi v; x.en && x.qbase ≤ q && q < x.qbase + x.qcnt

/-- The level of a VI's swarms from a queue (R386). -/
def ViBlock.queueLevel (v : ViBlock) (q : Nat) : Bool := v.sv && q == v.qbase + v.supq

/-! ### Heads of best-effort queues (R340) -/

/-- The residency of a swarm on a die. -/
def Pack.residOn (p : Pack) (w : Nat) (d : DieId) : Option Nat :=
  (List.range p.resids.length).find? fun r => ((p.resid? r).map fun x => x.swarm == w && x.die == d).getD false

/-- A best-effort swarm still to be placed on a die. -/
def Pack.unplaced (p : Pack) (d : DieId) (w : Nat) : Bool :=
  match p.swarm? w with
  | none => false
  | some x => !x.cls && (x.st == .waiting || x.st == .placed) && x.aborted.isNone && bit (Desc.dies x.desc) d.val && (p.residOn w d).isNone

/-- The heads on a die: the oldest unplaced swarm of each queue. -/
def Pack.heads (p : Pack) (d : DieId) : List Nat :=
  let ws := (List.range p.swarms.length).filter (p.unplaced d)
  let queueOf (w : Nat) : Nat := ((p.swarm? w).map (·.queue)).getD 0
  ws.filter fun w => ws.all fun v => w ≤ v || queueOf v != queueOf w

/-- New heads begin to wait. -/
def Pack.markHeads (p : Pack) : Pack :=
  allDies.foldl (fun p d => (p.heads d).foldl (fun p w => p.modSwarm w fun x =>
    if (x.headSince.get d).isSome then x else { x with headSince := x.headSince.set d (some (p.die d).now) }) p) p

/-! ### Admission (R333, R342, R344) -/

/-- The dies a swarm names. -/
def descDies (desc : BitVec 1024) : List DieId := allDies.filter fun d => bit (Desc.dies desc) d.val

/-- The largest of some numbers. -/
def maxOf (l : List Nat) : Nat := l.foldl max 0

/-- Enter a bounded swarm's intervals with its accepted record, or refuse it. -/
def Pack.admitHost (p : Pack) (w : Nat) (x : Swarm) : Pack :=
  match p.offers x.vi x.desc allDies with
  | .error k =>
    (((p.queueRecord w 2 (BitVec.ofNat 8 k) 0 (Desc.dies x.desc) true).returnRoom w).modSwarm w fun y => { y with st := .refused })
  | .ok os =>
    let p1 := os.foldl (fun p o => p.enter w x.desc o) p
    (p1.queueRecord w 1 0 (maxOf (os.map (·.rel))) (Desc.dies x.desc) true).modSwarm w
      fun y => { y with st := .accepted, acceptedAt := (p.die x.home).now }

/-- A bounded child takes the parent's child window on each of its dies: its bound is the window's end, where a child window of
its own begins (R344). -/
def Pack.admitChild (p : Pack) (w parent : Nat) (x : Swarm) : Pack :=
  let enterOn (q : Pack × List Nat) (d : DieId) : Pack × List Nat :=
    match (q.1.die d).window? parent with
    | none => q
    | some i =>
      let c : Interval := { i with swarm := w, w := Desc.width x.desc, h := Desc.height x.desc, child := false, used := 0,
                                   bw := Desc.bw x.desc, started := false }
      let own (y : Die) : Interval := { c with start := i.start + i.len, len := y.windowLen x.desc, child := true, bw := 0 }
      (q.1.modDie d fun y => { y with plan := y.plan ++ (if Desc.cbud x.desc == 0 then [c] else [c, own y]) }, q.2 ++ [i.start + i.len - (q.1.die d).now])
  let r := (descDies x.desc).foldl enterOn (p, [])
  (r.1.queueRecord w 1 0 (maxOf r.2) (Desc.dies x.desc) false).modSwarm w
    fun y => { y with st := .accepted, acceptedAt := (p.die x.home).now }

def Pack.admitSwarm (p : Pack) (w : Nat) : Pack :=
  match p.swarm? w with
  | none => p
  | some x => match x.parent with
    | some v => p.admitChild w v x
    | none => p.admitHost w x

/-- A swarm whose descriptor has passed its checks (R333, R342). -/
def Pack.accept (p : Pack) (x : Swarm) : Pack :=
  let w := p.swarms.length
  if !x.cls then ({ p with swarms := p.swarms ++ [{ x with st := .waiting }] }).markHeads
  else if !x.deps.isEmpty then { p with swarms := p.swarms ++ [{ x with st := .dependent }] }
  else ({ p with swarms := p.swarms ++ [x] }).admitSwarm w

/-! ### DESCRIPTOR_TAKE (R326, R330) -/

/-- The queue that a die's scheduler serves next: one whose descriptor it is reading; else bounded before best-effort, in
ascending number from the one last served. -/
def Pack.nextQueue (p : Pack) (d : DieId) : Option Nat :=
  let qs := (p.queues.map (·.1)).filter fun q => (p.queue q).takeable && (p.queue q).die == d && (p.queueVi q).isSome
  let turn (c : Bool) : Option Nat :=
    let cs := qs.filter fun q => (p.queue q).cls == c
    let last := (p.die d).lastTaken.get (if c then 1 else 0)
    (minOf (cs.filter fun q => match last with | some k => k < q | none => true)).or (minOf cs)
  (qs.find? fun q => !(p.queue q).words.isEmpty).or ((turn true).or (turn false))

/-- The queue's head moves, and room for its records is reserved. -/
def Pack.advance (p : Pack) (d : DieId) (q : Nat) : Pack :=
  let k : Fin 2 := if (p.queue q).cls then 1 else 0
  (p.modQueue q fun x => { x with head := x.head + 1, room := x.room + x.causes, words := [] }).modDie d
    fun x => { x with lastTaken := x.lastTaken.set k (some q) }

/-- A word of the next descriptor is read, as one event (R246). -/
def State.readDescWord (s : State) (d : DieId) (q : Nat) (vi : Fin 64) : State :=
  let x := s.pk.queue q
  let r := readWordVi s.mem s.pk d vi (x.descAt x.head.toNat + BitVec.ofNat 80 (8 * x.words.length))
  let s1 := s.walkedOn d vi r.2
  let f (y : HostQueue) : HostQueue := match r.1 with | .ok (w, false) => { y with words := y.words ++ [w] } | _ => y.fail 1
  { s1 with pk := s1.pk.modQueue q f }

/-- The words of a descriptor as they were read. -/
def descOf (ws : List W64) : BitVec 1024 := BitVec.ofNat 1024 (bytesToNat (ws.flatMap fun w => natToBytes 8 w.toNat))

/-- A descriptor that has been read is checked, and enters its queue's swarms (R330, R333). -/
def State.takeDesc (s : State) (d : DieId) (q : Nat) (vi : Fin 64) : State :=
  let p := s.pk
  let x := p.queue q
  let desc := descOf x.words
  let w : Swarm := { desc := desc, vi := vi, queue := q, home := d, index := x.head, cls := x.cls, prio := x.prio,
                     lvl := (p.vi vi).queueLevel q }
  let r := checkAll s.mem p d vi x.cls desc (some (q - (p.vi vi).qbase, x.head.toNat))
  let s1 := s.walkedOn d vi r.2
  let p1 := s1.pk.advance d q
  match r.1 with
  | .error k =>
    let p2 := { p1 with swarms := p1.swarms ++ [{ w with st := .rejected }] }
    let p3 := p2.queueRecord p1.swarms.length 6 (BitVec.ofNat 8 (0x10 + k)) 0 (Desc.dies desc) true
    { s1 with pk := if x.cls then p3.returnRoom p1.swarms.length else p3 }
  | .ok deps => { s1 with pk := p1.accept { w with deps := deps } }

/-- DESCRIPTOR_TAKE (R326, R330, R333): the home scheduler reads the next descriptor of the queue whose turn it is, word by
word, and takes it once it has them all. -/
def execDescriptorTake (d : DieId) (q : Nat) (s : State) : Host.Outcome State Fault Refusal :=
  if !(s.pk.die d).ready || !(s.pk.die 0).ready || s.pk.nextQueue d != some q then .next s
  else match s.pk.queueVi q with
    | none => .next s
    | some vi => .next (if (s.pk.queue q).words.length < 16 then s.readDescWord d q vi else s.takeDesc d q vi)

/-! ### RECORD_WRITE (R327, R328) -/

/-- A VI's event that names neither context nor residency (R413). -/
def Pack.noteVi (p : Pack) (d : DieId) (vi : Fin 64) (cause sub : Byte) : Pack :=
  p.note { fr := { vi := vi, die := d, kind := 2, cause := cause, sub := sub, cls := 2 } }

def Place.die : Place → DieId
  | .home d _ _ _ => d
  | _ => 0

/-- A write for a VI by no program: by the host, or of a record. -/
def State.hostStore (s : State) (vi : Fin 64) (pl : Place) (bs : List Byte) : State :=
  let r := writePlace s.mem s.pk ⟨0, 0⟩ pl bs
  let by_ : Access := { id := 0, tile := ⟨0, 0⟩, work := { stream := true }, kind := .st, origin := some (0, 0) }
  let s1 := s.stored (r.1, if r.2.2.dropped then r.2.1 else r.2.1.record s.mem by_ pl bs.length)
  let p1 := s1.pk.noteWrite ⟨0, 0⟩ vi pl r.2.2.read
  let p2 := if r.2.2.dropped then p1.noteVi pl.die vi Cause.writeOnce 0 else p1
  { s1 with pk := match r.2.2.ecc with | some k => p2.noteVi pl.die vi Cause.eccDeferred k | none => p2 }

/-- The record with its phase bit. -/
def HostQueue.phased (q : HostQueue) (r : BitVec 256) : BitVec 256 :=
  withBit r 63 (q.ctail.toNat / q.csize % 2 == 0)

/-- RECORD_WRITE (R327): the oldest record of a queue that waits is written, once the ring has room. -/
def execRecordWrite (q : Nat) (s : State) : Host.Outcome State Fault Refusal :=
  let x := s.pk.queue q
  match x.waiting, s.pk.queueVi q with
  | r :: rest, some vi =>
    if x.csize ≤ x.held || !(s.pk.die x.die).ready then .next s
    else
      let va := x.recordAt x.ctail.toNat
      let pl := placeVi s.mem s.pk x.die vi va .write true
      let s0 := s.walkedOn x.die vi pl.2
      match pl.1 with
      | .error _ => .next { s0 with pk := s0.pk.modQueue q (·.fail 2) }
      | .ok (d, off, _) =>
        let bs := natToBytes 32 (x.phased r).toNat
        let s1 := (s0.hostStore vi (.home d off false 0) (bs.take 16)).hostStore vi (.home d (off + 16) false 0) (bs.drop 16)
        .next { s1 with pk := s1.pk.modQueue q fun y => { y with waiting := rest, ctail := y.ctail + 1 } }
  | _, _ => .next s

/-! ### LAUNCH_RECORD_TAKE (R343, R371, R372) -/

/-- LAUNCH_RECORD_TAKE (R343): the oldest launch record of a die becomes a swarm of its parent's queue. -/
def execLaunchRecordTake (d : DieId) (s : State) : Host.Outcome State Fault Refusal :=
  match (s.pk.die d).launches with
  | [] => .next s
  | l :: rest =>
    let p := s.pk.modDie d fun x => { x with launches := rest }
    match p.swarm? l.parent with
    | none => .next { s with pk := p }
    | some v =>
      let w : Swarm := { desc := l.desc, vi := v.vi, queue := v.queue, home := v.home, cls := v.cls, prio := v.prio, lvl := v.lvl,
                         parent := some l.parent, ticket := some l.ticket, deps := l.deps }
      .next { s with pk := p.accept w }

/-! ### Dependences and triggers (R342, R375) -/

/-- DEPENDENCE_RELEASE (R342): a bounded swarm whose last producer has triggered or ended is admitted. -/
def execDependenceRelease (w : Nat) (s : State) : Host.Outcome State Fault Refusal :=
  match s.pk.swarm? w with
  | none => .next s
  | some x =>
    if x.st == .dependent && x.aborted.isNone && s.pk.depsDone x.home x then .next { s with pk := s.pk.admitSwarm w } else .next s

/-- TRIGGER_NOTICE (R375): the notice of a triggered residency reaches a die's scheduler. -/
def execTriggerNotice (d : DieId) (r : Nat) (s : State) : Host.Outcome State Fault Refusal :=
  .next { s with pk := s.pk.modDie d fun x => { x with notices := x.notices.filter (· != r) } }

/-- SWARM_ABORT (R79): the supervisor aborts a swarm. -/
def execSwarmAbort (w : Nat) (s : State) : Host.Outcome State Fault Refusal := .next { s with pk := s.pk.abortSwarm w 0 }

end Sys2Proof.Machine
end

