-- ==== Sys2Proof/Machine/Placement.lean ====
section
/-! DEFINITION. The choice and the placement of residencies on a die (R333, R335, R340, R341, R344, R394, R424, R431):
best-effort work by priority with ageing, bounded work at its intervals, and the return of saved residencies. -/

namespace Sys2Proof.Machine

/-! ### What waits (R340, R341) -/

structure Waiting where
  who : Waiter
  queue : Nat
  prio : Nat
  since : Nat
  vi : Fin 64
  w : Nat
  h : Nat

/-- The heads of a die's queues and its saved best-effort residencies. -/
def Pack.waitingOn (p : Pack) (d : DieId) : List Waiting :=
  let now := (p.die d).now
  let head (w : Nat) : Option Waiting := (p.swarm? w).map fun x =>
    { who := .head w, queue := x.queue, prio := x.prio.toNat, since := (x.headSince.get d).getD now, vi := x.vi,
      w := Desc.width x.desc, h := Desc.height x.desc }
  let saved (r : Nat) : Option Waiting :=
    match p.resid? r with
    | none => none
    | some y =>
      if y.die == d && y.st == .saved && !y.bounded && !y.thermal then
        (p.swarmOf y).map fun x => { who := .saved r, queue := x.queue, prio := x.prio.toNat, since := y.waitSince, vi := y.vi, w := y.w, h := y.h }
      else none
  (p.heads d).filterMap head ++ (List.range p.resids.length).filterMap saved

/-- Priority with ageing. -/
def Waiting.effective (x : Waiting) (now : Nat) : Nat := min 7 (x.prio + (now - x.since) / 2 ^ 20)

/-- Tile-counts of a VI's best-effort work on a die over the last 2^24 counts (R394). -/
def Die.shareUsed (d : Die) (vi : Fin 64) : Nat :=
  (d.stays.filter (·.vi == vi)).foldl (fun n k => n + k.tiles * (min d.now (k.stop.getD d.now) - max k.start (d.now - 2 ^ 24))) 0

def Pack.withinShare (p : Pack) (d : DieId) (vi : Fin 64) : Bool :=
  let share := ViBlock.perDie (p.vi vi).tsh d
  share == 0 || decide ((p.die d).shareUsed vi * 256 ≤ share * 64 * 2 ^ 24)

/-- Tiles that a VI's residencies hold on a die. -/
def Pack.residentTiles (p : Pack) (d : DieId) (vi : Fin 64) : Nat :=
  (allTiles.filter fun n => (p.tile ⟨d, n⟩).res.isSome && p.tileVi ⟨d, n⟩ == vi).length

def Pack.underMax (p : Pack) (d : DieId) (vi : Fin 64) (w h : Nat) : Bool :=
  p.residentTiles d vi + w * h ≤ ViBlock.perDie (p.vi vi).tmax d

/-- The next of equals: ascending queue number from the one last served. -/
def afterServed (last : Option Nat) (xs : List Waiting) : Option Waiting :=
  (argMin (·.queue) (xs.filter fun x => match last with | some q => q < x.queue | none => true)).or (argMin (·.queue) xs)

/-- The die's choice; a VI above its share is passed over while one within its share waits. -/
def Pack.choice (p : Pack) (d : DieId) : Option Waiting :=
  let x := p.die d
  let all := (p.waitingOn d).filter fun y => p.underMax d y.vi y.w y.h
  let within := all.filter fun y => p.withinShare d y.vi
  let pool := if within.isEmpty then all else within
  let best := maxOf (pool.map fun y => y.effective x.now)
  afterServed (x.served.get (Fin.ofNat 8 best)) (pool.filter fun y => y.effective x.now == best)

/-! ### Regions (R341) -/

/-- An interval that still claims its tiles: its residency has not ended, and has kept its class. -/
def Pack.claims (p : Pack) (d : DieId) (i : Interval) : Bool :=
  i.child || (match (p.residOn i.swarm d).bind p.resid? with
    | some x => x.st != .ended && x.bounded
    | none => true)

/-- No interval on a region is under way or begins within 2^21 counts. -/
def Pack.noneNear (p : Pack) (d : DieId) (x0 y0 w h : Nat) : Bool :=
  let x := p.die d
  x.plan.all fun i => !(overlaps x0 y0 w h i && p.claims d i && i.start < x.now + 2 ^ 21 && x.now < i.start + i.len)

/-- A region meets the one marked for the blocked head (R341). -/
def Blocked.meets (b : Blocked) (x0 y0 w h bw bh : Nat) : Bool :=
  match b.region with
  | some (u, v) => x0 < u + bw && u < x0 + w && y0 < v + bh && v < y0 + h
  | none => false

/-- The region marked for the blocked head is kept from all others. -/
def Die.marked (x : Die) (who : Waiter) (x0 y0 w h bw bh : Nat) : Bool :=
  match x.blockedHead with
  | some b => b.who != who && b.meets x0 y0 w h bw bh
  | none => false

/-- Shape of the blocked head. -/
def Pack.blockedShape (p : Pack) (d : DieId) : Nat × Nat :=
  match (p.die d).blockedHead with
  | some b => ((p.waitingOn d).find? fun x => x.who == b.who).elim (0, 0) fun x => (x.w, x.h)
  | none => (0, 0)

/-- Where a waiter may stand: its own region while it holds state in place there (R431). -/
def Pack.originsFor (p : Pack) (x : Waiting) : List (Nat × Nat) :=
  match x.who with
  | .head _ => origins x.w x.h
  | .saved r => match p.resid? r with
    | some y => if y.tiles.any fun t => (p.tile t).inPlace.contains r then [(y.x0, y.y0)] else origins x.w x.h
    | none => []

def Pack.findRegion (p : Pack) (d : DieId) (x : Waiting) : Option (Nat × Nat) :=
  let b := p.blockedShape d
  (p.originsFor x).find? fun o => p.regionFree d o.1 o.2 x.w x.h && p.noneNear d o.1 o.2 x.w x.h &&
    !(p.die d).marked x.who o.1 o.2 x.w x.h b.1 b.2

/-- The residencies on a region. -/
def Pack.occupants (p : Pack) (d : DieId) (x0 y0 w h : Nat) : List Nat :=
  ((regionTiles x0 y0 w h).filterMap fun n => (p.tile ⟨d, n⟩).res).eraseDups

/-- Best-effort occupants can be pre-empted. -/
def Pack.movable (p : Pack) (r : Nat) : Bool := ((p.resid? r).map fun x => !x.bounded).getD false

/-- A region that pre-emption can free. -/
def Pack.markable (p : Pack) (d : DieId) (w h : Nat) (o : Nat × Nat) : Bool :=
  ((regionTiles o.1 o.2 w h).all fun n => let t := p.tile ⟨d, n⟩; !t.fenced && t.ret == .active) &&
    p.noneNear d o.1 o.2 w h && (p.occupants d o.1 o.2 w h).all p.movable

/-- The candidate region whose occupants started earliest: the last of them to start decides. -/
def Pack.markRegion (p : Pack) (d : DieId) (x : Waiting) : Option (Nat × Nat) :=
  let last (o : Nat × Nat) : Nat := maxOf ((p.occupants d o.1 o.2 x.w x.h).map fun r => ((p.resid? r).map (·.firstAt)).getD 0)
  argMin last ((p.originsFor x).filter (p.markable d x.w x.h))

/-! ### Placing -/

/-- The die may place work. -/
def Pack.places (p : Pack) (d : DieId) : Bool := (p.die d).ready && !(p.die d).thermalStop

def Pack.setBlocked (p : Pack) (d : DieId) (b : Option Blocked) : Pack := p.modDie d fun x => { x with blockedHead := b }

/-- A waiter takes a region. -/
def State.placeWaiter (s : State) (d : DieId) (x : Waiting) (o : Nat × Nat) : State :=
  let served (p : Pack) : Pack := p.modDie d fun y =>
    { y with served := y.served.set (Fin.ofNat 8 (x.effective y.now)) (some x.queue), blockedHead := none }
  let p := served s.pk
  match x.who with
  | .head w => { s with pk := (p.newResid w d o.1 o.2 0).markHeads }
  | .saved r =>
    let p1 := match p.resid? r with
      | some y => if (y.x0, y.y0) == o then p else p.moveResid r o.1 o.2
      | none => p
    { s with pk := p1 }.resume r

/-- What the scheduler does for a waiter: it places it, or makes it the blocked head. -/
def State.serveWaiter (s : State) (d : DieId) (x : Waiting) (old : Option (Nat × Nat)) : State :=
  match s.pk.findRegion d x with
  | some o => s.placeWaiter d x o
  | none =>
    let keep := match old with | some o => if s.pk.markable d x.w x.h o then old else none | none => none
    { s with pk := s.pk.setBlocked d (some { who := x.who, region := keep.or (s.pk.markRegion d x) }) }

/-- The waiter whose turn it is: the blocked head until it is placed. -/
def State.bestEffort (s : State) (d : DieId) (only : Option Waiter) : State :=
  let mine (x : Waiting) : Bool := match only with | some w => x.who == w | none => true
  if !s.pk.places d then s
  else match (s.pk.die d).blockedHead with
    | some b =>
      (match (s.pk.waitingOn d).find? fun x => x.who == b.who with
        | some x => if mine x && s.pk.underMax d x.vi x.w x.h then s.serveWaiter d x b.region else s
        | none => { s with pk := s.pk.setBlocked d none })
    | none =>
      match s.pk.choice d with
      | some x => if mine x then s.serveWaiter d x none else s
      | none => s

/-- BEST_EFFORT_CHOICE (R340, R341). -/
def execBestEffortChoice (d : DieId) (s : State) : Host.Outcome State Fault Refusal := .next (s.bestEffort d none)

/-- QUANTUM_EXPIRY (R341): occupants of the marked region that have run for a quantum are pre-empted, where the save pool
can hold them (R430). -/
def execQuantumExpiry (d : DieId) (s : State) : Host.Outcome State Fault Refusal :=
  let p := s.pk
  match (p.die d).blockedHead.bind (·.region) with
  | none => .next s
  | some o =>
    let b := p.blockedShape d
    let due (r : Nat) : Bool := match p.resid? r with
      | some x => !x.bounded && decide (x.placedAt + 2 ^ 21 ≤ (p.die d).now) && p.poolHolds r
      | none => false
    .next { s with pk := ((p.occupants d o.1 o.2 b.1 b.2).filter due).foldl (fun p r => p.requestPreempt r false none) p }

/-! ### Intervals (R335, R344) -/

/-- Best-effort occupants leave a region that bounded work needs. -/
def Pack.clearRegion (p : Pack) (d : DieId) (x0 y0 w h : Nat) : Pack :=
  ((p.occupants d x0 y0 w h).filter fun r => p.movable r && p.poolHolds r).foldl (fun p r => p.requestPreempt r false none) p

/-- A child's turn in its parent's window: the parent's residency has ended there, and so have earlier children. -/
def Pack.windowTurn (p : Pack) (d : DieId) (k : Nat) (i : Interval) : Bool :=
  let past (w : Nat) : Bool := match (p.residOn w d).bind p.resid? with
    | some x => x.st == .ended
    | none => ((p.swarm? w).map Swarm.over).getD true
  match (p.swarm? i.swarm).bind (·.parent) with
  | none => true
  | some v =>
    past v && ((p.die d).plan.take k).all fun j => j.child || ((p.swarm? j.swarm).bind (·.parent)) != some v || past j.swarm

/-- An interval whose residency has yet to start on a die that may place it. -/
def Pack.awaits (p : Pack) (d : DieId) (k : Nat) (i : Interval) : Bool :=
  match p.swarm? i.swarm with
  | none => false
  | some x => p.places d && !i.child && !i.started && x.aborted.isNone && p.underMax d x.vi i.w i.h && p.windowTurn d k i

/-- The residency of an interval takes its region. -/
def Pack.startInterval (p : Pack) (d : DieId) (k : Nat) (i : Interval) : Pack :=
  let begun (j : Interval) : Interval := { j with started := true }
  (p.newResid i.swarm d i.x0 i.y0 (i.start + i.len)).modDie d fun x => { x with plan := x.plan.modify k begun }

/-- INTERVAL_START (R335): at its start an admitted residency takes its region, from best-effort occupants too. -/
def execIntervalStart (d : DieId) (k : Nat) (s : State) : Host.Outcome State Fault Refusal :=
  match (s.pk.die d).plan[k]? with
  | none => .next s
  | some i =>
    if !s.pk.awaits d k i || (s.pk.die d).now < i.start then .next s
    else if s.pk.regionFree d i.x0 i.y0 i.w i.h then .next { s with pk := s.pk.startInterval d k i }
    else .next { s with pk := s.pk.clearRegion d i.x0 i.y0 i.w i.h }

/-- An interval may start early: its region is free and not marked for a blocked head, and no other interval uses it before. -/
def Pack.mayStartEarly (p : Pack) (d : DieId) (k : Nat) (i : Interval) : Bool :=
  let x := p.die d
  let parent := (p.swarm? i.swarm).bind (·.parent)
  let other (j : Interval) : Bool := !(j.child && some j.swarm == parent) && p.claims d j && overlaps i.x0 i.y0 i.w i.h j &&
    decide (j.start < i.start) && decide (x.now < j.start + j.len)
  let b := p.blockedShape d
  let kept : Bool := match x.blockedHead with | some y => y.meets i.x0 i.y0 i.w i.h b.1 b.2 | none => false
  p.awaits d k i && decide (x.now < i.start) && !kept && p.regionFree d i.x0 i.y0 i.w i.h && x.plan.all fun j => !other j

/-- Among intervals that may start early, the earliest bound first, then the lowest queue. -/
def Pack.earlierBound (p : Pack) (i j : Interval) : Bool :=
  let q (k : Interval) : Nat := ((p.swarm? k.swarm).map (·.queue)).getD 0
  j.start + j.len < i.start + i.len || (j.start + j.len == i.start + i.len && q j < q i)

/-- EARLY_START (R335). -/
def execEarlyStart (d : DieId) (k : Nat) (s : State) : Host.Outcome State Fault Refusal :=
  let plan := (s.pk.die d).plan
  match plan[k]? with
  | none => .next s
  | some i =>
    let ahead (n : Nat) : Bool := match plan[n]? with
      | some j => s.pk.mayStartEarly d n j && s.pk.earlierBound i j
      | none => false
    if s.pk.mayStartEarly d k i && !(List.range plan.length).any ahead then .next { s with pk := s.pk.startInterval d k i }
    else .next s

/-! ### RESIDENCY_RESUME (R424, R431) -/

/-- A bounded residency returns to the region of its interval. -/
def State.resumeBounded (s : State) (r : Nat) (x : Resid) : State :=
  if !s.pk.places x.die || !s.pk.underMax x.die x.vi x.w x.h then s
  else if s.pk.regionFree x.die x.x0 x.y0 x.w x.h then s.resume r
  else { s with pk := s.pk.clearRegion x.die x.x0 x.y0 x.w x.h }

/-- RESIDENCY_RESUME (R431): a saved residency takes its place again. -/
def execResidencyResume (r : Nat) (s : State) : Host.Outcome State Fault Refusal :=
  match s.pk.resid? r with
  | none => .next s
  | some x =>
    if x.st != .saved || x.thermal then .next s
    else if x.bounded then .next (s.resumeBounded r x)
    else .next (s.bestEffort x.die (some (.saved r)))

end Sys2Proof.Machine
end

