-- ==== Sys2Proof/Machine/Swarms.lean ====
section
/-! DEFINITION. The life of a residency and of its swarm (R71, R75-R79, R104, R191, R336-R338, R346, R347, R351): start,
end, the stops of the budget and the watchdog, and the horizon. -/

namespace Sys2Proof.Machine

/-! ### COSTART_RESERVATION (R77) -/

/-- The residency of a swarm on a die has its region and has not started. -/
def Pack.startingOn (p : Pack) (w : Nat) (d : DieId) : Bool :=
  (((p.residOn w d).bind p.resid?).map fun x => x.st == .starting && !x.aborted).getD false

/-- COSTART_RESERVATION (R77): a die announces that it has reserved its region. -/
def execCostartReservation (d : DieId) (w : Nat) (s : State) : Host.Outcome State Fault Refusal :=
  match s.pk.swarm? w with
  | none => .next s
  | some x =>
    if Desc.cost x.desc && s.pk.startingOn w d && !bit x.announced d.val && s.pk.ringRoom d then
      .next { s with pk := (s.pk.enqueueRing d s.nextId (.costart w d)).modSwarm w fun y => { y with announced := withBit y.announced d.val true }
                     nextId := s.nextId + 1 }
    else .next s

/-- A die has acted on every announcement of a co-start (R77). -/
def Pack.costartSeen (p : Pack) (d : DieId) (w : Nat) (x : Swarm) : Bool :=
  let mine (m : Message) : Bool := match m.body with | .costart v _ => v == w | _ => false
  !Desc.cost x.desc ||
    (Desc.dies x.desc &&& ~~~ x.announced == 0 && !(allDies.any fun c => (p.ring.queues.get c ++ p.ring.late.get c).any mine) &&
      !(p.ring.sent.any fun m => mine m && !bit m.acted d.val))

/-! ### RESIDENCY_START (R71, R75, R104, R329) -/

/-- An initial context (R71). -/
def Ctx.initial (desc : BitVec 1024) (entry : VA) (lvl : Bool) : Ctx :=
  let args : Vector W64 8 := Vector.ofFn fun k => Desc.arg desc k.val
  let base : CtxImage := { pc := entry, alloc := Desc.alloc desc, lvl := lvl, arg := args }
  let cur := (List.range 8).foldl (fun (c : CtxImage) k => c.setG k ((Desc.arg desc k).setWidth 128) false) base
  { st := .live, cur := cur, req := some { va := entry } }

/-- A tile's sequencer takes the first image of its residency. -/
def Tile.takeFirst (t : Tile) (ranges : List RangeEntry) (img : Option Image) : Tile :=
  let t1 := { t with ranges := ranges }
  match img with
  | none => t1
  | some i => { ((t1.keep i).getD t1).pushImage i true with active := t1.active.logImage i }

/-- A tile at the start of its residency: its contexts. -/
def Tile.start (t : Tile) (desc : BitVec 1024) (entry : VA) (lvl : Bool) (writes : Nat) : Tile :=
  let n := Desc.ctxs desc
  { t with ctxs := Vector.ofFn fun c : Fin 32 => if c.val < n then (Ctx.initial desc entry lvl).informed writes else {} }

/-- The image to place at the start: a block image that was read whole. -/
def firstImage (f : Fetched) (i : Image) : Option Image :=
  if f.err.isSome || f.poison || Header.stream i.hdr then none else some i

/-- The coordinate field, tile and step of a failed start, as a record's span (R327). -/
def failSpan (e : CheckFail) : Nat := e.coord.toNat + e.step * 2 ^ 22

/-- The residency has started. -/
def Pack.started (p : Pack) (r : Nat) (x : Resid) (home : DieId) : Pack :=
  let now := (p.die x.die).now
  let p1 := p.modResid r fun y => { y with st := .resident, epoch := (p.die x.die).started, placedAt := now, firstAt := now }
  let p2 := p1.modDie x.die fun d => { d with started := d.started + 1 }
  p2.modSwarm x.swarm fun w => { w with st := .placed, placedAt := some (w.placedAt.getD (p.die home).now) }

/-- R104: the residency does not start, and its swarm is aborted. -/
def Pack.startFailed (p : Pack) (r : Nat) (x : Resid) (e : CheckFail) : Pack :=
  let p1 := p.queueRecord x.swarm 7 Cause.illegalConfig (failSpan e) (dieBit x.die) false
  (p1.endResid r).abortSwarm x.swarm Cause.illegalConfig

/-- The first image of a residency goes to the sequencer of every tile of its region (R75, R104). -/
def State.imageResid (s : State) (r : Nat) (x : Resid) (w : Swarm) : State :=
  let entry := blockAddr (Desc.entry w.desc)
  let ranges := s.mem.loadRanges (s.pk.vi x.vi)
  let t0 := x.tileAt 0 0
  let loaded := s.loadRanges x.die x.vi
  let s0 := { loaded with pk := loaded.pk.modTile t0 fun t => { t with ranges := ranges } }
  let f := s0.fetchImage t0 x.lvl entry
  let img := firstImage f.1 f.2
  let s1 := f.1.state
  match img.bind Image.check with
  | some e => { s1 with pk := s1.pk.startFailed r x e }
  | none =>
    let p1 := x.tiles.foldl (fun p t => p.modTile t fun y => y.takeFirst ranges img) s1.pk
    { s1 with pk := p1.modResid r fun y => { y with imaged := true } }

/-- Every tile has placed the first image. -/
def Pack.imagePlaced (p : Pack) (x : Resid) : Bool := x.tiles.all fun t => (p.tile t).cfgStream.isEmpty

/-- A residency's start on every tile of its region: from here its contexts live and its budget counts. -/
def Pack.startResid (p : Pack) (r : Nat) (x : Resid) (w : Swarm) : Pack :=
  (x.tiles.foldl (fun p t => p.modTile t fun y => y.start w.desc (blockAddr (Desc.entry w.desc)) x.lvl p.hist.writes) p).started r x w.home

/-- RESIDENCY_START (R75): its region reserved, and every announcement of a co-start acted on, a residency's tiles take
its first image; once each has placed it, the residency starts. -/
def execResidencyStart (r : Nat) (s : State) : Host.Outcome State Fault Refusal :=
  match s.pk.resid? r with
  | none => .next s
  | some x =>
    match s.pk.swarmOf x with
    | none => .next s
    | some w =>
      if x.st == .starting && !x.aborted && s.pk.places x.die && s.pk.costartSeen x.die x.swarm w then
        if !x.imaged then .next (s.imageResid r x w)
        else if s.pk.imagePlaced x then .next { s with pk := s.pk.startResid r x w }
        else .next s
      else .next s

/-! ### RESIDENCY_END (R75) -/

/-- A tile's share of the conditions of R75. -/
def Tile.done (t : Tile) : Bool :=
  t.ctxs.toList.all (fun x => x.st != .live && x.st != .saved) && t.sections.isEmpty && t.noOps && t.accBuf.isEmpty && !t.halting &&
    t.tasks.all fun e => match e.st with | .transit _ _ => false | _ => true

/-- Nothing of the residency is left but accesses that another package has yet to answer. -/
def Pack.residDone (p : Pack) (r : Nat) (x : Resid) : Bool :=
  x.tiles.all (fun t => (p.tile t).done) && p.pending.all (fun n => n.res != some r) &&
    p.accs.all fun a => a.res != some r || (match a.st with | .remote _ => true | _ => false)

/-- RESIDENCY_END (R75): a residency that has done everything returns its tiles. -/
def execResidencyEnd (r : Nat) (s : State) : Host.Outcome State Fault Refusal :=
  match s.pk.resid? r with
  | none => .next s
  | some x =>
    if (x.st == .resident || (x.st == .starting && x.aborted)) && s.pk.residDone r x then .next { s with pk := s.pk.endResid r }
    else .next s

/-! ### SWARM_END (R79, R328, R351) -/

/-- Every residency has ended; those of an aborted swarm that have not started never do. -/
def Pack.allEnded (p : Pack) (w : Nat) (x : Swarm) : Bool :=
  (descDies x.desc).all fun d => match (p.residOn w d).bind p.resid? with
    | some y => y.st == .ended
    | none => x.aborted.isSome

/-- Every write of the swarm has been acknowledged (R328). -/
def Pack.acknowledged (p : Pack) (w : Nat) : Bool :=
  p.accs.all fun a => ((a.res.bind p.resid?).map fun y => y.swarm != w).getD true

/-- A swarm whose children in its window have yet to end, or to be taken from a die's launch records. -/
def Pack.hasChildren (p : Pack) (w : Nat) : Bool :=
  (p.swarms.any fun x => x.parent == some w && !x.over) || allDies.any fun d => (p.die d).launches.any fun l => l.parent == w

/-- Intervals of ended swarms leave the plan, and child windows with no child left. -/
def Pack.trimPlans (p : Pack) : Pack :=
  let past (w : Nat) : Bool := ((p.swarm? w).map Swarm.over).getD true
  let keep (i : Interval) : Bool := !past i.swarm || (i.child && p.hasChildren i.swarm)
  { p with dies := p.dies.map fun (d : Die) => { d with plan := d.plan.filter keep } }

/-- How the swarm ends: its record's kind and cause (R328, R413). -/
def Swarm.ending (x : Swarm) : Byte × Byte :=
  match x.aborted, x.deferredKind2 with
  | some c, _ => (4, c)
  | none, some c => (4, c)
  | none, none => (3, 0)

/-- Counts from acceptance, or from the first placement, to the end (R327). -/
def Swarm.span (x : Swarm) (now : Nat) : Nat := if x.cls then now - x.acceptedAt else now - x.placedAt.getD now

/-- A bounded swarm aborted before its admission never has its first record (R326). -/
def Pack.returnFirst (p : Pack) (w : Nat) (x : Swarm) : Pack := if x.cls && x.st == .dependent then p.returnRoom w else p

def Swarm.alive (x : Swarm) : Bool :=
  x.st == .accepted || x.st == .placed || (x.aborted.isSome && (x.st == .waiting || x.st == .dependent))

/-- SWARM_END (R79, R351): the swarm leaves the plan and its record is formed. -/
def execSwarmEnd (w : Nat) (s : State) : Host.Outcome State Fault Refusal :=
  match s.pk.swarm? w with
  | none => .next s
  | some x =>
    if x.alive && s.pk.allEnded w x && s.pk.acknowledged w then
      let e := x.ending
      let p1 := (s.pk.queueRecord w e.1 e.2 (x.span (s.pk.die x.home).now) (Desc.dies x.desc) true).returnFirst w x
      .next { s with pk := ((p1.modSwarm w fun y => { y with st := .ended }).trimPlans).markHeads }
    else .next s

/-! ### Stops by the part (R336, R346, R347, R413) -/

/-- The part stops a residency: it is pre-empted, its swarm's queue and its VI's error queue are told. -/
def Pack.stopResid (p : Pack) (r : Nat) (x : Resid) (cause sub : Byte) : Pack :=
  let p1 := p.requestPreempt r true (some cause)
  (p1.queueRecord x.swarm 5 cause 0 (dieBit x.die) false).note { res := some r, fr := p.resRec r 3 cause sub }

/-- A residency that a counter may stop. -/
def Resid.counted (x : Resid) : Bool := x.st == .resident && x.pre.isNone && !x.aborted

/-- The budget: the cycles of the descriptor at the digit rate of its admission (R336). -/
def Pack.budget (p : Pack) (x : Resid) : Nat :=
  let d := p.die x.die
  match p.swarmOf x with
  | none => 0
  | some w =>
    let rho := ((d.plan.find? fun i => i.swarm == x.swarm && !i.child).map (·.rho)).getD d.admitRho
    ceilDiv (4 * Desc.wc w.desc) rho

/-- Live contexts of a residency. -/
def Pack.liveCtxs (p : Pack) (x : Resid) : List (TileId × CtxId) :=
  x.tiles.flatMap fun t => (allCtxs.filter fun c => (p.ctx t c).st == .live).map fun c => (t, c)

/-- BUDGET_OVERRUN (R336): every live context is told. -/
def execBudgetOverrun (r : Nat) (s : State) : Host.Outcome State Fault Refusal :=
  match s.pk.resid? r with
  | none => .next s
  | some x =>
    if x.counted && x.bounded && s.pk.budget x < x.budget then
      let p1 := s.pk.stopResid r x Cause.budgetOverrun 0
      .next { s with pk := (s.pk.liveCtxs x).foldl (fun p k => p.defer k.1 k.2 Cause.budgetOverrun 0) p1 }
    else .next s

/-- The oldest live context of a tile (R346): by the stamp of its oldest instance; then those without one. -/
def Tile.oldestCtx (t : Tile) : Option CtxId :=
  let cs := allCtxs.filter fun c => (t.ctx c).st == .live
  let stamp (c : CtxId) : Nat := ((t.oldest? c).map (·.stamp)).getD 0
  (argMin stamp (cs.filter fun c => (t.oldest? c).isSome)).or cs.head?

/-- The oldest instance waits at an instruction. -/
def Tile.waitsAt (t : Tile) (c : CtxId) (p : Instr → Bool) : Bool :=
  match t.oldest? c with
  | none => false
  | some i => t.store.any fun e =>
      e.work.ctx == c && !e.work.stream && e.work.n == i.seq && t.complete e && (match t.instrAt e.elem with | .ok x => p x | .error _ => false)

/-- An operation's record waits for room in the queue it goes to, or for another package to put it. -/
def Pack.putFull (p : Pack) (t : TileId) (o : Op) : Bool :=
  let full (v : TileId) : Bool := queueCapacity ≤ (p.tile v).tasks.length
  o.record.isSome && (match o.send?, o.stream? with
    | some c, _ => (match p.sendPeer t c with
      | .ok none => (match p.sendDest t c with | .tile v => full v | _ => false)
      | _ => o.mark)
    | none, some c => ((c.task.bind fun x => p.regionTile t (x.2.toNat % 8) (x.2.toNat / 8)).map full).getD false
    | none, none => false)

/-- A task put of the context waits for room. -/
def Pack.putWaits (p : Pack) (t : TileId) (c : CtxId) : Bool := (p.tile t).sideQ.any fun o => o.ctx == c && p.putFull t o

/-- The DEADLOCK subcause of a context (R347). -/
def Pack.deadlockSub (p : Pack) (t : TileId) (c : CtxId) : Byte :=
  let x := p.tile t
  if x.waitsAt c (fun i => match i with | .barSync _ => true | _ => false) then 2
  else if x.waitsAt c (fun i => match i with | .waitdep _ => true | _ => false) then 3
  else if x.waitsAt c (fun i => match i with | .hwait _ | .cwait _ => true | _ => false) then 4
  else if p.gangWaits t c then 5
  else if x.waitsAt c (fun i => match i with | .tqget _ => true | _ => false) || p.putWaits t c then 6
  else match x.oldest? c with
    | some i => if ((p.imageOf t i.img).map fun im => i.complete im).getD false then 0 else 1
    | none => 0

/-- R54: the record against a context names its oldest instance. -/
def Pack.deferDeadlock (p : Pack) (t : TileId) (c : CtxId) (sub : Byte) : Pack :=
  match (p.tile t).oldest? c with
  | some i => p.defer t c Cause.deadlock sub 0 i.img (BitVec.ofNat 48 i.iter)
  | none => p.defer t c Cause.deadlock sub

/-- WATCHDOG_EXPIRY (R346): the residency stops, and the oldest live context of each tile is told. -/
def execWatchdogExpiry (r : Nat) (s : State) : Host.Outcome State Fault Refusal :=
  match s.pk.resid? r with
  | none => .next s
  | some x =>
    if x.counted && decide (2 ^ 24 ≤ x.watchdog) then
      let named := x.tiles.filterMap fun t => ((s.pk.tile t).oldestCtx).map fun c => (t, c, s.pk.deadlockSub t c)
      let p1 := s.pk.stopResid r x Cause.deadlock ((named.head?.map fun k => k.2.2).getD 0)
      .next { s with pk := named.foldl (fun p k => p.deferDeadlock k.1 k.2.1 k.2.2) p1 }
    else .next s

/-! ### HORIZON_BOUNDARY (R337, R338) -/

/-- A limit of R462 is passed: of the coolant or the supply, or of a die's junction. -/
def Pack.outOfLimits (p : Pack) : Bool := allDies.any fun d => (p.die d).outside || decide (1050 < (p.die d).tj.toNat)

/-- A die's cap: ρ outside the rated limits, and never below it (R338, R462). The collar's best-effort issue is capped only at
ρ (R461). -/
def Die.capAt (x : Die) (beyond : Bool) (q : Nat) : Die :=
  let rho := quarters x.rhoNow
  let cap := if beyond then rho else max q rho
  { x with cap := Fin.ofNat 5 cap, collarCap := x.collarCap && cap == rho }

/-- The caps after a change of ρ or of the limits. -/
def Pack.recap (p : Pack) : Pack := { p with dies := p.dies.map fun (x : Die) => x.capAt p.outOfLimits x.cap.val }

/-- Bounds that are still outstanding on a die. -/
def Pack.openBounds (p : Pack) (d : DieId) : List Interval := (p.die d).plan.filter fun i => i.child || p.claims d i

/-- A pending floor or fraction takes effect once no bound computed with a higher one remains. -/
def Pack.horizon (p : Pack) (d : DieId) : Pack :=
  let x := p.die d
  let is := p.openBounds d
  let floor := x.pendingFloor != 0 && is.all fun i => i.floor ≤ x.pendingFloor.toNat
  let rho := match x.pendingRho with | some c => is.all fun i => i.rho ≤ quarters c | none => false
  let now := if rho then x.pendingRho.getD x.rhoNow else x.rhoNow
  (p.modDie d fun y =>
    { y with
      floorKHz := if floor then y.pendingFloor else y.floorKHz
      pendingFloor := if floor then 0 else y.pendingFloor
      rhoNow := now
      pendingRho := if rho then none else y.pendingRho }).recap

/-- HORIZON_BOUNDARY (R337): at a multiple of 2^30 counts of the die's counter. -/
def execHorizonBoundary (d : DieId) (s : State) : Host.Outcome State Fault Refusal :=
  if (s.pk.die d).now % 2 ^ 30 == 0 then .next { s with pk := s.pk.horizon d } else .next s

end Sys2Proof.Machine
end

