-- ==== Sys2Proof/Machine/Recover.lean ====
section
/-! DEFINITION. Pre-emption step by step (R426-R430), and the errors of storage inside a tile (R195, R216, R231,
R432, R433) and of a whole tile (R18, R439). -/

namespace Sys2Proof.Machine

/-! ### Pre-emption (R426, R427) -/

/-- PREEMPTION_REQUEST (R427): the request arrives at every tile; HALT.res in progress finishes first (R429). -/
def execPreemptionRequest (r : Nat) (s : State) : Host.Outcome State Fault Refusal :=
  match s.pk.resid? r with
  | none => .next s
  | some x =>
    if x.st != .resident || x.pre.isNone || x.tiles.any (fun t => (s.pk.tile t).halting) then .next s
    else
      let p1 := x.tiles.foldl Pack.arrive s.pk
      .next { s with pk := p1.modResid r fun y => { y with st := .saving } }

/-- PREEMPTION_CUTOFF (R427): at cycle 12,288 operations stop where they are. -/
def execPreemptionCutoff (r : Nat) (s : State) : Host.Outcome State Fault Refusal :=
  match s.pk.resid? r with
  | none => .next s
  | some x =>
    if x.st == .saving && decide (12288 ≤ x.pre.getD 0) then .next { s with pk := s.pk.modResid r fun y => { y with cut := true } }
    else .next s

/-- A tile has nothing left to stop, or its drain has run out of time. An MMA whose section no longer brings the beats of
its K-step then stays inside that step (log 69, DESIGN CHOICE). -/
def Pack.savable (p : Pack) (t : TileId) (r : Nat) (x : Resid) : Bool :=
  let tl := p.tile t
  p.quiet t r && (p.settled t x.cut ||
    (decide (19456 ≤ x.pre.getD 0) && tl.matrixQ.all fun o => o.settled || tl.lacksBeats (p.tileAccs t) o))

/-- PREEMPTION_LAST_ISSUE (R426): the residency's state has been saved, and its tiles may take another. -/
def execPreemptionLastIssue (r : Nat) (s : State) : Host.Outcome State Fault Refusal :=
  match s.pk.resid? r with
  | none => .next s
  | some x =>
    if x.st == .saving && x.tiles.all (fun t => s.pk.savable t r x) then .next { s with pk := s.pk.saveResid r }
    else .next s

/-! ### Parity (R432) -/

/-- The oldest instance of a context that holds a token in an element. -/
def Tile.hurt (t : Tile) (a : BitVec 12) (c : CtxId) : Option Nat :=
  let works := (t.store.filter fun e => e.elem == a).map (·.work) ++ (t.links.filter fun k => k.src == a).map (·.work)
  minOf ((works.filter fun w => w.ctx == c && !w.stream).map (·.n))

/-- Instances from the hurt one on are squashed and replayed. -/
def Pack.replayHurt (p : Pack) (t : TileId) (a : BitVec 12) (c : CtxId) : Pack :=
  match (p.tile t).hurt a c with
  | none => p
  | some k =>
    match (p.tile t).inst? c k with
    | none => p
    | some i => (p.squash t c k).respawn t c i none

/-- A section that uses the element is set back to its lowest beat not delivered, and goes on from there. -/
def Pack.rearm (p : Pack) (t : TileId) (a : BitVec 12) : Pack :=
  let img := ((p.tile t).active.elem a).img
  ((p.tile t).sections.filter fun x => img == some x.img && x.stop.isNone).foldl
    (fun p x => p.takeBack t x ((p.tile t).backBeat (p.tileAccs t) x)) p

/-- An image of the context store is read again from its address; one that cannot be read, or that has no room as it now
reads (R19), leaves the store. -/
def State.reloadImage (s : State) (t : TileId) (i : Image) : State :=
  let lvl := ((s.pk.resOf t).map fun x => x.2.lvl).getD false
  let f := s.fetchImage t lvl i.addr
  let s1 := f.1.state
  let same (j : Image) : Bool := j.addr == i.addr && j.vi == i.vi
  let without (x : Tile) : Tile := { x with images := x.images.filter fun (j : Image) => !same j }
  { s1 with pk := s1.pk.modTile t fun x => if f.1.err.isSome || f.1.poison then without x else (x.keep f.2).getD (without x) }

/-- A soft error without a trap: the die counts it, and the VI concerned is told. -/
def Pack.softNote (p : Pack) (t : TileId) : Pack :=
  let p1 := p.modDie t.die fun d => { d with softErrors := d.softErrors + 1 }
  match p.resOf t with
  | some (r, x) => p1.note { res := some r, fr := { vi := x.vi, die := t.die, kind := 4, tx := BitVec.ofNat 3 (x.relX t), ty := BitVec.ofNat 3 (x.relY t),
                                                    rh := x.handle } }
  | none => p1

/-- PARITY_ERROR (R432): in an element of the active plane, its matching store or its latches; or, for element
address 0xC00 + k, in image k of the context store (log 24). -/
def execParityError (t : TileId) (elem : BitVec 12) (s : State) : Host.Outcome State Fault Refusal :=
  if elem.toNat / 256 == 12 then
    match (s.pk.tile t).images[elem.toNat % 256]? with
    | some i => let s1 := s.reloadImage t i; .next { s1 with pk := s1.pk.softNote t }
    | none => .next s
  else
    let p1 := allCtxs.foldl (fun p c => p.replayHurt t elem c) s.pk
    .next { s with pk := (p1.rearm t elem).softNote t }

/-! ### Registers and memories of a tile (R195, R216, R231, R433) -/

/-- REGISTER_ECC_ERROR (R433): the register is poisoned, and a deferred trap is raised. -/
def execRegisterEccError (t : TileId) (c : CtxId) (g : Fin 128) (s : State) : Host.Outcome State Fault Refusal :=
  if (s.pk.ctx t c).st == .free then .next s
  else
    let p1 := s.pk.modCur t c fun x => x.setG g.val (Config.freeValue s.freeCount) true
    .next { s with pk := p1.defer t c Cause.eccDeferred 4, freeCount := s.freeCount + 1 }

/-- The blocks of a weight plane with bytes in its 8-byte word k (R193, R216): one of mantissas, or the eight whose exponents
stand there. -/
def WeightPlane.blocksIn (w : WeightPlane) (k : Nat) : List Nat :=
  let e := expBase w.width / 8
  let m := 4 * bxWidth w.width
  if k < e then [8 * k / m].filter (· < 2048) else if k < e + 256 then (List.range 8).map (8 * (k - e) + ·) else []

def WeightPlane.hurt (w : WeightPlane) (k : Nat) : WeightPlane := { w with bad := (w.bad ++ w.blocksIn k).eraseDups }

/-- The error stands in the storage: its poison bit, or, in the scratchpad, an error that a read finds (R231). -/
def Tile.spoil (t : Tile) (site : SramSite) : Tile :=
  match site with
  | .operand u => { t with omPoison := sset false t.omPoison (u % 131072) true }
  | .plane true k => { t with wActive := t.wActive.hurt k }
  | .plane false k => { t with wShadow := t.wShadow.hurt k }
  | .acc a w => { t with accPoison := sset false t.accPoison (a.val * 16384 + w % 16384) true }
  | .scratch w => { t with padBad := sset false t.padBad (w % 2 ^ 19) true }

/-- SRAM_UNCORRECTABLE (R195, R216, R231): what uses the storage carries poison from here on. -/
def execSramUncorrectable (t : TileId) (site : SramSite) (s : State) : Host.Outcome State Fault Refusal :=
  let p1 := s.pk.modTile t (·.spoil site)
  match site with
  | .scratch _ => .next { s with pk := p1 }
  | _ => .next { s with pk := p1.softNote t }

/-! ### A fenced tile (R18, R439) -/

def FenceCause.cause : FenceCause → Byte
  | .ecc => Cause.eccDeferred
  | .margin => Cause.margin
  | .silent => Cause.deadlock

/-- VIs with work on a die. -/
def Pack.visOn (p : Pack) (d : DieId) : List (Fin 64) :=
  ((p.resids.filter fun x => x.die == d && x.st != .ended).map (·.vi)).eraseDups

/-- One MARGIN record for each VI with work on the die. -/
def Pack.noteMargin (p : Pack) (d : DieId) : Pack :=
  (p.visOn d).foldl (fun p v => p.note { fr := { vi := v, die := d, kind := 5, cause := Cause.margin, cls := 2 } }) p

/-- A tile is fenced at once, and the ring is told (R18, R254). -/
def Pack.fenceTile (p : Pack) (t : TileId) (cause : Byte) : Pack := (p.fence t cause).enqueueRing t.die 0 (.gone t.die (some t.n))

/-- TILE_FENCE (R18, R29, R439): the tile takes no further placements, its residency stops, and the ring is told; for want
of margin a MARGIN event is recorded. -/
def execTileFence (t : TileId) (cause : FenceCause) (s : State) : Host.Outcome State Fault Refusal :=
  if (s.pk.tile t).fenced then .next s
  else
    let p := if cause == .margin then s.pk.noteMargin t.die else s.pk
    .next { s with pk := p.fenceTile t (FenceCause.cause cause) }

end Sys2Proof.Machine
end

