-- ==== Sys2Proof/Machine/Power.lean ====
section
/-! DEFINITION. Bring-up, power and management of a die (R18, R24-R26, R28-R31, R254, R337, R338, R402, R403, R437, R438,
R456-R463). -/

namespace Sys2Proof.Machine

/-! ### Droop (R30, R438) -/

/-- Stretched cycles of a window of 65,536 that the floor leaves room for (R321), against 600 MHz (log 27). -/
def stretchRoom (floorKHz : Nat) : Nat := 65536 * (600000 - floorKHz) / floorKHz

/-- The stretched cycles of the last 65,536, and whether they are more than the floor allows. -/
def Tile.inWindow (t : Tile) : List (Nat × Nat) := t.stretches.filter fun x => t.clk.toNat < x.1 + 65536

def Tile.markExcess (t : Tile) (floorKHz : Nat) : Tile :=
  let w := t.inWindow
  let past := decide (stretchRoom floorKHz < (w.map (·.2)).sum)
  { t with stretches := w, excess := if past then some (t.excess.getD t.clk.toNat) else none }

/-- CLOCK_STRETCH (R30): a sag stretches a tile's clock for a number of cycles, which the tile counts (R438). -/
def execClockStretch (t : TileId) (cycles : Nat) (s : State) : Host.Outcome State Fault Refusal :=
  let floor := (s.pk.die t.die).floorKHz.toNat
  .next { s with pk := s.pk.modTile t fun x =>
    { x with stretched := x.stretched + cycles, stretches := x.stretches ++ [(x.clk.toNat, cycles)] }.markExcess floor }

/-! ### Margins (R29, R337, R437) -/

/-- A lower floor becomes pending; one never announced is not below 489 MHz. -/
def Pack.lowerFloor (p : Pack) (d : DieId) (f : W32) : Pack :=
  p.modDie d fun x =>
    if 489000 ≤ f.toNat && f.toNat < x.admitFloor then { x with pendingFloor := f } else x

/-- MARGIN (R437): a die's worst slack is below its margin; firmware announces a lower floor. -/
def execMargin (d : DieId) (floorKHz : W32) (s : State) : Host.Outcome State Fault Refusal :=
  if !(s.pk.die d).ready then .next s
  else .next { s with pk := (s.pk.noteMargin d).lowerFloor d floorKHz }

/-- The floor that firmware computes after a lasting excess: its own choice below the one admission uses. -/
def Die.chooseFloor (d : Die) (free : W128) : Option W32 :=
  let f := d.admitFloor
  if 489000 < f then some (BitVec.ofNat 32 (489000 + free.toNat % (f - 489000))) else none

/-- An excess that lasts is a loss of margin: a lower floor is announced, or at 489 MHz the tile is fenced (R29). -/
def State.loseMargin (s : State) (t : TileId) : State :=
  let p := s.pk.noteMargin t.die
  match (s.pk.die t.die).chooseFloor (Config.freeValue s.freeCount) with
  | some f => { s with pk := p.lowerFloor t.die f, freeCount := s.freeCount + 1 }
  | none =>
    { s with pk := if (p.tile t).fenced then p else p.fenceTile t Cause.margin }

/-- STRETCH_EXCESS (R438): the power manager caps the digit rate; an excess of 2^20 cycles is a loss of margin. -/
def execStretchExcess (t : TileId) (s : State) : Host.Outcome State Fault Refusal :=
  let rho := quarters (s.pk.die t.die).rhoNow
  let x := s.pk.tile t
  match x.excess with
  | none => .next s
  | some c =>
    let p := s.pk.modDie t.die fun d => { d with cap := Fin.ofNat 5 rho }
    if x.clk.toNat < c + 2 ^ 20 then .next { s with pk := p }
    else
      let s1 := { s with pk := p }.loseMargin t
      .next { s1 with pk := s1.pk.modTile t fun y => { y with excess := none, stretches := [] } }

/-! ### Thermal stop and resume (R462) -/

/-- Every residency on a die: about to start, at work or on its way to its stop. -/
def Pack.residentOn (p : Pack) (d : DieId) : List Nat :=
  (List.range p.resids.length).filter fun r =>
    ((p.resid? r).map fun x => x.die == d && (x.st == .starting || x.st == .resident || x.st == .saving)).getD false

/-- A residency is pre-empted and held for the temperature; one already on its way is stopped only once. -/
def Pack.holdThermal (p : Pack) (r : Nat) : Pack :=
  match p.resid? r with
  | none => p
  | some x => if x.pre.isSome then p else (p.requestPreempt r true none).modResid r fun y => { y with thermal := true }

/-- THERMAL_STOP (R462): the junction reaches 105.0 °C. -/
def execThermalStop (d : DieId) (s : State) : Host.Outcome State Fault Refusal :=
  let x := s.pk.die d
  if x.thermalStop || !x.ready then .next s
  else
    let rs := s.pk.residentOn d
    let vis := (rs.filterMap fun r => (s.pk.resid? r).map (·.vi)).eraseDups
    let t : W16 := (Config.freeValue s.freeCount).setWidth 16
    let p1 := s.pk.modDie d fun y => { y with thermalStop := true, tj := if t.toNat < 1050 then 1050 else t }
    let p2 := rs.foldl Pack.holdThermal p1
    let tell (p : Pack) (v : Fin 64) : Pack := p.note { fr := { vi := v, die := d, kind := 3, cause := Cause.margin, cls := 2 } }
    .next { s with pk := (vis.foldl tell p2).recap, freeCount := s.freeCount + 1 }

/-- A residency held for the temperature returns to placement; one still on its way is held no longer. -/
def Pack.releaseThermal (p : Pack) (r : Nat) : Pack :=
  match p.resid? r with
  | none => p
  | some x =>
    if !x.thermal then p
    else if x.st == .stopped && x.stopCause.isNone then p.toPlacement r true
    else p.modResid r fun y => { y with thermal := false, preHold := y.preHold && y.stopCause.isSome }

/-- THERMAL_RESUME (R462): the junction is below 95.0 °C, and placement resumes. -/
def execThermalResume (d : DieId) (s : State) : Host.Outcome State Fault Refusal :=
  if !(s.pk.die d).thermalStop then .next s
  else
    let t : W16 := (Config.freeValue s.freeCount).setWidth 16
    let p1 := (s.pk.modDie d fun y => { y with thermalStop := false, tj := if t.toNat < 950 then t else 949 }).recap
    let rs := (List.range p1.resids.length).filter fun r => ((p1.resid? r).map fun x => x.die == d).getD false
    .next { s with pk := rs.foldl Pack.releaseThermal p1, freeCount := s.freeCount + 1 }

/-! ### Retention (R232, R460) -/

def Pack.setRet (p : Pack) (t : TileId) (r : RetSt) : Pack := p.modTile t fun x => { x with ret := r, retCycles := 0 }

/-- A plan interval claims the tile within 2^16 counts; that of a residency does so until the residency has ended, be its counts
past or not. -/
def Pack.claimedSoon (p : Pack) (t : TileId) : Bool :=
  let now := (p.die t.die).now
  (p.die t.die).plan.any fun i => p.claims t.die i && (regionTiles i.x0 i.y0 i.w i.h).contains t.n &&
    decide (i.start < now + 2 ^ 16) && (!i.child || decide (now < i.start + i.len))

/-- RETENTION_ENTRY (R460): an idle tile whose retention is asked for begins to move into it. -/
def execRetentionEntry (t : TileId) (s : State) : Host.Outcome State Fault Refusal :=
  let x := s.pk.tile t
  if (s.pk.die t.die).ready && bit (s.pk.die t.die).mret t.n.val && x.ret == .active && x.res.isNone && !s.pk.claimedSoon t then
    .next { s with pk := s.pk.setRet t .entering }
  else .next s

/-- RETENTION_EXIT (R460): the request has been cleared, or a placement or interval needs the tile. -/
def execRetentionExit (t : TileId) (s : State) : Host.Outcome State Fault Refusal :=
  if (s.pk.tile t).ret == .retained &&
      (!bit (s.pk.die t.die).mret t.n.val || s.pk.claimedSoon t || !(s.pk.waitingOn t.die).isEmpty) then
    .next { s with pk := s.pk.setRet t .exiting }
  else .next s

/-! ### Boot (R403, R456) -/

/-- The 256-byte header of a firmware image (R403). -/
def fwHeader (bs : List Byte) : BitVec 2048 := BitVec.ofNat 2048 (bytesToNat bs)

/-- A 512-bit value as 64 bytes, lowest first. -/
def bytes64 (x : BitVec 512) : List Byte := natToBytes 64 x.toNat

/-- The image is accepted for a stage that needs the given type (R403). -/
def fwAccepted (type : Nat) (header payload : List Byte) : Bool :=
  let h := fwHeader header
  let digest : BitVec 512 := h.extractLsb' 1024 512
  let kidx := fld h 95 88
  header.length == 256 && fld h 31 0 == 0x46574D31 && fld h 63 32 == 1 && fld h 87 80 == type && kidx < 4 &&
    fld h 127 96 == payload.length && payload.length % 64 == 0 &&
    Config.sha512 payload == digest &&
    Config.ed25519Verify kidx (h.extractLsb' 1536 512) (bytes64 (Config.sha512 (header.take 192))) &&
    !Config.keyRevoked kidx && decide (Config.minSvn type ≤ fld h 79 64)

/-- The image type a stage loads, and the failure codes of a stage. -/
def stageType (k : Nat) : Option Nat := match k with | 1 => some 1 | 3 => some 2 | 5 => some 3 | _ => none

def stageCodes (k : Nat) : List Nat :=
  match k with | 1 => [1] | 2 => [2] | 3 => [1, 3] | 4 => [4] | 5 => [1, 5] | _ => []

/-- Stage 2 (R17, R18): in each column the first row the map names is skipped, and further ones are fenced. -/
def Die.columnRows (x : Die) (d : DieId) (c : Fin 8) : List Nat :=
  ((Config.fusedRows d c).map (·.val) ++ (x.defects.filter fun k => k.1 == c.val).map (·.2)).eraseDups

/-- The logical row of a physical one, with row k skipped. -/
def logicalRow (k f : Nat) : Nat := if f < k then f else f - 1

def columnFenced (rows : List Nat) : List Nat :=
  match rows with
  | [] => []
  | k :: rest => rest.map (logicalRow k)

def Die.mapDefects (x : Die) (d : DieId) : Die :=
  let fenced (n : Fin 64) : Bool := (columnFenced (x.columnRows d (Fin.ofNat 8 n.val))).contains (n.val / 8)
  { x with
    skip := Vector.ofFn fun c => (x.columnRows d c).head?
    tiles := Vector.ofFn fun n : Fin 64 => { x.tiles.get n with fenced := fenced n }
    enabled := BitVec.ofNat 8 (allTiles.filter fun n => !fenced n).length }

/-- Stage 4: the memories of every tile are cleared, and the pool stands at its reset values (R459). -/
def Die.clearMemories (x : Die) (d : DieId) : Die :=
  { x with mpool := mpoolReset d.val, tiles := x.tiles.map Tile.cleared }

/-- Messages under way when a die joins are no concern of its. -/
def Order.joined (o : Order) (d : DieId) : Order :=
  let skip (m : Message) : Message := { m with acted := m.acted ||| dieBit d, heard := m.heard ||| dieBit d }
  { o with sent := o.sent.map skip, last := o.last.set d (o.num - 1) }

/-- Stage 6: the die is ready, and the token visits it; its announcement waits in its queue. -/
def Pack.dieUp (p : Pack) (d : DieId) : Pack :=
  let first := !allDies.any p.onRing
  let p1 := { p with ring := { p.ring with holder := if first then d else p.ring.holder, idle := if first then 0 else p.ring.idle } }
  (p1.modDie d fun x => { x with ready := true }).enqueueRing d 0 (.up d)

/-- Stage 5: the die joins the order ring, and hears its messages and those of the plain from here on. -/
def Pack.joinRing (p : Pack) (d : DieId) : Pack :=
  { p with ringUp := p.ringUp ||| dieBit d, ring := p.ring.joined d, plain := p.plain.joined d }

/-- The members up where S_plain now stands: as die 0 knows them, and as the messages that it has yet to act on say. -/
def Pack.membersNow (p : Pack) : W16 :=
  p.plain.sent.foldl (fun w m =>
    if bit m.acted 0 then w
    else match m.body with
      | .memberChange k alive => withBit w k.val alive
      | .foreign (.memberUp k) => withBit w k.val true
      | .foreign (.memberDown k) => withBit w k.val false
      | _ => w) p.membersUp

/-- Firmware records the member numbers of a die that has brought up its plains, and which members those reach (R25, R457). -/
def Pack.bringPlain (p : Pack) (d : DieId) : Pack :=
  p.modDie d fun x =>
    if x.stage.toNat < 5 then x
    else { x with plainNum := Vector.ofFn (Config.plainNum d), reach := Vector.ofFn fun j => Config.reach d j &&& p.membersNow }

/-- Stage 5: firmware records what the die's plains reach; on die 0, where the package's plain comes up, the member number and
who else is up, for all its dies. -/
def Pack.joinPlain (p : Pack) (d : DieId) (free : W128) : Pack :=
  if d != 0 then p.bringPlain d
  else
    let others : W16 := free.setWidth 16 &&& Config.populated
    let p1 := { p with
      member := Config.member
      populated := Config.populated
      membersUp := if Config.member.toNat < 16 then others ||| BitVec.ofNat 16 (2 ^ Config.member.toNat) else 0 }
    allDies.foldl Pack.bringPlain p1

/-- What a stage does once its images are accepted. -/
def State.bootWork (s : State) (d : DieId) (k : Nat) (digest : Option (BitVec 512)) : State :=
  let p := s.pk.modDie d fun x => { x with stage := BitVec.ofNat 4 k, digests := x.digests ++ digest.toList }
  match k with
  | 1 => { s with pk := p.modDie d fun x => { x with gated := false } }
  | 2 => { s with pk := p.modDie d fun x => x.mapDefects d }
  | 3 => { s with pk := p.modDie d fun x => { x with mode := x.smode } }
  | 4 => { s with pk := p.modDie d fun x => x.clearMemories d }
  | 5 => { s with pk := (p.joinRing d).joinPlain d (Config.freeValue s.freeCount), freeCount := s.freeCount + 1 }
  | _ => { s with pk := p.dieUp d }

/-- A stage fails: the die is held there. -/
def State.bootFail (s : State) (d : DieId) (k code : Nat) : State :=
  { s with pk := s.pk.modDie d fun x => { x with stage := BitVec.ofNat 4 k, fail := BitVec.ofNat 8 code } }

/-- DIE_BOOT (R456): the next stage of a die that is not ready and has not failed. -/
def execDieBoot (d : DieId) (b : BootInput) (s : State) : Host.Outcome State Fault Refusal :=
  let x := s.pk.die d
  let k := x.stage.toNat + 1
  if x.fail != 0 || 6 < k then .next s
  else match b, stageType k with
    | .fail code, _ => if (stageCodes k).contains code.toNat then .next (s.bootFail d k code.toNat) else .next s
    | .image h v, some t =>
      if fwAccepted t h v then .next (s.bootWork d k (some ((fwHeader h).extractLsb' 1024 512))) else .next (s.bootFail d k 1)
    | .pass, none => .next (s.bootWork d k none)
    | _, _ => .next s

/-! ### MCFG, MPOOL, MRET (R457-R460) -/

/-- MCFG_RHO (R458): the fraction is pending until a horizon boundary (R337). -/
def execMcfgRho (d : DieId) (v : BitVec 2) (s : State) : Host.Outcome State Fault Refusal :=
  .next { s with pk := s.pk.modDie d fun x => { x with rho := v, pendingRho := some v } }

/-- A running die's reset is announced before it leaves; any other die resets at once (R456). -/
def Pack.resetDie (p : Pack) (d : DieId) : Pack :=
  if p.onRing d then p.enqueueRing d 0 (.gone d none)
  else (p.modDie d fun x => { x with gated := false }).downDie d

/-- MCFG_RST (R457). -/
def execMcfgRst (d : DieId) (s : State) : Host.Outcome State Fault Refusal := .next { s with pk := s.pk.resetDie d }

/-- MCFG_SMODE (R458): the mode of the next reset. -/
def execMcfgSmode (d : DieId) (v : Bool) (s : State) : Host.Outcome State Fault Refusal :=
  .next { s with pk := s.pk.modDie d fun x => { x with smode := v } }

/-- The range that MPOOL names, in offsets of its own die. -/
def poolRange (v : W64) : Nat × Nat := (fld v 25 0 * 2 ^ 16, fld v 41 26 * 2 ^ 16)

def Pack.poolOk (p : Pack) (d : DieId) (v : W64) : Bool :=
  let x := p.die d
  let r := poolRange v
  x.ready && p.resids.all (fun y => y.die != d || y.st == .ended) && x.errq.all (fun q => q.2.recs.isEmpty) &&
    decide (0x200 ≤ fld v 41 26) && r.1 / 2 ^ 38 == d.val && x.populated (r.1 % 2 ^ 38) r.2

/-- MPOOL_WRITE (R459). -/
def execMpoolWrite (d : DieId) (v : W64) (s : State) : Host.Outcome State Fault Refusal :=
  if s.pk.poolOk d v then .next { s with pk := s.pk.modDie d fun x => { x with mpool := BitVec.ofNat 64 (fld v 41 0) } } else .next s

/-- MRET_WRITE (R460). -/
def execMretWrite (d : DieId) (v : W64) (s : State) : Host.Outcome State Fault Refusal :=
  .next { s with pk := s.pk.modDie d fun x => if x.ready then { x with mret := v } else x }

/-! ### Power and supply (R338, R461, R462) -/

/-- Every array of the module that does best-effort work stands at ρ (R338). -/
def Pack.bestAtRho (p : Pack) : Bool :=
  allDies.all fun d => (p.die d).cap.val == quarters (p.die d).rhoNow || !p.resids.any fun r => r.die == d && !r.bounded && r.st == .resident

/-- The cap on a die's bounded work, in quarters: the die's own once every best-effort array stands at ρ, or outside the rated
limits; else none (R338, R462). -/
def Pack.boundedCap (p : Pack) (d : DieId) : Nat := if p.bestAtRho || p.outOfLimits then (p.die d).cap.val else 4

/-- The module's power envelope, in W (R461). -/
def envelope : Nat := 3200

/-- What the envelope leaves a die beside the power measured on the others. -/
def Pack.powerLeft (p : Pack) (d : DieId) : Nat := envelope - ((allDies.filter (· != d)).map fun c => (p.die c).pw.toNat).sum

/-- DIGIT_RATE_CAP (R338, R461): a die's power is measured, and held within what the envelope leaves it. Where the die would draw
more, its digit rate is capped first, and its collar's best-effort issue only at ρ; else no cap remains. -/
def execDigitRateCap (d : DieId) (cap : Fin 5) (collar : Bool) (s : State) : Host.Outcome State Fault Refusal :=
  let demand : W16 := (Config.freeValue s.freeCount).setWidth 16
  let left := s.pk.powerLeft d
  let bound := decide (left < demand.toNat)
  let set (x : Die) : Die :=
    Die.capAt { x with pw := BitVec.ofNat 16 (min demand.toNat left), collarCap := bound && collar } s.pk.outOfLimits (if bound then cap.val else 4)
  .next { s with pk := s.pk.modDie d set, freeCount := s.freeCount + 1 }

/-- The coolant and the supply are within the rated limits (R462). -/
def withinRated (m : Rating) : Bool :=
  decide (150 ≤ m.tin.toNat) && decide (m.tin.toNat ≤ 400) && decide (60 ≤ m.flow) && decide (440 ≤ m.supply) &&
    decide (m.supply ≤ 540)

/-- RATED_LIMITS_EXCURSION (R462): the coolant and the supply are measured; outside the rated limits every die is capped to ρ;
inside, no cap remains. -/
def execRatedLimitsExcursion (m : Rating) (s : State) : Host.Outcome State Fault Refusal :=
  let out := !withinRated m
  let set (x : Die) : Die := { x with outside := out, tin := m.tin, cap := 4, collarCap := out && x.collarCap }
  .next { s with pk := Pack.recap { s.pk with dies := s.pk.dies.map set } }

/-- UCIE_MODULE_LOSS (R28): Herelo goes on over the modules that are left. -/
def execUcieModuleLoss (m : Fin 4) (s : State) : Host.Outcome State Fault Refusal :=
  .next { s with pk := { s.pk with ucie := withBit s.pk.ucie m.val false } }

/-- A gated tile: its state is lost, and it takes no placement before the next boot of its die. -/
def Pack.gateTile (p : Pack) (t : TileId) : Pack :=
  let p1 := ((p.tile t).tenants).foldl (fun p r => p.stopLost r (· == t) Cause.deadlock) p
  let p2 := p1.modDie t.die fun d => { d with enabled := d.enabled - 1 }
  p2.modTile t fun x => { x.cleared with fenced := true, res := none, inPlace := [] }

/-- POWER_GATING (R254): the gating of a die or tile is announced; what it held is gone. -/
def execPowerGating (d : DieId) (tile : Option (Fin 64)) (s : State) : Host.Outcome State Fault Refusal :=
  let p := s.pk
  match tile with
  | none =>
    let p1 := p.modDie d fun x => { x with gated := true }
    .next { s with pk := if p.onRing d then p1.enqueueRing d 0 (.gone d none) else p1.downDie d }
  | some n =>
    if (p.tile ⟨d, n⟩).fenced then .next s
    else .next { s with pk := (p.gateTile ⟨d, n⟩).enqueueRing d 0 (.gone d (some n)) }

end Sys2Proof.Machine
end

