-- ==== Sys2Proof/Machine/HostSide.lean ====
section
/-! DEFINITION. What the host and firmware write and read over Herelo (R9, R10, R324, R325, R384, R385, R404, R457):
queue registers, part memory through a VI's window, control blocks, attestation. -/

namespace Sys2Proof.Machine

/-! ### Queue registers (R324, R325) -/

/-- A VI's queue by its module number, while the package accepts queue traffic (R456). -/
def Pack.viQueue (p : Pack) (vi : Fin 64) (q : Nat) : Option Nat :=
  if (p.die 0).ready && q < (p.vi vi).qcnt then some ((p.vi vi).qbase + q) else none

def HostQueue.err (q : HostQueue) (k : Nat) : HostQueue := { q with stat := withBit q.stat k true }

/-- QCFG without its reserved bits. -/
def qcfgMask (v : W64) : W64 := v &&& 0xFFFF

/-- The VI may enable a queue of a class (R385). -/
def ViBlock.allows (x : ViBlock) (bounded : Bool) : Bool := x.en && (!bounded || x.bres != 0)

/-- A write of QCFG (R324). One that clears en is acted on for en alone, whatever its lg and clg (log 88, DESIGN CHOICE). -/
def HostQueue.writeCfg (q : HostQueue) (x : ViBlock) (v : W64) : HostQueue :=
  let w := qcfgMask v
  let off := withBit w 0 false
  if q.en then
    if bit w 0 then q.err 3
    else
      let q1 := { q with cfg := withBit q.cfg 0 false, words := [] }
      if off == q1.cfg then q1 else q1.err 3
  else if 12 < fld w 11 8 || 12 < fld w 15 12 then q.err 3
  else if bit w 0 && !x.allows (bit w 4) then { q with cfg := off }.err 3
  else { q with cfg := w }

def Pack.writeCfg (p : Pack) (vi : Fin 64) (q : Nat) (v : W64) : Pack :=
  match p.viQueue vi q with
  | some k => p.modQueue k fun x => x.writeCfg (p.vi vi) v
  | none => p

/-- QCFG_ENABLE (R324). -/
def execQcfgEnable (vi : Fin 64) (q : BitVec 14) (v : W64) (s : State) : Host.Outcome State Fault Refusal :=
  .next { s with pk := s.pk.writeCfg vi q.toNat (withBit v 0 true) }

/-- QCFG_DISABLE (R324). -/
def execQcfgDisable (vi : Fin 64) (q : BitVec 14) (v : W64) (s : State) : Host.Outcome State Fault Refusal :=
  .next { s with pk := s.pk.writeCfg vi q.toNat (withBit v 0 false) }

/-- A write of QTAIL: a tail too far ahead clears en. -/
def HostQueue.writeTail (q : HostQueue) (v : W32) : HostQueue :=
  let q1 := { q with tail := v }
  if q.size < (v - q.head).toNat then q1.fail 0 else q1

def Pack.writeTail (p : Pack) (vi : Fin 64) (q : Nat) (v : W64) : Pack :=
  match p.viQueue vi q with
  | some k => p.modQueue k fun x => x.writeTail (v.setWidth 32)
  | none => p

/-- QTAIL_WRITE (R325). Earlier writes of the host have been performed: each is one step. -/
def execQtailWrite (vi : Fin 64) (q : BitVec 14) (v : W64) (s : State) : Host.Outcome State Fault Refusal :=
  .next { s with pk := s.pk.writeTail vi q.toNat v }

/-- A write of chead: it stays within the records written and not overwritten. -/
def HostQueue.writeChead (q : HostQueue) (v : W32) : HostQueue :=
  if (q.ctail - v).toNat ≤ q.csize then { q with chead := v } else q.err 4

def Pack.writeChead (p : Pack) (vi : Fin 64) (q : Nat) (v : W64) : Pack :=
  match p.viQueue vi q with
  | some k => p.modQueue k fun x => x.writeChead (v.setWidth 32)
  | none => p

/-- QCHEAD_WRITE (R324). -/
def execQcheadWrite (vi : Fin 64) (q : BitVec 14) (v : W64) (s : State) : Host.Outcome State Fault Refusal :=
  .next { s with pk := s.pk.writeChead vi q.toNat v }

/-- QBASE, QCBASE and QSTAT (R324): the bases only while en is 0, the status by writing 1. -/
def HostQueue.writeReg (q : HostQueue) (off : Nat) (v : W64) : HostQueue :=
  let b := withBit v 63 false
  match off with
  | 0x08 => if q.en then q.err 3 else { q with base := b }
  | 0x10 => if q.en then q.err 3 else { q with cbase := b }
  | 0x30 => { q with stat := q.stat &&& ~~~ v.setWidth 5 }
  | _ => q

def Pack.writeQueueReg (p : Pack) (vi : Fin 64) (q off : Nat) (v : W64) : Pack :=
  match off with
  | 0x00 => p.writeCfg vi q v
  | 0x18 => p.writeTail vi q v
  | 0x28 => p.writeChead vi q v
  | _ =>
    match p.viQueue vi q with
    | some k => p.modQueue k fun x => x.writeReg off v
    | none => p

/-! ### Part memory through a VI's window (R324) -/

/-- The events of an access: aligned runs of 16, 8 or single bytes, as offsets from its address with their lengths. -/
def hostPieces (a k : Nat) : Nat → List (Nat × Nat)
  | 0 => []
  | fuel + 1 =>
    if k ≤ 0 then []
    else
      let n := if a % 16 == 0 && 16 ≤ k then 16 else if a % 8 == 0 && 8 ≤ k then 8 else 1
      (a, n) :: hostPieces (a + n) (k - n) fuel

/-- Where each piece of a host access goes, with what its translation leaves behind on die 0 (log 80); none where translation,
permission or class forbids one. -/
def hostPlaces (m : Memory) (p : Pack) (vi : Fin 64) (write : Bool) : List (Nat × Nat) → Option (List (Place × Nat)) × List WalkNote
  | [] => (some [], [])
  | (a, n) :: rest =>
    let x := placeVi m p 0 vi (BitVec.ofNat 80 a) (if write then .write else .read) false
    let y := hostPlaces m p vi write rest
    (match x.1, y.1 with
      | .ok (d, off, c), some ps => if write && c && n < 8 then none else some ((.home d off c 0, n) :: ps)
      | _, _ => none, x.2 :: y.2)

def State.hostWrite (s : State) (vi : Fin 64) : List (Place × Nat) → List Byte → State
  | [], _ => s
  | (pl, n) :: rest, bs => (s.hostStore vi pl (bs.take n)).hostWrite vi rest (bs.drop n)

/-- One piece of a host read: an error met is corrected or found, and a poisoned granule gives any bytes. -/
def State.hostLoad (s : State) (vi : Fin 64) (pl : Place) (n : Nat) : State × List Byte :=
  match pl with
  | .home d off _ _ =>
    let a := memIndex d off
    let s1 := s.stored (readGranule s.mem s.pk vi a)
    if s1.mem.badGranule a then
      ({ s1 with freeCount := s1.freeCount + 1 }, natToBytes n (Config.freeValue s1.freeCount).toNat)
    else (s1, readBytes s1.mem.cells a n)
  | _ => (s, [])

def State.hostRead (s : State) (vi : Fin 64) : List (Place × Nat) → State × List Byte
  | [] => (s, [])
  | (pl, n) :: rest =>
    let r := s.hostLoad vi pl n
    let q := r.1.hostRead vi rest
    (q.1, r.2 ++ q.2)

/-- Every P word of a read is full. -/
def hostFull (m : Memory) (p : Pack) (ps : List (Place × Nat)) : Bool :=
  ps.all fun x => !x.1.isP || placeFull m p ⟨0, 0⟩ x.1 x.2

/-- HOST_MEMORY_ACCESS (R324): a write with data, a read of `len` bytes without. One that translation or permission
stops writes nothing and reads 0; a read of an empty P word waits. -/
def execHostMemoryAccess (vi : Fin 64) (va : VA) (len : Nat) (data : Option (List Byte)) (s : State) : Host.Outcome State Fault Refusal :=
  let k := match data with | some bs => bs.length | none => len
  let r := if (s.pk.vi vi).en && (s.pk.die 0).ready && va.toNat / 2 ^ 72 == 0xFF then
      hostPlaces s.mem s.pk vi data.isSome (hostPieces va.toNat k k) else (none, [])
  let s := r.2.foldl (fun s n => s.walkedOn 0 vi n) s
  match data, r.1 with
  | some _, none => .next s
  | some bs, some l => .next (s.hostWrite vi l bs)
  | none, none => .next { s with pk := { s.pk with hostReply := some (List.replicate len 0) } }
  | none, some l =>
    if !hostFull s.mem s.pk l then .next s
    else
      let r := s.hostRead vi l
      .next { r.1 with pk := { r.1.pk with hostReply := some r.2 } }

/-! ### Control blocks (R384, R385, R459) -/

def ViBlock.err (x : ViBlock) (k : Nat) : ViBlock := { x with stat := withBit x.stat k true }

/-- Bits of VCTL that hold fields. -/
def vctlMask (v : W64) : W64 := v &&& 0x0FFFFFFF07FF0001

/-- A 2 KiB table at the address a register holds lies in one window. -/
def ViBlock.tableIn (x : ViBlock) (v : W64) : Bool := x.inWindow (fld v 41 11 * 2 ^ 11) 2048

def ViBlock.inRange (x : ViBlock) : Bool :=
  (allDies.all fun d => ViBlock.perDie x.tmax d ≤ 64 && ViBlock.perDie x.bres d ≤ ViBlock.perDie x.tmax d) &&
    (x.paw.toList.all fun w => !bit w 63 || fld w 25 0 ≤ fld w 57 32) &&
    x.qbase + x.qcnt ≤ 16384 && (!x.sv || x.supq < x.qcnt) && x.tableIn x.root && x.tableIn x.rngt

/-- A window covers a byte of a die's save pool, through either alias (R221). -/
def meetsPool (lo hi : Nat) (d : DieId) (pool : Nat × Nat) : Bool :=
  let first := pool.1 % 2 ^ 38
  let last := first + pool.2 - 1
  let direct := lo ≤ d.val * 2 ^ 38 + last && d.val * 2 ^ 38 + first ≤ hi
  let unit (off : Nat) : Nat := (off - 2 ^ 36) / 4096
  let alias_ := 2 ^ 36 ≤ last && 2 ^ 41 ≤ hi && lo < 2 ^ 41 + 2 ^ 40 &&
    (lo - 2 ^ 41) / 2 ^ 15 ≤ unit last && unit first ≤ (hi - 2 ^ 41) / 2 ^ 15
  decide (0 < pool.2) && (direct || alias_)

def Pack.clearOfPools (p : Pack) (x : ViBlock) : Bool :=
  x.windows.all fun w => allDies.all fun d => !meetsPool w.1 w.2 d (poolRange (p.die d).mpool)

/-- Sums and numbers over the enabled VIs with this one among them. -/
def Pack.fits (p : Pack) (vi : Fin 64) (x : ViBlock) : Bool :=
  let others := ((List.finRange 64).filter fun v => v != vi && (p.vi v).en).map p.vi
  let sum (f : ViBlock → W64) (d : DieId) : Nat := ((x :: others).map fun y => ViBlock.perDie (f y) d).sum
  let apart (y : ViBlock) : Bool :=
    x.qcnt == 0 || y.qcnt == 0 || x.qbase + x.qcnt ≤ y.qbase || y.qbase + y.qcnt ≤ x.qbase
  (allDies.all fun d => sum (·.bres) d ≤ 64 && sum (·.mem) d ≤ 255) && others.all fun y => apart y && y.pvi != x.pvi

/-- A write that sets en. -/
def Pack.enableVi (p : Pack) (vi : Fin 64) (x : ViBlock) : ViBlock :=
  let r := x.inRange && p.clearOfPools x
  let o := p.fits vi x
  if r && o then { x with ctl := withBit x.ctl 0 true }
  else
    let y := if r then x else x.err 0
    if o then y else y.err 1

/-- The VI has an enabled queue, or a residency resident or saved. -/
def Pack.viBusy (p : Pack) (vi : Fin 64) : Bool :=
  (List.range (p.vi vi).qcnt).any (fun q => (p.queue ((p.vi vi).qbase + q)).en) || p.resids.any fun x => x.vi == vi && x.st != .ended

/-- A write of VCTL, ignored until die 0, which the package's own space goes with, is ready (R457). -/
def Pack.writeVctl (p : Pack) (vi : Fin 64) (v : W64) : Pack :=
  if !(p.die 0).ready then p else
  let x := p.vi vi
  let w := vctlMask v
  let off := withBit w 0 false
  let y :=
    if x.en then
      if bit w 0 then x.err 3
      else
        let x1 := if withBit x.ctl 0 false == off then x else x.err 3
        if p.viBusy vi then x1.err 2 else { x1 with ctl := withBit x1.ctl 0 false }
    else
      let x1 := { x with ctl := off }
      if bit w 0 then p.enableVi vi x1 else x1
  p.modVi vi fun _ => y

/-- VI_ENABLE (R385). -/
def execViEnable (vi : Fin 64) (v : W64) (s : State) : Host.Outcome State Fault Refusal :=
  .next { s with pk := s.pk.writeVctl vi (withBit v 0 true) }

/-- VI_DISABLE (R385). -/
def execViDisable (vi : Fin 64) (v : W64) (s : State) : Host.Outcome State Fault Refusal :=
  .next { s with pk := s.pk.writeVctl vi (withBit v 0 false) }

/-- The other words of a control block, without their reserved bits (R384). -/
def ViBlock.writeWord (x : ViBlock) (off : Nat) (v : W64) : ViBlock :=
  let table : W64 := v &&& 0x3FFFFFFF800
  let paw : W64 := v &&& 0x83FFFFFF03FFFFFF
  match off with
  | 0x08 => { x with root := table }
  | 0x10 => { x with rngt := table }
  | 0x18 => { x with q := v &&& 0xBFFF7FFF3FFF }
  | 0x20 => { x with tmax := v }
  | 0x28 => { x with bres := v }
  | 0x30 => { x with mem := v }
  | 0x38 => { x with tsh := v }
  | 0x40 => { x with paw := x.paw.set 0 paw }
  | 0x48 => { x with paw := x.paw.set 1 paw }
  | 0x50 => { x with paw := x.paw.set 2 paw }
  | 0x58 => { x with paw := x.paw.set 3 paw }
  | _ => x

/-- A write into a control block. -/
def Pack.writeBlock (p : Pack) (vi : Fin 64) (off : Nat) (v : W64) : Pack :=
  if !(p.die 0).ready then p
  else if off == 0 then p.writeVctl vi v
  else if off == 0x60 then p.modVi vi fun x => { x with stat := x.stat &&& ~~~ v.setWidth 4 }
  else if 0x60 < off then p
  else p.modVi vi fun x => if x.en then x.err 3 else x.writeWord off v

/-! ### Attestation (R404, R405) -/

/-- A request: ignored while one is under way. -/
def ViBlock.attest (x : ViBlock) : ViBlock := if x.busy then x else { x with busy := true, attDone := false }

/-- ATTEST_REQUEST (R404). -/
def execAttestRequest (vi : Fin 64) (s : State) : Host.Outcome State Fault Refusal := .next { s with pk := s.pk.modVi vi ViBlock.attest }

def word64 (v : W64) : List Byte := natToBytes 8 v.toNat

/-- The 128 bytes of a control block (R384, R405). -/
def ViBlock.bytes (x : ViBlock) : List Byte :=
  ([x.ctl, x.root, x.rngt, x.q, x.tmax, x.bres, x.mem, x.tsh] ++ x.paw.toList ++ [x.stat.setWidth 64, 0, 0, 0]).flatMap word64

/-- The first 256 bytes of a report. -/
def Pack.reportBody (p : Pack) (vi : Fin 64) : List Byte :=
  let x := p.vi vi
  let hdr : W64 := 0x0000000141545331
  let ids : W64 := BitVec.ofNat 64 (vi.val + x.pvi.toNat * 2 ^ 16 + p.member.toNat * 2 ^ 32)
  let tiles := (allDies.map fun d => (p.die d).enabled.toNat).sum
  let floor : W64 := BitVec.ofNat 64 ((p.die 0).floorKHz.toNat + tiles * 2 ^ 32)
  let digests := (allDies.flatMap fun d => (p.die d).digests).flatMap bytes64
  word64 hdr ++ word64 ids ++ word64 Config.serial ++ word64 (p.die 0).elap ++ x.nonce ++
    bytes64 (Config.sha512 digests) ++ bytes64 (Config.sha512 x.bytes) ++ word64 floor ++ List.replicate 24 0

/-- The signed report. -/
def Pack.report (p : Pack) (vi : Fin 64) : List Byte :=
  let body := p.reportBody vi
  body ++ bytes64 (Config.ed25519Sign (bytes64 (Config.sha512 body)))

/-- ATTEST_DONE (R404): the report stands, and done is set. -/
def execAttestDone (vi : Fin 64) (s : State) : Host.Outcome State Fault Refusal :=
  if (s.pk.vi vi).busy then
    .next { s with pk := s.pk.modVi vi fun x => { x with busy := false, attDone := true, report := s.pk.report vi } }
  else .next s

/-! ### REGISTER_WRITE (R9, R10, R324, R384, R404, R457) -/

/-- Eight bytes of the nonce, unless a report is under way. -/
def ViBlock.writeNonce (x : ViBlock) (k : Nat) (v : W64) : ViBlock :=
  if x.busy then x else { x with nonce := x.nonce.take k ++ word64 v ++ x.nonce.drop (k + 8) }

/-- A write through a VI's window. -/
def Pack.writeWindow (p : Pack) (vi : Fin 64) (off : Nat) (v : W64) : Pack :=
  if off == 0x800 then (if bit v 0 then p.modVi vi ViBlock.attest else p)
  else if 0x840 ≤ off && off < 0x880 && off % 8 == 0 then p.modVi vi fun x => x.writeNonce (off - 0x840) v
  else if 0x10000 ≤ off && off < 0x110000 then p.writeQueueReg vi ((off - 0x10000) / 0x40) (off % 0x40) v
  else p

/-- A write to MCFG: its fields, and the reset if rst is written 1. -/
def Pack.writeMcfg (p : Pack) (d : DieId) (v : W64) : Pack :=
  let rho : BitVec 2 := v.extractLsb' 8 2
  let p1 := p.modDie d fun x =>
    { x with smode := bit v 0, rho := rho, pendingRho := if x.rho == rho then x.pendingRho else some rho }
  if bit v 1 then p1.resetDie d else p1

/-- A write into a die's block (R457). -/
def Pack.writeDie (p : Pack) (d : DieId) (off : Nat) (v : W64) : Pack :=
  if off == 0x08 then p.writeMcfg d v
  else if !(p.die d).ready then p
  else if off == 0x10 then p.modDie d fun x => { x with mret := v }
  else if off == 0x20 then (if p.poolOk d v then p.modDie d fun x => { x with mpool := BitVec.ofNat 64 (fld v 41 0) } else p)
  else p

/-- A write into the management space. -/
def Pack.writeManagement (p : Pack) (off : Nat) (v : W64) : Pack :=
  if off < 0x8000 then p.writeDie (Fin.ofNat 8 (off / 0x1000)) (off % 0x1000) v
  else if 0x40000 ≤ off && off < 0x42000 then p.writeBlock (Fin.ofNat 64 ((off - 0x40000) / 0x80)) (off % 0x80) v
  else p

/-! ### Reads of registers (R9, R324, R384, R404, R457) -/

/-- A queue's registers as they read: reserved bits and fields without a register read 0. -/
def HostQueue.readReg (q : HostQueue) : Nat → W64
  | 0x00 => q.cfg
  | 0x08 => q.base
  | 0x10 => q.cbase
  | 0x18 => q.tail.setWidth 64
  | 0x20 => q.ctail ++ q.head
  | 0x28 => q.chead.setWidth 64
  | 0x30 => q.stat.setWidth 64
  | _ => 0

/-- A register of a VI's window: its attestation registers (R402, R404) and its queues. No access code is given for the nonce and
for ATCTL[0]: the nonce reads back what was written, and ATCTL[0] reads 0 (log 63, DESIGN CHOICE). -/
def Pack.readWindow (p : Pack) (vi : Fin 64) (off : Nat) : W64 :=
  let x := p.vi vi
  let word (bs : List Byte) (k : Nat) : W64 := BitVec.ofNat 64 (bytesToNat ((bs.drop k).take 8))
  if off == 0x800 then BitVec.ofNat 64 ((if x.busy then 2 else 0) + (if x.attDone then 4 else 0))
  else if 0x840 ≤ off && off < 0x880 then word x.nonce (off - 0x840)
  else if 0x900 ≤ off && off < 0xA40 then word x.report (off - 0x900)
  else if 0xA40 ≤ off && off < 0xA60 then word (natToBytes 32 Config.publicKey.toNat) (off - 0xA40)
  else if 0xA60 ≤ off && off < 0xAA0 then word (natToBytes 64 Config.keySignature.toNat) (off - 0xA60)
  else if 0x10000 ≤ off && off < 0x110000 then
    match p.viQueue vi ((off - 0x10000) / 0x40) with
    | some k => (p.queue k).readReg (off % 0x40)
    | none => 0
  else 0

/-- Tiles in retention or on the way to or from it. -/
def Die.rets (x : Die) : W64 := BitVec.ofNat 64 (((List.finRange 64).map fun n => if (x.tiles.get n).ret == .active then 0 else 2 ^ n.val).sum)

/-- A register of a die's block (R457). -/
def Die.readReg (x : Die) (off : Nat) : W64 :=
  if off == 0x00 then
    BitVec.ofNat 64 (x.enabled.toNat * 2 ^ 32 + x.fail.toNat * 2 ^ 24 + x.stage.toNat * 2 ^ 20 + (if x.mode then 2 ^ 17 else 0) +
      (if x.ready then 2 ^ 16 else 0))
  else if off == 0x08 then BitVec.ofNat 64 (x.rho.toNat * 2 ^ 8 + (if x.smode then 1 else 0))
  else if off == 0x10 then x.mret
  else if off == 0x18 then x.rets
  else if off == 0x20 then x.mpool
  else if off == 0x28 then BitVec.ofNat 64 (x.tj.toNat * 2 ^ 32 + x.tin.toNat * 2 ^ 16 + x.pw.toNat)
  else if 0x30 ≤ off && off < 0x88 then (x.reach.get (Fin.ofNat 11 ((off - 0x30) / 8))).setWidth 64
  else 0

/-- A register of the management space. -/
def Pack.readManagement (p : Pack) (off : Nat) : W64 :=
  if off < 0x8000 then (p.die (Fin.ofNat 8 (off / 0x1000))).readReg (off % 0x1000)
  else if 0x40000 ≤ off && off < 0x42000 then
    BitVec.ofNat 64 (bytesToNat (((p.vi (Fin.ofNat 64 ((off - 0x40000) / 0x80))).bytes.drop (off % 0x80)).take 8))
  else 0

/-- A read of n bytes, 4 or 8, of the register at an offset: an aligned half comes alone (R324). -/
def Pack.readRegister (p : Pack) (r : RegRead) : List Byte :=
  let half (off n : Nat) (v : W64) : List Byte := ((natToBytes 8 v.toNat).drop (off % 8)).take n
  match r with
  | .window vi off n => half off n (p.readWindow vi (off - off % 8))
  | .management off n => half off n (p.readManagement (off - off % 8))

/-- The host reads a register: what it gets stands in `hostReply`. No read changes a register. -/
def State.readRegister (s : State) (r : RegRead) : State := { s with pk := { s.pk with hostReply := some (s.pk.readRegister r) } }

/-- REGISTER_WRITE (R9). -/
def execRegisterWrite (w : RegWrite) (s : State) : Host.Outcome State Fault Refusal :=
  match w with
  | .window vi off v => .next { s with pk := s.pk.writeWindow vi off v }
  | .management off v => .next { s with pk := s.pk.writeManagement off v }

end Sys2Proof.Machine
end

