-- ==== Sys2Proof/Machine/Dispatch.lean ====
section
/-! DEFINITION. One arm per constructor of `Instr`: each calls its meaning. -/

namespace Sys2Proof.Machine

def exec (i : Instr) (s : State) : Host.Outcome State Fault Refusal :=
  match i with
  | .nop f => Sys2Proof.Machine.execNop f s
  | .iadd f => Sys2Proof.Machine.execIadd f s
  | .isub f => Sys2Proof.Machine.execIsub f s
  | .imul f => Sys2Proof.Machine.execImul f s
  | .imulh f => Sys2Proof.Machine.execImulh f s
  | .imad f => Sys2Proof.Machine.execImad f s
  | .idiv f => Sys2Proof.Machine.execIdiv f s
  | .irem f => Sys2Proof.Machine.execIrem f s
  | .ineg f => Sys2Proof.Machine.execIneg f s
  | .iabs f => Sys2Proof.Machine.execIabs f s
  | .imin f => Sys2Proof.Machine.execImin f s
  | .imax f => Sys2Proof.Machine.execImax f s
  | .bitAnd f => Sys2Proof.Machine.execBitAnd f s
  | .bitOr f => Sys2Proof.Machine.execBitOr f s
  | .bitXor f => Sys2Proof.Machine.execBitXor f s
  | .bitAndn f => Sys2Proof.Machine.execBitAndn f s
  | .bitNot f => Sys2Proof.Machine.execBitNot f s
  | .shl f => Sys2Proof.Machine.execShl f s
  | .shr f => Sys2Proof.Machine.execShr f s
  | .sar f => Sys2Proof.Machine.execSar f s
  | .rol f => Sys2Proof.Machine.execRol f s
  | .clz f => Sys2Proof.Machine.execClz f s
  | .ctz f => Sys2Proof.Machine.execCtz f s
  | .popc f => Sys2Proof.Machine.execPopc f s
  | .bfx f => Sys2Proof.Machine.execBfx f s
  | .bfi f => Sys2Proof.Machine.execBfi f s
  | .sext f => Sys2Proof.Machine.execSext f s
  | .zext f => Sys2Proof.Machine.execZext f s
  | .movi f => Sys2Proof.Machine.execMovi f s
  | .movhi f => Sys2Proof.Machine.execMovhi f s
  | .lea f => Sys2Proof.Machine.execLea f s
  | .mov f => Sys2Proof.Machine.execMov f s
  | .nul f => Sys2Proof.Machine.execNul f s
  | .lane f => Sys2Proof.Machine.execLane f s
  | .ins f => Sys2Proof.Machine.execIns f s
  | .splat f => Sys2Proof.Machine.execSplat f s
  | .shuf f => Sys2Proof.Machine.execShuf f s
  | .pack f => Sys2Proof.Machine.execPack f s
  | .unpk f => Sys2Proof.Machine.execUnpk f s
  | .redl f => Sys2Proof.Machine.execRedl f s
  | .perm f => Sys2Proof.Machine.execPerm f s
  | .fadd f => Sys2Proof.Machine.execFadd f s
  | .fsub f => Sys2Proof.Machine.execFsub f s
  | .fmul f => Sys2Proof.Machine.execFmul f s
  | .fma f => Sys2Proof.Machine.execFma f s
  | .fnma f => Sys2Proof.Machine.execFnma f s
  | .fdiv f => Sys2Proof.Machine.execFdiv f s
  | .fsqrt f => Sys2Proof.Machine.execFsqrt f s
  | .frcp f => Sys2Proof.Machine.execFrcp f s
  | .frsq f => Sys2Proof.Machine.execFrsq f s
  | .fexp2 f => Sys2Proof.Machine.execFexp2 f s
  | .flog2 f => Sys2Proof.Machine.execFlog2 f s
  | .fmin f => Sys2Proof.Machine.execFmin f s
  | .fmax f => Sys2Proof.Machine.execFmax f s
  | .fabs f => Sys2Proof.Machine.execFabs f s
  | .fneg f => Sys2Proof.Machine.execFneg f s
  | .frnd f => Sys2Proof.Machine.execFrnd f s
  | .fscale f => Sys2Proof.Machine.execFscale f s
  | .fclass f => Sys2Proof.Machine.execFclass f s
  | .fdot4 f => Sys2Proof.Machine.execFdot4 f s
  | .freds f => Sys2Proof.Machine.execFreds f s
  | .cvt f => Sys2Proof.Machine.execCvt f s
  | .qblk f => Sys2Proof.Machine.execQblk f s
  | .dqblk f => Sys2Proof.Machine.execDqblk f s
  | .mxpk f => Sys2Proof.Machine.execMxpk f s
  | .mxunpk f => Sys2Proof.Machine.execMxunpk f s
  | .hstep f => Sys2Proof.Machine.execHstep f s
  | .icmp f => Sys2Proof.Machine.execIcmp f s
  | .fcmp f => Sys2Proof.Machine.execFcmp f s
  | .sel f => Sys2Proof.Machine.execSel f s
  | .pand f => Sys2Proof.Machine.execPand f s
  | .por f => Sys2Proof.Machine.execPor f s
  | .pnot f => Sys2Proof.Machine.execPnot f s
  | .testp f => Sys2Proof.Machine.execTestp f s
  | .ld f => Sys2Proof.Machine.execLd f s
  | .st f => Sys2Proof.Machine.execSt f s
  | .lda f => Sys2Proof.Machine.execLda f s
  | .stl f => Sys2Proof.Machine.execStl f s
  | .empty f => Sys2Proof.Machine.execEmpty f s
  | .pref f => Sys2Proof.Machine.execPref f s
  | .accrd f => Sys2Proof.Machine.execAccrd f s
  | .accwr f => Sys2Proof.Machine.execAccwr f s
  | .fence f => Sys2Proof.Machine.execFence f s
  | .seqf f => Sys2Proof.Machine.execSeqf f s
  | .ldpq f => Sys2Proof.Machine.execLdpq f s
  | .amo f => Sys2Proof.Machine.execAmo f s
  | .cas f => Sys2Proof.Machine.execCas f s
  | .barInit f => Sys2Proof.Machine.execBarInit f s
  | .barArr f => Sys2Proof.Machine.execBarArr f s
  | .barSync f => Sys2Proof.Machine.execBarSync f s
  | .cwait f => Sys2Proof.Machine.execCwait f s
  | .hwait f => Sys2Proof.Machine.execHwait f s
  | .hrel f => Sys2Proof.Machine.execHrel f s
  | .hqry f => Sys2Proof.Machine.execHqry f s
  | .waitdep f => Sys2Proof.Machine.execWaitdep f s
  | .trig f => Sys2Proof.Machine.execTrig f s
  | .strm f => Sys2Proof.Machine.execStrm f s
  | .strmpb f => Sys2Proof.Machine.execStrmpb f s
  | .send f => Sys2Proof.Machine.execSend f s
  | .sendpb f => Sys2Proof.Machine.execSendpb f s
  | .mma f => Sys2Proof.Machine.execMma f s
  | .mmald f => Sys2Proof.Machine.execMmald f s
  | .accz f => Sys2Proof.Machine.execAccz f s
  | .accdrn f => Sys2Proof.Machine.execAccdrn f s
  | .omclaim f => Sys2Proof.Machine.execOmclaim f s
  | .omrel f => Sys2Proof.Machine.execOmrel f s
  | .pfire f => Sys2Proof.Machine.execPfire f s
  | .cfgld f => Sys2Proof.Machine.execCfgld f s
  | .cfgsw f => Sys2Proof.Machine.execCfgsw f s
  | .cfgwr f => Sys2Proof.Machine.execCfgwr f s
  | .engq f => Sys2Proof.Machine.execEngq f s
  | .engqSet f => Sys2Proof.Machine.execEngqSet f s
  | .br f => Sys2Proof.Machine.execBr f s
  | .cont f => Sys2Proof.Machine.execCont f s
  | .halt f => Sys2Proof.Machine.execHalt f s
  | .haltRes f => Sys2Proof.Machine.execHaltRes f s
  | .launch f => Sys2Proof.Machine.execLaunch f s
  | .yield f => Sys2Proof.Machine.execYield f s
  | .spawn f => Sys2Proof.Machine.execSpawn f s
  | .join f => Sys2Proof.Machine.execJoin f s
  | .callx f => Sys2Proof.Machine.execCallx f s
  | .tagq f => Sys2Proof.Machine.execTagq f s
  | .tqput f => Sys2Proof.Machine.execTqput f s
  | .tqget f => Sys2Proof.Machine.execTqget f s
  | .tqsteal f => Sys2Proof.Machine.execTqsteal f s
  | .drec f => Sys2Proof.Machine.execDrec f s
  | .dcut f => Sys2Proof.Machine.execDcut f s
  | .dadd f => Sys2Proof.Machine.execDadd f s
  | .dmul f => Sys2Proof.Machine.execDmul f s
  | .dval f => Sys2Proof.Machine.execDval f s
  | .merge f => Sys2Proof.Machine.execMerge f s
  | .eose f => Sys2Proof.Machine.execEose f s
  | .eost f => Sys2Proof.Machine.execEost f s
  | .trap f => Sys2Proof.Machine.execTrap f s
  | .eretRs f => Sys2Proof.Machine.execEretRs f s
  | .eretNb f => Sys2Proof.Machine.execEretNb f s
  | .eretAb f => Sys2Proof.Machine.execEretAb f s
  | .eretDr f => Sys2Proof.Machine.execEretDr f s
  | .srd f => Sys2Proof.Machine.execSrd f s
  | .swr f => Sys2Proof.Machine.execSwr f s
  | .bkpt f => Sys2Proof.Machine.execBkpt f s
  | .xlinvPg f => Sys2Proof.Machine.execXlinvPg f s
  | .xlinvAll f => Sys2Proof.Machine.execXlinvAll f s
  | .xlinvRng f => Sys2Proof.Machine.execXlinvRng f s
  | .errq f => Sys2Proof.Machine.execErrq f s
  | .pclr f => Sys2Proof.Machine.execPclr f s
  | .ctxsave f => Sys2Proof.Machine.execCtxsave f s
  | .ctxrest f => Sys2Proof.Machine.execCtxrest f s
  | .preemptStop f => Sys2Proof.Machine.execPreemptStop f s
  | .preemptRes f => Sys2Proof.Machine.execPreemptRes f s
  | .preemptAb f => Sys2Proof.Machine.execPreemptAb f s
  | .preemptBe f => Sys2Proof.Machine.execPreemptBe f s
  | .cfgchk f => Sys2Proof.Machine.execCfgchk f s
  | .configCommand elem field value => Sys2Proof.Machine.execConfigCommand elem field value s
  | .clearCommand elem => Sys2Proof.Machine.execClearCommand elem s
  | .tokenDelivery t k => Sys2Proof.Machine.execTokenDelivery t k s
  | .blockRequest t c => Sys2Proof.Machine.execBlockRequest t c s
  | .imageFetchDone t a => Sys2Proof.Machine.execImageFetchDone t a s
  | .instanceSpawn t c => Sys2Proof.Machine.execInstanceSpawn t c s
  | .loopSpawn t c => Sys2Proof.Machine.execLoopSpawn t c s
  | .commit t c => Sys2Proof.Machine.execCommit t c s
  | .trapExact t c => Sys2Proof.Machine.execTrapExact t c s
  | .streamEgress t port => Sys2Proof.Machine.execStreamEgress t port s
  | .homeAccess id => Sys2Proof.Machine.execHomeAccess id s
  | .loadRetry id => Sys2Proof.Machine.execLoadRetry id s
  | .remoteTimeout id => Sys2Proof.Machine.execRemoteTimeout id s
  | .remoteRequestArrival member pvi q => Sys2Proof.Machine.execRemoteRequestArrival member pvi q s
  | .remoteReply id r => Sys2Proof.Machine.execRemoteReply id r s
  | .pageWalk t va => Sys2Proof.Machine.execPageWalk t va s
  | .scrubStep t bank => Sys2Proof.Machine.execScrubStep t bank s
  | .matrixOpStart t => Sys2Proof.Machine.execMatrixOpStart t s
  | .kstep t => Sys2Proof.Machine.execKstep t s
  | .engineOpComplete t op => Sys2Proof.Machine.execEngineOpComplete t op s
  | .accWriteApply t => Sys2Proof.Machine.execAccWriteApply t s
  | .streamOpStart t => Sys2Proof.Machine.execStreamOpStart t s
  | .memoryPortSlot t => Sys2Proof.Machine.execMemoryPortSlot t s
  | .sendStart t op => Sys2Proof.Machine.execSendStart t op s
  | .handleReserve spot h member pvi bytes reply => Sys2Proof.Machine.execHandleReserve spot h member pvi bytes reply s
  | .handleFillTimeout t h => Sys2Proof.Machine.execHandleFillTimeout t h s
  | .taskPut t op => Sys2Proof.Machine.execTaskPut t op s
  | .configPlaneSwap t => Sys2Proof.Machine.execConfigPlaneSwap t s
  | .passTokenVisit plain => Sys2Proof.Machine.execPassTokenVisit plain s
  | .sequencedMessageAct d plain => Sys2Proof.Machine.execSequencedMessageAct d plain s
  | .plainRelay foreign => Sys2Proof.Machine.execPlainRelay foreign s
  | .flitResend d f => Sys2Proof.Machine.execFlitResend d f s
  | .tokenLossRegenerate plain silent => Sys2Proof.Machine.execTokenLossRegenerate plain silent s
  | .stealRequest t c => Sys2Proof.Machine.execStealRequest t c s
  | .stealArrival t c => Sys2Proof.Machine.execStealArrival t c s
  | .stealAck t k => Sys2Proof.Machine.execStealAck t k s
  | .haltResStop t => Sys2Proof.Machine.execHaltResStop t s
  | .descriptorTake d q => Sys2Proof.Machine.execDescriptorTake d q s
  | .recordWrite q => Sys2Proof.Machine.execRecordWrite q s
  | .bestEffortChoice d => Sys2Proof.Machine.execBestEffortChoice d s
  | .quantumExpiry d => Sys2Proof.Machine.execQuantumExpiry d s
  | .intervalStart d k => Sys2Proof.Machine.execIntervalStart d k s
  | .earlyStart d k => Sys2Proof.Machine.execEarlyStart d k s
  | .residencyStart r => Sys2Proof.Machine.execResidencyStart r s
  | .costartReservation d w => Sys2Proof.Machine.execCostartReservation d w s
  | .residencyEnd r => Sys2Proof.Machine.execResidencyEnd r s
  | .swarmEnd w => Sys2Proof.Machine.execSwarmEnd w s
  | .swarmAbort w => Sys2Proof.Machine.execSwarmAbort w s
  | .dependenceRelease w => Sys2Proof.Machine.execDependenceRelease w s
  | .triggerNotice d r => Sys2Proof.Machine.execTriggerNotice d r s
  | .launchRecordTake d => Sys2Proof.Machine.execLaunchRecordTake d s
  | .budgetOverrun r => Sys2Proof.Machine.execBudgetOverrun r s
  | .watchdogExpiry r => Sys2Proof.Machine.execWatchdogExpiry r s
  | .horizonBoundary d => Sys2Proof.Machine.execHorizonBoundary d s
  | .deferredRecordDelivery t c => Sys2Proof.Machine.execDeferredRecordDelivery t c s
  | .trapDelivery t c => Sys2Proof.Machine.execTrapDelivery t c s
  | .errorQueueStore d => Sys2Proof.Machine.execErrorQueueStore d s
  | .engineElementFault t op => Sys2Proof.Machine.execEngineElementFault t op s
  | .preemptionRequest r => Sys2Proof.Machine.execPreemptionRequest r s
  | .preemptionCutoff r => Sys2Proof.Machine.execPreemptionCutoff r s
  | .preemptionLastIssue r => Sys2Proof.Machine.execPreemptionLastIssue r s
  | .residencyResume r => Sys2Proof.Machine.execResidencyResume r s
  | .parityError t elem => Sys2Proof.Machine.execParityError t elem s
  | .registerEccError t c g => Sys2Proof.Machine.execRegisterEccError t c g s
  | .sramUncorrectable t site => Sys2Proof.Machine.execSramUncorrectable t site s
  | .tileFence t cause => Sys2Proof.Machine.execTileFence t cause s
  | .clockStretch t cycles => Sys2Proof.Machine.execClockStretch t cycles s
  | .stretchExcess t => Sys2Proof.Machine.execStretchExcess t s
  | .margin d floorKHz => Sys2Proof.Machine.execMargin d floorKHz s
  | .thermalStop d => Sys2Proof.Machine.execThermalStop d s
  | .thermalResume d => Sys2Proof.Machine.execThermalResume d s
  | .retentionEntry t => Sys2Proof.Machine.execRetentionEntry t s
  | .retentionExit t => Sys2Proof.Machine.execRetentionExit t s
  | .dieBoot d b => Sys2Proof.Machine.execDieBoot d b s
  | .qtailWrite vi q v => Sys2Proof.Machine.execQtailWrite vi q v s
  | .qcfgEnable vi q v => Sys2Proof.Machine.execQcfgEnable vi q v s
  | .qcfgDisable vi q v => Sys2Proof.Machine.execQcfgDisable vi q v s
  | .qcheadWrite vi q v => Sys2Proof.Machine.execQcheadWrite vi q v s
  | .hostMemoryAccess vi va len data => Sys2Proof.Machine.execHostMemoryAccess vi va len data s
  | .viEnable vi v => Sys2Proof.Machine.execViEnable vi v s
  | .viDisable vi v => Sys2Proof.Machine.execViDisable vi v s
  | .attestRequest vi => Sys2Proof.Machine.execAttestRequest vi s
  | .attestDone vi => Sys2Proof.Machine.execAttestDone vi s
  | .mcfgRho d v => Sys2Proof.Machine.execMcfgRho d v s
  | .mcfgRst d => Sys2Proof.Machine.execMcfgRst d s
  | .mcfgSmode d v => Sys2Proof.Machine.execMcfgSmode d v s
  | .mpoolWrite d v => Sys2Proof.Machine.execMpoolWrite d v s
  | .mretWrite d v => Sys2Proof.Machine.execMretWrite d v s
  | .registerWrite w => Sys2Proof.Machine.execRegisterWrite w s
  | .digitRateCap d quarters collar => Sys2Proof.Machine.execDigitRateCap d quarters collar s
  | .ratedLimitsExcursion m => Sys2Proof.Machine.execRatedLimitsExcursion m s
  | .ucieModuleLoss m => Sys2Proof.Machine.execUcieModuleLoss m s
  | .powerGating d tile => Sys2Proof.Machine.execPowerGating d tile s

end Sys2Proof.Machine
end

