-- ==== Sys2Proof/Machine/Time.lean ====
section
/-! DEFINITION. What passes with time besides the plain counters (R6, R69, R302, R337, R346, R438, R460): throttle and
stall counters, the watchdog's return to 0, retention, and the horizon. -/

namespace Sys2Proof.Machine

/-- A spawn of the context waits on a tag or its forwarding table (R69), be the loop's window full or not (R448). -/
def Pack.spawnWaits (p : Pack) (t : TileId) (c : CtxId) : Bool :=
  let x := p.ctx t c
  let wants : Bool := match x.req with
    | some q => q.placed
    | none => match (p.ctx t c).loop with
      | some r => ((p.imageOf t r.img).bind fun i => p.wantedIter t c r i).isSome
      | none => false
  p.serves t c && wants && p.throttled t c

/-- A commit of the tile waits for a queue in lenient mode (R302). -/
def Pack.commitWaits (p : Pack) (t : TileId) (q : Nat) : Bool :=
  let tl := p.tile t
  (tl.qmode q).mode == 1 && p.running t && allCtxs.any fun c =>
    match tl.oldest? c with
    | none => false
    | some i => ((p.imageOf t i.img).map fun im => i.complete im).getD false && (tl.lacks c i (some q)).isSome

def QueueMode.wait (m : QueueMode) (n : Nat) : QueueMode := { m with stalls := satAdd m.stalls n }

/-- Cycles of waiting on a tile that holds a residency. -/
def Pack.countWaits (p : Pack) (n : Nat) (t : TileId) : Pack :=
  if (p.tile t).res.isNone then p
  else
    let thr (c : CtxId) (x : Ctx) : Ctx := if p.spawnWaits t c then { x with cur := { x.cur with thr := satAdd x.cur.thr n } } else x
    let q (k : Nat) (m : QueueMode) : QueueMode := if p.commitWaits t k then m.wait n else m
    p.modTile t fun y =>
      { y with
        ctxs := Vector.ofFn fun c => thr c (y.ctxs.get c)
        streamMode := q 0 y.streamMode
        matrixMode := q 1 y.matrixMode
        configMode := q 2 y.configMode }

/-- Retention's entry and exit take 16,384 cycles (R232, R460); the excess of stretching is judged over the window. -/
def Tile.settleClock (t : Tile) (floorKHz : Nat) : Tile :=
  let r : RetSt := if t.retCycles < 16384 then t.ret else match t.ret with | .entering => .retained | .exiting => .active | x => x
  let y := { t with ret := r }
  if t.stretches.isEmpty then y else y.markExcess floorKHz

/-- An operation that only waits for its stream section, which no progress promise covers (R58). -/
def Tile.waitsOnSection (t : Tile) (as : List Access) (o : Op) : Bool :=
  match o.snap.getD o.cmd with
  | .pfire .. => true
  | .strm c =>
    if o.ending then false
    else if c.fromPort then o.held.isEmpty
    else if c.toPort then
      (match t.portOf o with
        | some (_, q) => (match t.sectionAt false q with
          | some x => !t.acceptsBeat as x q || !t.firstOnPort o
          | none => true)
        | none => true)
    else false
  | .mma d => Mma.asrc d && (t.stepRows as o d).isNone
  | .mmald d => Mmald.src d && !o.delivered 511 && !t.sectionOver as o
  | .accdrn d => Drain.section_ d
  | _ => false

/-- Activity that returns a residency's watchdog to 0 (R346). -/
def Pack.activeResid (p : Pack) (r : Nat) (x : Resid) : Bool :=
  let tileBusy (t : TileId) : Bool :=
    let y := p.tile t
    let as := p.tileAccs t
    let busy (o : Op) : Bool := o.started && !o.stopped && !y.waitsOnSection as o
    let asked (o : Op) : Bool := o.mark && (o.record.isSome || (o.send?.isSome && !o.started))
    y.streamQ.any asked || y.sideQ.any asked || y.streamQ.any busy || y.matrixQ.any busy || y.configQ.any busy ||
      y.tasks.any fun e => match e.st with | .transit _ _ => true | _ => false
  let arrives (m : Message) : Bool := match m.body with | .arrive k _ => k == r | _ => false
  let queued (o : Order) : Bool := allDies.any fun d => (o.queues.get d ++ o.late.get d).any arrives
  (p.accs.any fun a => a.res == some r && (a.isLoad || (match a.st with | .remote _ | .sent => true | _ => false))) ||
    x.tiles.any tileBusy || queued p.ring || queued p.plain

/-- Watchdogs of active residencies return to 0. -/
def Pack.restWatchdogs (p : Pack) (d : DieId) : Pack :=
  (List.range p.resids.length).foldl (fun p r =>
    match p.resid? r with
    | some x => if x.die == d && x.st == .resident && p.activeResid r x then p.modResid r fun y => { y with watchdog := 0 } else p
    | none => p) p

/-- A boundary of the horizon lies among `k` counts from `now` on (R337). -/
def crossesHorizon (now k : Nat) : Bool := now / 2 ^ 30 != (now + k) / 2 ^ 30

/-- `n` cycles and `k` counts pass on a die. -/
def Pack.elapse (p : Pack) (d : DieId) (n k : Nat) : Pack :=
  let p1 := if n == 0 then p else allTiles.foldl (fun p i => p.countWaits n ⟨d, i⟩) p
  let p2 := (p1.pass d n k).restWatchdogs d
  let p3 := p2.modDie d fun x => { x with tiles := x.tiles.map fun (t : Tile) => t.settleClock x.floorKHz.toNat }
  if crossesHorizon (p.die d).now k then p3.horizon d else p3

end Sys2Proof.Machine
end

