-- ==== Sys2Proof/Machine/Fire.lean ====
section
/-! DEFINITION. Firing a slot (R39, R46): which complete operand set of a PE fires, and what a step of the part does. -/

namespace Sys2Proof.Machine

/-- The work of a slot's complete operand set, or of the heads that a run-aware slot needs; none when nothing can fire. -/
def Pack.readyAt (p : Pack) (t : TileId) (a : BitVec 12) (w : Work) : Option Work :=
  let tl := p.tile t
  let plain := (tl.readySet a w).map fun _ => w
  match tl.instrFor a w.stream with
  | .ok i => if runAware i then (tl.runHeads (p.tileAccs t) i a w.ctx w.img).map (·.work) else plain
  | .error _ => plain

/-- A complete set: the slot, the work its entry stands under, and the work it fires for. -/
abbrev ReadySet := BitVec 12 × Work × Work

/-- A set takes its place in the order of R46. -/
def Tile.rank (t : Tile) (x : ReadySet) : List ReadySet → List ReadySet
  | [] => [x]
  | y :: ys => if t.before x.1 x.2.2 y.1 y.2.2 then x :: y :: ys else y :: t.rank x ys

/-- The complete sets of a slot's PE that go before its own, oldest first (R46). -/
def Pack.olderSets (p : Pack) (t : TileId) (a : BitVec 12) (w : Work) : List ReadySet :=
  let tl := p.tile t
  match p.readyAt t a w with
  | none => []
  | some v =>
    let sets := tl.store.filterMap fun e =>
      if peOf e.elem == peOf a then (p.readyAt t e.elem e.work).map fun u => (e.elem, e.work, u) else none
    (sets.filter fun x => tl.before x.1 x.2.2 a v).foldr tl.rank []

/-- One set fires: its operands are consumed and its instruction runs. -/
def fireSet (s : State) (t : TileId) (a : BitVec 12) (w : Work) : Host.Outcome State Fault Refusal :=
  match s.takeSet t a w with
  | none => .next s
  | some (s', .ok i) => exec i s'
  | some (s', .error _) => .next s'.illegalSlot

/-- An instruction that has to wait holds its operands again. -/
def State.waitsStill (s : State) (t : TileId) (x : ReadySet) : Bool := ((s.pk.tile t).readySet x.1 x.2.1).isSome

/-- A slot fires, or an older set of its PE that need not wait does (R46). -/
def fireOldest (s : State) (t : TileId) (a : BitVec 12) (w : Work) : List ReadySet → Host.Outcome State Fault Refusal
  | [] => fireSet s t a w
  | x :: xs =>
    match fireSet s t x.1 x.2.1 with
    | .next s1 => if s1.waitsStill t x then fireOldest s t a w xs else .next s1
    | o => o

/-- A slot's turn to fire (R39, R46). -/
def stepFire (s : State) (t : TileId) (a : BitVec 12) (w : Work) : Host.Outcome State Fault Refusal :=
  fireOldest s t a w (s.pk.olderSets t a w)

/-- A tile's next configuration command is applied (R84). -/
def stepCommand (s : State) (t : TileId) : Host.Outcome State Fault Refusal :=
  match s.takeCommand t with
  | none => .next s
  | some (s', .ok i) => exec i s'
  | some (s', .error _) =>
    match (s.pk.tile t).cfgStream with
    | c :: _ => .next (s'.illegalCommand c.word)
    | [] => .next s'

/-- A step of the part, as against an instruction that a slot or a configuration stream holds. -/
def isEvent (i : Instr) : Bool :=
  match i with
  | .configCommand .. | .clearCommand _ => false
  | i => i.slot.isNone

/-- A granule of a die's storage, as its key in the memory's error maps. -/
def granuleKey (d : DieId) (g : Nat) : Nat := d.val * 2 ^ 34 + g % 2 ^ 34

def stepHappening (h : Happening) (s : State) : Host.Outcome State Fault Refusal :=
  match h with
  | .fire t a w => stepFire s t a w
  | .command t => stepCommand s t
  | .event i => if isEvent i then exec i s else .next s
  | .time d n k => .next { s with pk := s.pk.elapse d n k }
  | .granuleError d g => .next { s with mem := { s.mem with bad := sset false s.mem.bad (granuleKey d g) true } }
  | .granuleFlaw d g => .next { s with mem := { s.mem with flaw := sset false s.mem.flaw (granuleKey d g) true } }
  | .scratchError t w => .next { s with pk := s.pk.modTile t fun x => { x with padBad := sset false x.padBad (w % 2 ^ 19) true } }
  | .registerRead r => .next (s.readRegister r)

end Sys2Proof.Machine
end

