-- ==== Sys2Proof/Machine/Step.lean ====
section
/-! DEFINITION. One step of the part: the next happening of the agenda, or one that timing chooses. -/

namespace Sys2Proof.Machine

/-- One step (log 1). -/
def step (s : State) : Host.Outcome State Fault Refusal :=
  match s.agenda with
  | h :: rest => stepHappening h { s with agenda := rest }
  | [] => stepHappening s.choose { s with freeCount := s.freeCount + 1 }

/-- `s` with one instruction placed where the very next step fetches it (log 10): a 32-bit configuration command
at the head of tile (0, 0) of die 0's stream, or a 96-bit slot with a complete operand set. -/
def State.withFetchWord (s : State) (nbits w : Nat) : State :=
  if nbits == 32 then
    { s with pk := s.pk.placeCommand ⟨0, 0⟩ (BitVec.ofNat 32 w), agenda := .command ⟨0, 0⟩ :: s.agenda }
  else
    { s with
      pk := s.pk.placeSlot ⟨0, 0⟩ (fieldsOfNat (w % 2 ^ nbits))
      agenda := .fire ⟨0, 0⟩ fetchElem (fetchWorkOf (fieldsOfNat (w % 2 ^ nbits))) :: s.agenda }

end Sys2Proof.Machine
end

