-- ==== Sys2Proof/Safety.lean ====
section
/-! DEFINITION. What a safe step is, and the words the claims use for a firing: the operands that stand for it, and
the state in which it has given its result. -/

namespace Sys2Proof.Machine

/-- A step from `s` gives a next state. -/
def Continues (s : State) : Prop := ∃ t, step s = .next t

/-- The invariant of the memory: its canonical form. -/
def Inv (s : State) : Prop := s.mem.wf = true

/-! ### Firings -/

/-- Tokens l and r are the operands of instruction i in the firing of s (R39, R90), and its predicate, if it has
one, passes (R40): a clean predicate of the sense that pmode asks for. An operand that the slot takes as a token
is the token consumed; any other is its immediate, or an empty word. -/
def Given (i : Instr) (s : State) (l r : Token) : Prop :=
  (if wantsL (formOf i) (slotOf i) then s.cur.l = some l else opL (formOf i) (slotOf i) s.cur = l) ∧
  (if wantsR (formOf i) (slotOf i) then s.cur.r = some r else opR (formOf i) (slotOf i) s.cur = r) ∧
  (wantsP (slotOf i) = true → s.cur.p = some (predTok ((slotOf i).pmode == .onTrue)))

/-- The firing of i in s completes: the tokens of `r` leave for the slot's targets, its LSID takes its value, its
flags join those of the work. -/
def State.answer (s : State) (i : Instr) (r : Result) : State := s.finish (slotOf i) (formOf i) r

/-- It completes with one data word to every target. -/
def State.gives (s : State) (i : Instr) (v : W128) (poison : Bool) (flags : BitVec 5 := 0) : State :=
  s.answer i (.all (dataTok v poison) flags)

/-- It completes with a fault token to every target and the LSID (R42). -/
def State.faults (s : State) (i : Instr) (cause sub : Byte) (va : VA := 0) : State :=
  s.answer i (.fault s.cur cause sub va)

/-! ### Results on lanes (R150) -/

/-- A word of type t made lane by lane from two words. -/
def zipLanes (t : Ty) (op : Nat → Nat → Nat) (a b : W128) : W128 := wordOf t (List.zipWith op (lanesOf t a) (lanesOf t b))

/-- Lane k of a word, and the word of type t whose lane k is `g k`. -/
def laneAt (t : Ty) (a : W128) (k : Nat) : Nat := (lanesOf t a).getD k 0

def perLane (t : Ty) (g : Nat → Nat) : W128 := wordOf t ((List.range t.lanesOf).map g)

/-- The word of type t whose lane k holds `(g k).1` for k < n and 0 above, with the flags of those lanes joined. -/
def lanesFlags (t : Ty) (n : Nat) (g : Nat → Nat × BitVec 5) : W128 × BitVec 5 :=
  (perLane t fun k => if k < n then (g k).1 else 0, (List.range n).foldl (fun fl k => fl ||| (g k).2) 0)

/-- On data operands a and b, slots `mk f` that satisfy `ok` complete with the word `op f a b`, which carries the
operands' poison and raises no flag. -/
def GivesWord (mk : Slot → Instr) (ok : Slot → Prop) (op : Slot → W128 → W128 → W128) : Prop :=
  ∀ (f : Slot) (s : State) (a b : W128) (pa pb : Bool), ok f → Given (mk f) s (dataTok a pa) (dataTok b pb) →
    exec (mk f) s = .next (s.gives (mk f) (op f a b) (pa || pb))

/-- The same, with the word made lane by lane. -/
def GivesLanes (mk : Slot → Instr) (ok : Slot → Prop) (op : Slot → Nat → Nat → Nat) : Prop :=
  GivesWord mk ok fun f => zipLanes f.ty (op f)

/-- The same, with flags. -/
def GivesFlags (mk : Slot → Instr) (ok : Slot → Prop) (op : Slot → W128 → W128 → W128 × BitVec 5) : Prop :=
  ∀ (f : Slot) (s : State) (a b : W128) (pa pb : Bool), ok f → Given (mk f) s (dataTok a pa) (dataTok b pb) →
    exec (mk f) s = .next (s.gives (mk f) (op f a b).1 (pa || pb) (op f a b).2)

/-- No condition on the slot. -/
def Always (_ : Slot) : Prop := True

/-- The modifier in mode[0] is absent, or present. -/
def Mode0 (v : Bool) (f : Slot) : Prop := f.mode.getLsbD 0 = v

/-- An integer held to the range of an integer type (R12). -/
def clampTo (t : Ty) (x : Int) : Int := max t.minInt (min t.maxInt x)

end Sys2Proof.Machine
end

