-- ==== Sys2Proof/Certificates/Slice0/Obligations.lean ====
section
/-! DEFINITION. The claims about the part, each from the numbered rules it cites. What they say of a firing is said in
the words of `Sys2Proof/Safety.lean`. -/

open Sys2Proof Sys2Proof.Machine

/-! ### Encoding -/

/-- Decoding the bytes of a well-formed instruction gives it back, and bytes that decode are the bytes of the well-formed
instruction they decode to: no bit of a slot or of a command is dropped or read twice (R84, R89, R93). -/
def Obligations.DecodeAndEncodeAgree : Prop :=
  (∀ i : Instr, i.wf = true → decode (encode i) = .ok i) ∧
  ∀ (bs : List Byte) (i : Instr), decode bs = .ok i → i.wf = true ∧ encode i = bs

/-- The 96 bits of a slot, F0 lowest. -/
def Sys2Proof.Machine.slotBits (f0 f1 f2 f3 f4 f5 : Nat) : Nat :=
  f0 + 2 ^ 16 * f1 + 2 ^ 32 * f2 + 2 ^ 48 * f3 + 2 ^ 64 * f4 + 2 ^ 80 * f5

/-- Words that the spec writes out decode to what it says they are: the ICMP of R180, the MMA and the CAS of the worked
examples, the LD of the gather kernel, TRAP.n5 and ERET.rs, the MERGE of the sort, and the commands of an image. -/
def Obligations.WordsOfTheSpecDecode : Prop :=
  let bare : Slot := { mode := 0, t0 := .none, t1 := .none, imm := 0, pmode := .none, immuse := .none, ty := .w128, aux := 0, idx := 0 }
  decodeTableWord 96 (slotBits 0x5002 0x8A6C 0 0 0 0x1200) =
    some (.icmp { bare with mode := 2, t0 := .operand .l .e 1 3 3 .single, immuse := .forR, ty := .i32 }) ∧
  decodeTableWord 96 (slotBits 0xA100 0 0 0 0 0x0D02) = some (.mma { bare with idx := 2 }) ∧
  decodeTableWord 96 (slotBits 0x8068 0xE040 0 0 0 0x0704) =
    some (.cas { bare with mode := 0x28, t0 := .output 2, ty := .n64, idx := 4 }) ∧
  decodeTableWord 96 (slotBits 0x6001 0xE220 0 0 0 0x0700) = some (.ld { bare with mode := 1, t0 := .output 17, ty := .n64 }) ∧
  decodeTableWord 96 (slotBits 0xF005 0 0 0 0 0x0D02) = some (.trap { bare with mode := 5, idx := 2 }) ∧
  decodeTableWord 96 (slotBits 0xF040 0xE800 0 0 0 0x0D00) = some (.eretRs { bare with t0 := .exit 0 }) ∧
  decodeTableWord 96 (slotBits 0xE400 0x8200 0 0 0 0x0700) = some (.merge { bare with t0 := .operand .l .n 1 0 0 .single, ty := .n64 }) ∧
  decodeTableWord 32 0x20000400 = some (.configCommand 0x200 0 0x0400) ∧
  decodeTableWord 32 0x200F0000 = some (.clearCommand 0x200) ∧
  decodeTableWord 32 0x200F0001 = none

/-! ### Steps, reset, invariant -/

/-- A step runs the instruction that its slot's fields, or its command's word, decode to: the operand set that a PE fires
leaves the matching store and becomes the firing, once no older complete set of the PE stands ready (R46); where some do,
the oldest fires in its place, if its instruction then does not wait; a tile's next command leaves its stream; a step of the part is
run as it stands (R39, R46, R84). -/
def Obligations.StepRunsTheDecodedInstruction : Prop :=
  ∀ (s : State) (t : TileId) (a : BitVec 12) (w : Work) (i : Instr) (rest : List Happening) (e : MatchEntry)
    (left : List MatchEntry) (c : CfgCommand) (cs : List CfgCommand) (x : ReadySet) (xs : List ReadySet),
    let f : Firing := { tile := t, elem := a, work := w, l := e.l, r := e.r, p := e.p }
    let fires : Prop := s.agenda = .fire t a w :: rest ∧ decodeSlot ((s.pk.tile t).active.elem a).fields = .ok i ∧
      i.modeField w.stream = none
    (fires → s.pk.olderSets t a w = [] → runAware i = false → (s.pk.tile t).readySet a w = some (e, left) →
      step s = exec i { s with
        agenda := rest, cur := f, pk := s.pk.modTile t fun x => ({ x with store := left } : Tile).fireSink f (formOf i) (slotOf i) }) ∧
    (∀ g, fires → s.pk.olderSets t a w = [] → runAware i = true →
      (s.pk.tile t).runHeads (s.pk.tileAccs t) i a w.ctx w.img = some g →
      step s = exec i { s with agenda := rest, cur := { g with tile := t } }) ∧
    (∀ j u, s.agenda = .fire t a w :: rest → s.pk.olderSets t a w = x :: xs →
      decodeSlot ((s.pk.tile t).active.elem x.1).fields = .ok j → j.modeField x.2.1.stream = none → runAware j = false →
      (s.pk.tile t).readySet x.1 x.2.1 = some (e, left) →
      (let g : Firing := { tile := t, elem := x.1, work := x.2.1, l := e.l, r := e.r, p := e.p }
       exec j { s with
        agenda := rest, cur := g, pk := s.pk.modTile t fun y => ({ y with store := left } : Tile).fireSink g (formOf j) (slotOf j) } =
          .next u) → (u.pk.tile t).readySet x.1 x.2.1 = none → step s = .next u) ∧
    (s.agenda = .command t :: rest → (s.pk.tile t).cfgStream = c :: cs → decodeCommand c.word = .ok i →
      step s = exec i { s with
        agenda := rest, cmd := { tile := t, active := c.active, img := c.img }, pk := s.pk.modTile t fun x => { x with cfgStream := cs } }) ∧
    (s.agenda = .event i :: rest → isEvent i = true → step s = exec i { s with agenda := rest })

/-- What reset leaves (R457, R459, R324): every die before its first stage and not ready, its floor and its counters at
their reset values, its pool where MPOOL's reset value puts it; no residency, no swarm, no queue; and the memory in its
canonical form. Of the values that the spec does not give, which are the model's, one is stated: member reads as 0xFF,
which R395 gives a package that belongs to no plain, and the model starts in none (log 4). -/
def Obligations.ResetState : Prop :=
  Inv State.reset ∧ State.reset.pk.resids = [] ∧ State.reset.pk.swarms = [] ∧ State.reset.pk.member = 0xFF ∧
  (∀ d : DieId, let x := State.reset.pk.die d
    x.stage = 0 ∧ x.ready = false ∧ x.fail = 0 ∧ x.mode = false ∧ x.enabled = 0 ∧ x.smode = true ∧ x.rho = 0 ∧ x.mret = 0 ∧
    fld x.mpool 41 26 = 0x200 ∧ fld x.mpool 25 0 = 0x2FFE00 + 0x400000 * d.val ∧ x.elap = 0 ∧ x.floorKHz = 552000) ∧
  (∀ q, let x := State.reset.pk.queue q
    x.cfg = 0 ∧ x.base = 0 ∧ x.cbase = 0 ∧ x.tail = 0 ∧ x.head = 0 ∧ x.ctail = 0 ∧ x.chead = 0 ∧ x.stat = 0) ∧
  (∀ v : Fin 64, let x := State.reset.pk.vi v
    x.ctl = 0 ∧ x.root = 0 ∧ x.rngt = 0 ∧ x.q = 0 ∧ x.tmax = 0 ∧ x.bres = 0 ∧ x.mem = 0 ∧ x.tsh = 0 ∧ x.stat = 0)

/-- The invariant of the memory, that its five lists are in canonical form, is kept by every step from every state. -/
def Obligations.EveryStepKeepsTheInvariant : Prop := ∀ s t : State, Inv s → step s = .next t → Inv t

/-- No instruction, command or step of the part stops the machine: what the spec calls a fault is a token, a trap or a
record, and the machine goes on (R41, R53, R58, R104, R412). -/
def Obligations.NothingStops : Prop := (∀ (i : Instr) (s : State), ∃ t, exec i s = .next t) ∧ ∀ s, Continues s

/-- The frame of every instruction of a slot (R51, R52, R58): its firing changes no byte of package memory, scratchpad,
operand memory or accumulators, and no committed state of any context: registers change at commits alone. -/
def Obligations.FiringsLeaveCommittedState : Prop :=
  ∀ (i : Instr) (s t : State), i.slot.isSome = true → exec i s = .next t →
    (∀ a, t.mem.byte a = s.mem.byte a) ∧
    ∀ u : TileId, (t.pk.tile u).pad = (s.pk.tile u).pad ∧ (t.pk.tile u).om = (s.pk.tile u).om ∧
      (t.pk.tile u).acc = (s.pk.tile u).acc ∧ (t.pk.tile u).accBuf = (s.pk.tile u).accBuf ∧
      ∀ c : CtxId,
        let x := s.pk.ctx u c
        let y := t.pk.ctx u c
        y.st = x.st ∧ y.cur.g = x.cur.g ∧ y.cur.gpois = x.cur.gpois ∧ y.cur.pc = x.cur.pc ∧ y.cur.cnt = x.cur.cnt ∧
          y.cur.lvl = x.cur.lvl ∧ y.cur.fpf = x.cur.fpf ∧ y.cur.arg = x.cur.arg ∧ y.trapped = x.trapped ∧
          y.tcause = x.tcause ∧ y.tblock = x.tblock ∧ y.tinfo = x.tinfo ∧ y.tval = x.tval

/-! ### Integer, lane and bit results -/

/-- Sums, differences, products, negations and absolute values wrap to the lane, or saturate to its type (R154, R155). -/
def Sys2Proof.Machine.IntegerSums : Prop :=
  GivesLanes .iadd (Mode0 false) (fun f x y => (x + y) % 2 ^ f.ty.valueWidth) ∧
  GivesLanes .isub (Mode0 false) (fun f x y => (x + (2 ^ f.ty.valueWidth - y)) % 2 ^ f.ty.valueWidth) ∧
  GivesLanes .imul (Mode0 false) (fun f x y => (x * y) % 2 ^ f.ty.valueWidth) ∧
  GivesLanes .ineg (Mode0 false) (fun f x _ => (2 ^ f.ty.valueWidth - x) % 2 ^ f.ty.valueWidth) ∧
  GivesLanes .iadd (Mode0 true) (fun f x y => lowBits f.ty.valueWidth (clampTo f.ty (f.ty.int x + f.ty.int y))) ∧
  GivesLanes .isub (Mode0 true) (fun f x y => lowBits f.ty.valueWidth (clampTo f.ty (f.ty.int x - f.ty.int y))) ∧
  GivesLanes .imul (Mode0 true) (fun f x y => lowBits f.ty.valueWidth (clampTo f.ty (f.ty.int x * f.ty.int y))) ∧
  GivesLanes .ineg (Mode0 true) (fun f x _ => lowBits f.ty.valueWidth (clampTo f.ty (-f.ty.int x))) ∧
  GivesLanes .iabs (Mode0 false) (fun f x _ => lowBits f.ty.valueWidth (if f.ty.int x < 0 then -f.ty.int x else f.ty.int x)) ∧
  GivesLanes .iabs (Mode0 true)
    (fun f x _ => lowBits f.ty.valueWidth (clampTo f.ty (if f.ty.int x < 0 then -f.ty.int x else f.ty.int x)))

/-- High halves, quotients and remainders, with division by zero (R155). -/
def Sys2Proof.Machine.IntegerQuotients : Prop :=
  GivesLanes .imulh Always
    (fun f x y => lowBits f.ty.valueWidth (f.ty.int x * f.ty.int y / ((2 ^ f.ty.valueWidth : Nat) : Int))) ∧
  GivesLanes .idiv Always
    (fun f x y => if y = 0 then 2 ^ f.ty.valueWidth - 1 else lowBits f.ty.valueWidth (Int.tdiv (f.ty.int x) (f.ty.int y))) ∧
  GivesLanes .irem Always
    (fun f x y => if y = 0 then x
      else lowBits f.ty.valueWidth (f.ty.int x - f.ty.int y * Int.tdiv (f.ty.int x) (f.ty.int y)))

/-- No integer instruction traps or raises a flag (R155): whatever the words of its operands, it answers a word. -/
def Sys2Proof.Machine.IntegerInstructionsNeverTrap : Prop :=
  ∀ mk ∈ ([.iadd, .isub, .imul, .imulh, .imad, .idiv, .irem, .ineg, .iabs, .imin, .imax, .bitAnd, .bitOr, .bitXor, .bitAndn,
      .bitNot, .shl, .shr, .sar, .rol, .clz, .ctz, .popc, .bfx, .bfi, .sext, .zext, .movhi, .lea] : List (Slot → Instr)),
    ∃ op : Slot → W128 → W128 → W128, GivesWord mk Always op

/-- Integer arithmetic (R154, R155). -/
def Obligations.IntegerArithmetic : Prop := IntegerSums ∧ IntegerQuotients ∧ IntegerInstructionsNeverTrap

/-- IMAD multiplies the halves of L and adds R in the wider type, wrapping or saturating the sum once (R158). -/
def Obligations.MultiplyAdd : Prop :=
  let sum (f : Slot) (a b : W128) (k : Nat) : Int :=
    f.ty.int (laneAt f.ty a k) * f.ty.int (laneAt f.ty a (k + f.ty.lanesOf / 2)) + f.ty.imadWide.int (laneAt f.ty.imadWide b k)
  let legal (f : Slot) : Prop := f.ty = .i8 ∨ f.ty = .n8 ∨ f.ty = .i16 ∨ f.ty = .n16 ∨ f.ty = .i32 ∨ f.ty = .n32
  GivesWord .imad (fun f => legal f ∧ Mode0 false f)
    (fun f a b => perLane f.ty.imadWide fun k => lowBits f.ty.imadWide.valueWidth (sum f a b k)) ∧
  GivesWord .imad (fun f => legal f ∧ Mode0 true f)
    (fun f a b => perLane f.ty.imadWide fun k => lowBits f.ty.imadWide.valueWidth (clampTo f.ty.imadWide (sum f a b k)))

/-- Lesser and greater, and the bitwise instructions (R154). -/
def Obligations.ChoicesAndBits : Prop :=
  GivesLanes .imin Always (fun f x y => if f.ty.int x ≤ f.ty.int y then x else y) ∧
  GivesLanes .imax Always (fun f x y => if f.ty.int x ≤ f.ty.int y then y else x) ∧
  GivesLanes .bitAnd Always (fun _ x y => x &&& y) ∧
  GivesLanes .bitOr Always (fun _ x y => x ||| y) ∧
  GivesLanes .bitXor Always (fun _ x y => x ^^^ y) ∧
  GivesLanes .bitAndn Always (fun f x y => x &&& (y ^^^ (2 ^ f.ty.valueWidth - 1))) ∧
  GivesLanes .bitNot Always (fun f x _ => x ^^^ (2 ^ f.ty.valueWidth - 1))

/-- Shifts and rotations, with a count of the lane's width and more (R156). -/
def Sys2Proof.Machine.Shifts : Prop :=
  let count (f : Slot) (y : Nat) : Nat := if f.ty = .w128 then y % 2 ^ 32 else y
  GivesLanes .shl Always (fun f x y => if count f y < f.ty.valueWidth then x * 2 ^ count f y % 2 ^ f.ty.valueWidth else 0) ∧
  GivesLanes .shr Always (fun f x y => if count f y < f.ty.valueWidth then x / 2 ^ count f y else 0) ∧
  GivesLanes .sar Always (fun f x y =>
    if count f y < f.ty.valueWidth then lowBits f.ty.valueWidth (f.ty.int x / ((2 ^ count f y : Nat) : Int))
    else if f.ty.int x < 0 then 2 ^ f.ty.valueWidth - 1 else 0) ∧
  GivesLanes .rol Always (fun f x y =>
    (x * 2 ^ (count f y % f.ty.valueWidth) + x / 2 ^ (f.ty.valueWidth - count f y % f.ty.valueWidth)) % 2 ^ f.ty.valueWidth)

/-- Counts of leading and trailing zeros and of set bits (R156): each is the number that its definition names. -/
def Sys2Proof.Machine.BitCounts : Prop :=
  ∃ clz ctz popc : Nat → Nat → Nat,
    (GivesLanes .clz Always (fun f x _ => clz f.ty.valueWidth x) ∧
     GivesLanes .ctz Always (fun f x _ => ctz f.ty.valueWidth x) ∧
     GivesLanes .popc Always (fun f x _ => popc f.ty.valueWidth x)) ∧
    (∀ w x : Nat, x < 2 ^ w →
      (x = 0 → clz w x = w ∧ ctz w x = w) ∧
      (0 < x → clz w x < w ∧ 2 ^ (w - 1 - clz w x) ≤ x ∧ x < 2 ^ (w - clz w x)) ∧
      (0 < x → x.testBit (ctz w x) = true ∧ ∀ k, k < ctz w x → x.testBit k = false) ∧
      popc w x = ((List.range w).map fun k => (x.testBit k).toNat).sum)

/-- Shifts, rotations and bit counts (R156). -/
def Obligations.ShiftsAndCounts : Prop := Shifts ∧ BitCounts

/-- Bit fields: extraction, insertion and the extensions (R157, R158). -/
def Obligations.BitFields : Prop :=
  GivesLanes .bfx Always (fun f x y =>
    let w := f.ty.valueWidth
    let p := y % 128
    let n := y / 256 % 128
    if n = 0 ∨ w ≤ p then 0
    else
      let v := x / 2 ^ p % 2 ^ (min (p + n) w - p)
      if f.ty.isSigned then lowBits w (signedOf (min (p + n) w - p) v) else v) ∧
  (∃ insert : Nat → Nat → Nat → Nat → Nat,
    GivesWord .bfi Always (fun f a b => perLane f.ty fun k =>
      if k < f.ty.lanesOf / 2 then
        insert f.ty.valueWidth (laneAt f.ty a k) (laneAt f.ty a (k + f.ty.lanesOf / 2)) (laneAt f.ty b k)
      else 0) ∧
    ∀ w dst v c j : Nat, j < w → (insert w dst v c).testBit j =
      (if c % 128 ≤ j ∧ j < c % 128 + c / 256 % 128 then v.testBit (j - c % 128) else dst.testBit j)) ∧
  GivesLanes .sext Always (fun f x y =>
    if y % 128 = 0 then 0 else if f.ty.valueWidth ≤ y % 128 then x else lowBits f.ty.valueWidth (signedOf (y % 128) x)) ∧
  GivesLanes .zext Always (fun f x y =>
    if y % 128 = 0 then 0 else if f.ty.valueWidth ≤ y % 128 then x else x % 2 ^ (y % 128))

/-- Moves, constants and address arithmetic (R159, R160), and NOP (R107). -/
def Obligations.MovesAndAddresses : Prop :=
  (∀ (f : Slot) (s : State), exec (.nop f) s = .next s) ∧
  (∀ (f : Slot) (s : State) (l : Token) (b : W128) (pb : Bool), l.kind = .data ∨ l.kind = .pred →
    Given (.movi f) s l (dataTok b pb) → exec (.movi f) s = .next (s.gives (.movi f) b (l.poison || pb))) ∧
  (∀ (f : Slot) (s : State) (l r : Token), l.kind = .data ∨ l.kind = .pred →
    (Given (.mov f) s l r → exec (.mov f) s = .next (s.answer (.mov f) (.all l))) ∧
    (Given (.nul f) s l r → exec (.nul f) s = .next (s.answer (.nul f) (.all nullTok)))) ∧
  (∃ chunk : Nat → W128 → W128 → W128,
    GivesWord .movhi Always (fun f a b => chunk (fld f.mode 1 0) a b) ∧
    ∀ (j : Nat) (a b : W128) (k : Nat), k < 4 →
      (chunk j a b).extractLsb' (32 * k) 32 = if k = j then b.extractLsb' 0 32 else a.extractLsb' (32 * k) 32) ∧
  GivesLanes .lea (fun f => f.ty ≠ .w128) (fun f x y => (x + y * 2 ^ fld f.mode 2 0) % 2 ^ f.ty.valueWidth) ∧
  (∃ sum : Nat → W128 → W128 → W128,
    GivesWord .lea (fun f => f.ty = .w128) (fun f a b => sum (fld f.mode 2 0) a b) ∧
    ∀ (k : Nat) (a b : W128), (sum k a b).extractLsb' 72 8 = a.extractLsb' 72 8 ∧ (sum k a b).extractLsb' 80 48 = 0 ∧
      ((sum k a b).extractLsb' 0 72).toInt % 2 ^ 72 =
        ((a.extractLsb' 0 72).toInt + (b.extractLsb' 0 64).toInt * 2 ^ k) % 2 ^ 72)

/-- Lanes picked, replaced, repeated and rearranged (R161, R162). -/
def Obligations.LaneMoves : Prop :=
  GivesWord .lane Always (fun f a b => perLane f.ty fun k => if k = 0 then laneAt f.ty a (laneAt f.ty b 0) else 0) ∧
  GivesWord .ins (fun f => f.mode.toNat < f.ty.lanesOf)
    (fun f a b => perLane f.ty fun k => if k = f.mode.toNat then laneAt f.ty b 0 else laneAt f.ty a k) ∧
  GivesWord .splat (fun f => f.mode.toNat < f.ty.lanesOf) (fun f a _ => perLane f.ty fun _ => laneAt f.ty a f.mode.toNat) ∧
  GivesWord .shuf Always (fun f a b => perLane f.ty fun k => laneAt f.ty a ((b.extractLsb' (4 * k) 4).toNat)) ∧
  (let h (f : Slot) : Nat := f.ty.lanesOf / 2
   let even (f : Slot) : Prop := 2 ≤ f.ty.lanesOf
   GivesWord .perm (fun f => even f ∧ f.mode = 0)
     (fun f a b => perLane f.ty fun k => if k % 2 = 0 then laneAt f.ty a (k / 2) else laneAt f.ty b (k / 2)) ∧
   GivesWord .perm (fun f => even f ∧ f.mode = 1)
     (fun f a b => perLane f.ty fun k => if k % 2 = 0 then laneAt f.ty a (h f + k / 2) else laneAt f.ty b (h f + k / 2)) ∧
   GivesWord .perm (fun f => even f ∧ f.mode = 2)
     (fun f a b => perLane f.ty fun k => if k < h f then laneAt f.ty a (2 * k) else laneAt f.ty b (2 * (k - h f))) ∧
   GivesWord .perm (fun f => even f ∧ f.mode = 3)
     (fun f a b => perLane f.ty fun k => if k < h f then laneAt f.ty a (2 * k + 1) else laneAt f.ty b (2 * (k - h f) + 1)))

/-! ### Floating-point results

The exact value of each operation is `Val`'s; `roundTo` is RoundTo of R137 with the flags of R139. -/

/-- On data operands, slots `mk f` of a floating-point type complete with each lane's value rounded by rnd, and with
the flags that rounding and the operation raise (R147, R150, R152, R165). -/
def Sys2Proof.Machine.RoundsLanes (mk : Slot → Instr) (op : Slot → Val → Val → ValFl) : Prop :=
  GivesFlags mk Always fun f a b => lanesFlags f.ty f.ty.lanesOf fun k =>
    let v := op f (f.ty.val (laneAt f.ty a k)) (f.ty.val (laneAt f.ty b k))
    let r := roundTo f.ty.fmt false (Rnd.ofCode f.aux) v.1
    (r.1, r.2 ||| v.2)

/-- Sums, products, quotients, roots and reciprocals, correctly rounded (R165, R166), and FSCALE (R170). The powers and
logarithms are rounded from series that carry more bits than any result of the formats is presumed to need (log 32). -/
def Obligations.RoundedArithmetic : Prop :=
  RoundsLanes .fadd (fun f x y => (x.add (Rnd.ofCode f.aux) y, 0)) ∧
  RoundsLanes .fsub (fun f x y => (x.sub (Rnd.ofCode f.aux) y, 0)) ∧
  RoundsLanes .fmul (fun _ x y => (x.mul y, 0)) ∧
  RoundsLanes .fdiv (fun _ x y => x.div y) ∧
  RoundsLanes .fsqrt (fun _ x _ => (x.sqrt, 0)) ∧
  RoundsLanes .frcp (fun _ x _ => (Val.fin false 1 0 false).div x) ∧
  RoundsLanes .frsq (fun _ x _ => x.rsqrt) ∧
  RoundsLanes .fexp2 (fun _ x _ => (x.exp2, 0)) ∧
  RoundsLanes .flog2 (fun _ x _ => x.log2) ∧
  GivesFlags .fscale Always (fun f a b => lanesFlags f.ty f.ty.lanesOf fun k =>
    roundTo f.ty.fmt false (Rnd.ofCode f.aux)
      ((f.ty.val (laneAt f.ty a k)).scale (signedOf f.ty.laneWidth (laneAt f.ty b k))))

/-- A value that a format represents rounds to itself, in every mode, and raises nothing (R137, R139). -/
def Sys2Proof.Machine.RepresentableValuesRoundExactly : Prop :=
  ∀ (f : Fmt) (sat : Bool) (rm : Rnd) (c : Nat), c < 2 * f.signBit → (f.value c).isNan = false →
    (f.value c).isInf = false → roundTo f sat rm (f.value c) = (c, 0)

/-- A magnitude m * 2^e in units of 2^lo, for lo no greater than e, and the same of a value. -/
def Sys2Proof.Machine.unitsOf (lo : Int) (m : Nat) (e : Int) : Nat := m * 2 ^ (e - lo).toNat

def Sys2Proof.Machine.Val.units (lo : Int) : Val → Nat
  | .fin _ m e _ => unitsOf lo m e
  | _ => 0

/-- A value that lies strictly between two neighbours of a format rounds to the one that the mode names, with its sign: the
one towards zero has code c, the other c + 1, and beyond the largest finite value the other is the value that would follow
it and gives R138's result. It raises inexact; underflow with it where both neighbours lie below the smallest normal, and
not where the lesser is one; overflow in the place of both beyond the format (R136, R137, R138, R139). -/
def Sys2Proof.Machine.RoundingTakesTheNeighbour : Prop :=
  ∀ (f : Fmt) (sat : Bool) (rm : Rnd) (neg : Bool) (m c : Nat) (e lo : Int),
    c ≤ f.maxCode → lo ≤ e → lo ≤ f.emin - (f.frac : Int) →
    let x := unitsOf lo m e
    let a := (f.value c).units lo
    let b := if c = f.maxCode then 2 * a - (f.value (c - 1)).units lo else (f.value (c + 1)).units lo
    let r := roundTo f sat rm (.fin neg m e false)
    let up : Prop := match rm with
      | .rne => a + b < 2 * x ∨ (2 * x = a + b ∧ c % 2 = 1)
      | .rna => a + b ≤ 2 * x
      | .rtz => False
      | .rup => neg = false
      | .rdn => neg = true
    let infinite : Bool := f.hasNan && !sat &&
      (rm == .rne || rm == .rna || (rm == .rup && !neg) || (rm == .rdn && neg))
    let beyond : Nat × BitVec 5 :=
      (if infinite = false then f.signed neg f.maxCode else if f = .e4m3 then f.nanCode else f.signed neg f.infCode,
        Fl.of_ ||| Fl.nx)
    (a < x → x < b → up → c = f.maxCode → r = beyond) ∧
    (a < x → x < b → ¬ (up ∧ c = f.maxCode) →
      (up → r.1 = f.signed neg (c + 1)) ∧ (¬ up → r.1 = f.signed neg c) ∧
      (2 ^ f.frac ≤ c → r.2 = Fl.nx) ∧ (c + 1 < 2 ^ f.frac → r.2 = Fl.nx ||| Fl.uf)) ∧
    (c = f.maxCode → b ≤ x → r = beyond)

/-- A finite value in units of 2^lo, with its sign. -/
def Sys2Proof.Machine.Val.signedUnits (lo : Int) (v : Val) : Int := if v.neg then -(v.units lo : Int) else v.units lo

/-- The values that are rounded are exact (R166): sums, products and quotients of finite values, and the roots, are those of
the numbers themselves, a quotient or a root cut off below its 64th bit or later and marked as inexact if anything was cut
off; a zero sum is +0, or -0 under RDN, unless both its terms are zeros of one sign; and the special operands give what the
table of R166 and R140 give them. -/
def Sys2Proof.Machine.ExactOperations : Prop :=
  (∀ (rm : Rnd) (na nb : Bool) (ma mb : Nat) (ea eb lo : Int), lo ≤ ea → lo ≤ eb →
    let x : Val := .fin na ma ea false
    let y : Val := .fin nb mb eb false
    let sum : Int := x.signedUnits lo + y.signedUnits lo
    (∃ n m e, x.add rm y = .fin n m e false ∧ (x.add rm y).signedUnits lo = sum ∧
      (sum = 0 → n = if na = nb then na else rm == .rdn)) ∧
    x.sub rm y = x.add rm (.fin (!nb) mb eb false) ∧
    (∃ m e, x.mul y = .fin (na != nb) m e false ∧ lo + lo ≤ e ∧ unitsOf (lo + lo) m e = unitsOf lo ma ea * unitsOf lo mb eb) ∧
    (mb ≠ 0 → ∃ (q k : Nat) (cut : Bool), x.div y = (.fin (na != nb) q (ea - eb - k) cut, 0) ∧ 64 ≤ k ∧ (ma ≠ 0 → 2 ^ 63 ≤ q) ∧
      q * mb ≤ ma * 2 ^ k ∧ ma * 2 ^ k < (q + 1) * mb ∧ (cut = false ↔ q * mb = ma * 2 ^ k)) ∧
    (mb = 0 → x.div y = if ma = 0 then (.nan true, 0) else (.inf (na != nb), Fl.dz))) ∧
  (∀ (m : Nat) (e : Int), m ≠ 0 →
    (∃ (r k : Nat) (j : Int) (cut : Bool), (Val.fin false m e false).sqrt = .fin false r j cut ∧ e - 2 * j = k ∧ 2 ^ 63 ≤ r ∧
      r * r ≤ m * 2 ^ k ∧ m * 2 ^ k < (r + 1) * (r + 1) ∧ (cut = false ↔ r * r = m * 2 ^ k)) ∧
    (∃ (r k : Nat) (j : Int) (cut : Bool), (Val.fin false m e false).rsqrt = (.fin false r j cut, 0) ∧ e + 2 * j = -(k : Int) ∧
      2 ^ 63 ≤ r ∧ r * r * m ≤ 2 ^ k ∧ 2 ^ k < (r + 1) * (r + 1) * m ∧ (cut = false ↔ r * r * m = 2 ^ k)) ∧
    (Val.fin true m e false).sqrt = .nan true ∧ (Val.fin true m e false).rsqrt = (.nan true, 0)) ∧
  (∀ (n : Bool) (e : Int), (Val.fin n 0 e false).sqrt = .fin n 0 0 false ∧ (Val.fin n 0 e false).rsqrt = (.inf n, Fl.dz)) ∧
  (Val.inf false).sqrt = .inf false ∧ (Val.inf true).sqrt = .nan true ∧
  (Val.inf false).rsqrt = (.fin false 0 0 false, 0) ∧ (Val.inf true).rsqrt = (.nan true, 0) ∧
  (∀ (rm : Rnd) (n k : Bool) (m : Nat) (e : Int),
    let x : Val := .fin n m e false
    (Val.inf k).add rm x = .inf k ∧ x.add rm (.inf k) = .inf k ∧
    (Val.inf k).add rm (.inf n) = (if k = n then .inf k else .nan true) ∧
    (Val.inf k).mul x = (if m = 0 then .nan true else .inf (k != n)) ∧
    x.mul (.inf k) = (if m = 0 then .nan true else .inf (n != k)) ∧ (Val.inf k).mul (.inf n) = .inf (k != n) ∧
    x.div (.inf k) = (.fin (n != k) 0 0 false, 0) ∧ (Val.inf k).div x = (.inf (k != n), 0) ∧
    (Val.inf k).div (.inf n) = (.nan true, 0)) ∧
  (∀ (rm : Rnd) (p : Bool) (y : Val),
    let x : Val := .nan p
    let z : Val := .nan (p || y.signals)
    x.add rm y = z ∧ y.add rm x = z ∧ x.mul y = z ∧ y.mul x = z ∧ x.div y = (z, 0) ∧ y.div x = (z, 0) ∧ x.sqrt = x ∧
      x.rsqrt = (x, 0))

/-- Rounding, and the exact values that are rounded (R136-R140, R166). -/
def Obligations.RoundingAndExactValues : Prop := RepresentableValuesRoundExactly ∧ RoundingTakesTheNeighbour ∧ ExactOperations

/-- The packed multiply-adds and the sums of products, each with its order of roundings (R158, R167, R168). -/
def Obligations.FusedSums : Prop :=
  let f32 (x : Nat) : Val := Fmt.f32.value x
  let add (f : Slot) (x y : Val) : Nat × BitVec 5 := roundTo .f32 false (Rnd.ofCode f.aux) (x.add (Rnd.ofCode f.aux) y)
  let legal (f : Slot) : Prop := f.ty = .f32 ∨ f.ty = .f16 ∨ f.ty = .bf16 ∨ f.ty = .e4m3 ∨ f.ty = .e5m2
  let x (f : Slot) (a : W128) (k : Nat) : Val := f.ty.val (laneAt f.ty a k)
  let dot (f : Slot) (a b : W128) (k : Nat) : Nat × BitVec 5 :=
    let p (j : Nat) : Val := (x f a (4 * k + j)).mul (x f b (4 * k + j))
    let u := add f (p 0) (p 1)
    let v := add f (p 2) (p 3)
    let w := add f (f32 u.1) (f32 v.1)
    (w.1, u.2 ||| v.2 ||| w.2)
  GivesFlags .fma legal (fun f a b => lanesFlags .f32 (f.ty.lanesOf / 2) fun k =>
    add f ((x f a k).mul (x f a (k + f.ty.lanesOf / 2))) (f32 (laneAt .f32 b k))) ∧
  GivesFlags .fnma legal (fun f a b => lanesFlags .f32 (f.ty.lanesOf / 2) fun k =>
    add f ((x f a k).mul (x f a (k + f.ty.lanesOf / 2))).negate (f32 (laneAt .f32 b k))) ∧
  GivesFlags .fdot4 legal (fun f a b => lanesFlags .f32 (f.ty.lanesOf / 4) (dot f a b)) ∧
  GivesFlags .freds (fun f => f.ty = .f32) (fun f a b =>
    let e (k : Nat) : Val := f32 (roundTo .f32 false .rne (x f a k)).1
    let u := add f (e 0) (e 1)
    let v := add f (e 2) (e 3)
    let w := add f (f32 u.1) (f32 v.1)
    let z := add f (f32 w.1) (f32 (laneAt .f32 b 0))
    (perLane .f32 fun k => if k = 0 then z.1 else 0,
      u.2 ||| v.2 ||| w.2 ||| z.2 ||| raiseIf ((lanesOf .f32 a).any fun c => (f32 c).signals) Fl.nv)) ∧
  GivesFlags .freds (fun f => f.ty = .f16 ∨ f.ty = .bf16 ∨ f.ty = .e4m3 ∨ f.ty = .e5m2) (fun f a b =>
    let e (k : Nat) : Nat × BitVec 5 := roundTo .f32 false .rne (x f a k)
    let u0 := add f (f32 (e 0).1) (f32 (e 1).1)
    let u1 := add f (f32 (e 2).1) (f32 (e 3).1)
    let u2 := add f (f32 (e 4).1) (f32 (e 5).1)
    let u3 := add f (f32 (e 6).1) (f32 (e 7).1)
    let v0 := add f (f32 u0.1) (f32 u1.1)
    let v1 := add f (f32 u2.1) (f32 u3.1)
    let w := add f (f32 v0.1) (f32 v1.1)
    let z := add f (f32 w.1) (f32 (laneAt .f32 b 0))
    (perLane .f32 fun k => if k = 0 then z.1 else 0,
      (List.range 8).foldl (fun fl k => fl ||| (e k).2)
        (u0.2 ||| u1.2 ||| u2.2 ||| u3.2 ||| v0.2 ||| v1.2 ||| w.2 ||| z.2)))

/-- FMIN and FMAX, the sign instructions, FCLASS and FRND (R169, R170). -/
def Obligations.FloatSelections : Prop :=
  (∃ lesser greater : Fmt → Nat → Nat → Nat × BitVec 5,
    GivesFlags .fmin Always (fun f a b => lanesFlags f.ty f.ty.lanesOf fun k =>
      lesser f.ty.fmt (laneAt f.ty a k) (laneAt f.ty b k)) ∧
    GivesFlags .fmax Always (fun f a b => lanesFlags f.ty f.ty.lanesOf fun k =>
      greater f.ty.fmt (laneAt f.ty a k) (laneAt f.ty b k)) ∧
    ∀ (f : Fmt) (x y : Nat), x < 2 * f.signBit → y < 2 * f.signBit →
      (lesser f x y).2 = raiseIf ((f.value x).signals || (f.value y).signals) Fl.nv ∧
      (greater f x y).2 = (lesser f x y).2 ∧
      ((f.value x).isNan = true → (f.value y).isNan = true → (lesser f x y).1 = f.nanCode ∧ (greater f x y).1 = f.nanCode) ∧
      ((f.value x).isNan = true → (f.value y).isNan = false → (lesser f x y).1 = y ∧ (greater f x y).1 = y) ∧
      ((f.value x).isNan = false → (f.value y).isNan = true → (lesser f x y).1 = x ∧ (greater f x y).1 = x) ∧
      ((f.value x).isNan = false → (f.value y).isNan = false →
        (((f.value y).before (f.value x) = true → (lesser f x y).1 = y) ∧
         ((f.value y).before (f.value x) = false → (lesser f x y).1 = x) ∧
         ((f.value x).before (f.value y) = true → (greater f x y).1 = y) ∧
         ((f.value x).before (f.value y) = false → (greater f x y).1 = x)))) ∧
  GivesLanes .fabs (fun f => f.ty = .f32 ∨ f.ty = .f16 ∨ f.ty = .bf16)
    (fun f x _ => if (f.ty.fmt.value x).isNan then f.ty.fmt.nanCode else x % 2 ^ (f.ty.valueWidth - 1)) ∧
  GivesLanes .fneg (fun f => f.ty = .f32 ∨ f.ty = .f16 ∨ f.ty = .bf16)
    (fun f x _ => if (f.ty.fmt.value x).isNan then f.ty.fmt.nanCode
      else (x + 2 ^ (f.ty.valueWidth - 1)) % 2 ^ f.ty.valueWidth) ∧
  (∃ cls : Fmt → Nat → Nat,
    GivesWord .fclass (fun f => f.ty = .f32) (fun f a _ => perLane .n32 fun k => 2 ^ cls f.ty.fmt (laneAt f.ty a k)) ∧
    GivesWord .fclass (fun f => f.ty = .f16 ∨ f.ty = .bf16 ∨ f.ty = .e4m3 ∨ f.ty = .e5m2)
      (fun f a _ => perLane .n16 fun k => 2 ^ cls f.ty.fmt (laneAt f.ty a k)) ∧
    ∀ (f : Fmt) (x : Nat),
      (f.value x = .inf true → cls f x = 0) ∧ (f.value x = .inf false → cls f x = 7) ∧
      (f.value x = .nan true → cls f x = 8) ∧ (f.value x = .nan false → cls f x = 9) ∧
      (∀ m e s, f.value x = .fin true m e s → cls f x = if m = 0 then 3 else if m < 2 ^ f.frac then 2 else 1) ∧
      (∀ m e s, f.value x = .fin false m e s → cls f x = if m = 0 then 4 else if m < 2 ^ f.frac then 5 else 6)) ∧
  GivesFlags .frnd Always (fun f a _ => lanesFlags f.ty f.ty.lanesOf fun k =>
    match f.ty.val (laneAt f.ty a k) with
    | .nan s => (f.ty.fmt.nanCode, raiseIf s Fl.nv)
    | .inf _ => (laneAt f.ty a k, 0)
    | .fin n m e s =>
      let r := roundInt (Rnd.ofCode f.aux) n m e s
      ((roundTo f.ty.fmt false .rne (.fin n r.1.natAbs 0 false)).1, raiseIf (f.mode.getLsbD 0 && r.2) Fl.nx))

/-- One operation of REDL and EOSE on two lanes (R164, R187): a sum, the lesser or the greater (R169). -/
def Sys2Proof.Machine.reduced (t : Ty) (op : Nat) (rm : Rnd) (x y : Nat) : Nat × BitVec 5 :=
  let u := t.val x
  let v := t.val y
  let lesser : Bool := if op = 1 then v.before u else u.before v
  let int : Int := if op = 0 then t.int x + t.int y else if op = 1 then min (t.int x) (t.int y) else max (t.int x) (t.int y)
  if t.isFloat = false then (lowBits t.valueWidth int, 0)
  else if op = 0 then roundTo t.fmt false rm (u.add rm v)
  else (if u.isNan && v.isNan then t.fmt.nanCode else if u.isNan then y else if v.isNan then x else if lesser then y else x,
    raiseIf (u.signals || v.signals) Fl.nv)

/-- One lane converted from type t to type u (R143, R144, R172). -/
def Sys2Proof.Machine.converted (t u : Ty) (sat : Bool) (rm : Rnd) (x : Nat) : Nat × BitVec 5 :=
  if u.isFloat then roundTo u.fmt sat rm (if t.isFloat then t.val x else .ofInt (t.int x))
  else if t.isFloat = false then (lowBits u.valueWidth (clampTo u (t.int x)), 0)
  else match t.val x with
    | .nan _ => (0, Fl.nv)
    | .inf neg => (lowBits u.valueWidth (if neg then u.minInt else u.maxInt), Fl.nv)
    | .fin neg m e s =>
      let r := roundInt rm neg m e s
      (lowBits u.valueWidth (clampTo u r.1), if r.1 < u.minInt ∨ u.maxInt < r.1 then Fl.nv else raiseIf r.2 Fl.nx)

/-- PACK narrows, UNPK widens, REDL reduces by a tree (R163, R164). -/
def Sys2Proof.Machine.Narrowing : Prop :=
  GivesWord .pack (fun f => f.mode = 0 ∧ (f.ty = .i32 ∨ f.ty = .n32 ∨ f.ty = .i64 ∨ f.ty = .n64))
    (fun f a b => perLane (f.ty.packed false) fun k =>
      lowBits (f.ty.packed false).valueWidth (clampTo (f.ty.packed false)
        (if k < f.ty.lanesOf then f.ty.int (laneAt f.ty a k) else f.ty.int (laneAt f.ty b (k - f.ty.lanesOf))))) ∧
  GivesFlags .pack (fun f => f.ty = .f32 ∧ (f.mode = 0 ∨ f.mode = 1)) (fun f a b =>
    let u : Ty := if f.mode = 1 then .bf16 else .f16
    lanesFlags u 8 fun k => roundTo u.fmt false (Rnd.ofCode f.aux)
      (Fmt.f32.value (if k < 4 then laneAt .f32 a k else laneAt .f32 b (k - 4)))) ∧
  GivesWord .unpk (fun f => (f.mode = 0 ∨ f.mode = 1) ∧
      (f.ty = .i8 ∨ f.ty = .n8 ∨ f.ty = .i16 ∨ f.ty = .n16 ∨ f.ty = .i32 ∨ f.ty = .n32))
    (fun f a _ => perLane f.ty.unpacked fun k =>
      lowBits f.ty.unpacked.valueWidth (f.ty.int (laneAt f.ty a (if f.mode = 1 then f.ty.lanesOf - f.ty.unpacked.lanesOf + k else k)))) ∧
  GivesFlags .unpk (fun f => (f.mode = 0 ∨ f.mode = 1) ∧ (f.ty = .f16 ∨ f.ty = .bf16)) (fun f a _ =>
    lanesFlags .f32 4 fun k => roundTo .f32 false .rne (f.ty.val (laneAt f.ty a (if f.mode = 1 then 4 + k else k)))) ∧
  (let op (f : Slot) (x y : Nat) : Nat × BitVec 5 := reduced f.ty f.mode.toNat (Rnd.ofCode f.aux) x y
   let pair (f : Slot) (x y : Nat × BitVec 5) : Nat × BitVec 5 :=
     ((op f x.1 y.1).1, x.2 ||| y.2 ||| (op f x.1 y.1).2)
   let two (f : Slot) (a : W128) (k : Nat) : Nat × BitVec 5 := pair f (laneAt f.ty a k, 0) (laneAt f.ty a (k + 1), 0)
   let four (f : Slot) (a : W128) (k : Nat) : Nat × BitVec 5 := pair f (two f a k) (two f a (k + 2))
   let whole (f : Slot) (a : W128) : Nat × BitVec 5 :=
     if f.ty.lanesOf = 2 then two f a 0 else if f.ty.lanesOf = 4 then four f a 0 else pair f (four f a 0) (four f a 4)
   GivesFlags .redl (fun f => f.mode.toNat < 3 ∧ 2 ≤ f.ty.lanesOf)
     (fun f a _ => (perLane f.ty fun k => if k = 0 then (whole f a).1 else 0, (whole f a).2)))

/-- The elements that a word of type t carries to or from a quarter of eight, and the index of the first (R173-R175). -/
def Sys2Proof.Machine.quarterOf (t : Ty) (half : Bool) : Nat × Nat := if t = .f32 then (4, if half then 4 else 0) else (8, 0)

/-- The exponent of a block whose largest magnitude is a (R173, R175): 0 for a zero, else floor(log2 a) + b held to
0 .. 254. -/
def Sys2Proof.Machine.exponentOf (b : Int) : Val → Nat
  | .fin _ m e _ => if m = 0 then 0 else (max 0 (min 254 (e + (Nat.log2 m : Int) + b))).toNat
  | _ => 0

/-- CVT and the block conversions (R172-R176). -/
def Sys2Proof.Machine.Conversions : Prop :=
  let number (f : Slot) : Prop := f.ty = .f32 ∨ f.ty = .f16 ∨ f.ty = .bf16
  let x (f : Slot) (a : W128) (k : Nat) : Val := f.ty.val (laneAt f.ty a k)
  let largest (b : W128) : Val := (Fmt.f32.value (laneNat 32 b 0)).abs
  GivesFlags .cvt (fun f => ∃ u : Ty, Ty.ofCode (f.mode.extractLsb' 0 4) = some u) (fun f a _ =>
    let u := (Ty.ofCode (f.mode.extractLsb' 0 4)).getD f.ty
    let n := min f.ty.lanesOf u.lanesOf
    let from_ := if f.mode.getLsbD 5 then f.ty.lanesOf - n else 0
    let to_ := if f.mode.getLsbD 5 then u.lanesOf - n else 0
    let c (k : Nat) : Nat × BitVec 5 := converted f.ty u (f.mode.getLsbD 4) (Rnd.ofCode f.aux) (laneAt f.ty a (from_ + k))
    (perLane u fun k => if to_ ≤ k ∧ k - to_ < n then (c (k - to_)).1 else 0,
      (List.range n).foldl (fun fl k => fl ||| (c k).2) 0)) ∧
  (∃ qblk : Slot → W128 → W128 → W128 × BitVec 5, GivesFlags .qblk number qblk ∧
    ∀ (f : Slot) (a b : W128), number f →
      let w := (qblk f a b).1
      let m : Nat := [4, 6, 8, 12].getD (fld f.mode 1 0) 12
      let n := quarterOf f.ty (f.mode.getLsbD 4)
      let used : List Val := (List.range n.1).map (x f a)
      let special : Bool := (largest b :: used).any fun v => v.isNan || v.isInf
      let eps : Int := (exponentOf 128 (largest b) : Int) - 127 - ((m : Int) - 1)
      let top : Int := ((2 ^ (m - 1) : Nat) : Int) - 1
      let mant (v : Val) : Int × Bool := match v with
        | .fin neg mm e s =>
          let r := roundInt (Rnd.ofCode f.aux) neg mm (e - eps) s
          (max (-top) (min top r.1), r.2 || decide (r.1 < -top) || decide (top < r.1))
        | _ => (0, false)
      fld w 127 108 = 0 ∧ fld w 107 106 = fld f.mode 3 2 ∧ fld w 105 104 = fld f.mode 1 0 ∧
      fld w 103 96 = (if special then 0xFF else exponentOf 128 (largest b)) ∧
      (∀ j, j < 8 → laneNat 12 w j =
        if special = false ∧ n.2 ≤ j ∧ j < n.2 + n.1 then lowBits 12 (mant (x f a (j - n.2))).1 else 0) ∧
      (qblk f a b).2 = (if special then raiseIf ((largest b :: used).any fun v => v.signals || v.isInf) Fl.nv
        else raiseIf (used.any fun v => (mant v).2) Fl.nx)) ∧
  GivesFlags .dqblk number (fun f a _ =>
    let m : Nat := [4, 6, 8, 12].getD (fld a 105 104) 12
    let n := quarterOf f.ty (f.mode.getLsbD 0)
    lanesFlags f.ty n.1 fun k =>
      let v := laneNat 12 a (n.2 + k)
      let bad : Bool := v % 2 ^ m == 2 ^ (m - 1)
      let mant : Int := if bad then 1 - ((2 ^ (m - 1) : Nat) : Int) else signedOf m v
      let r := roundTo f.ty.fmt false (Rnd.ofCode f.aux) ((Val.ofInt mant).scale ((fld a 103 96 : Int) - 127 - ((m : Int) - 1)))
      if fld a 103 96 = 0xFF then (f.ty.fmt.nanCode, 0) else (r.1, r.2 ||| raiseIf bad Fl.nv)) ∧
  (∃ mxpk : Slot → W128 → W128 → W128 × BitVec 5, GivesFlags .mxpk (fun f => number f ∧ fld f.mode 2 0 < 5) mxpk ∧
    ∀ (f : Slot) (a b : W128), number f → fld f.mode 2 0 < 5 →
      let w := (mxpk f a b).1
      let fmt : Fmt := [Fmt.e4m3, .e5m2, .e3m2, .e2m3, .e2m1].getD (fld f.mode 2 0) .e2m1
      let bits := [8, 8, 6, 6, 4].getD (fld f.mode 2 0) 4
      let emax : Int := [8, 15, 4, 2, 2].getD (fld f.mode 2 0) 2
      let n := quarterOf f.ty (f.mode.getLsbD 4)
      let used : List Val := (List.range n.1).map (x f a)
      let special : Bool := (largest b).isInf || (largest b :: used).any Val.isNan
      let scale : Nat := exponentOf (127 - emax) (largest b)
      let elem (v : Val) : Nat × BitVec 5 := roundTo fmt (f.mode.getLsbD 3) (Rnd.ofCode f.aux) (v.scale (127 - (scale : Int)))
      fld w 127 120 = (if special then 0xFF else scale) ∧ w.toNat % 2 ^ 120 / 2 ^ (8 * bits) = 0 ∧
      (∀ j, j < 8 → laneNat bits w j = if special = false ∧ n.2 ≤ j ∧ j < n.2 + n.1 then (elem (x f a (j - n.2))).1 else 0) ∧
      (mxpk f a b).2 = (if special then raiseIf ((largest b).isInf || (largest b :: used).any Val.signals) Fl.nv
        else used.foldl (fun fl v => fl ||| (elem v).2) 0)) ∧
  GivesFlags .mxunpk (fun f => number f ∧ fld f.mode 2 0 < 5) (fun f a _ =>
    let fmt : Fmt := [Fmt.e4m3, .e5m2, .e3m2, .e2m3, .e2m1].getD (fld f.mode 2 0) .e2m1
    let bits := [8, 8, 6, 6, 4].getD (fld f.mode 2 0) 4
    let n := quarterOf f.ty (f.mode.getLsbD 4)
    lanesFlags f.ty n.1 fun k =>
      if fld a 127 120 = 0xFF then (f.ty.fmt.nanCode, 0)
      else roundTo f.ty.fmt false (Rnd.ofCode f.aux) ((fmt.value (laneNat bits a (n.2 + k))).scale ((fld a 127 120 : Int) - 127))) ∧
  GivesFlags .hstep (fun f => f.mode.toNat < 3 ∧ 2 ^ f.mode.toNat < f.ty.lanesOf) (fun f a _ =>
    let d := 2 ^ f.mode.toNat
    let x (k : Nat) : Val := f.ty.val (laneAt f.ty a k)
    lanesFlags f.ty f.ty.lanesOf fun k => roundTo f.ty.fmt false (Rnd.ofCode f.aux)
      (if k / d % 2 = 0 then (x k).add (Rnd.ofCode f.aux) (x (k + d)) else (x (k - d)).sub (Rnd.ofCode f.aux) (x k))) ∧
  (∀ (f : Slot) (s : State) (a b : W128) (pa pb : Bool), f.mode = 8 →
    Given (.hstep f) s (dataTok a pa) (dataTok b pb) →
    (let x (k : Nat) : Val := f.ty.val (laneAt f.ty a k)
     let y (k : Nat) : Val := f.ty.val (laneAt f.ty b k)
     let u := lanesFlags f.ty f.ty.lanesOf fun k =>
       roundTo f.ty.fmt false (Rnd.ofCode f.aux) ((x k).add (Rnd.ofCode f.aux) (y k))
     let v := lanesFlags f.ty f.ty.lanesOf fun k =>
       roundTo f.ty.fmt false (Rnd.ofCode f.aux) ((x k).sub (Rnd.ofCode f.aux) (y k))
     exec (.hstep f) s = .next (s.answer (.hstep f)
       { t0 := some (dataTok u.1 (pa || pb)), t1 := some (dataTok v.1 (pa || pb)), flags := u.2 ||| v.2 })))

/-- PACK, UNPK, REDL, CVT, the block conversions and HSTEP (R163, R164, R172-R176). -/
def Obligations.NarrowingAndConversions : Prop := Narrowing ∧ Conversions

/-! ### Comparisons, predicates, digits and streams -/

/-- ICMP, FCMP, SEL, the predicate instructions and TESTP (R177-R180). -/
def Sys2Proof.Machine.Comparisons : Prop :=
  let icmp (f : Slot) (x y : Nat) : Bool :=
    match fld f.mode 2 0 with
    | 0 => f.ty.int x == f.ty.int y
    | 1 => f.ty.int x != f.ty.int y
    | 2 => decide (f.ty.int x < f.ty.int y)
    | 3 => decide (f.ty.int x ≤ f.ty.int y)
    | 4 => decide (f.ty.int y < f.ty.int x)
    | _ => decide (f.ty.int y ≤ f.ty.int x)
  let nan (f : Slot) (x y : Nat) : Bool := (f.ty.val x).isNan || (f.ty.val y).isNan
  let key (f : Slot) (x : Nat) : Int := (f.ty.val x).key
  let fcmp (f : Slot) (x y : Nat) : Bool :=
    match fld f.mode 2 0 with
    | 0 => !nan f x y && key f x == key f y
    | 1 => nan f x y || key f x != key f y
    | 2 => !nan f x y && decide (key f x < key f y)
    | 3 => !nan f x y && decide (key f x ≤ key f y)
    | 4 => !nan f x y && decide (key f y < key f x)
    | 5 => !nan f x y && decide (key f y ≤ key f x)
    | 6 => nan f x y
    | _ => !nan f x y
  let invalid (f : Slot) (x y : Nat) : BitVec 5 :=
    raiseIf ((f.ty.val x).signals || (f.ty.val y).signals ||
      (nan f x y && decide (2 ≤ fld f.mode 2 0) && decide (fld f.mode 2 0 ≤ 5))) Fl.nv
  let ones (f : Slot) (c : Bool) : Nat := if c then 2 ^ f.ty.valueWidth - 1 else 0
  (∀ (f : Slot) (s : State) (a b : W128) (pa pb : Bool), fld f.mode 2 0 < 6 →
    Given (.icmp f) s (dataTok a pa) (dataTok b pb) → exec (.icmp f) s = .next (
      if f.mode.getLsbD 3 then s.gives (.icmp f) (zipLanes f.ty (fun x y => ones f (icmp f x y)) a b) (pa || pb)
      else s.answer (.icmp f) (.all (predTok (icmp f (laneAt f.ty a 0) (laneAt f.ty b 0)) (pa || pb))))) ∧
  (∀ (f : Slot) (s : State) (a b : W128) (pa pb : Bool),
    Given (.fcmp f) s (dataTok a pa) (dataTok b pb) → exec (.fcmp f) s = .next (
      if f.mode.getLsbD 3 then
        s.gives (.fcmp f) (zipLanes f.ty (fun x y => ones f (fcmp f x y)) a b) (pa || pb)
          ((List.range f.ty.lanesOf).foldl (fun fl k => fl ||| invalid f (laneAt f.ty a k) (laneAt f.ty b k)) 0)
      else s.answer (.fcmp f) (.all (predTok (fcmp f (laneAt f.ty a 0) (laneAt f.ty b 0)) (pa || pb))
        (invalid f (laneAt f.ty a 0) (laneAt f.ty b 0))))) ∧
  (∀ (f : Slot) (s : State) (c : Bool) (r : Token), r.kind = .data →
    (Given (.sel f) s (predTok c) r → exec (.sel f) s = .next (s.answer (.sel f)
      (if c then { t0 := some r } else { t1 := some r }))) ∧
    (Given (.sel f) s (predTok c true) r → exec (.sel f) s = .next (s.faults (.sel f) Cause.poison 4)))

/-- The predicate instructions and TESTP (R177, R180). -/
def Sys2Proof.Machine.Predicates : Prop :=
  (∀ (f : Slot) (s : State) (c d p q : Bool),
    (Given (.pand f) s (predTok c p) (predTok d q) →
      exec (.pand f) s = .next (s.answer (.pand f) (.all (predTok (c && d) (p || q))))) ∧
    (Given (.por f) s (predTok c p) (predTok d q) →
      exec (.por f) s = .next (s.answer (.por f) (.all (predTok (c || d) (p || q))))) ∧
    (∀ r, Given (.pnot f) s (predTok c p) r →
      exec (.pnot f) s = .next (s.answer (.pnot f) (.all (predTok (!c) p))))) ∧
  (∀ (f : Slot) (s : State) (a b : W128) (pa pb : Bool), f.mode.toNat < 4 →
    Given (.testp f) s (dataTok a pa) (dataTok b pb) →
    (let t (k : Nat) : Bool := (laneAt f.ty a k &&& laneAt f.ty b k) != 0
     let some_ : Bool := (List.range f.ty.lanesOf).any t
     let c : Bool := match f.mode.toNat with
       | 0 => t 0
       | 1 => some_
       | 2 => (List.range f.ty.lanesOf).all t
       | _ => !some_
     exec (.testp f) s = .next (s.answer (.testp f) (.all (predTok c (pa || pb))))))

/-- Comparisons, selections and predicates (R177-R180). -/
def Obligations.ComparisonsAndPredicates : Prop := Comparisons ∧ Predicates

/-- The digit instructions (R131-R134, R182, R183). The subcode of DADD's fault token is the model's (log 21), and so is
the clean null that DCUT gives for a poisoned token it cuts (log 79). -/
def Obligations.DigitInstructions : Prop :=
  (∀ (f : Slot) (s : State) (a : W128) (pa : Bool) (r : Token), Given (.drec f) s (dataTok a pa) r →
    (let j := f.mode.toNat
     let m := bxBits (fld a 105 104)
     let d (e : Nat) : Nat := lowBits 3 (recode m j (mantOf m (bxMant a e)))
     (j < 6 → m / 2 ≤ j → exec (.drec f) s = .next (s.faults (.drec f) Cause.blockForm 4)) ∧
     (j < m / 2 → exec (.drec f) s = .next (s.answer (.drec f) (.all
       { kind := .digit, poison := pa,
         val := digitWord (decide (j + 1 = m / 2)) j (fld a 105 104) (fld a 103 96)
           ((List.range 32).map fun e => if 8 * fld a 107 106 ≤ e ∧ e < 8 * fld a 107 106 + 8 then d (e - 8 * fld a 107 106) else 0) }
       (raiseIf (fld a 103 96 != 0xFF && (List.range 8).any fun e => excluded m (bxMant a e)) Fl.nv)))))) ∧
  (∀ (f : Slot) (s : State) (k r : Token), k.kind = .digit → f.mode.toNat < 7 → 0 < f.mode.toNat →
    digitsAt k.val 0 32 ≠ none → Given (.dcut f) s k r → exec (.dcut f) s = .next (s.answer (.dcut f) (.all
      (if dPos k.val < f.mode.toNat - 1 then k
       else if dPos k.val = f.mode.toNat - 1 then { k with val := k.val ||| (1 : W128) <<< 109 }
       else nullTok)))) ∧
  (∀ (f : Slot) (s : State) (x y : W128) (px py : Bool) (ds es : List Int),
    Given (.dadd f) s { kind := .digit, poison := px, val := x } { kind := .digit, poison := py, val := y } →
    digitsAt x 0 32 = some ds → digitsAt y 0 32 = some es →
    dPos x = dPos y → dWidth x = dWidth y → dExp x = dExp y →
    exec (.dadd f) s = .next (s.answer (.dadd f) (.all
      { kind := .digit, poison := px || py,
        val := digitWord (dLast x || dLast y) (dPos x) (dWidth x) (dExp x)
          ((List.zipWith (· + ·) ds es).map fun v => lowBits 3 (max (-2) (min 2 v))) }
      (raiseIf ((List.zipWith (· + ·) ds es).any fun v => decide (v < -2) || decide (2 < v)) Fl.nv)))) ∧
  (∀ (f : Slot) (s : State) (x b : W128) (px pb : Bool) (ds : List Int), f.mode.toNat < 8 →
    Given (.dmul f) s { kind := .digit, poison := px, val := x } (dataTok b pb) →
    digitsAt x 0 32 ≠ none → digitsAt x (4 * f.mode.toNat) 4 = some ds →
    exec (.dmul f) s = .next (s.gives (.dmul f)
      (perLane .i32 fun k => lowBits 32 (ds.getD k 0 * (4 ^ (positions (dWidth x) - 1 - dPos x) : Nat) *
        Ty.i32.int (laneAt .i32 b k))) (px || pb))) ∧
  (∀ (f : Slot) (s : State) (a y : W128) (pa py : Bool) (ds : List Int), f.mode.toNat < 4 →
    Given (.dval f) s (dataTok a pa) { kind := .digit, poison := py, val := y } →
    digitsAt y 0 32 ≠ none → digitsAt y (8 * f.mode.toNat) 8 = some ds →
    exec (.dval f) s = .next (s.gives (.dval f)
      (perLane .i16 fun k => lowBits 16 (Ty.i16.int (laneAt .i16 a k) +
        ds.getD k 0 * (4 ^ (positions (dWidth y) - 1 - dPos y) : Nat))) (pa || py))) ∧
  (∀ (f : Slot) (s : State) (k j : Token), k.kind = .digit → j.kind = .digit →
    (dPos k.val ≠ dPos j.val ∨ dWidth k.val ≠ dWidth j.val ∨ dExp k.val ≠ dExp j.val) →
    Given (.dadd f) s k j → exec (.dadd f) s = .next (s.faults (.dadd f) Cause.blockForm 4)) ∧
  (∀ (f : Slot) (s : State) (k : Token), k.kind = .digit → (Given (.dadd f) s k nullTok ∨ Given (.dadd f) s nullTok k) →
    exec (.dadd f) s = .next (if digitsAt k.val 0 32 = none then s.faults (.dadd f) Cause.blockForm 4
      else s.answer (.dadd f) (.all k))) ∧
  -- a token with a reserved code (R131)
  (∀ (f : Slot) (s : State) (k r : Token) (b : W128) (pb : Bool), k.kind = .digit → digitsAt k.val 0 32 = none →
    (Given (.dcut f) s k r → exec (.dcut f) s = .next (s.faults (.dcut f) Cause.blockForm 4)) ∧
    (Given (.dmul f) s k (dataTok b pb) → exec (.dmul f) s = .next (s.faults (.dmul f) Cause.blockForm 4)) ∧
    (Given (.dval f) s (dataTok b pb) k → exec (.dval f) s = .next (s.faults (.dval f) Cause.blockForm 4)) ∧
    (∀ j : Token, j.kind = .digit → Given (.dadd f) s k j ∨ Given (.dadd f) s j k →
      exec (.dadd f) s = .next (s.faults (.dadd f) Cause.blockForm 4))) ∧
  (∀ (f : Slot) (s : State), Given (.dadd f) s nullTok nullTok → exec (.dadd f) s = .next (s.answer (.dadd f) (.same nullTok))) ∧
  (∀ (f : Slot) (s : State) (b : W128) (pb : Bool), f.mode.toNat < 8 → Given (.dmul f) s nullTok (dataTok b pb) →
    exec (.dmul f) s = .next (s.gives (.dmul f) 0 pb)) ∧
  (∀ (f : Slot) (s : State) (a : W128) (pa : Bool), f.mode.toNat < 4 → Given (.dval f) s (dataTok a pa) nullTok →
    exec (.dval f) s = .next (s.gives (.dval f) a pa))

/-- MERGE, EOSE and EOST: each firing is one step on the heads of its inputs (R185), which takes heads and emits
tokens in successive output positions as R186, R187 and R188 say. A predicate that the slot takes is consumed with each
firing, and one of the other sense, or a null, drops it: R40 says so of a firing and R185 gives a null that reaches such a
slot a fault, so that the null is the model's choice (log 79). -/
def Obligations.StreamSteps : Prop :=
  ∃ merge eose eost : Slot → RunState → Firing → RunStep,
    (let fires (i : Instr) (s : State) (op : RunState → Firing → RunStep) : Prop :=
      let acts (t : Tile) : Tile :=
        let x := op (t.run s.cur.elem s.cur.work.ctx s.cur.work.img) s.cur
        (t.applyRun (s.pk.tileAccs s.cur.tile) s.cur (slotOf i) x).sinkRun (formOf i) s.cur (slotOf i) x
      exec i s = .next { s with pk := s.pk.modTile s.cur.tile acts }
     ∀ (f : Slot) (s : State), fires (.merge f) s (merge f) ∧ fires (.eose f) s (eose f) ∧ fires (.eost f) s (eost f)) ∧
    -- a predicate of the other sense, or a null at P
    (∀ (f : Slot) (x : RunState) (c : Firing), wantsP f = true →
      c.p = some (predTok (f.pmode != .onTrue)) ∨ c.p = some nullTok →
      merge f x c = { run := x, takeL := wantsL (formOf (.merge f)) f, takeR := wantsR (formOf (.merge f)) f, takeP := true } ∧
      eose f x c = { run := x, takeL := wantsL (formOf (.eose f)) f, takeR := wantsR (formOf (.eose f)) f, takeP := true } ∧
      eost f x c = { run := x, takeL := wantsL (formOf (.eost f)) f, takeR := wantsR (formOf (.eost f)) f, takeP := true }) ∧
    -- MERGE: a and b are the heads of L and R
    (∀ (f : Slot) (x : RunState) (c : Firing) (a b : Token), c.l = some a → c.r = some b →
      (wantsP f = true → c.p = some (predTok (f.pmode == .onTrue))) →
      let pp : Bool := wantsP f
      let less (u v : Token) : Bool := keyLess f.ty (laneAt f.ty u.val 0) (laneAt f.ty v.val 0)
      let takeA : Bool := if f.mode.getLsbD 0 then !less a b else !less b a
      (a.kind = .data → b.kind = .data → a.poison = false → b.poison = false →
        merge f x c = { run := x, takeL := takeA, takeR := !takeA, takeP := pp, out := [(if takeA then a else b, 0)] }) ∧
      (a.kind = .data → b.kind = .data → (a.poison || b.poison) = true →
        merge f x c = { run := x, takeL := takeA, takeR := !takeA, takeP := pp, out := [(faultTok Cause.poison 4 c.elem 0, 0)] }) ∧
      (a.kind = .data → b.kind = .eor → merge f x c = { run := x, takeL := true, takeP := pp, out := [(a, 0)] }) ∧
      (a.kind = .eor → b.kind = .data → merge f x c = { run := x, takeR := true, takeP := pp, out := [(b, 0)] }) ∧
      (a.isEos = true → b.isEos = true →
        merge f x c = { run := x, takeL := true, takeR := true, takeP := pp, out := [(eorTok true, 0)] }) ∧
      (a.kind = .eor → b.kind = .eor → (a.isEos && b.isEos) = false →
        merge f x c = { run := x, takeL := !a.isEos, takeR := !b.isEos, takeP := pp, out := [(eorTok false, 0)] })) ∧
    -- EOSE: the accumulator of a run, and what an end-of-run gives
    (∀ (f : Slot) (x : RunState) (c : Firing) (a : Token), f.mode.toNat < 8 → c.l = some a →
      (wantsP f = true → c.p = some (predTok (f.pmode == .onTrue))) →
      let pp : Bool := wantsP f
      let op := f.mode.toNat % 4
      let acc : W128 := x.acc.getD (perLane f.ty fun _ =>
        match op with
        | 0 => 0
        | 1 => if f.ty.isFloat then f.ty.fmt.infCode else lowBits f.ty.valueWidth f.ty.maxInt
        | _ => if f.ty.isFloat then f.ty.fmt.signed true f.ty.fmt.infCode else lowBits f.ty.valueWidth f.ty.minInt)
      let lane (k : Nat) : Nat × BitVec 5 := reduced f.ty op (Rnd.ofCode f.aux) (laneAt f.ty acc k) (laneAt f.ty a.val k)
      (a.kind = .data → eose f x c =
        { run := { x with
            acc := some (lanesFlags f.ty f.ty.lanesOf lane).1
            poison := x.poison || a.poison
            flags := x.flags ||| (lanesFlags f.ty f.ty.lanesOf lane).2 }
          takeL := true
          takeP := pp }) ∧
      (a.kind = .eor → eose f x c =
        { run := { x with acc := none, poison := false, flags := 0 }
          takeL := true
          takeP := pp
          out := (dataTok acc x.poison, x.flags) :: (if 4 ≤ f.mode.toNat ∧ a.isEos = false then [] else [(a, 0)]) })) ∧
    -- EOST with an immediate n
    (∀ (f : Slot) (x : RunState) (c : Firing) (a : Token), f.immuse = .forR → c.l = some a →
      (wantsP f = true → c.p = some (predTok (f.pmode == .onTrue))) →
      let pp : Bool := wantsP f
      let n := f.imm.toNat
      (a.kind = .data → ¬ (n ≠ 0 ∧ x.count + 1 = n) →
        eost f x c = { run := { x with count := x.count + 1, inserted := false }, takeL := true, takeP := pp, out := [(a, 0)] }) ∧
      (a.kind = .data → n ≠ 0 ∧ x.count + 1 = n → eost f x c =
        { run := { x with count := 0, inserted := true }, takeL := true, takeP := pp, out := [(a, 0), (eorTok false, 0)] }) ∧
      (a.isEos = true → eost f x c = { run := { x with inserted := false }, takeL := true, takeP := pp, out := [(a, 0)] }) ∧
      (a.kind = .eor → a.isEos = false → eost f x c =
        if x.inserted then { run := x, takeL := true, takeP := pp }
        else { run := { x with count := 0, inserted := false }, takeL := true, takeP := pp, out := [(a, 0)] })) ∧
    -- EOST with a data token n at R, and its immediate or a token at L
    (∀ (f : Slot) (x : RunState) (c : Firing) (a : Token) (n : W128),
      (f.immuse = .none ∧ c.l = some a) ∨ (f.immuse = .forL ∧ opL (formOf (.eost f)) f c = a) → a.kind = .data →
      c.r = some (dataTok n) → (wantsP f = true → c.p = some (predTok (f.pmode == .onTrue))) →
      let taken (run : RunState) (out : List (Token × BitVec 5)) : RunStep :=
        { run := run, takeL := f.immuse == .none, takeR := true, takeP := wantsP f, out := out }
      eost f x c =
        if lane0 n ≠ 0 ∧ x.count + 1 = lane0 n then taken { x with count := 0, inserted := true } [(a, 0), (eorTok false, 0)]
        else taken { x with count := x.count + 1, inserted := false } [(a, 0)])

/-! ### Memory instructions at their firing -/

/-- The effective address of a memory instruction's firing passes every check: its place is `pl`, its virtual address
`va` (R235, R276), and the walk of its translation, if it made one, leaves the state `t`: table entries in the caches of
tile and die, an entry found bad poisoned and recorded (R236, R239, R240). -/
def Sys2Proof.Machine.Reaches (s : State) (f : Slot) (g : Bool) (role : Role) (a : W128) (n : Nat) (pl : Place) (va : VA) (t : State) : Prop :=
  ∃ k, s.address f g role a n = (.ok pl, va, k) ∧ t = s.walked s.cur.tile (s.pk.tileVi s.cur.tile) k

/-- LD, LDA, LDPQ and ACCRD post one access of their type's size at the address of L and the displacement, and the
LSID keeps it (R208, R278, R280, R281). A load to G waits while 4096 of the tile are outstanding. -/
def Obligations.LoadsPostTheirAccess : Prop :=
  let posted (s : State) (i : Instr) (kind : AccKind) (va : VA) (pl : Place) (n : Nat) (v : Bool) : State :=
    (s.answer i { lsid := some (.loaded s.nextId) }).post (s.mkAccess (formOf i) (slotOf i) kind va pl n v 0)
  let room (s : State) (pl : Place) : Prop := pl.isS = true ∨ s.pk.outstanding s.cur.tile < 4096
  ∀ (f : Slot) (s s1 : State) (a : W128) (r : Token) (pl : Place) (va : VA),
    (Given (.ld f) s (dataTok a) r → room s1 pl →
      Reaches s f (f.mode.getLsbD 0) .load a (accessBytes f.ty (f.mode.getLsbD 1)) pl va s1 →
      exec (.ld f) s = .next (posted s1 (.ld f) .ld va pl (accessBytes f.ty (f.mode.getLsbD 1)) (f.mode.getLsbD 1))) ∧
    (Given (.lda f) s (dataTok a) r → room s1 pl →
      Reaches s f (f.mode.getLsbD 0) .load a (accessBytes f.ty (f.mode.getLsbD 1)) pl va s1 →
      exec (.lda f) s = .next (posted s1 (.lda f) (.lda (f.mode.extractLsb' 2 2)) va pl
        (accessBytes f.ty (f.mode.getLsbD 1)) (f.mode.getLsbD 1))) ∧
    (Given (.ldpq f) s (dataTok a) r → room s1 pl →
      Reaches s f (f.mode.getLsbD 0) .ldpq a (accessBytes f.ty false) pl va s1 →
      exec (.ldpq f) s = .next (posted s1 (.ldpq f) .ldpq va pl (accessBytes f.ty false) false)) ∧
    (Given (.accrd f) s (dataTok a) r → f.mode.toNat < 4 → lane0 a < 16384 →
      s.pk.accBreach s.cur.tile f.mode.toNat = false →
      exec (.accrd f) s = .next (posted s (.accrd f) .ld 0 (.acc (Fin.ofNat 4 f.mode.toNat) (lane0 a)) 16 false)) ∧
    (Given (.ld f) s (dataTok a) r → pl.isS = false → 4096 ≤ s1.pk.outstanding s1.cur.tile →
      Reaches s f (f.mode.getLsbD 0) .load a (accessBytes f.ty (f.mode.getLsbD 1)) pl va s1 → exec (.ld f) s = .next s1.putBack)

/-- ST, STL, EMPTY, ACCWR, AMO, CAS, FENCE and SEQF give their instance's LSID the access that its commit performs:
nothing is stored at the firing (R51, R208, R279, R282, R284-R287). -/
def Sys2Proof.Machine.StoresWaitForCommit : Prop :=
  let kept (s : State) (i : Instr) (kind : AccKind) (va : VA) (pl : Place) (n : Nat) (v : Bool) (data : W128) : State :=
    s.answer i { lsid := some (.access (s.mkAccess (formOf i) (slotOf i) kind va pl n v data)) }
  ∀ (f : Slot) (s s1 : State) (a b : W128) (l r : Token) (pl : Place) (va : VA), s.cur.work.stream = false →
    (s.pk.tile s.cur.tile).forwardRoom s.cur.work.ctx s.cur.work.n = .yes →
    (Given (.st f) s (dataTok a) (dataTok b) →
      Reaches s f (f.mode.getLsbD 0) .store a (accessBytes f.ty (f.mode.getLsbD 1)) pl va s1 →
      exec (.st f) s = .next (kept s1 (.st f) .st va pl (accessBytes f.ty (f.mode.getLsbD 1)) (f.mode.getLsbD 1) b)) ∧
    (Given (.stl f) s (dataTok a) (dataTok b) →
      Reaches s f (f.mode.getLsbD 0) .store a (accessBytes f.ty (f.mode.getLsbD 1)) pl va s1 →
      exec (.stl f) s = .next (kept s1 (.stl f) (.stl (f.mode.extractLsb' 2 2)) va pl
        (accessBytes f.ty (f.mode.getLsbD 1)) (f.mode.getLsbD 1) b)) ∧
    (Given (.empty f) s (dataTok a) r → Reaches s f (f.mode.getLsbD 0) .empty a (accessBytes f.ty false) pl va s1 →
      exec (.empty f) s = .next (kept s1 (.empty f) .empty va pl (accessBytes f.ty false) false 0)) ∧
    (Given (.accwr f) s (dataTok a) (dataTok b) → f.mode.toNat < 4 → lane0 a < 16384 →
      s.pk.accBreach s.cur.tile f.mode.toNat = false →
      exec (.accwr f) s = .next (kept s (.accwr f) .st 0 (.acc (Fin.ofNat 4 f.mode.toNat) (lane0 a)) 16 false b)) ∧
    (Given (.amo f) s (dataTok a) (dataTok b) → f.t0 = .none → f.t1 = .none →
      Reaches s f true .atomic a (accessBytes f.ty false) pl va s1 →
      exec (.amo f) s = .next (kept s1 (.amo f) (.amo (atomOp f.mode) (f.mode.getLsbD 3) (plainScope f)) va pl
        (accessBytes f.ty false) false b)) ∧
    (Given (.cas f) s (dataTok a) (dataTok b) → f.t0 = .none → f.t1 = .none →
      Reaches s f true .atomic a (accessBytes f.ty false) pl va s1 →
      exec (.cas f) s = .next (kept s1 (.cas f) (.cas (f.mode.getLsbD 3) (plainScope f)) va pl
        (accessBytes f.ty false) false b)) ∧
    (l.kind = .data ∨ l.kind = .pred → l.poison = false →
      (Given (.fence f) s l (dataTok 0) → exec (.fence f) s = .next (kept s (.fence f)
        (.fence (f.mode.extractLsb' 0 2) (f.mode.extractLsb' 2 2)) 0 .none 0 false 0)) ∧
      (Given (.seqf f) s l (dataTok 0) → exec (.seqf f) s = .next (kept s (.seqf f)
        (.seqf (f.mode.getLsbD 0)) 0 .none 0 false 0)))

/-- A store of a stream section is performed, not kept: it is posted as it fires (R58, R208, R279). -/
def Sys2Proof.Machine.SectionStoresArePosted : Prop :=
  let posted (s : State) (i : Instr) (kind : AccKind) (va : VA) (pl : Place) (n : Nat) (v : Bool) (data : W128) : State :=
    s.post (s.mkAccess (formOf i) (slotOf i) kind va pl n v data)
  ∀ (f : Slot) (s s1 : State) (a b : W128) (pl : Place) (va : VA), s.cur.work.stream = true →
    let n := accessBytes f.ty (f.mode.getLsbD 1)
    (Given (.st f) s (dataTok a) (dataTok b) → Reaches s f (f.mode.getLsbD 0) .store a n pl va s1 →
      exec (.st f) s = .next (posted s1 (.st f) .st va pl n (f.mode.getLsbD 1) b)) ∧
    (Given (.stl f) s (dataTok a) (dataTok b) → Reaches s f (f.mode.getLsbD 0) .store a n pl va s1 →
      exec (.stl f) s = .next (posted s1 (.stl f) (.stl (f.mode.extractLsb' 2 2)) va pl n (f.mode.getLsbD 1) b)) ∧
    (Given (.accwr f) s (dataTok a) (dataTok b) → f.mode.toNat < 4 → lane0 a < 16384 →
      s.pk.accBreach s.cur.tile f.mode.toNat = false →
      exec (.accwr f) s = .next (posted s (.accwr f) .st 0 (.acc (Fin.ofNat 4 f.mode.toNat) (lane0 a)) 16 false b))

/-- The registers that an AMO or CAS targets wait for its reply: their write entries hold the placeholder of its
LSID, one or both of them (R288); both naming one entry is the BLOCK_FORM of R43. -/
def Sys2Proof.Machine.AtomicsReserveTheirRegisters : Prop :=
  ∀ (f : Slot) (s s1 : State) (a b : W128) (pl : Place) (va : VA) (i : Inst) (k : BitVec 6) (rest : List Inst),
    s.cur.work.stream = false → (s.pk.tile s.cur.tile).insts = i :: rest → i.ctx = s.cur.work.ctx → i.seq = s.cur.work.n →
    i.writes = [] → i.lsids = [] → i.second = none →
    let one : Prop := (f.t0 = .output k ∧ f.t1 = .none) ∨ (f.t0 = .none ∧ f.t1 = .output k)
    let both (j : BitVec 6) : Prop := f.t0 = .output k ∧ f.t1 = .output j
    -- what the instance holds of its registers afterwards
    let reserved (writes : List (Nat × WriteVal)) (second : Option Token) : Prop :=
      (one ∧ writes = [(k.toNat, .pending f.idx)] ∧ second = none) ∨
      (∃ j, both j ∧ j ≠ k ∧ writes = [(k.toNat, .pending f.idx), (j.toNat, .pending f.idx)] ∧ second = none) ∨
      (both k ∧ writes = [(k.toNat, .pending f.idx)] ∧ second = some (faultTok Cause.blockForm 2 0 0))
    ∀ (writes : List (Nat × WriteVal)) (second : Option Token), reserved writes second →
    Reaches s f true .atomic a (accessBytes f.ty false) pl va s1 →
    (Given (.amo f) s (dataTok a) (dataTok b) →
      ∃ t, exec (.amo f) s = .next t ∧ t.mem = s1.mem ∧
        (t.pk.tile s.cur.tile).insts = { i with
          writes := writes
          second := second
          lsids := [(f.idx.toNat, .access (s1.mkAccess (formOf (.amo f)) f
            (.amo (atomOp f.mode) (f.mode.getLsbD 3) (plainScope f)) va pl (accessBytes f.ty false) false b))] } :: rest) ∧
    (Given (.cas f) s (dataTok a) (dataTok b) →
      ∃ t, exec (.cas f) s = .next t ∧ t.mem = s1.mem ∧
        (t.pk.tile s.cur.tile).insts = { i with
          writes := writes
          second := second
          lsids := [(f.idx.toNat, .access (s1.mkAccess (formOf (.cas f)) f
            (.cas (f.mode.getLsbD 3) (plainScope f)) va pl (accessBytes f.ty false) false b))] } :: rest)

/-- What waits for the commit, what a section stores at once, and the registers that wait for an atomic (R51, R208, R279-R288). -/
def Obligations.StoresAndAtomicsWait : Prop := StoresWaitForCommit ∧ SectionStoresArePosted ∧ AtomicsReserveTheirRegisters

/-- PREF completes at once whatever its address; one that translates is in the tile's TLB afterwards, and nothing
faults (R283). -/
def Sys2Proof.Machine.PrefetchNeverFaults : Prop :=
  ∀ (f : Slot) (s : State) (a : W128) (r : Token), Given (.pref f) s (dataTok a) r →
    let va := addrG a (disp f)
    let s1 := s.answer (.pref f) { lsid := some .waited }
    exec (.pref f) s = .next
      (if s.pk.peerCheck (s.pk.tileVi s.cur.tile) va matches .ok none ∧ va.toNat % 16 = 0 then s1.walkInto s.cur.tile va else s1)

/-- An access whose address is not a multiple of its size gives a fault token with cause ALIGN, in the scratchpad and,
after the peer check, in global memory (R235, R276): at LD, LDA, ST, STL, LDPQ, EMPTY, AMO and CAS. -/
def Sys2Proof.Machine.MisalignedAccessesFault : Prop :=
  ∀ (f : Slot) (s : State) (a : W128) (r : Token), s.cur.work.stream = false →
    let n1 := accessBytes f.ty (f.mode.getLsbD 1)
    let n0 := accessBytes f.ty false
    let offS (n : Nat) : Prop := f.mode.getLsbD 0 = false ∧ (((a.toNat % 2 ^ 32 : Nat) : Int) + signedOf 32 f.imm.toNat) % n ≠ 0
    let offG (n : Nat) : Prop := s.pk.peerCheck (s.pk.tileVi s.cur.tile) (addrG a (signedOf 32 f.imm.toNat)) = .ok none ∧
      (addrG a (signedOf 32 f.imm.toNat)).toNat % n ≠ 0
    (offS n1 → r.poison = false → r.kind = .data →
      (Given (.ld f) s (dataTok a) r → exec (.ld f) s = .next (s.faults (.ld f) Cause.align 0)) ∧
      (Given (.lda f) s (dataTok a) r → exec (.lda f) s = .next (s.faults (.lda f) Cause.align 0)) ∧
      (Given (.st f) s (dataTok a) r → exec (.st f) s = .next (s.faults (.st f) Cause.align 0)) ∧
      (Given (.stl f) s (dataTok a) r → exec (.stl f) s = .next (s.faults (.stl f) Cause.align 0))) ∧
    (f.mode.getLsbD 0 = true → offG n1 → r.poison = false → r.kind = .data →
      (Given (.ld f) s (dataTok a) r →
        exec (.ld f) s = .next (s.faults (.ld f) Cause.align 0 (addrG a (signedOf 32 f.imm.toNat)))) ∧
      (Given (.lda f) s (dataTok a) r →
        exec (.lda f) s = .next (s.faults (.lda f) Cause.align 0 (addrG a (signedOf 32 f.imm.toNat)))) ∧
      (Given (.st f) s (dataTok a) r →
        exec (.st f) s = .next (s.faults (.st f) Cause.align 0 (addrG a (signedOf 32 f.imm.toNat)))) ∧
      (Given (.stl f) s (dataTok a) r →
        exec (.stl f) s = .next (s.faults (.stl f) Cause.align 0 (addrG a (signedOf 32 f.imm.toNat))))) ∧
    (offS n0 → r.poison = false →
      (Given (.ldpq f) s (dataTok a) r → exec (.ldpq f) s = .next (s.faults (.ldpq f) Cause.align 0)) ∧
      (Given (.empty f) s (dataTok a) r → exec (.empty f) s = .next (s.faults (.empty f) Cause.align 0))) ∧
    (f.mode.getLsbD 0 = true → offG n0 → r.poison = false →
      (Given (.ldpq f) s (dataTok a) r →
        exec (.ldpq f) s = .next (s.faults (.ldpq f) Cause.align 0 (addrG a (signedOf 32 f.imm.toNat)))) ∧
      (Given (.empty f) s (dataTok a) r →
        exec (.empty f) s = .next (s.faults (.empty f) Cause.align 0 (addrG a (signedOf 32 f.imm.toNat))))) ∧
    (offG n0 → r.poison = false → r.kind = .data →
      (Given (.amo f) s (dataTok a) r →
        exec (.amo f) s = .next (s.faults (.amo f) Cause.align 0 (addrG a (signedOf 32 f.imm.toNat)))) ∧
      (Given (.cas f) s (dataTok a) r →
        exec (.cas f) s = .next (s.faults (.cas f) Cause.align 0 (addrG a (signedOf 32 f.imm.toNat)))))

/-- PREF never faults; a misaligned access does (R235, R276, R283). -/
def Obligations.PrefetchesAndMisalignment : Prop := PrefetchNeverFaults ∧ MisalignedAccessesFault

/-! ### Synchronisation, engine, control and system instructions at their firing -/

/-- A clean trigger: a data or predicate token without poison. -/
def Sys2Proof.Machine.CleanTrigger (l : Token) : Prop := (l.kind = .data ∨ l.kind = .pred) ∧ l.poison = false

/-- BAR.INIT, BAR.ARR, HREL and TRIG leave their LSID what the commit performs; a count or a binding outside its
limits gives BLOCK_FORM (R292, R293, R299, R375). -/
def Obligations.SyncRequests : Prop :=
  ∀ (f : Slot) (s : State) (l r : Token) (b : W128), CleanTrigger l →
    (Given (.barInit f) s l (dataTok b) → exec (.barInit f) s = .next
      (if 1 ≤ lane0 b ∧ lane0 b ≤ 65535 then
        s.answer (.barInit f) { lsid := some (.barInit (barOf f) (f.aux.extractLsb' 0 2) (lane0 b)) }
       else s.faults (.barInit f) Cause.blockForm 4)) ∧
    (Given (.barArr f) s l r → exec (.barArr f) s = .next (s.answer (.barArr f) { lsid := some (.barArr (barOf f)) })) ∧
    (Given (.hrel f) s l (dataTok b) → exec (.hrel f) s = .next
      (if laneNat 32 b 0 % 16 = 0 ∧ laneNat 32 b 1 % 16 = 0 ∧ 16 ≤ laneNat 32 b 1 ∧
          laneNat 32 b 0 + laneNat 32 b 1 ≤ 2 ^ 22 ∧ b.extractLsb' 64 64 = 0 then
        s.answer (.hrel f) { lsid := some (.hrel (handleOf f) (laneNat 32 b 0) (laneNat 32 b 1)) }
       else s.faults (.hrel f) Cause.blockForm 4)) ∧
    (Given (.trig f) s l r → exec (.trig f) s = .next (s.answer (.trig f) { lsid := some .trig }))

/-- A wait that fires: its result token leaves, its LSID has settled, and it acquires: the lines of the tile's
parameter-block cache are forgotten, and the context sees from its place on what it has waited for (R251, R262, R304). -/
def Sys2Proof.Machine.State.waited (s : State) (i : Instr) (k : Token) (v : LsidVal) (brings : Floor) : State :=
  let t := s.answer i { Result.all k with lsid := some v }
  { t with pk := t.pk.joined s.cur.tile s.cur.work ((lsidOf (formOf i) (slotOf i)).getD 32) brings }

/-- CWAIT, HWAIT, WAITDEP, BAR.SYNC and HQRY (R294, R297, R300, R301, R376): when the condition holds the token goes
on, for a bounded swarm's WAITDEP always; CWAIT puts its operand set back while the counter has not fallen below n. Each wait brings what it has waited for: the
operations that counted on the counter, the sends that filled the handle, the producers, the arrivals (R251, R262). -/
def Obligations.Waits : Prop :=
  ∀ (f : Slot) (s : State) (l r : Token) (b : W128), CleanTrigger l →
    let t := s.pk.tile s.cur.tile
    let c := s.cur.work.ctx
    let h := t.handles.get (handleOf f)
    (Given (.cwait f) s l (dataTok b) → 1 ≤ lane0 b → lane0 b ≤ 64 →
      (((t.ctx c).cur.cnt.get (Fin.ofNat 8 f.idx.toNat)).val < lane0 b →
        s.pk.olderMayIssue s.cur.tile c s.cur.work.n (Fin.ofNat 8 f.idx.toNat) = false →
        exec (.cwait f) s = .next (State.waited s (.cwait f) l .waited
          ((alookup (Fin.ofNat 8 f.idx.toNat).val (s.pk.ctx s.cur.tile c).joins).getD {}))) ∧
      (lane0 b ≤ ((t.ctx c).cur.cnt.get (Fin.ofNat 8 f.idx.toNat)).val → exec (.cwait f) s = .next s.putBack)) ∧
    (Given (.hwait f) s l r →
      (h.st = .full → t.olderHwait (handleOf f) s.cur.work = false → exec (.hwait f) s = .next
        (State.waited { s with pk := s.pk.modTile s.cur.tile fun x => x.modHandle (handleOf f) fun y =>
            { y with st := .draining, owner := some c, ownerSeq := s.cur.work.n } }
          (.hwait f) (dataTok (n32Word [h.bytes])) (.hwaited (handleOf f)) h.floor)) ∧
      (h.st ≠ .full → exec (.hwait f) s = .next s.putBack)) ∧
    (Given (.hqry f) s l r → exec (.hqry f) s = .next (s.gives (.hqry f)
      (n32Word [(match h.st with | .free => 0 | .filling => 1 | .full => 2 | .draining => 3), h.bytes, h.size, 0]) false)) ∧
    (∀ w, (s.pk.resOf s.cur.tile).bind (fun x => s.pk.swarmOf x.2) = some w → Given (.waitdep f) s l r →
      (s.pk.depsHeard s.cur.tile.die w = true → exec (.waitdep f) s = .next (State.waited s (.waitdep f)
        (dataTok (n32Word [(w.deps.filter (s.pk.producerAborted w.vi)).length, w.deps.length])) .waited
        (s.pk.toldBy w.vi w.deps))) ∧
      (s.pk.depsHeard s.cur.tile.die w = false → exec (.waitdep f) s = .next s.putBack)) ∧
    (∀ i, s.inst? = some i → Given (.barSync f) s l r → t.isOldest c i.seq = true →
      i.barDropped.contains ((lsidOf (formOf (.barSync f)) f).getD 0) = false →
      (s.pk.accs.any fun a => a.tile == s.cur.tile && a.work.ctx == c &&
        (match a.kind with | .arrive b' _ => b' == barOf f | _ => false)) = false →
      ((s.pk.ctx s.cur.tile c).bar.get (barOf f)).o = false →
      (s.pk.phaseDone s.cur.tile c (barOf f) = true →
        exec (.barSync f) s = .next (State.waited s (.barSync f) l (.barSync (barOf f) true l)
          (s.pk.barCopy s.cur.tile (barOf f)).met)) ∧
      (s.pk.phaseDone s.cur.tile c (barOf f) = false → exec (.barSync f) s = .next s.putBack))

/-- What the walk of an instruction's address leaves behind: table entries in the caches of its tile and die, an entry
found bad poisoned and recorded (R236, R239, R240). -/
def Sys2Proof.Machine.State.afterWalk (s : State) (k : WalkNote) : State := s.walked s.cur.tile (s.pk.tileVi s.cur.tile) k

/-- The engine instructions give their LSID the command that the commit issues, with the counter of F5[7:5]; a
descriptor outside its limits gives BLOCK_FORM in its place (R205, R207, R210, R302, R305, R312, R317, R318). -/
def Sys2Proof.Machine.EngineCommands : Prop :=
  let issued (s : State) (i : Instr) (ok : Bool) (c : EngineCmd) : State :=
    if ok then s.answer i { lsid := some (.engine c (Fin.ofNat 8 (slotOf i).aux.toNat)) } else s.faults i Cause.blockForm 4
  ∀ (f : Slot) (s : State) (l r : Token) (a b : W128), CleanTrigger l →
    (Given (.strm f) s (dataTok a) (dataTok b) → exec (.strm f) s = .next (issued s (.strm f)
      (fld b 127 119 == 0 && (parseStrm (f.mode.getLsbD 0) a b).limitsOk) (.strm (parseStrm (f.mode.getLsbD 0) a b)))) ∧
    (Given (.send f) s (dataTok a) r → exec (.send f) s = .next (issued s (.send f)
      (sendReserved (a.setWidth 512) && (parseSend (a.setWidth 512) false).limitsOk) (.send (parseSend (a.setWidth 512) false)))) ∧
    (Given (.mma f) s (dataTok a) r → exec (.mma f) s = .next (issued s (.mma f)
      (Mma.limitsOk a && s.pk.gangOk s.cur.tile a) (.mma a))) ∧
    (Given (.mmald f) s l (dataTok b) → exec (.mmald f) s = .next (issued s (.mmald f)
      (Mmald.limitsOk (b.extractLsb' 0 32)) (.mmald (b.extractLsb' 0 32)))) ∧
    (Given (.accz f) s l r → exec (.accz f) s = .next (issued s (.accz f) true (.accz (Fin.ofNat 4 (fld f.mode 1 0))))) ∧
    (Given (.accdrn f) s (dataTok a) r → exec (.accdrn f) s = .next (issued s (.accdrn f) (Drain.limitsOk a) (.accdrn a))) ∧
    (Given (.pfire f) s l (dataTok b) → exec (.pfire f) s = .next (issued s (.pfire f)
      (fld b 7 4 == 0 && fld b 3 0 != 0) (.pfire (f.mode.getLsbD 0) (b.extractLsb' 0 32)))) ∧
    (Given (.cfgsw f) s l r → exec (.cfgsw f) s = .next (issued s (.cfgsw f) true (.cfgsw (f.mode.extractLsb' 0 4)))) ∧
    (Given (.cfgwr f) s (dataTok a) r → exec (.cfgwr f) s = .next (issued s (.cfgwr f)
      (fld a 127 38 == 0 && (s.pk.regionTile s.cur.tile (fld a 34 32) (fld a 37 35)).isSome)
      (.cfgwr (f.mode.getLsbD 0) (a.extractLsb' 0 32) (a.extractLsb' 32 3) (a.extractLsb' 35 3))))

/-- The instructions that name a block of memory check its address and give the command that names it (R304, R306, R313,
R316); OMCLAIM, OMREL and the queue instructions (R213, R303). -/
def Sys2Proof.Machine.BlockAndQueueInstructions : Prop :=
  let issued (s : State) (i : Instr) (c : EngineCmd) : State :=
    s.answer i { lsid := some (.engine c (Fin.ofNat 8 (slotOf i).aux.toNat)) }
  ∀ (f : Slot) (s : State) (l r : Token) (a b : W128), CleanTrigger l →
    let va : VA := a.extractLsb' 0 80
    (∀ k, s.blockCheck .load false va 64 = (none, k) →
      (Given (.strmpb f) s (dataTok a) r → exec (.strmpb f) s = .next (issued (s.afterWalk k) (.strmpb f) (.strmpb va))) ∧
      (Given (.sendpb f) s (dataTok a) r → exec (.sendpb f) s = .next (issued (s.afterWalk k) (.sendpb f) (.sendpb va)))) ∧
    (∀ k, s.blockCheck .load true va 64 = (none, k) →
      Given (.cfgld f) s (dataTok a) r → exec (.cfgld f) s = .next (issued (s.afterWalk k) (.cfgld f) (.cfgld va))) ∧
    (∀ e k, s.blockCheck .load false va 64 = (some e, k) →
      (Given (.strmpb f) s (dataTok a) r →
        exec (.strmpb f) s = .next (State.faults (s.afterWalk k) (.strmpb f) e.cause e.sub va)) ∧
      (Given (.sendpb f) s (dataTok a) r →
        exec (.sendpb f) s = .next (State.faults (s.afterWalk k) (.sendpb f) e.cause e.sub va))) ∧
    (Given (.omclaim f) s l (dataTok b) → exec (.omclaim f) s = .next
      (if fld b 31 16 = 0 then s.answer (.omclaim f) { lsid := some (.omClaim (f.mode.getLsbD 0) (b.extractLsb' 0 16)) }
       else s.faults (.omclaim f) Cause.blockForm 4)) ∧
    (Given (.omrel f) s l (dataTok b) → exec (.omrel f) s = .next
      (if fld b 31 16 = 0 then s.answer (.omrel f) { lsid := some (.omRel (b.extractLsb' 0 16)) }
       else s.faults (.omrel f) Cause.blockForm 4)) ∧
    (let q := fld f.mode 1 0
     let ops := (s.pk.tile s.cur.tile).queue q
     let m := (s.pk.tile s.cur.tile).qmode q
     Given (.engq f) s l r → exec (.engq f) s = .next (s.answer (.engq f)
       { Result.all (dataTok (n32Word [(ops.filter fun o => !o.started).length, (ops.filter fun o => o.started).length,
           m.stalls.toNat, m.mode.toNat])) with lsid := some .waited })) ∧
    (Given (.engqSet f) s l (dataTok b) → exec (.engqSet f) s = .next
      (if s.level = false then s.faults (.engqSet f) Cause.priv 0
       else if lane0 b < 3 then s.answer (.engqSet f) { lsid := some (.engqSet (f.mode.extractLsb' 0 2) (BitVec.ofNat 2 (lane0 b))) }
       else s.faults (.engqSet f) Cause.blockForm 4))

/-- The instructions of the engines, of operand memory and of the queues (R205-R213, R302-R318). -/
def Obligations.EngineInstructions : Prop := EngineCommands ∧ BlockAndQueueInstructions

/-- BR, CONT, HALT and CALLX send their token to the exit that their operand decides; a poisoned decision is POISON
(R65, R361-R364, R465). -/
def Obligations.Decisions : Prop :=
  let noted (s : State) (t : State) (g : Inst → Inst) : State :=
    { t with pk := t.pk.modTile s.cur.tile fun x => x.modInst s.cur.work.ctx s.cur.work.n g }
  ∀ (f : Slot) (s : State) (l r : Token) (c : Bool) (a : W128),
    (CleanTrigger l → f.mode.getLsbD 0 = false → Given (.br f) s l r →
      exec (.br f) s = .next (s.answer (.br f) { t0 := some l })) ∧
    (f.mode.getLsbD 0 = true → Given (.br f) s (predTok c) r →
      exec (.br f) s = .next (s.answer (.br f) (if c then { t0 := some (predTok c) } else { t1 := some (predTok c) }))) ∧
    (Given (.cont f) s (predTok c) r → exec (.cont f) s = .next
      (noted s (s.answer (.cont f) { t0 := some (predTok c) }) fun i => { i with conts := i.conts ++ [c] })) ∧
    (CleanTrigger l → Given (.halt f) s l r → exec (.halt f) s = .next (s.answer (.halt f) { t0 := some l })) ∧
    (CleanTrigger l → Given (.haltRes f) s l r → exec (.haltRes f) s = .next
      (noted s (s.answer (.haltRes f) { t0 := some l }) fun i => { i with haltRes := true })) ∧
    (Given (.callx f) s (dataTok a) r → exec (.callx f) s = .next
      (if a.extractLsb' 64 64 = 0 then s.answer (.callx f) { t0 := some (dataTok a) }
       else s.faults (.callx f) Cause.blockForm 4)) ∧
    (Given (.cont f) s (predTok c true) r → exec (.cont f) s = .next (s.faults (.cont f) Cause.poison 4)) ∧
    (Given (.callx f) s (dataTok a true) r → exec (.callx f) s = .next (s.faults (.callx f) Cause.poison 4))

/-- YIELD, SPAWN, JOIN and TAGQ (R366-R368, R377). A SPAWN that has the numbers and the tags it asks for reserves
them; one that has not answers 0 in lane 0 and 1 in lane 1. -/
def Obligations.ContextInstructions : Prop :=
  ∀ (f : Slot) (s : State) (l r : Token) (a b : W128),
    let t := s.pk.tile s.cur.tile
    let c := s.cur.work.ctx
    let al := if fld a 79 72 = 0 then 32 else fld a 79 72
    let k := fld a 68 64 + 1
    let limit := s.pk.tagLimit s.cur.tile
    let legal : Prop := fld a 127 80 = 0 ∧ fld a 71 69 = 0 ∧ 2 ≤ al ∧ al ≤ 128 ∧
      2 * (t.contexts + popCount t.spawnMask + k) ≤ limit
    let mask : BitVec 32 := (t.available.take k).foldl (fun m j => m ||| BitVec.ofNat 32 (2 ^ j)) 0
    (CleanTrigger l → Given (.yield f) s l (dataTok b) → exec (.yield f) s = .next
      (if lane0 b ≤ 65535 then s.answer (.yield f) { Result.all l with lsid := some (.yield (BitVec.ofNat 32 (lane0 b))) }
       else s.faults (.yield f) Cause.blockForm 4)) ∧
    (legal → Given (.spawn f) s (dataTok a) (dataTok b) → k ≤ t.available.length → 2 * k ≤ t.freeTags limit →
      exec (.spawn f) s = .next (State.answer
        { s with pk := s.pk.modTile s.cur.tile fun x => { x with spawnRes := x.spawnRes ++ [(c, s.cur.work.n, mask)] } }
        (.spawn f) { Result.all (dataTok (n32Word [mask.toNat])) with lsid := some (.spawn mask al (a.extractLsb' 0 64) b) })) ∧
    (legal → Given (.spawn f) s (dataTok a) (dataTok b) → (t.available.length < k ∨ t.freeTags limit < 2 * k) →
      exec (.spawn f) s = .next (s.answer (.spawn f)
        { Result.all (dataTok (n32Word [0, 1])) with lsid := some (.spawn 0 al (a.extractLsb' 0 64) b) })) ∧
    (CleanTrigger l → Given (.join f) s l (dataTok b) →
      (lane0 b = 0 → exec (.join f) s = .next (State.waited s (.join f) l (.joined 0) {})) ∧
      (lane0 b ≠ 0 → t.isOldest c s.cur.work.n = true →
        ((setBits (BitVec.ofNat 32 (lane0 b))).all (t.isChild c) = false →
          exec (.join f) s = .next (s.faults (.join f) Cause.blockForm 4)) ∧
        ((setBits (BitVec.ofNat 32 (lane0 b))).all (t.isChild c) = true →
          exec (.join f) s = .next
            (if BitVec.ofNat 32 (lane0 b) &&& ~~~ (t.ctx c).cur.done = 0 then
              State.waited s (.join f) l (.joined (BitVec.ofNat 32 (lane0 b)))
                ((setBits (BitVec.ofNat 32 (lane0 b))).foldl (fun fl k => fl.join (t.ctx (Fin.ofNat 32 k)).brings) {})
             else s.putBack)))) ∧
    (CleanTrigger l → Given (.tagq f) s l r → exec (.tagq f) s = .next (s.answer (.tagq f)
      { Result.all (dataTok (n32Word [(t.ctx c).cur.thr.toNat, t.tagsOf c, (t.ctx c).cur.alloc, t.freeTags limit])) with
        lsid := some .tagqClr }))

/-- A record is taken (R379-R381): its entry word leaves for target0, the instance holds it for its commit, and the
context joins the TQPUT that put it. -/
def Sys2Proof.Machine.State.takes (s : State) (i : Instr) (record : BitVec 256) (buffer : Bool) (put : Floor) : State :=
  let t := s.answer i { t0 := some (dataTok ((record.extractLsb' 0 64).setWidth 128)) }
  let note (x : Inst) : Inst := { x with taskArgs := some (record, buffer) }
  { t with pk := (t.pk.joined s.cur.tile s.cur.work ((lsidOf (formOf i) (slotOf i)).getD 32) put).modTile s.cur.tile fun x => x.modInst s.cur.work.ctx s.cur.work.n note }

/-- TQPUT, TQGET and TQSTEAL (R378-R380). -/
def Sys2Proof.Machine.TaskInstructions : Prop :=
  ∀ (f : Slot) (s : State) (l r : Token) (a b : W128),
    let tl := s.cur.tile
    let t := s.pk.tile tl
    let c := s.cur.work.ctx
    (Given (.tqput f) s (dataTok a) (dataTok b) →
      (256 ≤ t.tasks.length → exec (.tqput f) s = .next (s.answer (.tqput f)
        { Result.all (dataTok (n32Word [1])) with lsid := some (.tqput (b ++ a) false) })) ∧
      (t.tasks.length < 256 → exec (.tqput f) s = .next (State.answer
        { s with pk := s.pk.modTile tl fun x =>
            { x with tasks := x.tasks ++ [{ record := b ++ a, st := .reserved c s.cur.work.n ((lsidOf (formOf (.tqput f)) f).getD 0) }] } }
        (.tqput f) { Result.all (dataTok (n32Word [0])) with lsid := some (.tqput (b ++ a) true) }))) ∧
    (CleanTrigger l → Given (.tqget f) s l r →
      (∀ rec_, t.bufferTaken c = false → (t.ctx c).cur.stl = some rec_ →
        exec (.tqget f) s = .next (s.takes (.tqget f) rec_ true (t.ctx c).stlFloor)) ∧
      ((t.ctx c).cur.stl = none ∨ t.bufferTaken c = true →
        ((t.tasks.any fun e => e.st == .ready) = false →
          exec (.tqget f) s = .next (if f.mode.getLsbD 0 then s.answer (.tqget f) { t1 := some l } else s.putBack)) ∧
        (∀ older e newer, t.tasks = older ++ e :: newer → e.st = .ready → (newer.any fun x => x.st == .ready) = false →
          t.olderTqget tl s.cur.work = false →
          exec (.tqget f) s = .next (if s.pk.unput e then s.putBack else
            State.takes { s with pk := s.pk.modTile tl fun x =>
              { x with tasks := older ++ { e with st := .held c s.cur.work.n } :: newer } } (.tqget f) e.record false e.floor)))) ∧
    (∀ v, CleanTrigger l → Given (.tqsteal f) s l (dataTok b) →
      s.pk.regionTile tl (lane0 b % 8) (lane0 b / 8) = some v → v ≠ tl →
      (∀ rec_, t.bufferTaken c = false → (t.ctx c).cur.stl = some rec_ →
        exec (.tqsteal f) s = .next (s.takes (.tqsteal f) rec_ true (t.ctx c).stlFloor)) ∧
      ((t.ctx c).cur.stl = none →
        ((t.ctx c).stealFrom.isSome = true ∨ s.pk.inTransitTo tl c = true → exec (.tqsteal f) s = .next s.putBack) ∧
        ((t.ctx c).stealFrom = none → s.pk.inTransitTo tl c = false →
          (((s.inst?).map (·.requested)).getD false = true → exec (.tqsteal f) s = .next (s.answer (.tqsteal f) { t1 := some l })) ∧
          (((s.inst?).map (·.requested)).getD false = false → ∃ u, exec (.tqsteal f) s = .next u ∧ u.mem = s.mem ∧
            (u.pk.ctx tl c) = { s.pk.ctx tl c with stealFrom := some v.n } ∧ (u.pk.tile tl).store = (s.putBack.pk.tile tl).store)))) ∧
    (∀ v, CleanTrigger l → Given (.tqsteal f) s l (dataTok b) →
      (s.pk.regionTile tl (lane0 b % 8) (lane0 b / 8) = none ∨ s.pk.regionTile tl (lane0 b % 8) (lane0 b / 8) = some v ∧ v = tl) →
      exec (.tqsteal f) s = .next (s.faults (.tqsteal f) Cause.blockForm 4))

/-- The first n words of its block stand read for the LSID of a firing's instance: bytes bs, one of them poisoned where bad
is set. -/
def Sys2Proof.Machine.HasRead (s : State) (i : Instr) (n : Nat) (bs : List Byte) (bad : Bool) : Prop :=
  ∃ x got, s.inst? = some x ∧ (x.piecesAt ((lsidOf (formOf i) (slotOf i)).getD 0)).takeWhile (fun g => g.1 < n) = got ∧
    got.map (·.1) = List.range n ∧ bs = got.flatMap (fun g => natToBytes 8 g.2.1.toNat) ∧ bad = got.any fun g => g.2.2

/-- Word w of a block is read for the firing, as a relaxed load of its own, and the firing goes on later (R246). -/
def Sys2Proof.Machine.State.readsWord (s : State) (i : Instr) (w : Nat) (b : Access) : State :=
  let x := s.readPiece b
  let t := x.2.putBack
  let note (y : Inst) : Inst :=
    { y with pieces := insertPiece ((lsidOf (formOf i) (slotOf i)).getD 0, w, x.1) y.pieces }
  { t with
    freeCount := t.freeCount + 1
    pk := t.pk.modTile s.cur.tile fun z => z.modInst s.cur.work.ctx s.cur.work.n note }

/-- While words of the n of its block at va lack, the firing in s, which is s1 once the block's own checks are made, reads one
of them, when the rules of R249 let it; a word that a check stops gives its fault. -/
def Sys2Proof.Machine.ReadsWords (s s1 : State) (i : Instr) (va : VA) (n : Nat) : Prop :=
  ∀ (x : Inst) (w : Nat), s1.inst? = some x →
    let k := (lsidOf (formOf i) (slotOf i)).getD 0
    let missing := absent (List.range n) (((x.piecesAt k).takeWhile fun g => g.1 < n).map (·.1))
    missing[Config.choice s1.freeCount % missing.length]? = some w →
    let a := va + BitVec.ofNat 80 (8 * w)
    (∀ e note, checkG s1.mem s1.pk s1.cur.tile s1.level .load a 8 = (.error e, note) →
      exec i s = .next (State.faults (s1.walked s1.cur.tile (s1.pk.tileVi s1.cur.tile) note) i e.cause e.sub a)) ∧
    (∀ pl note, checkG s1.mem s1.pk s1.cur.tile s1.level .load a 8 = (.ok pl, note) → pl.isP = false →
      let s2 := s1.walked s1.cur.tile (s1.pk.tileVi s1.cur.tile) note
      let b := s2.mkAccess (formOf i) (slotOf i) .ld a pl 8 false 0
      exec i s = .next (if s2.pk.loadReady s2.mem b then s2.readsWord i w b else s2.putBack))

/-- LAUNCH (R344, R369, R370). The descriptor's sixteen words are read one event each, and the firing ends when the last
stands. One that passes every check and finds room gives QUEUED and its ticket, holds a record of its die's store, and
takes the child's cycles of the parent's window on every die it names; any other gives its status and reserves nothing. -/
def Sys2Proof.Machine.LaunchAccepted : Prop :=
  ∀ (f : Slot) (s : State) (a : W128) (r : Token) (pl : Place) (k note : WalkNote) (bs : List Byte) (n : Nat)
    (x : Resid) (w : Swarm) (c : Except Nat (List W64)),
    let va : VA := a.extractLsb' 0 80
    let t := s.cur.tile
    let desc : BitVec 1024 := BitVec.ofNat 1024 (bytesToNat bs)
    let s1 := s.afterWalk k
    let s2 := s1.walkedOn t.die x.vi note
    let d := s2.pk.die t.die
    Given (.launch f) s (dataTok a) r →
    (a.extractLsb' 80 48 ≠ 0 → exec (.launch f) s = .next (s.faults (.launch f) Cause.blockForm 4)) ∧
    (∀ e, a.extractLsb' 80 48 = 0 → checkG s.mem s.pk t s.level .load va 128 = (.error e, k) →
      exec (.launch f) s = .next (s1.faults (.launch f) e.cause e.sub va)) ∧
    (a.extractLsb' 80 48 = 0 → checkG s.mem s.pk t s.level .load va 128 = (.ok pl, k) → pl.isP = false →
    ReadsWords s s1 (.launch f) va 16 ∧
    (HasRead s1 (.launch f) 16 bs true → exec (.launch f) s = .next (s1.faults (.launch f) Cause.poison 5 va)) ∧
    (HasRead s1 (.launch f) 16 bs false →
      s1.pk.resOf t = some (n, x) → s1.pk.swarmOf x = some w →
      checkAll s1.mem s1.pk t.die x.vi w.cls desc none = (c, note) →
      (∀ e, c = .error e → exec (.launch f) s = .next (s2.answer (.launch f)
        { Result.all (dataTok (n32Word [3, 0x10 + e, 0])) with lsid := some (.launch 0 0 [] false []) })) ∧
      (∀ deps e, c = .ok deps → w.cls = true → s2.pk.childRefusal x.swarm w.desc desc = some e →
        exec (.launch f) s = .next (s2.answer (.launch f)
          { Result.all (dataTok (n32Word [2, e, 0])) with lsid := some (.launch 0 0 [] false []) })) ∧
      (∀ deps, c = .ok deps → (w.cls = true → s2.pk.childRefusal x.swarm w.desc desc = none) →
        (512 ≤ d.launches.length + d.launchHeld → exec (.launch f) s = .next (s2.answer (.launch f)
          { Result.all (dataTok (n32Word [1, 0, 0])) with lsid := some (.launch 0 0 [] false []) })) ∧
        (d.launches.length + d.launchHeld < 512 →
          ∃ (costs : List Nat) (p : Pack),
            exec (.launch f) s = .next (State.answer { s2 with pk := p } (.launch f)
              { Result.all (dataTok (n32Word [0, 0, t.die.val * 2 ^ 29 + d.launchCount.toNat])) with
                lsid := some (.launch (BitVec.ofNat 32 (t.die.val * 2 ^ 29 + d.launchCount.toNat)) desc deps true costs) }) ∧
            (w.cls = false → costs = []) ∧
            (w.cls = true → ∀ e : DieId, costs[e.val]? = some ((s2.pk.die e).costOf desc) ∧
              (e ≠ t.die → p.die e = if bit (Desc.dies desc) e.val then
                ((s2.pk.useWindow e x.swarm (· + (s2.pk.die e).costOf desc)).die e) else s2.pk.die e)) ∧
            (p.die t.die).launchHeld = d.launchHeld + 1 ∧ (p.die t.die).launchCount = d.launchCount + 1 ∧
            p.swarms = s2.pk.swarms ∧ p.resids = s2.pk.resids))))

/-- Tasks and launches (R369, R370, R378-R380). -/
def Obligations.TaskAndLaunchInstructions : Prop := TaskInstructions ∧ LaunchAccepted

/-- TRAP leaves its service and argument for the commit; BKPT gives BREAKPOINT, or nothing in the first instance after
ERET.nb; SWR leaves the value that its commit writes (R397, R418, R419). -/
def Sys2Proof.Machine.TrapsAndBreakpoints : Prop :=
  ∀ (f : Slot) (s : State) (l r : Token) (a : W128),
    (Given (.trap f) s (dataTok a) r → exec (.trap f) s = .next (s.answer (.trap f)
      { lsid := some (.trap f.mode (a.extractLsb' 0 80)) })) ∧
    (CleanTrigger l → Given (.bkpt f) s l r →
      ((s.inst?.map (·.skipBkpt)).getD false = true → exec (.bkpt f) s = .next (s.answer (.bkpt f) { lsid := some .null })) ∧
      ((s.inst?.map (·.skipBkpt)).getD false = false → exec (.bkpt f) s = .next (s.faults (.bkpt f) Cause.breakpoint 0))) ∧
    (Given (.swr f) s (dataTok a) r → exec (.swr f) s = .next (s.answer (.swr f)
      { lsid := some (.swr (BitVec.ofNat 6 (fld f.imm 5 0)) (a.extractLsb' 0 64)) }))

/-- SRD reads every special register (R118, R395, R397): what each number names, the trap registers at S only, and
s.fpf and the arguments once every older instance of the context has committed (R142). -/
def Sys2Proof.Machine.SpecialRegisters : Prop :=
  ∀ (f : Slot) (s : State) (l r : Token), l.kind = .data ∨ l.kind = .pred → Given (.srd f) s l r →
    let t := s.cur.tile
    let c := s.cur.work.ctx
    let x := s.pk.ctx t c
    let n := f.imm.toNat
    let reads (v : W128) : Prop := exec (.srd f) s = .next (s.gives (.srd f) v l.poison)
    let oldest : Prop := ∀ i ∈ (s.pk.tile t).insts, i.ctx = c → ageLt (i.stamp, 0) ((s.pk.tile t).ageOf s.cur.work) = false
    (n = 0 → reads (BitVec.ofNat 128 c.val)) ∧
    (n = 1 → s.cur.work.stream = true → reads (BitVec.ofNat 128 s.cur.work.n)) ∧
    (n = 1 → ∀ i, s.inst? = some i → s.cur.work.stream = false → reads (BitVec.ofNat 128 i.iter)) ∧
    (n = 2 → ∀ k y, s.pk.resOf t = some (k, y) →
      reads (BitVec.ofNat 128 ((t.n.val / 8 - y.y0) * y.w + (t.n.val % 8 - y.x0)))) ∧
    (n = 3 → reads (BitVec.ofNat 128 t.die.val)) ∧
    (n = 4 → reads (s.pk.member.setWidth 128)) ∧
    (n = 5 → reads (if s.level then
      BitVec.ofNat 128 ((s.pk.tileVi t).val + (s.pk.vi (s.pk.tileVi t)).pvi.toNat * 2 ^ 16) else 0)) ∧
    (∀ k : Fin 8, n = 8 + k.val → oldest → reads ((x.cur.arg.get k).setWidth 128)) ∧
    (n = 0x10 → oldest → reads (x.cur.fpf.setWidth 128)) ∧
    (n = 0x11 → reads ((s.pk.tile t).clk.setWidth 128)) ∧
    (n = 0x12 → reads ((s.pk.die t.die).elap.setWidth 128)) ∧
    (n = 0x18 → s.level = true → reads (x.tcause.setWidth 128)) ∧
    (n = 0x19 → s.level = true → reads (x.tblock.setWidth 128)) ∧
    (n = 0x1A → s.level = true → reads (x.tinfo.setWidth 128)) ∧
    (n = 0x1B → s.level = true → reads (x.tval.setWidth 128)) ∧
    (n = 0x1C → reads (n32Word [(s.pk.die t.die).floorKHz.toNat, (s.pk.die t.die).pendingFloor.toNat,
      4 - (s.pk.die t.die).rhoNow.toNat])) ∧
    ((n = 0x10 ∨ 8 ≤ n ∧ n < 16) → ¬ oldest → exec (.srd f) s = .next s.putBack)

/-- TRAP, BKPT, SWR and SRD (R395, R397, R418, R419). -/
def Obligations.TrapsAndSpecialRegisters : Prop := TrapsAndBreakpoints ∧ SpecialRegisters

/-- The supervisor's instructions at level S: a return from a trap sends its token to its exit and leaves its action for
the commit; XLINV and PREEMPT give their commands; PCLR clears a poison bit; ERRQ takes the oldest record of its VI's
queue on the die (R398, R420-R424). -/
def Sys2Proof.Machine.SupervisorInstructions : Prop :=
  let issued (s : State) (i : Instr) (c : EngineCmd) : State :=
    s.answer i { lsid := some (.engine c (Fin.ofNat 8 (slotOf i).aux.toNat)) }
  ∀ (f : Slot) (s : State) (l r : Token) (a b : W128), s.level = true →
    let va : VA := a.extractLsb' 0 80
    let handling : Prop := (s.pk.ctx s.cur.tile s.cur.work.ctx).tcause ≠ 0
    let eret (mk : Slot → Instr) (op : BitVec 2) : Prop := CleanTrigger l → Given (mk f) s l r →
      (handling → exec (mk f) s = .next (s.answer (mk f) { t0 := some l, lsid := some (.eret op) })) ∧
      (¬ handling → exec (mk f) s = .next (s.faults (mk f) Cause.blockForm 9))
    let preempt (mk : Slot → Instr) (op : BitVec 2) : Prop := Given (mk f) s (dataTok a) r →
      exec (mk f) s = .next (issued s (mk f) (.preempt op (a.extractLsb' 0 32)))
    eret .eretRs 0 ∧ eret .eretNb 1 ∧ eret .eretAb 2 ∧ eret .eretDr 3 ∧
    preempt .preemptStop 0 ∧ preempt .preemptRes 1 ∧ preempt .preemptAb 2 ∧ preempt .preemptBe 3 ∧
    (CleanTrigger l → Given (.xlinvAll f) s l r →
      exec (.xlinvAll f) s = .next (issued s (.xlinvAll f) (.xlinv 1 (f.mode.extractLsb' 2 2) 0 0))) ∧
    (CleanTrigger l → Given (.xlinvRng f) s l r →
      exec (.xlinvRng f) s = .next (issued s (.xlinvRng f) (.xlinv 2 (f.mode.extractLsb' 2 2) 0 0))) ∧
    (Given (.xlinvPg f) s (dataTok a) (dataTok b) → exec (.xlinvPg f) s = .next
      (if fld a 79 72 = 0xFF ∧ 1 ≤ lane0 b ∧ lane0 b ≤ 65536 then
        issued s (.xlinvPg f) (.xlinv 0 (f.mode.extractLsb' 2 2) va (lane0 b))
       else s.faults (.xlinvPg f) Cause.blockForm 4)) ∧
    (l.kind = .data ∨ l.kind = .pred → Given (.pclr f) s l r →
      exec (.pclr f) s = .next (s.answer (.pclr f) (.all { l with poison := false }))) ∧
    (l.kind = .eor → Given (.pclr f) s l r → exec (.pclr f) s = .next (s.answer (.pclr f) (.all l))) ∧
    (∀ (x : FaultRec) (rest : List FaultRec) (k : WalkNote), s.blockCheck .store false va 64 = (none, k) →
      let s1 := s.afterWalk k
      (sget {} (s1.pk.die s.cur.tile.die).errq (s.pk.tileVi s.cur.tile).val).recs = x :: rest →
      Given (.errq f) s (dataTok a) r →
      ∃ p, exec (.errq f) s = .next (State.answer { s1 with pk := p } (.errq f)
          { Result.all (dataTok (n32Word [1, rest.length])) with lsid := some (.errq va (some x)) }) ∧
        (sget {} (p.die s.cur.tile.die).errq (s.pk.tileVi s.cur.tile).val).recs = rest ∧ ∀ u, p.tile u = s1.pk.tile u) ∧
    (∀ k, s.blockCheck .store false va 64 = (none, k) →
      let s1 := s.afterWalk k
      (sget {} (s1.pk.die s.cur.tile.die).errq (s.pk.tileVi s.cur.tile).val).recs = [] →
      Given (.errq f) s (dataTok a) r → exec (.errq f) s = .next
        (if f.mode.getLsbD 0 then s1.putBack
         else s1.answer (.errq f) { Result.all (dataTok 0) with lsid := some (.errq va none) }))

/-- CTXSAVE and CTXREST in a handler, and CFGCHK (R401, R415, R422): CTXSAVE checks its address (the first bytes of it:
log 54) and leaves it for the commit, which writes the 8 KiB of the trapped image; CTXREST reads an image, a word at a
time (R246, log 8), answers 0 in lane 0 and keeps its RW fields where it is acceptable (log 45), and answers 1 where a byte
of it is poisoned or a field is out of range; CFGCHK reads an image and answers with the failing step and coordinate of the
check of R103. -/
def Sys2Proof.Machine.ImageInstructions : Prop :=
  ∀ (f : Slot) (s : State) (r : Token) (a : W128) (bs cs : List Byte) (bad bad' : Bool) (k : WalkNote) (pl : Place),
    let va : VA := a.extractLsb' 0 80
    let s1 := s.afterWalk k
    let at_ (off n : Nat) : Nat := bytesToNat ((bs.drop off).take n)
    let zeros (off n : Nat) : Prop := ∀ j, j < n → bs.getD (off + j) 0 = 0
    let acceptable : Prop := zeros 0x81E 2 ∧ zeros 0x823 1 ∧ zeros 0xA40 0x5C0 ∧ zeros 0x1780 0x880 ∧ at_ 0x820 1 < 32 ∧
      2 ≤ at_ 0x821 1 ∧ at_ 0x821 1 ≤ 128 ∧ at_ 0x838 8 < 3 ∧ at_ 0x8A0 8 < 2 ∧ at_ 0x980 8 ≤ 256
    let handling : Prop := s.level = true ∧ (s.pk.ctx s.cur.tile s.cur.work.ctx).tcause ≠ 0
    (handling → s.blockCheck .store false va 64 = (none, k) → Given (.ctxsave f) s (dataTok a) r →
      exec (.ctxsave f) s = .next (s1.answer (.ctxsave f) { lsid := some (.ctxsave va) })) ∧
    (handling → checkG s.mem s.pk s.cur.tile s.level .load va 64 = (.ok pl, k) → pl.isP = false →
      Given (.ctxrest f) s (dataTok a) r → ReadsWords s s1 (.ctxrest f) va 1024 ∧ (HasRead s1 (.ctxrest f) 1024 bs bad →
      (bad = true ∨ ¬ acceptable → exec (.ctxrest f) s = .next (s1.answer (.ctxrest f)
        { Result.all (dataTok (n32Word [1])) with lsid := some (.ctxrest none) })) ∧
      (bad = false → acceptable → ∃ im : CtxImage,
        exec (.ctxrest f) s = .next (s1.answer (.ctxrest f) { Result.all (dataTok 0) with lsid := some (.ctxrest (some im)) }) ∧
        (∀ n, n < 128 → im.getG n = (BitVec.ofNat 128 (at_ (16 * n) 16), (at_ 0x800 16).testBit n)) ∧
        im.pc = blockAddr (BitVec.ofNat 64 (at_ 0x810 8)) ∧ im.fpf.toNat = at_ 0x820 1 ∧ im.alloc = at_ 0x821 1 ∧
        im.thr.toNat = at_ 0x824 4 ∧ im.yld.toNat = at_ 0x82C 4 ∧ im.lpi.toNat = at_ 0x830 4 ∧ im.lpn.toNat = at_ 0x834 4 ∧
        im.lpk.toNat = at_ 0x838 1 ∧ (∀ n : Fin 8, (im.arg.get n).toNat = at_ (0x840 + 8 * n.val) 8)))) ∧
    (a.extractLsb' 80 48 ≠ 0 → Given (.cfgchk f) s (dataTok a) r → exec (.cfgchk f) s = .next (s.faults (.cfgchk f) Cause.blockForm 4)) ∧
    (∀ i ∈ ([.ctxrest f, .cfgchk f] : List Instr), (i = .cfgchk f → a.extractLsb' 80 48 = 0) → (i = .ctxrest f → handling) →
      ∀ e, checkG s.mem s.pk s.cur.tile s.level .load va 64 = (.error e, k) → Given i s (dataTok a) r →
      exec i s = .next (s1.faults i e.cause e.sub va)) ∧
    (a.extractLsb' 80 48 = 0 → checkG s.mem s.pk s.cur.tile s.level .load va 64 = (.ok pl, k) → pl.isP = false →
      Given (.cfgchk f) s (dataTok a) r → ReadsWords s s1 (.cfgchk f) va 8 ∧ (HasRead s1 (.cfgchk f) 8 bs bad →
      (let hdr : BitVec 512 := BitVec.ofNat 512 (bytesToNat bs)
       let n := Header.length hdr
       let word (e : Option CheckFail) (m : Nat) : W128 := n32Word [(e.map (·.step)).getD 0, (e.map (·.coord.toNat)).getD 0, m, 0]
       (∀ e, checkHeader hdr [] = some e → e.step = 1 ∨ e.step = 2 → exec (.cfgchk f) s = .next (s1.answer (.cfgchk f)
         { Result.all (dataTok (word (some e) 0) bad) with lsid := some .waited })) ∧
       ((∀ e, checkHeader hdr [] = some e → e.step ≠ 1 ∧ e.step ≠ 2) →
         ReadsWords s s1 (.cfgchk f) va (8 + (n + 1) / 2)) ∧
       ((∀ e, checkHeader hdr [] = some e → e.step ≠ 1 ∧ e.step ≠ 2) → HasRead s1 (.cfgchk f) (8 + (n + 1) / 2) cs bad' →
         (let e := ({ addr := va, vi := s.pk.tileVi s.cur.tile, hdr := hdr, cmds := cmdWords n (cs.drop 64) } : Image).check
          exec (.cfgchk f) s = .next (s1.answer (.cfgchk f)
            { Result.all (dataTok (word e n) bad') with lsid := some .waited }))))))

/-- What CTXSAVE's commit writes (R415, R422): the trapped image as 8 KiB of bytes, the registers first, in stores of 16
bytes at its address and on; a piece whose address does not pass its checks by then is a deferred fault (log 54). -/
def Sys2Proof.Machine.SavedImagesAreWritten : Prop :=
  (∀ (im : CtxImage) (r : FaultRec), (im.bytes r).length = 8192 ∧
    (∀ n : Fin 128, bytesToNat (((im.bytes r).drop (16 * n.val)).take 16) = (im.g.get n).toNat) ∧
    bytesToNat (((im.bytes r).drop 0x800).take 16) = im.gpois.toNat ∧
    ∀ j, j < 64 → (im.bytes r)[0xA00 + j]? = r.bytes[j]?) ∧
  (∀ (s : State) (t : TileId) (c : CtxId) (i : Inst) (k : Nat) (va : VA) (bs cs : List Byte) (m : Nat), bs.length = 16 →
    let g := checkG s.mem s.pk t (s.pk.ctxLevel t c) .store va 16
    let s1 := s.walked t (s.pk.tileVi t) g.2
    let w : Work := { ctx := c, img := i.img, n := i.seq }
    let a : Access := { id := s.nextId, tile := t, work := w, lsid := k, kind := .st, va := va, n := 16, ty := .w128 }
    let b : Access := { a with data := BitVec.ofNat 128 (bytesToNat bs), block := i.img, iter := i.iter, res := (s.pk.tile t).res }
    (∀ pl, g.1 = .ok pl → s.storeRun t c i k va (bs ++ cs) (m + 1) =
      (s1.post { b with place := pl }).storeRun t c i k (va + 16) cs m) ∧
    (∀ e, g.1 = .error e → s.storeRun t c i k va (bs ++ cs) (m + 1) =
      ({ s1 with pk := s1.pk.defer t c e.cause e.sub va i.img (BitVec.ofNat 48 i.iter) } : State).storeRun t c i k (va + 16) cs m)) ∧
  (∀ (s : State) (t : TileId) (c : CtxId) (i : Inst) (im : CtxImage) (r : FaultRec) (k : Nat) (va : VA),
    (s.pk.ctx t c).trapped = some (im, r) → s.perform t c i k (.ctxsave va) = s.storeRun t c i k va (im.bytes r) 512)

/-- The supervisor's instructions at S (R398, R401, R420-R424). -/
def Obligations.SupervisorAndImages : Prop := SupervisorInstructions ∧ ImageInstructions ∧ SavedImagesAreWritten

/-- At level U the supervisor's instructions give a fault token with cause PRIV and nothing else (R386, R416). -/
def Obligations.SupervisorInstructionsNeedS : Prop :=
  ∀ (f : Slot) (s : State) (l r : Token) (a b : W128), s.level = false →
    let priv (i : Instr) : Prop := exec i s = .next (s.faults i Cause.priv 0)
    (CleanTrigger l →
      (Given (.eretRs f) s l r → priv (.eretRs f)) ∧ (Given (.eretNb f) s l r → priv (.eretNb f)) ∧
      (Given (.eretAb f) s l r → priv (.eretAb f)) ∧ (Given (.eretDr f) s l r → priv (.eretDr f)) ∧
      (Given (.xlinvAll f) s l r → priv (.xlinvAll f)) ∧ (Given (.xlinvRng f) s l r → priv (.xlinvRng f)) ∧
      (Given (.engqSet f) s l (dataTok b) → priv (.engqSet f)) ∧ (Given (.pclr f) s l r → priv (.pclr f)) ∧
      (0x18 ≤ fld f.imm 5 0 → fld f.imm 5 0 ≤ 0x1B → Given (.srd f) s l r → priv (.srd f))) ∧
    (Given (.xlinvPg f) s (dataTok a) (dataTok b) → priv (.xlinvPg f)) ∧
    (Given (.errq f) s (dataTok a) r → priv (.errq f)) ∧ (Given (.ctxsave f) s (dataTok a) r → priv (.ctxsave f)) ∧
    (Given (.ctxrest f) s (dataTok a) r → priv (.ctxrest f)) ∧
    (Given (.preemptStop f) s (dataTok a) r → priv (.preemptStop f)) ∧
    (Given (.preemptRes f) s (dataTok a) r → priv (.preemptRes f)) ∧
    (Given (.preemptAb f) s (dataTok a) r → priv (.preemptAb f)) ∧
    (Given (.preemptBe f) s (dataTok a) r → priv (.preemptBe f))

/-- The common rules of a firing (R40-R42), for every instruction but NOP, the run-aware ones and those digit
instructions that take a null as a missing digit: a null or a clean predicate of the other sense at P drops the firing;
a fault token is handed on; a null gives null; end-of-run in a block is BLOCK_FORM. Where a set meets several of them, they
are taken in that order, and the first fault token of L, R and P (log 11). -/
def Obligations.CommonOperandRules : Prop :=
  ∀ (i : Instr) (s : State), i.slot.isSome = true → s.cur.work.stream = false →
    (match i with | .nop _ | .merge _ | .eose _ | .eost _ | .dadd _ | .dmul _ | .dval _ => false | _ => true) = true →
    let fm := formOf i
    let f := slotOf i
    let ts := consumed fm f s.cur
    (wantsP f = true → s.cur.p = some (predTok (f.pmode != .onTrue)) → exec i s = .next s) ∧
    (wantsP f = true → s.cur.p = some nullTok → exec i s = .next s) ∧
    (predPasses f s.cur = true → ∀ t, ts.find? (·.isFault) = some t → exec i s = .next (s.answer i (.same t))) ∧
    (predPasses f s.cur = true → (ts.any (·.isFault)) = false →
      (wantsL fm f = true ∧ s.cur.l = some nullTok ∨ wantsR fm f = true ∧ s.cur.r = some nullTok) →
      exec i s = .next (s.answer i (.same nullTok))) ∧
    (predPasses f s.cur = true → ts.all (fun t => !t.isFault && !t.isNull) = true → ts.any (·.isEor) = true →
      (match i with | .pclr _ => false | _ => true) = true →
      exec i s = .next (s.faults i Cause.blockForm 1))

/-! ### Tokens, blocks, commits and traps -/

/-- A token that arrives at a slot of its side whose operand set is not begun starts it, and leaves the links; one that
arrives at a write entry or an exit of a block goes to its instance (R44, R45, R51). -/
def Obligations.TokensArrive : Prop :=
  ∀ (s : State) (t : TileId) (k : Nat) (x : Transit), (s.pk.tile t).links[k]? = some x → (s.pk.tile t).alive x.work = true →
    let taken := s.pk.modTile t fun y => { y with links := y.links.eraseIdx k }
    (∀ (o : OpSide) (sd : Side) (row : BitVec 2) (col : BitVec 4) (n : BitVec 3) (b : Bcast) (v : Token) (fl : BitVec 5),
      x.tgt = .operand o sd row col n b → (s.pk.tile t).route x.src sd x.tok = some (v, fl) →
      (s.pk.tile t).accepts (slotAddr sd row col n) o = true →
      (s.pk.tile t).storeRoom (s.pk.tileAccs t) (slotAddr sd row col n) o x.work = true →
      ((s.pk.tile t).store.find? fun e => e.elem == slotAddr sd row col n && e.work == x.work) = none →
      ∃ t', exec (.tokenDelivery t k) s = .next t' ∧ t'.mem = s.mem ∧
        (t'.pk.tile t).links = (s.pk.tile t).links.eraseIdx k ∧
        (t'.pk.tile t).store = (s.pk.tile t).store ++
          [({ elem := slotAddr sd row col n, work := x.work } : MatchEntry).put o v]) ∧
    (∀ n : BitVec 6, x.tgt = .output n → x.work.stream = false → n.toNat < s.pk.entries t x.work Header.nwrite → exec (.tokenDelivery t k) s = .next
      { s with pk := ((taken.deliverWrite t x.work n.toNat x.tok).noteMove t (s.pk.tile t).links.length) }) ∧
    (∀ n, x.tgt = .exit n → x.work.stream = false → n.toNat < s.pk.entries t x.work Header.nexit →
      exec (.tokenDelivery t k) s = .next
        { s with pk := ((taken.deliverExit t x.work n.toNat x.src x.tok).noteMove t (s.pk.tile t).links.length) })

/-- A block is asked for, fetched, placed and started (R48, R49, R64, R65): a request takes its place in turn; one whose
image stands in the active plane is placed; a fetched image enters the store; an instance starts with the context's next
sequence number; a loop is entered with its count, and its iterations follow. -/
def Sys2Proof.Machine.BlocksAreStarted : Prop :=
  ∀ (s : State) (t : TileId) (c : CtxId) (q : BlockReq) (i : Image),
    let tl := s.pk.tile t
    let x := s.pk.ctx t c
    let started (u : State) (img : VA) (n : Nat) : Prop := u.mem = s.mem ∧
      (u.pk.tile t).insts.map (fun j => (j.ctx, j.img, j.seq, j.iter)) =
        tl.insts.map (fun j => (j.ctx, j.img, j.seq, j.iter)) ++ [(c, img, x.cur.seqn, n)] ∧
      (u.pk.ctx t c).cur.seqn = x.cur.seqn + 1 ∧ (u.pk.ctx t c).cur.g = x.cur.g
    (x.req = some q → q.placed = false → s.pk.serves t c = true → tl.reqHeld c q = false →
      (q.stamp = none → ∃ u, exec (.blockRequest t c) s = .next u ∧ (u.pk.ctx t c).req = some { q with stamp := some tl.stamp } ∧
        (u.pk.tile t).stamp = tl.stamp + 1 ∧ (u.pk.ctx t c).cur = x.cur) ∧
      (∀ n, q.stamp = some n →
        (tl.image? q.va (s.pk.tileVi t) = some i → Header.stream i.hdr = false → tl.planeHolds i = true → i.check = none →
          overWindow x i = false →
          exec (.blockRequest t c) s = .next { s with pk := s.pk.setReq t c (some { q with placed := true }) }) ∧
        (tl.image? q.va (s.pk.tileVi t) = none → tl.fetches.contains q.va = false →
          exec (.blockRequest t c) s = .next
            { s with pk := s.pk.modTile t fun y => { y with fetches := y.fetches ++ [q.va] } }))) ∧
    (∀ a y, tl.fetches.contains a = true → (tl.waiters a).head? = some c → tl.image? a (s.pk.tileVi t) = none →
      tl.loadHead a = none → tl.loadWaits a = false →
      let r := s.fetchImage t (s.pk.ctxLevel t c) a
      r.1.err = none → r.1.poison = false → (r.1.state.pk.tile t).keep r.2 = some y → y.loadWaits a = false →
      exec (.imageFetchDone t a) s = .next { r.1.state with
        pk := r.1.state.pk.modTile t fun _ => { y with fetches := y.fetches.filter (· != a) } }) ∧
    (x.req = some q → tl.image? q.va (s.pk.tileVi t) = some i → q.placed = true → tl.breaking c q = false →
      (isLoop i = false → x.cur.lpk = 0 → s.pk.maySpawn t c i (q.stamp.getD 0) = true →
        ∃ u, exec (.instanceSpawn t c) s = .next u ∧ started u q.va 0 ∧ (u.pk.ctx t c).req = none) ∧
      (isLoop i = true → s.pk.serves t c = true → tl.pendingCmds i.addr = false → tl.planeHolds i = true → tl.live c = [] →
        x.cur.lpk = 0 →
        let entered (k : BitVec 2) (n : W32) : Prop := ∃ u, exec (.loopSpawn t c) s = .next u ∧ u.mem = s.mem ∧
          (u.pk.ctx t c).req = none ∧ (u.pk.ctx t c).loop = some { img := q.va, kind := k, n := n, first := x.cur.seqn } ∧
          (u.pk.ctx t c).cur.pc = q.va ∧ (u.pk.ctx t c).cur.lpk = k ∧ (u.pk.ctx t c).cur.lpn = n ∧ (u.pk.ctx t c).cur.lpi = 0 ∧
          (u.pk.ctx t c).cur.g = x.cur.g
        (Header.iterate i.hdr = false → entered 2 0) ∧
        (∀ n, Header.iterate i.hdr = true → x.cur.getG (i.readEntry 0).reg = (n, false) → lane0 n ≠ 0 →
          (x.cur.pend.any fun y => y.1 == (i.readEntry 0).reg) = false → entered 1 (BitVec.ofNat 32 (lane0 n))))) ∧
    (∀ r k, x.req = none → s.pk.serves t c = true → s.pk.loopNext t c = some (r, i, k) → s.pk.maySpawn t c i tl.stamp = true →
      ∃ u, exec (.loopSpawn t c) s = .next u ∧ started u r.img k)

/-- What an instance's read entry delivers as it is spawned (R49): what the youngest older instance that writes the register
and has not received null for it holds, and nothing yet where that one has received nothing; the committed register where
there is no such instance, once no pending write of it is outstanding (R288). The older instances have the smaller numbers. -/
def Sys2Proof.Machine.ReadEntriesResolve : Prop :=
  ∀ (s : State) (t : TileId) (c : CtxId) (i : Image) (img : VA) (ev : Instr) (k : Nat),
    let tl := s.pk.tile t
    let x := s.pk.ctx t c
    let alone : Prop := ev = .instanceSpawn t c ∧ ∃ q, x.req = some q ∧ q.va = img ∧ tl.image? q.va (s.pk.tileVi t) = some i ∧
      q.placed = true ∧ tl.breaking c q = false ∧ isLoop i = false ∧ x.cur.lpk = 0 ∧ s.pk.maySpawn t c i (q.stamp.getD 0) = true
    let iteration : Prop := ev = .loopSpawn t c ∧ x.req = none ∧ s.pk.serves t c = true ∧
      s.pk.maySpawn t c i tl.stamp = true ∧ ∃ r m, r.img = img ∧ s.pk.loopNext t c = some (r, i, m)
    alone ∨ iteration → (∀ j ∈ tl.live c, j.seq < x.cur.seqn) → k < Header.nread i.hdr →
    let e := i.readEntry k
    let writes (j : Inst) (m : Nat) : Prop := ∃ im, s.pk.imageOf t j.img = some im ∧ m < Header.nwrite im.hdr ∧
      im.writeReg m = e.reg ∧ ∀ l, l < m → im.writeReg l ≠ e.reg
    let skipped (j : Inst) : Prop :=
      (∃ im, s.pk.imageOf t j.img = some im ∧ ∀ m, m < Header.nwrite im.hdr → im.writeReg m ≠ e.reg) ∨
      ∃ m v, writes j m ∧ alookup m j.writes = some (.tok v) ∧ v.isNull = true
    let mine : Work := { ctx := c, img := img, n := x.cur.seqn }
    let pending : Bool := x.cur.pend.any fun y => y.1 == e.reg
    let delivers (v : Token) : Prop := ∃ u, exec ev s = .next u ∧
      (∀ g ∈ expandTarget e.t0 ++ expandTarget e.t1,
        ({ src := BitVec.ofNat 12 (0xC00 + k), tgt := g, tok := v, work := mine } : Transit) ∈ (u.pk.tile t).links) ∧
      ∃ y ∈ (u.pk.tile t).insts, y.ctx = c ∧ y.seq = x.cur.seqn ∧ k ∈ y.reads
    let waits : Prop := ∃ u, exec ev s = .next u ∧ ∀ y ∈ (u.pk.tile t).insts, y.ctx = c → y.seq = x.cur.seqn → k ∉ y.reads
    ((∀ j ∈ tl.live c, skipped j) → (pending = false → delivers (dataTok (x.cur.getG e.reg).1 (x.cur.getG e.reg).2)) ∧
      (pending = true → waits)) ∧
    (∀ j m older younger, tl.live c = older ++ j :: younger → (∀ y ∈ younger, skipped y) → writes j m →
      (∀ v, alookup m j.writes = some (.tok v) → v.isNull = false → delivers v) ∧
      (alookup m j.writes = none ∨ (∃ l, alookup m j.writes = some (.pending l)) → waits))

/-- Blocks are fetched, placed and started, and their reads resolve (R48, R49, R64, R65). -/
def Obligations.BlocksStart : Prop := BlocksAreStarted ∧ ReadEntriesResolve

/-- Instance i of image img is the oldest of its context, complete and without a fault, and its commit lacks nothing: the
tile runs, no trap is due at the boundary, and there is room for all it does (R51, R52, R53, R412). -/
def Sys2Proof.Machine.Commits (s : State) (t : TileId) (c : CtxId) (i : Inst) (img : Image) : Prop :=
  (s.pk.tile t).oldest? c = some i ∧ s.pk.imageOf t i.img = some img ∧ s.pk.running t = true ∧
    (s.pk.ctx t c).trapDue = false ∧ i.fault? img = none ∧ i.complete img = true ∧ s.verdict t c i img = .go

/-- After the commit of i the context of u stands at va, or where its sequencer has gone on meanwhile: at the instance that
follows. A successor that is asked for only now is that of va (R52, R354). -/
def Sys2Proof.Machine.GoesTo (s u : State) (t : TileId) (c : CtxId) (i : Inst) (img : Image) (va : VA) : Prop :=
  let x := s.pk.ctx t c
  let rest := ((s.pk.tile t).live c).filter fun j => j.seq != i.seq
  (∀ j, rest.head? = some j → j.loop = none → (u.pk.ctx t c).cur.pc = j.img) ∧
  (rest = [] → (x.quitLoop i).loop = none → (lateExit img i = true ∨ x.req = none ∨ ∃ q, x.req = some q ∧ q.va = va) →
    (u.pk.ctx t c).cur.pc = va) ∧
  (u.pk.ctx t c).req = if lateExit img i then some { va := va } else x.req

/-- The commit of the oldest complete instance of a block that is no loop and leaves by a jump (R51, R52): every write
entry that holds a value gives it to its register with its poison, every register that no entry names keeps its value,
the flags join s.fpf, the context goes to the exit's destination, and the instance is gone. -/
def Sys2Proof.Machine.CommitWritesRegisters : Prop :=
  ∀ (s : State) (t : TileId) (c : CtxId) (i : Inst) (img : Image) (n : Nat) (k : Token) (va : VA),
    Commits s t c i img → i.lsids = [] → i.taskArgs = none → isLoop img = false → i.exits = [(n, k)] →
    (img.exitEntry n).kind ≠ 1 → (img.exitEntry n).kind ≠ 2 → (img.exitEntry n).kind ≠ 3 →
    exitDest (img.exitEntry n) k (s.pk.ctx t c).cur = some va →
    ∃ t', exec (.commit t c) s = .next t' ∧ t'.mem = s.mem ∧ GoesTo s t' t c i img va ∧
      (t'.pk.ctx t c).cur.fpf = (s.pk.ctx t c).cur.fpf ||| i.flags ∧
      (t'.pk.ctx t c).cur.lvl = (s.pk.ctx t c).cur.lvl ∧
      (t'.pk.ctx t c).cur.arg = (s.pk.ctx t c).cur.arg ∧
      (∀ r, (∀ j, j < Header.nwrite img.hdr → img.writeReg j ≠ r) →
        (t'.pk.ctx t c).cur.getG r = (s.pk.ctx t c).cur.getG r) ∧
      (∀ j v, j < Header.nwrite img.hdr → alookup j i.writes = some (.tok v) → v.isNull = false → img.writeReg j < 128 →
        (∀ m, m < Header.nwrite img.hdr → m ≠ j → img.writeReg m ≠ img.writeReg j) →
        (t'.pk.ctx t c).cur.getG (img.writeReg j) = (v.val, v.poison)) ∧
      (∀ j ∈ (t'.pk.tile t).insts, ¬ (j.ctx = c ∧ j.seq = i.seq))

/-- The exit of a commit (R64, R65, R355, R364, R80): a call puts its return on the stack and a return takes it off; a halt
ends the context and gives up its operand slots, and HALT.res stops every tile of the residency; a back exit goes on with the
next iteration while the count or CONT asks for one, and leaves the loop otherwise; an exit that breaks the loop squashes the
iterations after its own; a taken task record gives arguments 0 to 3 and leaves its queue or buffer. -/
def Sys2Proof.Machine.CommitsTakeTheirExit : Prop :=
  ∀ (s : State) (t : TileId) (c : CtxId) (i : Inst) (img : Image) (n : Nat) (k : Token) (va : VA),
    Commits s t c i img → i.lsids = [] → i.exits = [(n, k)] →
    let x := s.pk.ctx t c
    let e := img.exitEntry n
    let back : Prop := e.kind = 4 ∨ e.kind = 5
    let more : Prop := if Header.iterate img.hdr then x.cur.lpi.toNat + 1 < x.cur.lpn.toNat else i.conts = [true]
    let younger : Prop := ∃ j ∈ (s.pk.tile t).live c, i.seq < j.seq ∧ ∃ r q, i.loop = some r ∧ j.loop = some q ∧ q.first = r.first
    ∃ u, exec (.commit t c) s = .next u ∧ u.mem = s.mem ∧ (∀ j ∈ (u.pk.tile t).insts, ¬ (j.ctx = c ∧ j.seq = i.seq)) ∧
      (isLoop img = false → i.taskArgs = none → exitDest e k x.cur = some va →
        (e.kind = 1 → x.cur.rs.length ≤ 16 → (u.pk.ctx t c).cur.stack = e.ret :: x.cur.stack ∧ GoesTo s u t c i img va) ∧
        (e.kind = 2 → (u.pk.ctx t c).cur.stack = x.cur.stack.tail ∧ GoesTo s u t c i img va)) ∧
      (isLoop img = false → i.taskArgs = none → e.kind = 3 →
        (u.pk.ctx t c).st ≠ .live ∧ (u.pk.ctx t c).req = none ∧ (u.pk.ctx t c).precs = [] ∧
        (∀ m : Fin 16, (u.pk.tile t).omSt.get m ≠ .owned c) ∧
        (i.haltRes = true → ∀ m r, s.pk.resOf t = some (m, r) → ∀ v ∈ r.tiles, (u.pk.tile v).halting = true) ∧
        (i.haltRes = false → ∀ v, (u.pk.tile v).halting = (s.pk.tile v).halting)) ∧
      (isLoop img = true → i.taskArgs = none →
        (back → more → (u.pk.ctx t c).cur.pc = i.img ∧ (u.pk.ctx t c).cur.lpi = x.cur.lpi + 1 ∧
          (u.pk.ctx t c).cur.lpn = x.cur.lpn ∧ (u.pk.ctx t c).cur.lpk = x.cur.lpk) ∧
        (back → ¬ more → exitDest e k x.cur = some va → GoesTo s u t c i img va) ∧
        (¬ back → e.kind ≠ 3 → younger → ∀ j ∈ (u.pk.tile t).live c, j.seq < i.seq) ∧
        (¬ back → ¬ younger → e.kind ≠ 3 → exitDest e k x.cur = some va → GoesTo s u t c i img va)) ∧
      (∀ record buffer, isLoop img = false → e.kind ≠ 1 → e.kind ≠ 2 → e.kind ≠ 3 → i.taskArgs = some (record, buffer) →
        (∀ j : Fin 8, (u.pk.ctx t c).cur.arg.get j =
          if j.val < 4 then (record.extractLsb' (64 + 48 * j.val) 48).setWidth 64 else x.cur.arg.get j) ∧
        (buffer = true → (u.pk.ctx t c).cur.stl = none) ∧
        (buffer = false → ∀ y ∈ (u.pk.tile t).tasks, y.st ≠ .held c i.seq))

/-- The commit issues what its LSIDs hold in LSID order (R52, R56, R296): each store, release, atomic and fence is posted,
and each engine operation joins its queue and raises its counter. -/
def Sys2Proof.Machine.CommitsIssueInOrder : Prop :=
  ∀ (s : State) (t : TileId) (c : CtxId) (i : Inst) (img : Image) (n : Nat) (k : Token),
    Commits s t c i img → i.taskArgs = none → isLoop img = false → i.exits = [(n, k)] →
    (img.exitEntry n).kind ≠ 1 → (img.exitEntry n).kind ≠ 2 → (img.exitEntry n).kind ≠ 3 →
    let vs := i.lsids.mergeSort fun x y => x.1 ≤ y.1
    let own (a : Access) : Bool :=
      a.tile == t && a.work.ctx == c && !a.work.stream && a.work.n == i.seq && a.isLoad
    ((∀ v ∈ vs, ∃ a, v.2 = .access a ∧ (∀ b w, a.place ≠ .acc b w) ∧ a.isLoad = false) →
      ∃ u, exec (.commit t c) s = .next u ∧ u.mem = s.mem ∧ ∃ posted : List Access,
        u.pk.accs = s.pk.accs.filter (fun a => !own a) ++ posted ∧ posted.length = vs.length ∧
        ∀ (j : Nat) (a : Access) (m : Nat), vs[j]? = some (m, .access a) →
          let res : Option Nat := if a.origin.isSome then none else (s.pk.tile a.tile).res
          posted[j]? = some { a with id := s.nextId + j, st := .waiting, res := res, vi := a.vi.or (some (s.pk.tileVi a.tile)) }) ∧
    ((∀ v ∈ vs, ∃ cmd ctr, v.2 = .engine cmd ctr) →
      ∃ u, exec (.commit t c) s = .next u ∧ u.mem = s.mem ∧ ∃ ops : List Op, ops.length = vs.length ∧
        (∀ j m cmd ctr, vs[j]? = some (m, .engine cmd ctr) →
          let o : Op := { id := s.nextId + j, ctx := c, cmd := cmd, ctr := ctr, lvl := s.pk.ctxLevel t c, po := i.seq, lsid := m }
          ops[j]? = some { o with block := i.img, iter := i.iter }) ∧
        (u.pk.tile t).streamQ = (s.pk.tile t).streamQ ++ ops.filter (fun o => o.cmd.queue == some 0) ∧
        (u.pk.tile t).matrixQ = (s.pk.tile t).matrixQ ++ ops.filter (fun o => o.cmd.queue == some 1) ∧
        (u.pk.tile t).configQ = (s.pk.tile t).configQ ++
          ops.filter (fun o => match o.cmd.queue with | some q => 2 ≤ q | none => false) ∧
        (u.pk.tile t).sideQ = (s.pk.tile t).sideQ ++ ops.filter (fun o => o.cmd.queue == none) ∧
        ∀ r : Fin 8, ((u.pk.ctx t c).cur.cnt.get r).val =
          (((s.pk.ctx t c).cur.cnt.get r).val + (ops.filter fun o => o.ctr == r).length) % 64)

/-- What a commit writes, where it goes and what it issues (R51, R52, R56, R64, R355, R364). -/
def Obligations.InstancesCommit : Prop := CommitWritesRegisters ∧ CommitsTakeTheirExit ∧ CommitsIssueInOrder

/-- A fault token at an output of the oldest instance stops the context there (R53): its instances are squashed, nothing
it would have written is written, and the trap is raised with the cause, subcode and address that the token holds. -/
def Obligations.FaultTokensTrapExactly : Prop :=
  ∀ (s : State) (t : TileId) (c : CtxId) (i : Inst) (img : Image) (k : Token),
    (s.pk.tile t).oldest? c = some i → s.pk.imageOf t i.img = some img → i.fault? img = some k →
    s.pk.running t = true → (s.pk.ctx t c).raised = none →
    ∃ t' r, exec (.trapExact t c) s = .next t' ∧ t'.mem = s.mem ∧
      (t'.pk.ctx t c).raised = some r ∧ r.cause = k.cause ∧ r.sub = k.sub ∧ r.va = k.fva ∧ r.coord = k.coord ∧
      r.block = i.img ∧ r.cls = 0 ∧
      (t'.pk.tile t).live c = [] ∧ (t'.pk.ctx t c).cur = (s.pk.ctx t c).cur ∧ (t'.pk.ctx t c).req = none

/-- Taking a trap (R411): the committed state becomes the trapped image, the trap registers take the record, the level
becomes S, the PC is the handler's that the supervisor word names, and every register keeps its value. -/
def Sys2Proof.Machine.TrapEntersTheHandler : Prop :=
  ∀ (s : State) (t : TileId) (c : CtxId) (r : FaultRec) (h : VA),
    (s.pk.ctx t c).st = .live → s.pk.running t = true → s.pk.canMark t.die = true → s.pk.markReady t c = true →
    (s.pk.ctx t c).raised = some r → (s.pk.ctx t c).tcause = 0 → (s.pk.squash t c 0).handler s.mem t = .ok h →
    ∃ t' r', exec (.trapDelivery t c) s = .next t' ∧ t'.mem.cells = s.mem.cells ∧
      (t'.pk.ctx t c).trapped = some ((s.pk.ctx t c).cur, r') ∧
      r'.cause = r.cause ∧ r'.sub = r.sub ∧ r'.cls = r.cls ∧ r'.kind = 1 ∧
      (t'.pk.ctx t c).tcause = r.cls ++ (r.sub ++ r.cause) ∧ (t'.pk.ctx t c).tblock = r.block ∧
      (t'.pk.ctx t c).tval = r.va ∧ (t'.pk.ctx t c).tinfo = r.coord ++ (r.itb.setWidth 64) ∧
      (t'.pk.ctx t c).cur.lvl = true ∧ (t'.pk.ctx t c).cur.pc = h ∧ (t'.pk.ctx t c).cur.g = (s.pk.ctx t c).cur.g ∧
      (t'.pk.ctx t c).cur.gpois = (s.pk.ctx t c).cur.gpois ∧ (t'.pk.ctx t c).raised = none ∧
      (t'.pk.ctx t c).req = some { va := h } ∧ t'.pk.ring.sent.length = s.pk.ring.sent.length + 1

/-- A trap against a context that already handles one enters no handler (R414): its swarm is aborted with the cause of
the first trap, and a record of kind 0x08 for the new one is noted. -/
def Sys2Proof.Machine.DoubleTrapsAbort : Prop :=
  ∀ (s : State) (t : TileId) (c : CtxId) (r : FaultRec) (n : Nat) (x : Resid) (w : Swarm),
    (s.pk.ctx t c).st = .live → s.pk.running t = true → s.pk.canMark t.die = true → s.pk.markReady t c = true →
    (s.pk.ctx t c).raised = some r → (s.pk.ctx t c).tcause ≠ 0 → s.pk.resOf t = some (n, x) →
    s.pk.swarm? x.swarm = some w → w.aborted = none → w.st ≠ .ended →
    ∃ t' w', exec (.trapDelivery t c) s = .next t' ∧ t'.pk.swarm? x.swarm = some w' ∧
      w'.aborted = some ((s.pk.ctx t c).tcause.extractLsb' 0 8) ∧
      ∃ y ∈ t'.pk.pending, y.fr.kind = 8 ∧ y.fr.cause = r.cause

/-- A trap is taken, or is a double trap (R411, R414). -/
def Obligations.TrapsAreTaken : Prop := TrapEntersTheHandler ∧ DoubleTrapsAbort

/-- The return from a trap (R420): the commit of ERET.rs restores the trapped image, its level and PC with it, clears
the trap registers, and asks for the block at that PC. -/
def Obligations.EretRestores : Prop :=
  ∀ (s : State) (t : TileId) (c : CtxId) (i : Inst) (img : Image) (k n : Nat) (tok : Token) (im : CtxImage) (r : FaultRec),
    Commits s t c i img → (s.pk.tile t).resStopped = false → i.lsids = [(k, .eret 0)] → i.taskArgs = none → i.exits = [(n, tok)] →
    (s.pk.ctx t c).trapped = some (im, r) → r.cls ≠ 1 →
    ∃ t', exec (.commit t c) s = .next t' ∧ t'.mem = s.mem ∧
      (t'.pk.ctx t c).cur.g = im.g ∧ (t'.pk.ctx t c).cur.gpois = im.gpois ∧ (t'.pk.ctx t c).cur.pc = im.pc ∧
      (t'.pk.ctx t c).cur.lvl = im.lvl ∧ (t'.pk.ctx t c).cur.fpf = im.fpf ∧ (t'.pk.ctx t c).cur.arg = im.arg ∧
      (t'.pk.ctx t c).trapped = none ∧ (t'.pk.ctx t c).tcause = 0 ∧ (t'.pk.ctx t c).tblock = 0 ∧
      (t'.pk.ctx t c).tval = 0 ∧ (t'.pk.ctx t c).tinfo = 0 ∧ (t'.pk.ctx t c).req = some { va := im.pc }

/-- Records of deferred and beat-exact faults (R412, R413): one reaches its context behind those it holds, up to eight,
and the next goes to the error queue; a beat-exact one waits until nothing of the beats before its own is left to deliver; a
noted record that names no context is formed, with the mark that gives it its number (R409), and stored in its VI's queue. -/
def Obligations.RecordsAreDelivered : Prop :=
  ∀ (s : State) (t : TileId) (c : CtxId) (d : DieId) (r : PendRec) (rest : List PendRec),
    (∀ y : PendRec, y.fr.cls ≠ 1 → s.pk.noteDue t c y = (y.ctx == some (t, c))) ∧
    (∀ (y : PendRec) (x : Section) (b : Nat) (v : Option Token), y.ctx = some (t, c) → y.res = (s.pk.tile t).res → y.fr.cls = 1 →
      (s.pk.tile t).stoppedSection c y.fr = some x → x.stop = some (b, v) → (s.pk.tile t).renumbers x = false →
      s.pk.noteDue t c y = true →
      let before (w : Work) : Prop := w.ofSection x = true ∧ w.n < b
      (∀ m ∈ x.due, b ≤ m) ∧ (∀ a ∈ s.pk.accs, a.tile = t → ¬ before a.work) ∧
        (∀ k ∈ (s.pk.tile t).links, ¬ before k.work) ∧ ∀ e ∈ (s.pk.tile t).store, ¬ before e.work) ∧
    (takeFirst (s.pk.noteDue t c) s.pk.pending = some (r, rest) → r.res = (s.pk.tile t).res →
      (s.pk.ctx t c).st = .live →
      ((s.pk.ctx t c).precs.length < 8 → ∃ t', exec (.deferredRecordDelivery t c) s = .next t' ∧ t'.mem = s.mem ∧
        t'.pk.pending = rest ∧ (t'.pk.ctx t c).precs = (s.pk.ctx t c).precs ++ [r.fr] ∧
        (t'.pk.ctx t c).cur = (s.pk.ctx t c).cur) ∧
      (8 ≤ (s.pk.ctx t c).precs.length → r.fr.cls ≠ 1 → ∃ t', exec (.deferredRecordDelivery t c) s = .next t' ∧
        t'.pk.pending = rest ++ [{ of := some (t, c), res := r.res, fr := { r.fr with kind := 2 } }])) ∧
    (takeFirst (fun y : PendRec => y.ctx.isNone && y.on.getD y.fr.die == d && s.pk.markFree y) s.pk.pending = some (r, rest) →
      s.pk.canMark d = true → (sget {} (s.pk.die d).errq r.fr.vi.val).full = false →
      ∃ t' f, exec (.errorQueueStore d) s = .next t' ∧ t'.pk.pending = rest ∧
        (sget {} (t'.pk.die d).errq r.fr.vi.val).recs = (sget {} (s.pk.die d).errq r.fr.vi.val).recs ++ [f] ∧
        f.cause = r.fr.cause ∧ f.sub = r.fr.sub ∧ f.kind = r.fr.kind ∧ f.elap = (s.pk.die d).elap ∧
        t'.pk.ring.sent.length = s.pk.ring.sent.length + 1)

/-! ### The host's registers and memory accesses -/

/-- Writes of a queue's registers (R324, R325). While en is 1, QCFG accepts a write that clears en, for en alone, whatever its
other fields name (log 88); while it is 0, every field, with en only where the VI may enable the queue. A tail too far ahead
stands, and clears en (log 63); a chead outside the records written is ignored. Each error sets its bit of QSTAT. The registers
are reached through the VI's window. -/
def Obligations.QueueRegisters : Prop :=
  ∀ (s : State) (vi : Fin 64) (q : BitVec 14) (v : W64) (k : Nat), s.pk.viQueue vi q.toNat = some k →
    let x := s.pk.queue k
    let put (y : HostQueue) : State := { s with pk := s.pk.modQueue k fun _ => y }
    let w : W64 := v &&& 0xFFFE
    let cfgerr (y : HostQueue) : HostQueue := { y with stat := withBit y.stat 3 true }
    let off : HostQueue := { x with cfg := withBit x.cfg 0 false, words := [] }
    let reg (a : Nat) : Host.Outcome State Fault Refusal := exec (.registerWrite (.window vi (0x10000 + 0x40 * q.toNat + a) v)) s
    (x.en = true → exec (.qcfgEnable vi q v) s = .next (put (cfgerr x)) ∧
      exec (.qcfgDisable vi q v) s = .next (put (if w = off.cfg then off else cfgerr off))) ∧
    (x.en = false → (12 < fld v 11 8 ∨ 12 < fld v 15 12) →
      exec (.qcfgEnable vi q v) s = .next (put (cfgerr x)) ∧ exec (.qcfgDisable vi q v) s = .next (put (cfgerr x))) ∧
    (x.en = false → fld v 11 8 ≤ 12 → fld v 15 12 ≤ 12 →
      exec (.qcfgDisable vi q v) s = .next (put { x with cfg := w }) ∧
      exec (.qcfgEnable vi q v) s = .next (put
        (if (s.pk.vi vi).en = true ∧ (bit v 4 = true → (s.pk.vi vi).bres ≠ 0) then { x with cfg := w ||| 1 }
         else cfgerr { x with cfg := w }))) ∧
    exec (.qtailWrite vi q v) s = .next (put
      (if 2 ^ (fld x.cfg 11 8 + 4) < (v.setWidth 32 - x.head).toNat then
        { x with tail := v.setWidth 32, stat := withBit x.stat 0 true, cfg := withBit x.cfg 0 false, words := [] }
       else { x with tail := v.setWidth 32 })) ∧
    exec (.qcheadWrite vi q v) s = .next (put
      (if (x.ctail - v.setWidth 32).toNat ≤ 2 ^ (fld x.cfg 15 12 + 4) then { x with chead := v.setWidth 32 }
       else { x with stat := withBit x.stat 4 true })) ∧
    reg 0x00 = (if bit v 0 = true then exec (.qcfgEnable vi q v) s else exec (.qcfgDisable vi q v) s) ∧
    reg 0x18 = exec (.qtailWrite vi q v) s ∧ reg 0x28 = exec (.qcheadWrite vi q v) s ∧
    (x.en = true → reg 0x08 = .next (put (cfgerr x)) ∧ reg 0x10 = .next (put (cfgerr x))) ∧
    (x.en = false → reg 0x08 = .next (put { x with base := withBit v 63 false }) ∧
      reg 0x10 = .next (put { x with cbase := withBit v 63 false })) ∧
    reg 0x30 = .next (put { x with stat := x.stat &&& ~~~ v.setWidth 5 }) ∧
    ∀ a, (a = 0x20 ∨ a = 0x38) → reg a = .next (put x)

/-- Writes of a control block (R384, R385, R459): a write that sets en takes effect only under the range and the over
conditions, a window over a save pool being out of range, one that clears it only on an idle VI, and while en is 1 any other
field is ignored and sets wen, one written with en included (log 63). Until die 0 is ready a write is ignored (R457, log 63).
Attestation (R404): a request sets busy, one made while busy is ignored, and so is the nonce; the report then stands, with
done. -/
def Obligations.ControlBlocks : Prop :=
  ∀ (s : State) (vi : Fin 64) (v : W64),
    let x := s.pk.vi vi
    let put (y : ViBlock) : State := { s with pk := s.pk.modVi vi fun _ => y }
    let w : W64 := v &&& 0x0FFFFFFF07FF0000
    let y : ViBlock := { x with ctl := w }
    let off : ViBlock := { x with ctl := withBit x.ctl 0 false }
    let block (k : Nat) : Host.Outcome State Fault Refusal := exec (.registerWrite (.management (0x40000 + 0x80 * vi.val + 8 * k) v)) s
    let window (a : Nat) : Host.Outcome State Fault Refusal := exec (.registerWrite (.window vi a v)) s
    let table : W64 := v &&& 0x3FFFFFFF800
    let paw : W64 := v &&& 0x83FFFFFF03FFFFFF
    let words : List ViBlock := [{ x with root := table }, { x with rngt := table }, { x with q := v &&& 0xBFFF7FFF3FFF },
      { x with tmax := v }, { x with bres := v }, { x with mem := v }, { x with tsh := v }, { x with paw := x.paw.set 0 paw },
      { x with paw := x.paw.set 1 paw }, { x with paw := x.paw.set 2 paw }, { x with paw := x.paw.set 3 paw }]
    ((s.pk.die 0).ready = false → exec (.viEnable vi v) s = .next s ∧ exec (.viDisable vi v) s = .next s ∧ ∀ k, k < 16 → block k = .next s) ∧
    ((s.pk.die 0).ready = true →
      (x.en = false → y.inRange = true → s.pk.clearOfPools y = true → s.pk.fits vi y = true →
        exec (.viEnable vi v) s = .next (put { y with ctl := w ||| 1 })) ∧
      (x.en = false → (y.inRange = false ∨ s.pk.clearOfPools y = false) → s.pk.fits vi y = true →
        exec (.viEnable vi v) s = .next (put { y with stat := withBit x.stat 0 true })) ∧
      (x.en = false → y.inRange = true → s.pk.clearOfPools y = true → s.pk.fits vi y = false →
        exec (.viEnable vi v) s = .next (put { y with stat := withBit x.stat 1 true })) ∧
      (x.en = false → exec (.viDisable vi v) s = .next (put y)) ∧
      (x.en = true → exec (.viEnable vi v) s = .next (put { x with stat := withBit x.stat 3 true })) ∧
      (x.en = true → off.ctl = w → s.pk.viBusy vi = false → exec (.viDisable vi v) s = .next (put off)) ∧
      (x.en = true → off.ctl = w → s.pk.viBusy vi = true →
        exec (.viDisable vi v) s = .next (put { x with stat := withBit x.stat 2 true })) ∧
      block 0 = (if bit v 0 = true then exec (.viEnable vi v) s else exec (.viDisable vi v) s) ∧
      (∀ k, k < 11 → block (k + 1) = .next (put (if x.en = true then { x with stat := withBit x.stat 3 true } else words.getD k x))) ∧
      block 12 = .next (put { x with stat := x.stat &&& ~~~ v.setWidth 4 }) ∧ ∀ k, 12 < k → k < 16 → block k = .next s) ∧
    window 0x800 = (if bit v 0 = true then exec (.attestRequest vi) s else .next s) ∧
    (x.busy = false → exec (.attestRequest vi) s = .next (put { x with busy := true, attDone := false }) ∧
      ∀ k, k < 8 → window (0x840 + 8 * k) =
        .next (put { x with nonce := x.nonce.take (8 * k) ++ natToBytes 8 v.toNat ++ x.nonce.drop (8 * k + 8) })) ∧
    (x.busy = true → exec (.attestRequest vi) s = .next s ∧ (∀ k, k < 8 → window (0x840 + 8 * k) = .next s) ∧
      exec (.attestDone vi) s = .next (put { x with busy := false, attDone := true, report := s.pk.report vi }))

/-- A host access of one piece through a VI's window (R324): 16 or 8 aligned bytes, or one (log 63), translated on die 0
(log 80). Through an M mapping a write stores its bytes there and nowhere else, and a read gives the bytes that stand there.
Through a P mapping a write of a word fills it, or meets a full one and stores nothing (R227); a read waits for it to be full.
An access that translation or permission stops writes nothing and reads 0. What the walk leaves behind is `s1` (R229, R236). -/
def Sys2Proof.Machine.HostPieces : Prop :=
  ∀ (s : State) (vi : Fin 64) (va : VA) (bs : List Byte) (note : WalkNote), Inv s →
    (s.pk.vi vi).en = true → (s.pk.die 0).ready = true → va.toNat / 2 ^ 72 = 0xFF →
    ((bs.length = 16 ∧ va.toNat % 16 = 0) ∨ (bs.length = 8 ∧ va.toNat % 8 = 0) ∨ bs.length = 1) →
    let n := bs.length
    let s1 := s.walkedOn 0 vi note
    let clean (a : Nat) : Prop := s1.mem.badGranule a = false ∧ (s1.mem.settle a).2 = .clean
    let stores (a : Nat) (t : State) : Prop :=
      (∀ k, t.mem.byte k = if a ≤ k ∧ k < a + n then bs.getD (k - a) 0 else s.mem.byte k) ∧ t.pk.resids = s.pk.resids ∧
      ∀ u, t.pk.tile u = s.pk.tile u
    let reads (a : Nat) (t : State) : Prop :=
      t.mem = s1.mem ∧ t.pk.hostReply = some (readBytes s.mem.cells a n) ∧ t.pk.resids = s.pk.resids ∧ ∀ u, t.pk.tile u = s.pk.tile u
    (∀ d off, placeVi s.mem s.pk 0 vi va .write false = (.ok (d, off, false), note) → (n = 16 ∨ clean (memIndex d off)) →
      ∃ t, exec (.hostMemoryAccess vi va n (some bs)) s = .next t ∧ stores (memIndex d off) t ∧
        ∀ g, sget false t.mem.poison g = if n = 16 ∧ g = memIndex d off / 16 then false else sget false s1.mem.poison g) ∧
    (∀ d off, placeVi s.mem s.pk 0 vi va .write false = (.ok (d, off, true), note) → clean (memIndex d off) →
      let a := memIndex d off
      let word (k : Nat) : Bool := s1.mem.isFull (a + 8 * k)
      (n = 1 → exec (.hostMemoryAccess vi va n (some bs)) s = .next s1) ∧
      (n ≠ 1 → word 0 = false → (n = 16 → word 1 = false) → ∃ t, exec (.hostMemoryAccess vi va n (some bs)) s = .next t ∧
        stores a t ∧ ∀ k, 8 * k < n → t.mem.isFull (a + 8 * k) = true) ∧
      (n ≠ 1 → word 0 = true → (n = 16 → word 1 = true) → ∃ t, exec (.hostMemoryAccess vi va n (some bs)) s = .next t ∧
        t.mem = s1.mem ∧ ∃ r ∈ t.pk.pending, r.fr.vi = vi ∧ r.fr.cause = Cause.writeOnce)) ∧
    (∀ d off c, placeVi s.mem s.pk 0 vi va .read false = (.ok (d, off, c), note) → clean (memIndex d off) →
      (c = true → ∀ k, 8 * k < n → s1.mem.isFull (memIndex d off - memIndex d off % 8 + 8 * k) = true) →
      ∃ t, exec (.hostMemoryAccess vi va n none) s = .next t ∧ reads (memIndex d off) t) ∧
    (∀ d off, placeVi s.mem s.pk 0 vi va .read false = (.ok (d, off, true), note) → s1.mem.isFull (memIndex d off) = false →
      exec (.hostMemoryAccess vi va n none) s = .next s1) ∧
    (∀ e, placeVi s.mem s.pk 0 vi va .write false = (.error e, note) → exec (.hostMemoryAccess vi va n (some bs)) s = .next s1) ∧
    (∀ e, placeVi s.mem s.pk 0 vi va .read false = (.error e, note) → exec (.hostMemoryAccess vi va n none) s =
        .next { s1 with pk := { s1.pk with hostReply := some (List.replicate n 0) } })

/-- Longer host accesses (R324): their aligned pieces (log 63) are translated first, on die 0 (log 80), and where one is
stopped nothing is written and 0 is read. Otherwise, through M mappings to places that do not meet, each piece takes its share
of the bytes, and no other byte changes; a read gives the bytes of the pieces in their order. An access while the VI or die 0
is not there, or to another package, is stopped. -/
def Sys2Proof.Machine.LongHostAccesses : Prop :=
  ∀ (s : State) (vi : Fin 64) (va : VA) (bs : List Byte) (write : Bool) (ps : List (Place × Nat)) (notes : List WalkNote), Inv s →
    let n := bs.length
    let there : Prop := (s.pk.vi vi).en = true ∧ (s.pk.die 0).ready = true ∧ va.toNat / 2 ^ 72 = 0xFF
    let cut := hostPieces va.toNat n n
    let s1 := notes.foldl (fun u w => u.walkedOn 0 vi w) s
    let start (x : Place × Nat) : Nat := match x.1 with | .home d off _ _ => memIndex d off | _ => 0
    let within (a : Nat) (x : Place × Nat) : Prop := start x ≤ a ∧ a < start x + x.2
    let share (k : Nat) : List Byte := (bs.drop ((ps.take k).map (·.2)).sum).take (ps.getD k (Place.none, 0)).2
    (cut.map (·.2)).sum = n ∧
    (¬ there → exec (.hostMemoryAccess vi va n (some bs)) s = .next s ∧ exec (.hostMemoryAccess vi va n none) s =
      .next { s with pk := { s.pk with hostReply := some (List.replicate n 0) } }) ∧
    (there → hostPlaces s.mem s.pk vi write cut = (none, notes) → exec (.hostMemoryAccess vi va n (if write then some bs else none)) s =
      .next (if write then s1 else { s1 with pk := { s1.pk with hostReply := some (List.replicate n 0) } })) ∧
    (there → hostPlaces s.mem s.pk vi write cut = (some ps, notes) → (∀ x ∈ ps, x.1.isP = false) →
      (∀ x ∈ ps, s1.mem.badGranule (start x) = false ∧ (s1.mem.settle (start x)).2 = .clean) →
      (∀ i j, i < ps.length → j < ps.length → ∀ a, within a (ps.getD i (Place.none, 0)) → within a (ps.getD j (Place.none, 0)) → i = j) →
      ∃ t, exec (.hostMemoryAccess vi va n (if write then some bs else none)) s = .next t ∧
        (write = false → t.mem = s1.mem ∧ t.pk.hostReply = some (ps.flatMap fun x => readBytes s.mem.cells (start x) x.2)) ∧
        (write = true → (∀ k, k < ps.length → readBytes t.mem.cells (start (ps.getD k (Place.none, 0))) (ps.getD k (Place.none, 0)).2 = share k) ∧
          ∀ a, (∀ x ∈ ps, ¬ within a x) → t.mem.byte a = s.mem.byte a))

/-- Host accesses of part memory (R324). -/
def Obligations.HostAccesses : Prop := HostPieces ∧ LongHostAccesses

/-! ### A die's registers, its clocks, its power -/

/-- Writes of a die's registers and what the power manager sets (R28, R337, R338, R456-R462): ρ waits for the horizon, the
stack mode for the next reset, the save pool moves only where R459 lets it, a die that is not ready ignores MRET, the reset of
a die on the ring is announced first, and what a reset keeps of the die is its defects, its limits and its floor (log 89). A
cap never lies below ρ and comes only where the envelope is used up, or outside the rated limits, where it is ρ; inside them no
cap remains (log 62). The demand and the fraction chosen above ρ are free (log 62). -/
def Obligations.DieRegisters : Prop :=
  ∀ (s : State) (d : DieId) (v : W64) (rho : BitVec 2) (b : Bool) (q : Fin 5) (m : Fin 4) (tin : W16) (flow supply : Nat),
    let put (f : Die → Die) : State := { s with pk := s.pk.modDie d f }
    let others : Nat := ((allDies.filter (· != d)).map fun c => (s.pk.die c).pw.toNat).sum
    let hot : Prop := ∃ c, 1050 < (s.pk.die c).tj.toNat
    let rated : Prop := 150 ≤ tin.toNat ∧ tin.toNat ≤ 400 ∧ 60 ≤ flow ∧ 440 ≤ supply ∧ supply ≤ 540
    let written : BitVec 2 := v.extractLsb' 8 2
    exec (.mcfgRho d rho) s = .next (put fun x => { x with rho := rho, pendingRho := some rho }) ∧
    exec (.mcfgSmode d b) s = .next (put fun x => { x with smode := b }) ∧
    (bit v 1 = false → exec (.registerWrite (.management (0x1000 * d.val + 0x08) v)) s = .next (put fun x =>
      { x with smode := bit v 0, rho := written, pendingRho := if x.rho = written then x.pendingRho else some written })) ∧
    exec (.registerWrite (.management (0x1000 * d.val + 0x10) v)) s = exec (.mretWrite d v) s ∧
    exec (.registerWrite (.management (0x1000 * d.val + 0x20) v)) s = exec (.mpoolWrite d v) s ∧
    (s.pk.onRing d = true → exec (.mcfgRst d) s = .next { s with pk := s.pk.enqueueRing d 0 (.gone d none) }) ∧
    (s.pk.onRing d = false → ∃ t, exec (.mcfgRst d) s = .next t ∧ t.mem = s.mem ∧ (t.pk.die d).stage = 0 ∧
      (t.pk.die d).ready = false ∧ (t.pk.die d).smode = (s.pk.die d).smode ∧ (t.pk.die d).mpool = mpoolReset d.val ∧
      (t.pk.die d).elap = 0 ∧ (t.pk.die d).floorKHz = (s.pk.die d).floorKHz ∧ (t.pk.die d).pendingFloor = (s.pk.die d).pendingFloor ∧
      (t.pk.die d).defects = (s.pk.die d).defects ∧ (t.pk.die d).outside = (s.pk.die d).outside) ∧
    (s.pk.poolOk d v = true → exec (.mpoolWrite d v) s = .next (put fun x => { x with mpool := BitVec.ofNat 64 (fld v 41 0) })) ∧
    (s.pk.poolOk d v = false → exec (.mpoolWrite d v) s = .next s) ∧
    ((s.pk.die d).ready = true → exec (.mretWrite d v) s = .next (put fun x => { x with mret := v })) ∧
    ((s.pk.die d).ready = false → exec (.mretWrite d v) s = .next s) ∧
    (∃ t, exec (.digitRateCap d q b) s = .next t ∧ t.mem = s.mem ∧ t.pk.resids = s.pk.resids ∧
      (∀ c, c ≠ d → t.pk.die c = s.pk.die c) ∧
      (t.pk.die d).rhoNow = (s.pk.die d).rhoNow ∧ (t.pk.die d).tiles = (s.pk.die d).tiles ∧
      quarters (t.pk.die d).rhoNow ≤ (t.pk.die d).cap.val ∧
      ((t.pk.die d).collarCap = true → (t.pk.die d).cap.val = quarters (s.pk.die d).rhoNow) ∧
      (others ≤ 3200 → (allDies.map fun c => (t.pk.die c).pw.toNat).sum ≤ 3200) ∧
      (s.pk.outOfLimits = true → (t.pk.die d).cap.val = quarters (s.pk.die d).rhoNow) ∧
      (s.pk.outOfLimits = false → (t.pk.die d).cap.val < 4 → 3200 ≤ others + (t.pk.die d).pw.toNat) ∧
      (t.pk.outOfLimits = false → t.pk.bestAtRho = false → ∀ c, t.pk.boundedCap c = 4)) ∧
    (∃ t, exec (.ratedLimitsExcursion ⟨tin, flow, supply⟩) s = .next t ∧ t.mem = s.mem ∧ ∀ c, (t.pk.die c).tin = tin ∧
      ((t.pk.die c).outside = true ↔ ¬ rated) ∧
      (rated ∧ ¬ hot → (t.pk.die c).cap.val = 4) ∧ (¬ rated ∨ hot → (t.pk.die c).cap.val = quarters (s.pk.die c).rhoNow)) ∧
    exec (.ucieModuleLoss m) s = .next { s with pk := { s.pk with ucie := withBit s.pk.ucie m.val false } } ∧
    ((s.pk.die d).now % 2 ^ 30 = 0 → ∃ t, exec (.horizonBoundary d) s = .next t ∧ t.mem = s.mem ∧
      ((s.pk.die d).pendingFloor ≠ 0 → (∀ i ∈ s.pk.openBounds d, i.floor ≤ (s.pk.die d).pendingFloor.toNat) →
        (t.pk.die d).floorKHz = (s.pk.die d).pendingFloor ∧ (t.pk.die d).pendingFloor = 0) ∧
      (∀ i ∈ s.pk.openBounds d, (s.pk.die d).pendingFloor.toNat < i.floor → (t.pk.die d).floorKHz = (s.pk.die d).floorKHz) ∧
      (∀ r, (s.pk.die d).pendingRho = some r → (∀ i ∈ s.pk.openBounds d, i.rho ≤ quarters r) →
        (t.pk.die d).rhoNow = r ∧ (t.pk.die d).pendingRho = none) ∧
      quarters (t.pk.die d).rhoNow ≤ (t.pk.die d).cap.val ∧
      ((t.pk.die d).collarCap = true → (t.pk.die d).cap.val = quarters (t.pk.die d).rhoNow))

/-- Stretching, margins, temperature and retention (R18, R30, R437, R438, R460, R462). A stretch changes nothing but the
tile's counts of it; a lower floor is announced as pending; at 105 °C every residency of the die is pre-empted and held, one
about to start or on its way to its stop included, with no pool asked (log 84), and returns to placement below 95 °C (log 62);
retention is entered only by an idle tile that is asked for, and left where a placement or an interval needs the tile. -/
def Sys2Proof.Machine.ClocksAndMargins : Prop :=
  ∀ (s : State) (t : TileId) (d : DieId) (n : Nat) (f : W32),
    let x := s.pk.tile t
    let dd := s.pk.die d
    (∃ e l, exec (.clockStretch t n) s = .next { s with pk := s.pk.modTile t fun y =>
      { y with stretched := y.stretched + n, excess := e, stretches := l } }) ∧
    (∀ c, x.excess = some c → x.clk.toNat < c + 2 ^ 20 → exec (.stretchExcess t) s = .next { s with pk := s.pk.modDie t.die fun y =>
      { y with cap := Fin.ofNat 5 (quarters y.rhoNow) } }) ∧
    (dd.ready = true → 489000 ≤ f.toNat → f.toNat < dd.admitFloor → ∃ u, exec (.margin d f) s = .next u ∧ u.mem = s.mem ∧
      (u.pk.die d).pendingFloor = f ∧ (u.pk.die d).floorKHz = dd.floorKHz ∧ (u.pk.die d).tiles = dd.tiles ∧
      u.pk.resids = s.pk.resids ∧
      ∀ r y, s.pk.resid? r = some y → y.die = d → y.st ≠ .ended → ∃ z ∈ u.pk.pending, z.fr.cause = Cause.margin ∧ z.fr.vi = y.vi) ∧
    (dd.thermalStop = false → dd.ready = true → ∃ u, exec (.thermalStop d) s = .next u ∧ u.mem = s.mem ∧
      (u.pk.die d).thermalStop = true ∧ 1050 ≤ (u.pk.die d).tj.toNat ∧
      ∀ r y, s.pk.resid? r = some y → y.die = d → (y.st = .starting ∨ y.st = .resident ∨ y.st = .saving) →
        (∃ k ∈ u.pk.pending, k.fr.cause = Cause.margin ∧ k.fr.kind = 3 ∧ k.fr.vi = y.vi) ∧
        ∃ z, u.pk.resid? r = some z ∧ (y.pre = none → z.thermal = true) ∧
          (y.pre = none → y.st = .resident → z.pre = some 0 ∧ z.preHold = true)) ∧
    (dd.thermalStop = true → ∃ u, exec (.thermalResume d) s = .next u ∧ u.mem = s.mem ∧
      (u.pk.die d).thermalStop = false ∧ (u.pk.die d).tj.toNat < 950 ∧
      ∀ r y, s.pk.resid? r = some y → y.die = d → y.thermal = true → y.st = .stopped → y.stopCause = none →
        ∃ z, u.pk.resid? r = some z ∧ z.st = .saved ∧ z.thermal = false) ∧
    ((s.pk.die t.die).ready = true → bit (s.pk.die t.die).mret t.n.val = true → x.ret = .active → x.res = none →
      s.pk.claimedSoon t = false →
      exec (.retentionEntry t) s = .next { s with pk := s.pk.modTile t fun y => { y with ret := .entering, retCycles := 0 } }) ∧
    (x.ret = .retained → (bit (s.pk.die t.die).mret t.n.val = false ∨ s.pk.claimedSoon t = true ∨ s.pk.waitingOn t.die ≠ []) →
      exec (.retentionExit t) s = .next { s with pk := s.pk.modTile t fun y => { y with ret := .exiting, retCycles := 0 } })

/-- Bring-up (R456): a die goes through its stages in order, an image that fails leaves it at the stage it failed (log 61) with
its code, the fifth puts it on the ring, and the last makes it ready and announces it. Gating a die of the ring is announced
before the die leaves (R254); any other leaves at once, and keeps its elapsed count. A gated tile is a fenced one (log 62). -/
def Sys2Proof.Machine.DiesComeUp : Prop :=
  ∀ (s : State) (d : DieId) (h v : List Byte) (n : Fin 64),
    let x := s.pk.die d
    (x.fail = 0 →
      (∀ k ty, stageType (k + 1) = some ty → x.stage.toNat = k → fwAccepted ty h v = true →
        ∃ t, exec (.dieBoot d (.image h v)) s = .next t ∧ t.mem = s.mem ∧ (t.pk.die d).stage = x.stage + 1 ∧
          (t.pk.die d).fail = 0 ∧ (t.pk.die d).digests = x.digests ++ [(fwHeader h).extractLsb' 1024 512] ∧
          (k = 4 → bit t.pk.ringUp d.val = true)) ∧
      (∀ k ty, stageType (k + 1) = some ty → x.stage.toNat = k → fwAccepted ty h v = false →
        exec (.dieBoot d (.image h v)) s = .next { s with pk := s.pk.modDie d fun y => { y with stage := y.stage + 1, fail := 1 } }) ∧
      (x.stage = 5 → s.pk.ringRoom d = true → ∃ t, exec (.dieBoot d .pass) s = .next t ∧ t.mem = s.mem ∧ (t.pk.die d).stage = 6 ∧
        (t.pk.die d).ready = true ∧ t.pk.ringUp = s.pk.ringUp ∧
        (t.pk.ring.queues.get d).map (·.body) = (s.pk.ring.queues.get d).map (·.body) ++ [.up d])) ∧
    (x.fail ≠ 0 → ∀ b, exec (.dieBoot d b) s = .next s) ∧
    (s.pk.onRing d = true →
      ∃ t, exec (.powerGating d none) s = .next t ∧ t.mem = s.mem ∧ (t.pk.die d).gated = true ∧ (t.pk.die d).ready = true ∧
        (s.pk.ringRoom d = true → (t.pk.ring.queues.get d).map (·.body) = (s.pk.ring.queues.get d).map (·.body) ++ [.gone d none])) ∧
    (s.pk.onRing d = false →
      ∃ t, exec (.powerGating d none) s = .next t ∧ t.mem = s.mem ∧ (t.pk.die d).gated = true ∧ (t.pk.die d).ready = false ∧
        (t.pk.die d).stage = 0 ∧ (t.pk.die d).elap = x.elap) ∧
    ((s.pk.tile ⟨d, n⟩).fenced = false →
      ∃ t, exec (.powerGating d (some n)) s = .next t ∧ t.mem = s.mem ∧ (t.pk.tile ⟨d, n⟩).fenced = true ∧
        (t.pk.tile ⟨d, n⟩).res = none ∧ (t.pk.tile ⟨d, n⟩).store = [] ∧
        (s.pk.ringRoom d = true → (t.pk.ring.queues.get d).map (·.body) = (s.pk.ring.queues.get d).map (·.body) ++ [.gone d (some n)]))

/-- Clocks, temperature, retention and bring-up (R30, R254, R437, R438, R456, R460, R462). -/
def Obligations.ClocksAndBringUp : Prop := ClocksAndMargins ∧ DiesComeUp

/-! ### Admission, placement, residencies -/

/-- Swarms come in and are admitted (R246, R326, R333, R342-R344, R371, R375): a descriptor is read word by word, and a
word that faults or is poisoned stops its queue; a best-effort descriptor that passes its checks waits; a bounded one without
dependences, or once they are met, is accepted when every die it names offers a region, and refused otherwise, with the first
reason of the first die that fails, in ascending order (log 64); a child takes its parent's window; one that fails its checks
is rejected; each with its record. -/
def Obligations.SwarmsAreAdmitted : Prop :=
  ∀ (s : State) (d : DieId) (q w : Nat) (vi : Fin 64) (r : Nat),
    let p := s.pk
    let x := p.queue q
    let desc : BitVec 1024 := BitVec.ofNat 1024 (bytesToNat (x.words.flatMap fun v => natToBytes 8 v.toNat))
    let n := p.swarms.length
    let accepted (t : State) (w : Nat) (o : Offer) : Prop := ∃ i ∈ (t.pk.die o.die).plan, i.swarm = w ∧ i.x0 = o.x0 ∧ i.y0 = o.y0 ∧
      i.start = o.start ∧ i.len = o.len ∧ i.child = false
    let told (t : State) (q : Nat) (kind : Nat) (cause : Nat) : Prop := ∃ b, (t.pk.queue q).waiting = (p.queue q).waiting ++ [b] ∧
      b.extractLsb' 32 8 = BitVec.ofNat 8 kind ∧ b.extractLsb' 40 8 = BitVec.ofNat 8 cause
    ((p.die d).ready = true → (p.die 0).ready = true → p.nextQueue d = some q → p.queueVi q = some vi →
      (∀ a note, x.words.length < 16 →
        readWordVi s.mem p d vi (x.descAt x.head.toNat + BitVec.ofNat 80 (8 * x.words.length)) = (a, note) →
        let s1 := s.walkedOn d vi note
        (∀ v, a = .ok (v, false) →
          exec (.descriptorTake d q) s = .next { s1 with pk := s1.pk.modQueue q fun y => { y with words := y.words ++ [v] } }) ∧
        ((∀ v, a ≠ .ok (v, false)) → exec (.descriptorTake d q) s = .next { s1 with pk := s1.pk.modQueue q fun y =>
          { y with stat := withBit y.stat 1 true, cfg := withBit y.cfg 0 false, words := [] } })) ∧
      (∀ deps note, x.words.length = 16 →
        checkAll s.mem p d vi x.cls desc (some (q - (p.vi vi).qbase, x.head.toNat)) = (.ok deps, note) →
        ∃ t y, exec (.descriptorTake d q) s = .next t ∧ t.mem = (s.walkedOn d vi note).mem ∧ t.pk.swarm? n = some y ∧
          y.desc = desc ∧ y.vi = vi ∧ y.deps = deps ∧ (t.pk.queue q).head = x.head + 1 ∧ (t.pk.queue q).words = [] ∧
          (x.cls = false → y.st = .waiting) ∧ (x.cls = true → deps ≠ [] → y.st = .dependent) ∧
          let taken : Swarm := { desc := desc, vi := vi, queue := q, home := d, index := x.head, cls := x.cls, prio := x.prio,
                                 lvl := (p.vi vi).queueLevel q, deps := deps }
          (x.cls = true → deps = [] →
            (∀ os, Pack.offers { p with swarms := p.swarms ++ [taken] } vi desc allDies = .ok os →
              y.st = .accepted ∧ told t q 1 0 ∧ ∀ o ∈ os, accepted t n o) ∧
            ∀ k, Pack.offers { p with swarms := p.swarms ++ [taken] } vi desc allDies = .error k → y.st = .refused ∧ told t q 2 k)) ∧
      (∀ k note, x.words.length = 16 →
        checkAll s.mem p d vi x.cls desc (some (q - (p.vi vi).qbase, x.head.toNat)) = (.error k, note) →
        ∃ t y, exec (.descriptorTake d q) s = .next t ∧ t.mem = (s.walkedOn d vi note).mem ∧ t.pk.swarm? n = some y ∧ y.st = .rejected ∧
          (t.pk.queue q).head = x.head + 1 ∧ told t q 6 (0x10 + k))) ∧
    (∀ l rest v, (p.die d).launches = l :: rest → p.swarm? l.parent = some v →
      ∃ t y, exec (.launchRecordTake d) s = .next t ∧ t.mem = s.mem ∧ (t.pk.die d).launches = rest ∧
        t.pk.swarm? n = some y ∧ y.desc = l.desc ∧ y.parent = some l.parent ∧ y.ticket = some l.ticket ∧ y.vi = v.vi ∧
        y.queue = v.queue ∧ y.cls = v.cls ∧ y.prio = v.prio ∧ y.lvl = v.lvl ∧ (v.cls = false → y.st = .waiting) ∧ (v.cls = true → l.deps ≠ [] → y.st = .dependent) ∧
        (v.cls = true → l.deps = [] → y.st = .accepted)) ∧
    (∀ y, p.swarm? w = some y → y.st = .dependent → y.aborted = none → p.depsDone y.home y = true →
      (∀ os, y.parent = none → p.offers y.vi y.desc allDies = .ok os →
        ∃ t z, exec (.dependenceRelease w) s = .next t ∧ t.mem = s.mem ∧ t.pk.swarm? w = some z ∧ z.st = .accepted ∧
          told t y.queue 1 0 ∧ ∀ o ∈ os, accepted t w o) ∧
      (∀ k, y.parent = none → p.offers y.vi y.desc allDies = .error k →
        ∃ t z, exec (.dependenceRelease w) s = .next t ∧ t.mem = s.mem ∧ t.pk.swarm? w = some z ∧ z.st = .refused ∧
          told t y.queue 2 k) ∧
      (∀ v, y.parent = some v →
        ∃ t z, exec (.dependenceRelease w) s = .next t ∧ t.mem = s.mem ∧ t.pk.swarm? w = some z ∧ z.st = .accepted ∧
          told t y.queue 1 0)) ∧
    exec (.triggerNotice d r) s = .next { s with pk := p.modDie d fun x => { x with notices := x.notices.filter (· != r) } }

/-- A record of a queue is written to the next entry of its ring, with the phase of its pass, and to no other byte; one
for which the ring has no room waits, and an address that faults stops the queue, and leaves the record waiting (R327, log 66). -/
def Obligations.RecordsAreWritten : Prop :=
  ∀ (s : State) (q : Nat) (vi : Fin 64) (r : BitVec 256) (rest : List (BitVec 256)) (d : DieId) (off : Nat),
    let x := s.pk.queue q
    Inv s → x.waiting = r :: rest → s.pk.queueVi q = some vi → (s.pk.die x.die).ready = true →
    (∀ c note, x.held < x.csize → placeVi s.mem s.pk x.die vi (x.recordAt x.ctail.toNat) .write true = (.ok (d, off, c), note) →
      ∃ t, exec (.recordWrite q) s = .next t ∧ (t.pk.queue q).waiting = rest ∧ (t.pk.queue q).ctail = x.ctail + 1 ∧
        (∀ a, t.mem.byte a = if memIndex d off ≤ a ∧ a < memIndex d off + 32 then
          (natToBytes 32 (withBit r 63 (x.ctail.toNat / x.csize % 2 == 0)).toNat).getD (a - memIndex d off) 0 else s.mem.byte a)) ∧
    (∀ e note, x.held < x.csize → placeVi s.mem s.pk x.die vi (x.recordAt x.ctail.toNat) .write true = (.error e, note) →
      ∃ t, exec (.recordWrite q) s = .next t ∧ t.mem = (s.walkedOn x.die vi note).mem ∧ (t.pk.queue q).waiting = x.waiting ∧
        (t.pk.queue q).stat = withBit x.stat 2 true ∧ (t.pk.queue q).cfg = withBit x.cfg 0 false) ∧
    (x.csize ≤ x.held → exec (.recordWrite q) s = .next s)

/-- Best-effort work is placed (R340, R341): the chosen head takes its region, a waiter without one becomes the blocked
head with its marked region (log 65), and after a quantum the occupants of that region that the save pool can hold (R430), and no
others, are pre-empted (log 84). -/
def Sys2Proof.Machine.BestEffortPlacement : Prop :=
  ∀ (s : State) (d : DieId) (x : Waiting) (o : Nat × Nat) (w : Nat) (y : Swarm),
    let p := s.pk
    (p.places d = true → (p.die d).blockedHead = none → p.choice d = some x →
      (x.who = .head w → p.swarm? w = some y → p.findRegion d x = some o →
        ∃ t z, exec (.bestEffortChoice d) s = .next t ∧ t.mem = s.mem ∧ t.pk.resid? p.resids.length = some z ∧
          z.swarm = w ∧ z.die = d ∧ (z.x0, z.y0) = o ∧ (z.w, z.h) = (Desc.width y.desc, Desc.height y.desc) ∧
          z.st = .starting ∧ (∀ u ∈ z.tiles, (t.pk.tile u).res = some p.resids.length) ∧
          (∀ r v, p.resid? r = some v → t.pk.resid? r = some v)) ∧
      (p.findRegion d x = none → exec (.bestEffortChoice d) s =
        .next { s with pk := p.setBlocked d (some { who := x.who, region := p.markRegion d x }) })) ∧
    (∀ b, (p.die d).blockedHead = some b → b.region = some o →
      let c := p.blockedShape d
      ∃ t, exec (.quantumExpiry d) s = .next t ∧ t.mem = s.mem ∧
        (∀ r v, p.resid? r = some v → v.st = .resident → v.pre = none → v.bounded = false →
          r ∈ p.occupants d o.1 o.2 c.1 c.2 → v.placedAt + 2 ^ 21 ≤ (p.die d).now →
          t.pk.resid? r = some (if p.poolHolds r then { v with pre := some 0, preHold := false, stopCause := none } else v)) ∧
        (∀ r v, p.resid? r = some v → (v.bounded = true ∨ r ∉ p.occupants d o.1 o.2 c.1 c.2 ∨ (p.die d).now < v.placedAt + 2 ^ 21) →
          t.pk.resid? r = some v))

/-- Bounded work starts in its interval (R335): at its start it takes its region, from best-effort occupants too
where the save pool can hold them (R430, log 84), or earlier where the region is free and no other interval would use it before; and a saved residency resumes where its
state is (R431). -/
def Sys2Proof.Machine.BoundedPlacement : Prop :=
  ∀ (s : State) (d : DieId) (k : Nat) (i : Interval) (y : Swarm),
    let p := s.pk
    let starts (t : State) : Prop := t.mem = s.mem ∧ ∃ z j, t.pk.resid? p.resids.length = some z ∧ z.swarm = i.swarm ∧
      z.die = d ∧ z.x0 = i.x0 ∧ z.y0 = i.y0 ∧ z.st = .starting ∧ z.bound = i.start + i.len ∧
      (∀ u ∈ z.tiles, (t.pk.tile u).res = some p.resids.length) ∧ (t.pk.die d).plan[k]? = some j ∧ j = { i with started := true }
    ((p.die d).plan[k]? = some i → p.swarm? i.swarm = some y →
      (p.awaits d k i = true → i.start ≤ (p.die d).now → p.regionFree d i.x0 i.y0 i.w i.h = true →
        ∃ t, exec (.intervalStart d k) s = .next t ∧ starts t) ∧
      (p.awaits d k i = true → i.start ≤ (p.die d).now → p.regionFree d i.x0 i.y0 i.w i.h = false →
        ∃ t, exec (.intervalStart d k) s = .next t ∧ t.mem = s.mem ∧
          ∀ r v, p.resid? r = some v → v.st = .resident → v.pre = none → v.bounded = false →
            r ∈ p.occupants d i.x0 i.y0 i.w i.h →
            t.pk.resid? r = some (if p.poolHolds r then { v with pre := some 0, preHold := false, stopCause := none } else v)) ∧
      (p.mayStartEarly d k i = true →
        (∀ n j, (p.die d).plan[n]? = some j → p.mayStartEarly d n j = true → p.earlierBound i j = false) →
        ∃ t, exec (.earlyStart d k) s = .next t ∧ starts t)) ∧
    (∀ r x, p.resid? r = some x → x.st = .saved → x.thermal = false → x.bounded = true → p.places x.die = true →
      p.underMax x.die x.vi x.w x.h = true → p.regionFree x.die x.x0 x.y0 x.w x.h = true →
      ∃ t z, exec (.residencyResume r) s = .next t ∧ t.mem.cells = s.mem.cells ∧ t.pk.resid? r = some z ∧ z.st = .resident ∧
        z.saved = [] ∧
        (∀ old, x.w = 1 → x.h = 1 → x.saved = [old] →
          (t.pk.tile (x.tileAt 0 0)).res = some r ∧ ∀ c, ((t.pk.tile (x.tileAt 0 0)).ctx c).cur = (old.ctx c).cur))

/-- Regions, waiting and intervals (R335, R340, R341, R431). -/
def Obligations.Placement : Prop := BestEffortPlacement ∧ BoundedPlacement

/-- A residency starts and ends (R71, R75, R77, R351): its tiles take its first image; once every tile has placed it,
every initial context is live at the entry, with its arguments in registers 0 to 7; at the end its tiles are free, and their
memories and committed registers stand until the next residency takes them; the swarm's end leaves its record. -/
def Obligations.ResidenciesStartAndEnd : Prop :=
  ∀ (s : State) (r : Nat) (x : Resid) (d : DieId) (w : Nat) (y : Swarm),
    let p := s.pk
    (p.resid? r = some x →
      (x.st = .starting → x.aborted = false → p.places x.die = true → p.swarmOf x = some y → p.costartSeen x.die x.swarm y = true →
        let read := s.loadRanges x.die x.vi
        let at0 := { read with pk := read.pk.modTile (x.tileAt 0 0) fun t => { t with ranges := s.mem.loadRanges (p.vi x.vi) } }
        let f := at0.fetchImage (x.tileAt 0 0) x.lvl (blockAddr (Desc.entry y.desc))
        (x.imaged = false → (firstImage f.1 f.2).bind Image.check = none →
          ∃ t, exec (.residencyStart r) s = .next t ∧ t.mem.cells = s.mem.cells ∧ t.pk.resid? r = some { x with imaged := true } ∧
            ∀ u ∈ x.tiles, ∀ c, t.pk.ctx u c = p.ctx u c) ∧
        (∀ e, x.imaged = false → (firstImage f.1 f.2).bind Image.check = some e →
          ∃ t z, exec (.residencyStart r) s = .next t ∧ t.mem.cells = s.mem.cells ∧ t.pk.resid? r = some z ∧ z.st = .ended) ∧
        (x.imaged = true → (∀ u ∈ x.tiles, (p.tile u).cfgStream = []) →
          ∃ t z, exec (.residencyStart r) s = .next t ∧ t.mem = s.mem ∧ t.pk.resid? r = some z ∧ z.st = .resident ∧
            ∀ u ∈ x.tiles, ∀ c : CtxId, c.val < Desc.ctxs y.desc →
              let k := t.pk.ctx u c
              k.st = .live ∧ k.cur.pc = blockAddr (Desc.entry y.desc) ∧ k.cur.lvl = x.lvl ∧ k.cur.arg.get 0 = Desc.arg y.desc 0 ∧
              (∀ n, n < 8 → k.cur.getG n = ((Desc.arg y.desc n).setWidth 128, false)) ∧
              (∀ n, 8 ≤ n → n < 128 → k.cur.getG n = (0, false))) ∧
        (∀ u ∈ x.tiles, x.imaged = true → (p.tile u).cfgStream ≠ [] → exec (.residencyStart r) s = .next s)) ∧
      ((x.st = .resident ∨ (x.st = .starting ∧ x.aborted = true)) → p.residDone r x = true →
        ∃ t z, exec (.residencyEnd r) s = .next t ∧ t.mem = s.mem ∧ t.pk.resid? r = some z ∧ z.st = .ended ∧
          ∀ u ∈ x.tiles, (t.pk.tile u).res ≠ some r ∧ (t.pk.tile u).pad = (p.tile u).pad ∧ (t.pk.tile u).om = (p.tile u).om ∧
            (t.pk.tile u).acc = (p.tile u).acc ∧ (t.pk.tile u).bars = (p.tile u).bars ∧ ∀ c, (t.pk.ctx u c).cur = (p.ctx u c).cur)) ∧
    (p.swarm? w = some y →
      (Desc.cost y.desc = true → p.startingOn w d = true → bit y.announced d.val = false → p.ringRoom d = true →
        ∃ t z, exec (.costartReservation d w) s = .next t ∧ t.mem = s.mem ∧ t.pk.swarm? w = some z ∧ bit z.announced d.val = true ∧
          (t.pk.ring.queues.get d).map (·.body) = (p.ring.queues.get d).map (·.body) ++ [.costart w d]) ∧
      (y.alive = true → p.allEnded w y = true → p.acknowledged w = true →
        ∃ t z b, exec (.swarmEnd w) s = .next t ∧ t.mem = s.mem ∧ t.pk.swarm? w = some z ∧ z.st = .ended ∧
          (t.pk.queue y.queue).waiting = (p.queue y.queue).waiting ++ [b] ∧
          b.extractLsb' 32 8 = y.ending.1 ∧ b.extractLsb' 40 8 = y.ending.2))

/-- The stops of R79, R336 and R346: an abort marks every residency of the swarm; an overrun of the budget and the
watchdog pre-empt the residency, be there room in the save pool or not (log 84), hold it with their cause, leave a record of
kind 0x05, and tell contexts. -/
def Sys2Proof.Machine.ResidenciesAreStopped : Prop :=
  ∀ (s : State) (r w : Nat) (x : Resid) (y : Swarm),
    let p := s.pk
    (p.swarm? w = some y → y.aborted = none → y.st ≠ .ended →
      ∃ t z, exec (.swarmAbort w) s = .next t ∧ t.mem = s.mem ∧ t.pk.swarm? w = some z ∧ z.aborted = some 0 ∧
        ∀ k v, p.resid? k = some v → v.swarm = w → v.st ≠ .ended → ∃ v', t.pk.resid? k = some v' ∧ v'.aborted = true) ∧
    (p.resid? r = some x → x.counted = true → p.swarm? x.swarm = some y →
      let stopped (t : State) (cause : Byte) : Prop :=
        t.mem = s.mem ∧ t.pk.resid? r = some { x with pre := some 0, preHold := true, stopCause := some cause } ∧
        ∃ b, (t.pk.queue y.queue).waiting = (p.queue y.queue).waiting ++ [b] ∧ b.extractLsb' 32 8 = (5 : Byte) ∧
          b.extractLsb' 40 8 = cause
      let told (t : State) (u : TileId) (c : CtxId) (cause : Byte) : Prop :=
        ∃ n ∈ t.pk.pending, n.ctx = some (u, c) ∧ n.fr.cause = cause ∧ n.fr.cls = 2
      (x.bounded = true → p.budget x < x.budget →
        ∃ t, exec (.budgetOverrun r) s = .next t ∧ stopped t Cause.budgetOverrun ∧
          ∀ u ∈ x.tiles, ∀ c, (p.ctx u c).st = .live → told t u c Cause.budgetOverrun) ∧
      (2 ^ 24 ≤ x.watchdog →
        ∃ t, exec (.watchdogExpiry r) s = .next t ∧ stopped t Cause.deadlock ∧
          ∀ u ∈ x.tiles, ∀ c, (p.tile u).oldestCtx = some c → told t u c Cause.deadlock))

/-- Pre-emption (R426, R427): the request squashes every instance and keeps the committed state of every context; the
cutoff stops operations; the last issue saves the tiles and frees them. -/
def Sys2Proof.Machine.Preemption : Prop :=
  ∀ (s : State) (r : Nat) (x : Resid), s.pk.resid? r = some x →
    (x.st = .resident → x.pre.isSome = true → (∀ u ∈ x.tiles, (s.pk.tile u).halting = false) →
      ∃ t, exec (.preemptionRequest r) s = .next t ∧ t.mem = s.mem ∧ t.pk.resid? r = some { x with st := .saving } ∧
        ∀ u ∈ x.tiles, (t.pk.tile u).insts = [] ∧ ∀ c, (t.pk.ctx u c).cur = (s.pk.ctx u c).cur) ∧
    (x.st = .saving → 12288 ≤ x.pre.getD 0 →
      exec (.preemptionCutoff r) s = .next { s with pk := s.pk.modResid r fun y => { y with cut := true } }) ∧
    (x.st = .saving → (∀ u ∈ x.tiles, s.pk.savable u r x = true) →
      ∃ t z, exec (.preemptionLastIssue r) s = .next t ∧ t.mem = s.mem ∧ t.pk.resid? r = some z ∧
        z.st = (if x.preHold then .stopped else .saved) ∧ z.saved.length = x.tiles.length ∧
        (∀ u ∈ x.tiles, (t.pk.tile u).res = none) ∧
        (x.w = 1 → x.h = 1 → ∃ old, z.saved = [old] ∧ ∀ c, (old.ctx c).cur = (s.pk.ctx (x.tileAt 0 0) c).cur))

/-- Stops, pre-emption and saving (R79, R336, R346, R426, R427). -/
def Obligations.StopsAndPreemption : Prop := ResidenciesAreStopped ∧ Preemption

/-- Steals, the stop of HALT.res and the put of a task record (R82, R349, R364, R380): a request marks its victim's oldest
ready record, which enters the thief's buffer, or its tile's queue when the thief has halted; its acknowledgement empties
the entry; the stop halts every context that no trap holds; a put waits for room, that of another package's record too. Where a
context has halted with a record in its steal buffer, that record follows on the queue (R380). What a record brings its taker is
its `floor` (log 82). -/
def Obligations.TaskSteps : Prop :=
  ∀ (s : State) (t : TileId) (c : CtxId) (k : Nat) (e : TaskEntry),
    let p := s.pk
    let x := p.ctx t c
    let others (u : State) : Prop := u.mem = s.mem ∧ ∀ v, v ≠ t → u.pk.tile v = p.tile v
    (∀ n, x.stealFrom = some n → ((p.tile ⟨t.die, n⟩).sending t c) = none → (∀ y ∈ (p.tile ⟨t.die, n⟩).tasks, p.unput y = false) →
      let ready : Bool := (p.tile ⟨t.die, n⟩).tasks.any fun y => y.st == .ready
      ((p.tile ⟨t.die, n⟩).res = (p.tile t).res → ready = true →
        exec (.stealRequest t c) s = .next { s with pk := p.modTile ⟨t.die, n⟩ fun y =>
          { y with tasks := modifyFirst (fun z : TaskEntry => z.st == .ready) (fun z => { z with st := .transit t c }) y.tasks } }) ∧
      ((p.tile ⟨t.die, n⟩).res ≠ (p.tile t).res ∨ ready = false →
        ∃ u l, exec (.stealRequest t c) s = .next u ∧ others u ∧ (u.pk.ctx t c).stealFrom = none ∧
          (u.pk.tile t).tasks = (p.tile t).tasks ++ l)) ∧
    (∀ n, x.stealFrom = some n → (p.tile ⟨t.die, n⟩).sending t c = some e → x.st = .live → x.cur.stl = none →
      ∃ u, exec (.stealArrival t c) s = .next u ∧ others u ∧ (u.pk.ctx t c).cur.stl = some e.record ∧
        (u.pk.ctx t c).stealFrom = none ∧ (u.pk.ctx t c).st = .live ∧ ∀ r, (u.pk.ctx t c).cur.getG r = x.cur.getG r) ∧
    (∀ n, x.stealFrom = some n → (p.tile ⟨t.die, n⟩).sending t c = some e → x.st ≠ .live → (p.tile t).tasks.length < 256 →
      ∃ u l, exec (.stealArrival t c) s = .next u ∧ others u ∧ (u.pk.ctx t c).stealFrom = none ∧
        (u.pk.tile t).tasks = (p.tile t).tasks ++ [{ record := e.record, floor := e.floor }] ++ l) ∧
    (∀ v b, (p.tile t).tasks[k]? = some e → e.st = .transit v b → ((p.ctx v b).stealFrom.map fun n => (⟨v.die, n⟩ : TileId)) ≠ some t →
      ∃ u l, exec (.stealAck t k) s = .next u ∧ others u ∧ (u.pk.tile t).tasks = (p.tile t).tasks.eraseIdx k ++ l) ∧
    ((p.tile t).halting = true →
      ∃ u, exec (.haltResStop t) s = .next u ∧ u.mem = s.mem ∧ (u.pk.tile t).halting = false ∧ (u.pk.tile t).resStopped = true ∧
        (∀ y ∈ (u.pk.tile t).tasks, y.st ≠ .ready) ∧
        (x.st = .live → x.tcause = 0 → x.raised = none → (u.pk.ctx t c).st ≠ .live ∧ (u.pk.tile t).live c = [])) ∧
    (∀ o rec_ m v, (p.tile t).sideQ.find? (fun y => y.id == k) = some o → o.record = some rec_ → o.send? = none →
      o.stream? = some m → (m.task.bind fun y => p.regionTile t (y.2.toNat % 8) (y.2.toNat / 8)) = some v →
      ((p.tile v).tasks.length < 256 →
        ∃ u l, exec (.taskPut t k) s = .next u ∧ u.mem = s.mem ∧
          (u.pk.tile v).tasks = (p.tile v).tasks ++ [{ record := rec_, floor := o.brings }] ++ l) ∧
      (256 ≤ (p.tile v).tasks.length → exec (.taskPut t k) s = .next s)) ∧
    (∀ a y, (∀ z ∈ (p.tile t).sideQ, z.id ≠ k) → p.arrivals.find? (fun b => b.id == k && b.tile == t) = some a →
      a.res.bind p.resid? = some y → y.st ≠ .ended → (p.tile t).res = a.res →
      ((p.tile t).tasks.length < 256 →
        ∃ u, exec (.taskPut t k) s = .next u ∧ u.mem = s.mem ∧
          (u.pk.tile t).tasks = (p.tile t).tasks ++ [{ record := a.record, floor := .all p.hist.writes }] ∧
          u.pk.arrivals = p.arrivals.filter fun b => b.id != k) ∧
      (256 ≤ (p.tile t).tasks.length → exec (.taskPut t k) s = .next s))

/-! ### The sequence orders -/

/-- The orders (R254-R256, R434-R436): a visit sends up to 8 messages with the next numbers and passes the token on; a
die acts on messages in number order; die 0 relays plain messages, and takes one sent again with its number; a lost flit goes
again, and the 16th failure of one takes its member down; a lost token is regenerated by the lowest live die, and the round of
the plain leaves every message held by all (log 70). -/
def Obligations.OrdersMove : Prop :=
  ∀ (s : State) (d : DieId) (plain : Bool) (m : Message) (f : ForeignMsg) (k : Fin 16) (id part : Nat),
    let p := s.pk
    let clear (o : Order) : Prop := (∀ x ∈ o.sent, x.missing = 0 ∧ x.lack = 0 ∧ p.ringUp &&& ~~~ x.acted ≠ 0) ∧
      ∀ c, ∀ x ∈ o.queues.get c, x.acted = 0
    (p.tokenLost false = false → p.onRing p.ring.holder = true → clear p.ring →
      let fresh := (p.ring.queues.get p.ring.holder).take (8 - p.ring.visit)
      ∃ t, exec (.passTokenVisit false) s = .next t ∧ t.mem = s.mem ∧ t.pk.dies = p.dies ∧
        t.pk.ring.holder = p.nextHolder p.ring.holder ∧ t.pk.ring.visit = 0 ∧
        t.pk.ring.num = p.ring.num + BitVec.ofNat 64 fresh.length ∧
        t.pk.ring.sent.map (·.body) = p.ring.sent.map (·.body) ++ fresh.map (·.body) ∧
        t.pk.ring.queues.get p.ring.holder ++ t.pk.ring.late.get p.ring.holder =
          (p.ring.queues.get p.ring.holder).drop (8 - p.ring.visit) ++ p.ring.late.get p.ring.holder ∧
        ∀ c, c ≠ p.ring.holder → t.pk.ring.queues.get c = p.ring.queues.get c) ∧
    (p.tokenLost true = false → p.onRing 0 = true → p.plain.visit = 0 → clear p.plain →
      let fresh := (p.plain.queues.get 0).take 8
      ∃ t, exec (.passTokenVisit true) s = .next t ∧ t.mem = s.mem ∧ t.pk.dies = p.dies ∧
        t.pk.plain.num = p.plain.num + BitVec.ofNat 64 fresh.length ∧
        t.pk.plain.sent.map (·.body) = p.plain.sent.map (·.body) ++ fresh.map (·.body) ∧
        t.pk.plain.queues.get 0 ++ t.pk.plain.late.get 0 = (p.plain.queues.get 0).drop 8 ++ p.plain.late.get 0) ∧
    (bit p.ringUp d.val = true → (p.order plain).nextFor d = some m →
      (m.body = .fence → exec (.sequencedMessageAct d plain) s =
        .next { s with pk := p.modOrder plain fun o => o.markActed d p.ringUp m.num }) ∧
      (∀ r b y, m.body = .arrive r b → plain = false → p.resid? r = some y →
        ∃ t, exec (.sequencedMessageAct d plain) s = .next t ∧ t.mem = s.mem ∧ t.pk.ring.last.get d = m.num ∧ t.pk.dies = p.dies ∧
          ∀ n v, p.resid? n = some v → v.die = d → v.swarm = y.swarm → v.st ≠ .ended → (v.bars.get b).scope = some 2 →
            ∃ v', t.pk.resid? n = some v' ∧ v'.bars.get b = BarCopy.arrive m.floor (v.bars.get b))) ∧
    (bit p.ringUp 0 = true → p.member ≠ 0xFF → p.tokenLost true = false →
      let named (o : Order) : List (W64 × MsgBody) := o.sent.map fun x => (x.num, x.body)
      ∃ t, exec (.plainRelay (some f)) s = .next t ∧ t.mem = s.mem ∧
        ((∀ x ∈ p.plain.sent, x.body = .foreign f → x.missing = 0) →
          t.pk.plain.num = p.plain.num + 1 ∧ named t.pk.plain = named p.plain ++ [(p.plain.num, .foreign f)]) ∧
        ((∃ x ∈ p.plain.sent, x.body = .foreign f ∧ x.missing ≠ 0) → t.pk.plain.num = p.plain.num ∧ named t.pk.plain = named p.plain)) ∧
    (bit p.ringUp 0 = true → (p.plain.sent.find? fun x => !p.relayed x) = some m → p.ringRoom 0 = true → m.missing = 0 →
      exec (.plainRelay none) s = .next { s with pk := p.enqueueRing 0 0 (.carried (some m.num)) }) ∧
    (bit p.membersUp k.val = true →
      let same (x : FlitRun) : Bool := x.die == d && x.flit == ⟨k, id, part⟩
      ((∀ x ∈ p.flits, same x = true → x.fails < 15) →
        ∃ t y, exec (.flitResend d ⟨k, id, part⟩) s = .next t ∧ t.mem = s.mem ∧ y ∈ t.pk.flits ∧ same y = true ∧
          y.fails = ((p.flits.find? same).map (·.fails)).getD 0 + 1 ∧ (∀ x ∈ p.flits, same x = false → x ∈ t.pk.flits) ∧
          t.pk.outgoing = p.outgoing ++ [.flit d ⟨k, id, part⟩] ∧ t.pk.membersUp = p.membersUp) ∧
      (∀ x, p.flits.find? same = some x → 15 ≤ x.fails → p.ringRoom d = true → p.plainRoom d = true →
        ∃ t, exec (.flitResend d ⟨k, id, part⟩) s = .next t ∧ t.mem = s.mem ∧ t.pk.outgoing = p.outgoing ∧
          ∃ y ∈ t.pk.ring.queues.get d, y.body = .memberChange k false)) ∧
    (∀ silent : BitVec 16, p.tokenLost true = true → p.lowestDie p.ringUp = some d →
      ∃ t, exec (.tokenLossRegenerate true silent) s = .next t ∧ t.mem = s.mem ∧ t.pk.plain.idle = 0 ∧
        ∀ x ∈ t.pk.plain.sent, x.missing = 0 ∧ x.lack = 0) ∧
    (∀ silent : BitVec 16, p.tokenLost false = true → p.lowestDie (p.ringUp &&& ~~~ silent.extractLsb' 0 8) = some d →
      ∃ t, exec (.tokenLossRegenerate false silent) s = .next t ∧ t.mem = s.mem ∧ t.pk.ring.holder = d ∧ t.pk.ring.idle = 0 ∧
        t.pk.ringUp = p.ringUp &&& ~~~ silent.extractLsb' 0 8 ∧
        ∀ x ∈ t.pk.ring.sent, x.missing = 0 ∧ x.heldBy (p.ringUp &&& ~~~ silent.extractLsb' 0 8) = true)

/-! ### Accesses at their homes -/

/-- An access of a tile, within one word, that has come to its turn at a home of package memory, through a P mapping or not. -/
def Sys2Proof.Machine.AtHome (s : State) (a : Access) (d : DieId) (off : Nat) (p : Bool) (scope : BitVec 2) : Prop :=
  (s.pk.accs.find? fun x => x.id == a.id) = some a ∧ a.st = .waiting ∧ a.place = .home d off p scope ∧ a.origin = none ∧
  a.got = [] ∧ a.op = none ∧ a.owner = none ∧ a.poison = false ∧ 0 < a.n ∧ off % 8 + a.n ≤ 8 ∧ a.va.toNat % 8 = off % 8 ∧
  s.mem.badGranule (memIndex d off) = false ∧ (s.pk.tile a.tile).scoreHolds a = false

/-- Its order lets a store be performed. -/
def Sys2Proof.Machine.StoreInTurn (s : State) (a : Access) : Prop := s.pk.heldByPosted a = false ∧ s.pk.beatHolds s.mem a = false

/-- Its order lets a load be performed, and no store of its own gives it a byte. -/
def Sys2Proof.Machine.LoadInTurn (s : State) (a : Access) : Prop :=
  s.pk.loadReady s.mem a = true ∧ (s.pk.tile a.tile).forwardTable a = [] ∧ (s.pk.tile a.tile).alive a.work = true

/-- The bytes of a word that an access reads, from a state of that word. -/
def Sys2Proof.Machine.bytesOf (a : Access) (w : W64) : List Byte := ((natToBytes 8 w.toNat).drop (a.va.toNat % 8)).take a.n

/-- The newest state of the word that holds a byte of package memory. -/
def Sys2Proof.Machine.newest (m : Memory) (k : Nat) : W64 := BitVec.ofNat 64 (bytesToNat (readBytes m.cells (8 * (k / 8)) 8))

/-- A state of its word that an access may read (R248, R253): the newest, or an older one whose next write does not happen-before
the access. -/
def Sys2Proof.Machine.mayRead (s : State) (a : Access) (k : Nat) (w : W64) : Prop :=
  w = newest s.mem k ∨ ∃ x ∈ s.pk.hist.past, x.word = k / 8 ∧ x.value = w ∧ s.pk.readFloor a (k / 8) < x.next

/-- Memory holds bytes from an index on, and what it held before everywhere else. -/
def Sys2Proof.Machine.Wrote.at (m m' : Memory) (k : Nat) (bs : List Byte) : Prop :=
  ∀ i, m'.byte i = if k ≤ i ∧ i < k + bs.length then bs.getD (i - k) 0 else m.byte i

/-- The tokens that a load's targets get. -/
def Sys2Proof.Machine.loaded (s : State) (a : Access) (x y : Token) : List Transit :=
  (((s.pk.tile a.tile).send a.elem a.work a.t0 x).send a.elem a.work a.t1 y).links

/-- An access is gone once it is performed. -/
def Sys2Proof.Machine.performed (t : State) (a : Access) : Prop := ∀ x ∈ t.pk.accs, x.id ≠ a.id

/-- A store through an M mapping writes its bytes at its home and no other byte, and ends the state that its word had; one of
16 bytes writes its two words one after the other, in an order that is open (R246). A load returns the bytes of one state of its
word: the newest, or one that it may still see (R247, R248, R253, log 82); through a P mapping the word must be full. -/
def Sys2Proof.Machine.StoresAndLoads : Prop :=
  ∀ (s : State) (a : Access) (d : DieId) (off : Nat) (p : Bool) (sc : BitVec 2), Inv s →
    let k := memIndex d off
    let bs := takeStore a.ty a.v a.data
    (AtHome s a d off false sc → a.kind = .st → StoreInTurn s a → bs.length = a.n →
      ∃ t, exec (.homeAccess a.id) s = .next t ∧ Wrote.at s.mem t.mem k bs ∧
        performed t a ∧ t.pk.resids = s.pk.resids ∧ (∀ u c, (t.pk.ctx u c).cur = (s.pk.ctx u c).cur) ∧
        (∀ x ∈ s.pk.hist.past, x ∈ t.pk.hist.past) ∧ (∀ n ∈ s.pk.pending, n ∈ t.pk.pending) ∧
        ∃ x ∈ t.pk.hist.past, x.word = k / 8 ∧ x.value = newest s.mem k) ∧
    ((s.pk.accs.find? fun x => x.id == a.id) = some a → a.st = .waiting → a.place = .home d off false sc → a.origin = none → a.op = none →
      a.poison = false → a.kind = .st → a.n = 16 → off % 16 = 0 → bs.length = 16 → s.mem.badGranule k = false →
      (s.pk.tile a.tile).scoreHolds a = false → StoreInTurn s a →
      (a.got = [] → ∃ t j, exec (.homeAccess a.id) s = .next t ∧ (j = 0 ∨ j = 8) ∧ Wrote.at s.mem t.mem (k + j) ((bs.drop j).take 8) ∧
        ∃ x ∈ t.pk.accs, x.id = a.id ∧ x.got.map (·.1) = [j]) ∧
      (∀ j, (j = 0 ∨ j = 8) → a.got.map (·.1) = [j] → ∃ t, exec (.homeAccess a.id) s = .next t ∧
        Wrote.at s.mem t.mem (k + (8 - j)) ((bs.drop (8 - j)).take 8) ∧ performed t a)) ∧
    (AtHome s a d off p sc → a.kind = .ld → LoadInTurn s a → (p = true → s.mem.isFull k = true) → (∀ x ∈ s.pk.hist.past, x.bad = false) →
      ∃ t w, exec (.homeAccess a.id) s = .next t ∧ t.mem.cells = s.mem.cells ∧ performed t a ∧ mayRead s a k w ∧
        (t.pk.tile a.tile).links = loaded s a (dataTok (placeLoad a.ty a.v (bytesOf a w))) (dataTok (placeLoad a.ty a.v (bytesOf a w))) ∧
        ∀ u c, (t.pk.ctx u c).cur = (s.pk.ctx u c).cur)

/-- The words of P mappings (R224, R225, R227, R277-R279, R281, R282): a load of an empty word waits in its home's table, or
goes again after 64 cycles where that is full; a write fills an empty word and serves the loads that wait for it, and finds a
full one WRITE_ONCE; LDPQ says whether the word is full, with its value; EMPTY empties it, and writes no byte. -/
def Sys2Proof.Machine.PWords : Prop :=
  ∀ (s : State) (a : Access) (d : DieId) (off : Nat) (sc : BitVec 2) (n : Nat), Inv s →
    let k := memIndex d off
    let bs := takeStore a.ty a.v a.data
    let always (f : Bool) : Prop := s.mem.isFull k = f ∧ ∀ x ∈ s.pk.hist.past, x.bad = false ∧ (x.word = k / 8 → x.full = f)
    let stands (t : State) : Option AccSt := (t.pk.accs.find? fun x => x.id == a.id).map (·.st)
    let elsewhere (t : State) : Prop := ∀ i, i / 8 ≠ k / 8 → t.mem.isFull i = s.mem.isFull i
    (AtHome s a d off true sc → a.n = 8 →
      (a.kind = .ld → LoadInTurn s a → always false → ∃ t, exec (.homeAccess a.id) s = .next t ∧ t.mem.cells = s.mem.cells ∧
        stands t = some (if s.pk.tableFull a = true then .retry 0 else .deferred)) ∧
      (a.kind = .ldpq → LoadInTurn s a → always true → ∃ t w, exec (.homeAccess a.id) s = .next t ∧ t.mem.cells = s.mem.cells ∧
        performed t a ∧ mayRead s a k w ∧
        (t.pk.tile a.tile).links = loaded s a (dataTok (placeLoad a.ty a.v (bytesOf a w))) (predTok true)) ∧
      (a.kind = .ldpq → LoadInTurn s a → always false → ∃ t, exec (.homeAccess a.id) s = .next t ∧ t.mem.cells = s.mem.cells ∧
        performed t a ∧ (t.pk.tile a.tile).links = loaded s a nullTok (predTok false)) ∧
      (a.kind = .st → StoreInTurn s a → bs.length = 8 → s.mem.isFull k = false →
        ∃ t, exec (.homeAccess a.id) s = .next t ∧ Wrote.at s.mem t.mem k bs ∧ performed t a ∧ t.mem.isFull k = true ∧ elsewhere t ∧
          ∀ b ∈ s.pk.accs, b.id ≠ a.id → b.st = .deferred → (∃ sc, b.place = .home d off true sc) → b.n = 8 → b.op = none → b.got = [] →
            ∃ c ∈ t.pk.accs, c.id = b.id ∧ c.got = [(0, BitVec.ofNat 64 (bytesToNat bs), false)]) ∧
      (a.kind = .st → StoreInTurn s a → bs.length = 8 → s.mem.isFull k = true → a.res = (s.pk.tile a.tile).res →
        ∃ t, exec (.homeAccess a.id) s = .next t ∧ t.mem.cells = s.mem.cells ∧ performed t a ∧ t.mem.isFull k = true ∧
          ∃ y ∈ t.pk.pending, y.ctx = some (a.tile, a.work.ctx) ∧ y.fr.cause = Cause.writeOnce ∧ y.fr.cls = 2) ∧
      (a.kind = .empty → StoreInTurn s a → bs.length = 8 →
        ∃ t, exec (.homeAccess a.id) s = .next t ∧ t.mem.cells = s.mem.cells ∧ performed t a ∧ t.mem.isFull k = false ∧ elsewhere t)) ∧
    ((s.pk.accs.find? fun x => x.id == a.id) = some a → a.st = .retry n → 64 ≤ n →
      exec (.loadRetry a.id) s = .next (s.setAccSt a.id .waiting))

/-- The new value of AMO (R286). -/
def Sys2Proof.Machine.amoNew (ty : Ty) (op : AtomOp) (old v : Nat) : Nat :=
  let less (x y : Nat) : Bool := decide (ty.int x ≤ ty.int y)
  if ty = .f32 then
    (match op with
      | .add => (faddLane .f32 .rne old v).1
      | .min => (fminmax ty.fmt false old v).1
      | .max => (fminmax ty.fmt true old v).1
      | .and_ => old &&& v | .or_ => old ||| v | .xor_ => old ^^^ v | .swap => v)
  else
    (match op with
      | .add => (old + v) % 2 ^ ty.valueWidth
      | .min => if less old v then old else v
      | .max => if less old v then v else old
      | .and_ => old &&& v | .or_ => old ||| v | .xor_ => old ^^^ v | .swap => v)

/-- Atomics at their home (R286-R288): AMO writes its operation of the old value and its operand; CAS writes its new value
only where the old one equals the value compared. The registers that wait for it get the old value, of CAS with the success lane,
and no other register changes. -/
def Sys2Proof.Machine.AtomicsAtHome : Prop :=
  ∀ (s : State) (a : Access) (d : DieId) (off : Nat) (sc : BitVec 2) (op : AtomOp), Inv s → AtHome s a d off false sc →
    s.pk.heldByPosted a = false → a.n = elemBytes a.ty → a.ty.valueWidth = 8 * a.n →
    let k := memIndex d off
    let w := 8 * a.n
    let old := bytesToNat (readBytes s.mem.cells k a.n)
    let x := laneNat w a.data 0
    let y := laneNat w a.data 1
    let replied (t : State) (v : W128) : Prop := performed t a ∧ ∀ c,
      (∀ r, r < 128 → (s.pk.ctx a.tile c).cur.pend = [(r, a.id)] →
        (t.pk.ctx a.tile c).cur.getG r = (v, false) ∧ (t.pk.ctx a.tile c).cur.pend = [] ∧
        ∀ r', r' ≠ r → (t.pk.ctx a.tile c).cur.getG r' = (s.pk.ctx a.tile c).cur.getG r') ∧
      ((∀ z ∈ (s.pk.ctx a.tile c).cur.pend, z.2 ≠ a.id) → (t.pk.ctx a.tile c).cur = (s.pk.ctx a.tile c).cur)
    (a.kind = .amo op false false → ∃ t, exec (.homeAccess a.id) s = .next t ∧
      Wrote.at s.mem t.mem k (natToBytes a.n (amoNew a.ty op old x)) ∧ replied t (ofLanes w [old])) ∧
    (a.kind = .cas false false → ∃ t, exec (.homeAccess a.id) s = .next t ∧
      (old = x → Wrote.at s.mem t.mem k (natToBytes a.n y) ∧ replied t (ofLanes w [old, 2 ^ w - 1])) ∧
      (old ≠ x → t.mem.cells = s.mem.cells ∧ replied t (ofLanes w [old, 0])))

/-- Requests and replies between packages (R60, R225, R237, R348), walks (R236, R239) and scrubbing (R231): a request that the
tables of its VI let in under the level it carries (log 37), on the die that receives it (log 80), becomes an access, any other
is answered with its fault; a reply gives a load its value, under the bytes that its context's own stores gave it, and one from
a full table sends it again; one that does not come in 2^22 cycles leaves REMOTE_TIMEOUT, subcode 1, and the
load is withdrawn at its home; a walk reads one entry of memory at a time, and leaves its page in the tile's TLB. -/
def Sys2Proof.Machine.RemoteTrafficMoves : Prop :=
  ∀ (s : State) (a : Access) (m : Fin 16) (pvi : BitVec 12) (lvl : Bool) (addr : BitVec 72) (n reply : Nat) (vi : Fin 64)
    (v : W64) (t : TileId) (note : WalkNote),
    (s.pk.viOf pvi m = some vi →
      let s1 := s.walkedOn (s.pk.receiver m) vi note
      (∀ pl, remotePlace s.mem s.pk (s.pk.receiver m) vi lvl .load ((0xFF : BitVec 8) ++ addr) n = (.ok pl, note) →
        ∃ u y, exec (.remoteRequestArrival m pvi (.load lvl addr n reply)) s = .next u ∧ u.mem = s1.mem ∧ u.pk.accs = s1.pk.accs ++ [y] ∧
          y.origin = some (m, reply) ∧ y.vi = some vi ∧ y.kind = .ld ∧ y.place = pl ∧ y.n = n ∧ u.pk.dies = s1.pk.dies) ∧
      (∀ e, remotePlace s.mem s.pk (s.pk.receiver m) vi lvl .load ((0xFF : BitVec 8) ++ addr) n = (.error e, note) →
        ∃ u, exec (.remoteRequestArrival m pvi (.load lvl addr n reply)) s = .next u ∧ u.mem = s1.mem ∧ u.pk.accs = s1.pk.accs ∧
          u.pk.outgoing = s.pk.outgoing ++ [.reply m reply (.fault e.cause e.sub)])) ∧
    ((s.pk.accs.find? fun x => x.id == a.id) = some a → a.st = .remote n → a.kind = .ld → a.origin = none → a.owner = none → a.n ≤ 8 →
      ((s.pk.tile a.tile).alive a.work = true →
        let k := dataTok (placeLoad a.ty a.v ((List.range a.n).map fun j => (alookup j a.fwd).getD ((natToBytes 8 v.toNat).getD j 0)))
        ∃ u, exec (.remoteReply a.id (.data v false)) s = .next u ∧ u.mem = s.mem ∧ (∀ x ∈ u.pk.accs, x.id ≠ a.id) ∧
          (u.pk.tile a.tile).links = (((s.pk.tile a.tile).send a.elem a.work a.t0 k).send a.elem a.work a.t1 k).links) ∧
      (∃ u, exec (.remoteReply a.id .retry) s = .next u ∧ u.mem = s.mem ∧
        (u.pk.accs.find? fun x => x.id == a.id).map (·.st) = some (.retry 0)) ∧
      (2 ^ 22 ≤ n → a.res = (s.pk.tile a.tile).res →
        ∃ u, exec (.remoteTimeout a.id) s = .next u ∧ u.mem = s.mem ∧ (∀ x ∈ u.pk.accs, x.id ≠ a.id) ∧
          (∀ k, a.place = .remote k →
            u.pk.outgoing = s.pk.outgoing ++ [.withdraw k (s.pk.vi (a.vi.getD (s.pk.tileVi a.tile))).pvi a.id]) ∧
          ∃ y ∈ u.pk.pending, y.ctx = some (a.tile, a.work.ctx) ∧ y.fr.cause = Cause.remoteTimeout ∧ y.fr.sub = 1 ∧ y.fr.cls = 2)) ∧
    (∀ r g (va : VA), (s.pk.tile t).res.isSome = true →
      walk s.mem s.pk t.die (s.pk.tileVi t) (va.toNat % 2 ^ 72 / 2 ^ 16) = (r, g) →
      (∀ w, g.read.length ≤ 1 → r = .ok w → ∃ u, exec (.pageWalk t va) s = .next u ∧ u.mem.cells = s.mem.cells ∧
        searchTlb (s.pk.tileVi t) (va.toNat % 2 ^ 72 / 2 ^ 16) (u.pk.tile t).tlb = some w.map) ∧
      (∀ e rest, 1 < g.read.length → g.entries = e :: rest → ∃ u, exec (.pageWalk t va) s = .next u ∧ u.mem.cells = s.mem.cells ∧
        e ∈ (u.pk.die t.die).cache ∧ (u.pk.tile t).tlb = (s.pk.tile t).tlb)) ∧
    (∀ bank, exec (.scrubStep t bank) s = .next s)

/-- Accesses at their homes, and traffic between packages. -/
def Obligations.AccessesPerform : Prop := StoresAndLoads ∧ PWords ∧ AtomicsAtHome ∧ RemoteTrafficMoves

/-! ### Engines -/

/-- The matrix engine (R196, R197, R205, R211): an operation at the head whose conditions hold starts; a K-step adds its
eight blocks, in ascending order, to each value of the rows it has and to no other word; ACCZ leaves zeros and unit scales
and gives its counter back; a buffered ACCWR reaches its word. -/
def Obligations.MatrixEngine : Prop :=
  ∀ (s : State) (t : TileId) (o : Op) (d : W128) (a : Fin 4),
    let p := s.pk
    let tl := p.tile t
    let canonical (u : State) : Prop := swf (0 : W128) (u.pk.tile t).acc = true
    (firstWaiting tl.matrixQ = some o → p.enginesRun t = true → o.cmd = .accz a → o.snap = none → o.stopped = false → o.ending = false →
      (tl.matrixQ.find? fun x => x.id == o.id) = some o → tl.mayStart o = true → p.unacked t o.ctx o.po o.lsid = false →
      p.matrixBreach t o = false → tl.sections = [] →
      ∃ u y, exec (.matrixOpStart t) s = .next u ∧ u.mem = s.mem ∧ y ∈ (u.pk.tile t).matrixQ ∧ y.id = o.id ∧ y.cmd = o.cmd ∧
        y.started = true ∧ y.ports = [] ∧
        (u.pk.tile t).acc = tl.acc ∧ (u.pk.tile t).ctxs = tl.ctxs) ∧
    (tl.runningMma = some (o, d) → Mma.follower d = false → o.mark = true → Mma.asrc d = false → o.partner = none → canonical s →
      ∃ u, exec (.kstep t) s = .next u ∧ u.mem = s.mem ∧ canonical u ∧
        (∀ r g, r < Mma.m d → g < 64 → sget 0 (u.pk.tile t).acc ((Mma.acc d).val * 16384 + 64 * r + g) =
          ofLanes 32 ((List.range 4).map fun j =>
            kstepLane tl.wActive (tl.aSlots (Mma.aslot d + o.pos * bxSlots (Mma.awidth d)) (Mma.awidth d)) (Mma.digits d) (Mma.h d) r (4 * g + j)
              (laneNat 32 (sget 0 tl.acc ((Mma.acc d).val * 16384 + 64 * r + g)) j))) ∧
        (∀ i, (i / 16384 ≠ (Mma.acc d).val ∨ 64 * Mma.m d ≤ i % 16384) → sget 0 (u.pk.tile t).acc i = sget 0 tl.acc i) ∧
        (u.pk.tile t).pad = tl.pad ∧ (u.pk.tile t).ctxs = tl.ctxs) ∧
    ((tl.streamQ.find? fun x => x.id == o.id) = none → (tl.matrixQ.find? fun x => x.id == o.id) = some o → o.cmd = .accz a →
      o.started = true → o.stopped = false → o.ending = false → o.ghost = false → o.uncounted = false → p.opRuns t o = true → p.opAccs o.id = false →
      tl.sections = [] → canonical s →
      ∃ u, exec (.engineOpComplete t o.id) s = .next u ∧ u.mem = s.mem ∧ canonical u ∧
        (∀ i, sget 0 (u.pk.tile t).acc i = if i / 16384 = a.val then 0 else sget 0 tl.acc i) ∧
        (u.pk.tile t).accScale.get a = (0x3F800000, 0x3F800000) ∧ (∀ x ∈ (u.pk.tile t).matrixQ, x.id ≠ o.id) ∧
        (u.pk.ctx t o.ctx).cur.cnt.get o.ctr = (p.ctx t o.ctx).cur.cnt.get o.ctr - 1 ∧
        (u.pk.ctx t o.ctx).cur.g = (p.ctx t o.ctx).cur.g) ∧
    (∀ w rest, tl.accBuf = w :: rest → (tl.matrixQ.any fun x => x.id < w.id && x.cmd.names w.a) = false → canonical s →
      ∃ u, exec (.accWriteApply t) s = .next u ∧ u.mem = s.mem ∧ canonical u ∧ (u.pk.tile t).accBuf = rest ∧
        (∀ i, sget 0 (u.pk.tile t).acc i = if i = w.a.val * 16384 + w.index then w.v else sget 0 tl.acc i) ∧
        (u.pk.tile t).matrixQ = tl.matrixQ)

/-- The stream engine, its port and its handles (R298, R304, R305, R308, R310, R314, R315): a parameter block is read from
memory; a command outside its limits fails with BLOCK_FORM; a copy at the head starts, one at a port once its stream is free
and bound; a send is made ready, or asks another package for its handle; a cycle of the port goes to the first operation
offered that has a transfer; an element read for operand memory waits for its 16-byte unit, and each unit becomes visible
wholly, in an order that is open (R194, R259);
a send, or another package's reservation, that is the first to wait for a handle takes it once it is free and large enough,
and a later one waits; a tile that the residency does not have is an error (R313), and a request to none of the VI's is dropped
(R392); a fill that dies frees its handle, and leaves the units that came with values not decided. -/
def Obligations.StreamEngine : Prop :=
  ∀ (s : State) (t : TileId) (o : Op) (c : StreamCmd) (sc : SendCmd) (v : TileId) (h : Fin 64) (m : Fin 16) (pvi : BitVec 12)
    (spot : Spot) (bytes rep : Nat),
    let p := s.pk
    let tl := p.tile t
    let head (o : Op) : Prop := firstWaiting tl.streamQ = some o ∧ o.stopped = false ∧ o.ending = false ∧ p.enginesRun t = true ∧
      tl.activeStreams < 16 ∧ (tl.streamQ.find? fun x => x.id == o.id) = some o ∧ ∀ x ∈ tl.streamQ, x.unread = false
    let first (b : Handle) (w : HandleWait) : Prop := ∀ x ∈ b.waiters, p.stillWaits x = true → x = w
    let filled (b y : Handle) (w : HandleWait) : Prop := y.st = .filling ∧ y.bytes = 0 ∧ y.base = b.base ∧ y.size = b.size ∧ w ∉ y.waiters
    (head o → p.forked t o = true → o.snap = none → o.cmd = .strm c → c.kind = 1 ∨ c.kind = 2 ∨ c.kind = 4 →
      (c.eor = false → c.eos = false → ∃ u, exec (.streamOpStart t) s = .next u ∧ u.mem = s.mem ∧
        ∃ y ∈ (u.pk.tile t).streamQ, y.id = o.id ∧ y.started = true ∧ y.snap = some (.strm c) ∧ y.pos = 0 ∧ y.beat0 = 0) ∧
      (c.eor = true ∨ c.eos = true → ∃ u, exec (.streamOpStart t) s = .next u ∧ u.mem = s.mem ∧
        ∃ y ∈ u.pk.pending, y.ctx = some (t, o.ctx) ∧ y.fr.cause = Cause.blockForm ∧ y.fr.sub = 6 ∧ y.fr.cls = 2)) ∧
    (head o → p.forked t o = true → o.snap = none → o.cmd = .strm c → c.kind = 0 ∨ c.kind = 3 →
      (∀ x ∈ tl.streamQ, x.started = true → ∀ e, x.stream? = some e → e.atPort = true → e.stream ≠ c.stream) →
      (c.kind = 3 → c.eor = false ∧ c.eos = false) →
      (((tl.boundPort c.fromPort c.stream.val).isSome = true → ∃ u, exec (.streamOpStart t) s = .next u ∧ u.mem = s.mem ∧
        ∃ y ∈ (u.pk.tile t).streamQ, y.id = o.id ∧ y.started = true ∧ y.snap = some (.strm c) ∧ y.pos = 0) ∧
      ((tl.boundPort c.fromPort c.stream.val) = none → ∃ u, exec (.streamOpStart t) s = .next u ∧ u.mem = s.mem ∧
        ∃ y ∈ u.pk.pending, y.ctx = some (t, o.ctx) ∧ y.fr.cause = Cause.blockForm ∧ y.fr.sub = 6 ∧ y.fr.cls = 2))) ∧
    (head o → p.forked t o = true → o.snap = none → o.cmd = .send sc →
      (p.sendPeer t sc = .ok none → p.sendDest t sc = .tile v → ∃ u, exec (.streamOpStart t) s = .next u ∧ u.mem = s.mem ∧
        (∃ y ∈ (u.pk.tile t).streamQ, y.id = o.id ∧ y.snap = some (.send sc) ∧ y.started = false) ∧
        HandleWait.own t o.id ∈ ((u.pk.tile v).handles.get sc.handle).waiters) ∧
      (p.sendPeer t sc = .ok (some m) → o.mark = false → ∃ u, exec (.streamOpStart t) s = .next u ∧ u.mem = s.mem ∧
        u.pk.outgoing = p.outgoing ++ [.reserve m (p.vi (p.tileVi t)).pvi
          { group := Desc.pgroup (p.tileDesc t), die := sc.die, xy := sc.y ++ sc.x } sc.handle sc.bytes o.id])) ∧
    (∀ va d off scope note, (tl.streamQ.find? fun x => x.unread && p.forked t x) = some o → o.cmd = .strmpb va →
      (tl.blockCache.find? fun k => k.1 == va) = none → checkG s.mem p t o.lvl .load va 64 = (.ok (.home d off false scope), note) →
      (∀ j < 4, s.mem.badGranule (memIndex d off + 16 * j) = false) →
      let b := BitVec.ofNat 512 (bytesToNat (readBytes s.mem.cells (memIndex d off) 64))
      strmpbReserved b = true → (parseStrmpb b).blockOk p t = true →
      ∃ u, exec (.streamOpStart t) s = .next u ∧ u.mem.cells = s.mem.cells ∧
        ∃ y ∈ (u.pk.tile t).streamQ, y.id = o.id ∧ y.snap = some (.strm (parseStrmpb b))) ∧
    (∀ rest ks, tl.offered = o :: rest → o.started = true → o.stopped = false → o.ending = false → p.opRuns t o = true →
      o.snap = some (.strm c) → c.kind = 2 →
      (o.fills = [] → o.pos < c.total → o.pieces? (c.piecesOf o.pos 1) = some ks →
        (∀ k ∈ ks, k.poison = false) → p.omBreach t (c.slot.val + o.pos * c.e / 65536) = false →
        ∃ u, exec (.memoryPortSlot t) s = .next u ∧ u.mem = s.mem ∧ (u.pk.tile t).pad = tl.pad ∧ (u.pk.tile t).om = tl.om ∧
          ∃ y ∈ (u.pk.tile t).streamQ, y.id = o.id ∧ y.pos = o.pos + 1 ∧
            y.fills = [(c.slot.val * 65536 + o.pos * c.e, pieceBytes (min c.e 8) ks, false)]) ∧
      (o.fills ≠ [] → c.total ≤ o.pos →
        ∃ u k, exec (.memoryPortSlot t) s = .next u ∧ u.mem = s.mem ∧ (u.pk.tile t).pad = tl.pad ∧ (∃ f ∈ o.fills, f.1 / 16 = k) ∧
          (u.pk.tile t).om = (o.fills.filter fun f => f.1 / 16 == k).foldl (fun m f => if f.2.2 then m else writeBytes m f.1 f.2.1) tl.om ∧
          ∃ y ∈ (u.pk.tile t).streamQ, y.id = o.id ∧ y.pos = o.pos ∧ y.fills = o.fills.filter fun f => f.1 / 16 != k)) ∧
    (firstSome (s.transfer t) tl.offered = none →
      exec (.memoryPortSlot t) s = .next { s with pk := p.modTile t fun x => { x with portSlot := x.portSlot + 1 } }) ∧
    (∀ rest u, tl.offered = o :: rest → s.transfer t o = some u →
      exec (.memoryPortSlot t) s = .next { u with pk := u.pk.modTile t fun x => { x with portSlot := x.portSlot + 1 } }) ∧
    (head o → o.snap.isSome = true → o.send? = some sc → p.sendPeer t sc = .ok none → p.sendDest t sc = .tile v →
      let b := (p.tile v).handles.get sc.handle
      (b.st = .free → first b (.own t o.id) → sc.bytes ≤ b.size → (p.tile v).scoreboard < 32 →
        ∃ u, exec (.sendStart t o.id) s = .next u ∧ u.mem = s.mem ∧
          (let y := (u.pk.tile v).handles.get sc.handle
           filled b y (.own t o.id) ∧ y.sender = some (t, o.id) ∧ y.far = none) ∧
          ∀ k, k ≠ sc.handle → (u.pk.tile v).handles.get k = (p.tile v).handles.get k) ∧
      (∀ w rest, b.waiters = w :: rest → p.stillWaits w = true → w ≠ .own t o.id →
        ∃ u, exec (.sendStart t o.id) s = .next u ∧ u.mem = s.mem ∧ (u.pk.tile t).streamQ = tl.streamQ ∧
          ((u.pk.tile v).handles.get sc.handle).st = b.st ∧ HandleWait.own t o.id ∈ ((u.pk.tile v).handles.get sc.handle).waiters)) ∧
    (∀ vi, p.viOf pvi m = some vi → p.spotDest vi spot = some (.tile t) → bit p.membersUp m.val = true →
      let b := tl.handles.get h
      let w : HandleWait := .far m pvi spot bytes rep
      b.st = .free → first b w → tl.scoreboard < 32 →
      (bytes ≤ b.size → ∃ u f, exec (.handleReserve spot h m pvi bytes rep) s = .next u ∧ u.mem = s.mem ∧
        (let y := (u.pk.tile t).handles.get h
         filled b y w ∧ y.sender = none ∧ y.far = some f ∧ f.member = m ∧ f.reply = rep ∧ f.bytes = bytes ∧ f.units = []) ∧
        u.pk.outgoing = p.outgoing ++ [.reply m rep (.granted b.size)]) ∧
      (b.size < bytes → ∃ u, exec (.handleReserve spot h m pvi bytes rep) s = .next u ∧ u.mem = s.mem ∧
        ((u.pk.tile t).handles.get h).st = .free ∧ u.pk.outgoing = p.outgoing ++ [.reply m rep (.fault Cause.prot 7)])) ∧
    ((p.viOf pvi m = none ∨ ∃ vi, p.viOf pvi m = some vi ∧ (p.spotDest vi spot = none ∨ p.spotDest vi spot = some .later)) →
      exec (.handleReserve spot h m pvi bytes rep) s = .next s) ∧
    (∀ vi, p.viOf pvi m = some vi → p.spotDest vi spot = some .absent → ∃ u, exec (.handleReserve spot h m pvi bytes rep) s = .next u ∧
      u.mem = s.mem ∧ u.pk.dies = p.dies ∧ u.pk.outgoing = p.outgoing ++ [.reply m rep (.fault Cause.prot 7)]) ∧
    (∀ f, (tl.handles.get h).st = .filling → (tl.handles.get h).far = some f → 2 ^ 22 ≤ (tl.handles.get h).idle →
      ∃ u, exec (.handleFillTimeout t h) s = .next u ∧ u.mem = s.mem ∧
        (u.pk.tile t).handles.get h = { tl.handles.get h with st := .free, bytes := 0, far := none, idle := 0 } ∧
        (u.pk.tile t).ctxs = tl.ctxs ∧ (∀ x ∈ u.pk.accs, x.op ≠ some f.op) ∧
        ∀ k, (∀ i ∈ f.units, ¬ ((tl.handles.get h).base + 16 * i ≤ k ∧ k < (tl.handles.get h).base + 16 * i + 16)) →
          sget 0 (u.pk.tile t).pad k = sget 0 tl.pad k)

/-- Beats at an egress and an engine's faulting element (R58, R243, R466): a beat without fault leaves by its port; a
faulty one stops its section with a beat-exact trap; an operation at a faulting element stops there and its context is
told. -/
def Obligations.BeatsAndElementFaults : Prop :=
  ∀ (s : State) (t : TileId) (port : Fin 64) (x : Section) (b : Nat) (k : Transit) (o : Op) (d : W128) (w : Nat),
    let tl := s.pk.tile t
    let work : Work := { ctx := x.ctx, img := x.img, stream := true, n := b }
    (tl.egress? port = some (x, b) → x.stop = none →
      (tl.links.filter fun y => y.work == work && y.tgt == Target.output (BitVec.ofNat 6 port.val)) = [k] →
      (egressFault port false k.tok = none → (tl.taker port x).isSome = true →
        exec (.streamEgress t port) s =
          .next { s with pk := (s.pk.modTile t fun y => y.passEgress x port b (tl.taker port x) k.tok).tokenMoved t }) ∧
      (∀ fk, egressFault port false k.tok = some fk →
        exec (.streamEgress t port) s = .next { s with pk := s.pk.sectionFault t work fk })) ∧
    (tl.op? o.id = some o → (tl.streamQ.any fun y => y.id == o.id) = false → o.cmd = .accdrn d → Drain.section_ d = false →
      o.started = true → o.stopped = false → o.ending = false → o.pos < Drain.units d → s.pk.opAccs o.id = false →
      ((Drain.wordsOf d o.pos).find? fun i => sget false tl.accPoison ((Drain.acc d).val * 16384 + i)) = some w →
      ∃ u, exec (.engineElementFault t o.id) s = .next u ∧ u.mem = s.mem ∧ ((u.pk.tile t).op? o.id).map (·.stopped) = some true ∧
        (u.pk.tile t).pad = tl.pad ∧
        ∃ y ∈ u.pk.pending, y.ctx = some (t, o.ctx) ∧ y.fr.cause = Cause.poison ∧ y.fr.sub = 6 ∧ y.fr.cls = 2)

/-! ### Configuration -/

/-- A command writes the one field of the one element it names, which is configured from then on; a field the element
does not have blocks it; a clear leaves it unconfigured and, in the active plane, drops the tokens it holds; a swap
exchanges the planes of its sides once nothing uses them, but for a blocked element, which keeps them and is told (R84-R86,
R104, R317). -/
def Obligations.ConfigurationCommands : Prop :=
  ∀ (s : State) (a : BitVec 12) (n : BitVec 4) (v : W16) (t : TileId) (o : Op) (rest : List Op) (m : BitVec 4),
    let pl (u : State) : CfgPlane := (u.pk.tile s.cmd.tile).plane s.cmd.active
    (commandOk a n = true →
      ∃ u, exec (.configCommand a n v) s = .next u ∧ u.mem = s.mem ∧ ((pl u).elem a).field n.toNat = v ∧
        ((pl u).elem a).configured = true ∧ ((pl u).elem a).blocked = ((pl s).elem a).blocked ∧
        (∀ k, k < 9 → k ≠ n.toNat → ((pl u).elem a).field k = ((pl s).elem a).field k) ∧
        (∀ b, b ≠ a → (pl u).elem b = (pl s).elem b) ∧
        (u.pk.tile s.cmd.tile).plane (!s.cmd.active) = (s.pk.tile s.cmd.tile).plane (!s.cmd.active)) ∧
    (commandOk a n = false →
      ∃ u, exec (.configCommand a n v) s = .next u ∧ u.mem = s.mem ∧ ((pl u).elem a).blocked = true ∧
        ((pl u).elem a).f = ((pl s).elem a).f ∧ (∀ b, b ≠ a → (pl u).elem b = (pl s).elem b)) ∧
    (swf {} (pl s).elems = true →
      ∃ u, exec (.clearCommand a) s = .next u ∧ u.mem = s.mem ∧ swf {} (pl u).elems = true ∧ (pl u).elem a = {} ∧
        (∀ b, b ≠ a → (pl u).elem b = (pl s).elem b) ∧
        (u.pk.tile s.cmd.tile).store = (if s.cmd.active then (s.pk.tile s.cmd.tile).store.filter fun e => e.elem != a
          else (s.pk.tile s.cmd.tile).store)) ∧
    ((s.pk.tile t).configQ = o :: rest → o.cmd = .cfgsw m → o.started = true → s.pk.enginesRun t = true → s.pk.planesIdle t m = true →
      (((s.pk.tile t).shadow.part m).elems.find? fun e => e.2.blocked) = none →
      ∃ u, exec (.configPlaneSwap t) s = .next u ∧ u.mem = s.mem ∧
        (u.pk.tile t).active = ((s.pk.tile t).active.clearSides m).join ((s.pk.tile t).shadow.part m) ∧
        (u.pk.tile t).shadow = ((s.pk.tile t).shadow.clearSides m).join ((s.pk.tile t).active.part m) ∧
        (∀ y ∈ (u.pk.tile t).configQ, y.id ≠ o.id)) ∧
    (∀ e, (s.pk.tile t).configQ = o :: rest → o.cmd = .cfgsw m → o.started = true → s.pk.enginesRun t = true → s.pk.planesIdle t m = true →
      (((s.pk.tile t).shadow.part m).elems.find? fun e => e.2.blocked) = some e →
      ∃ u, exec (.configPlaneSwap t) s = .next u ∧ u.mem = s.mem ∧ (u.pk.tile t).active = (s.pk.tile t).active ∧
        (u.pk.tile t).shadow = (s.pk.tile t).shadow ∧ (∀ y ∈ (u.pk.tile t).configQ, y.id ≠ o.id) ∧
        ∃ y ∈ u.pk.pending, y.ctx = some (t, o.ctx) ∧ y.fr.cause = Cause.illegalConfig ∧ y.fr.sub = BitVec.ofNat 8 e.2.step ∧
          y.fr.coord = e.2.badField ++ BitVec.ofNat 12 e.1)

/-! ### Errors of storage -/

/-- Errors that the part finds in itself (R18, R216, R231, R432, R433): a register's error poisons it and raises a
deferred ECC trap; an accumulator word's error poisons it and counts as a soft error; a parity error in a plane counts as one
and keeps every register; a failed tile is fenced at once, holds nothing, and is announced on the ring, which a full queue
delays (log 70); for want of margin, every VI with work on the die has a record of it. -/
def Obligations.StorageErrors : Prop :=
  ∀ (s : State) (t : TileId) (c : CtxId) (g : Fin 128) (a : Fin 4) (w : Nat) (e : BitVec 12) (f : FenceCause),
    let p := s.pk
    ((p.ctx t c).st ≠ .free →
      ∃ u, exec (.registerEccError t c g) s = .next u ∧ u.mem = s.mem ∧ ((u.pk.ctx t c).cur.getG g.val).2 = true ∧
        (∀ k, k ≠ g.val → (u.pk.ctx t c).cur.getG k = (p.ctx t c).cur.getG k) ∧ (u.pk.ctx t c).cur.pc = (p.ctx t c).cur.pc ∧
        ∃ n, u.pk.pending = p.pending ++ [n] ∧ n.ctx = some (t, c) ∧ n.fr.cause = Cause.eccDeferred ∧ n.fr.sub = 4 ∧ n.fr.cls = 2) ∧
    (w < 16384 →
      ∃ u, exec (.sramUncorrectable t (.acc a w)) s = .next u ∧ u.mem = s.mem ∧
        (u.pk.die t.die).softErrors = (p.die t.die).softErrors + 1 ∧
        sget false (u.pk.tile t).accPoison (a.val * 16384 + w) = true ∧ (u.pk.tile t).acc = (p.tile t).acc ∧
        (u.pk.tile t).ctxs = (p.tile t).ctxs) ∧
    (e.toNat / 256 ≠ 12 →
      ∃ u, exec (.parityError t e) s = .next u ∧ u.mem = s.mem ∧
        (u.pk.die t.die).softErrors = (p.die t.die).softErrors + 1 ∧ ∀ b, (u.pk.ctx t b).cur = (p.ctx t b).cur) ∧
    ((p.tile t).fenced = false →
      ∃ u, exec (.tileFence t f) s = .next u ∧ u.mem = s.mem ∧ (u.pk.tile t).fenced = true ∧ (u.pk.tile t).res = none ∧
        (u.pk.tile t).insts = [] ∧
        (u.pk.ring.queues.get t.die ++ u.pk.ring.late.get t.die).map (·.body) =
          (p.ring.queues.get t.die ++ p.ring.late.get t.die).map (·.body) ++ [.gone t.die (some t.n)] ∧
        (f = .margin → ∀ r x, p.resid? r = some x → x.die = t.die → x.st ≠ .ended →
          ∃ n ∈ u.pk.pending, n.fr.kind = 5 ∧ n.fr.cause = Cause.margin ∧ n.fr.vi = x.vi) ∧
        ∀ r x, (p.tile t).res = some r → p.resid? r = some x → x.st ≠ .ended → x.aborted = false →
          ∃ y, u.pk.resid? r = some y ∧ y.st = .stopped ∧ y.fencedOut = true)
end

