-- ==== Sys2Proof/Laws/Sparse.lean ====
section
/-! SUPPORT. Sparse storage: a read after a write, and every operation keeps the canonical form. -/

namespace Sys2Proof.Machine

section
variable {β : Type} [DecidableEq β] {d : β}

/-- A read after a write of something else than what an unlisted address holds, in any list. -/
theorem sget_sset_of_ne (l : List (Nat × β)) (a : Nat) (v : β) (h : v ≠ d) : sget d (sset d l a v) a = v := by
  induction l with
  | nil => simp [sset, sget, h]
  | cons x l ih =>
    obtain ⟨k, w⟩ := x
    simp only [sset]
    by_cases h1 : a < k
    · simp [h1, h, sget]
    · by_cases h2 : a = k
      · simp [h2, h, sget]
      · have : ¬ k = a := fun e => h2 e.symm
        simp [h1, h2, sget, this, ih]

theorem sget_sset_other_of_ne (l : List (Nat × β)) {a b : Nat} (v : β) (h : v ≠ d) (hb : b ≠ a) :
    sget d (sset d l a v) b = sget d l b := by
  have hab : ¬ a = b := fun e => hb e.symm
  induction l with
  | nil => simp [sset, sget, h, hab]
  | cons x l ih =>
    obtain ⟨k, w⟩ := x
    simp only [sset]
    by_cases h1 : a < k
    · simp only [h1, if_true, h, if_false, sget]
      by_cases h3 : b < a
      · have : ¬ k = b := by omega
        simp [hab, h3, this, show b < k by omega]
      · simp [hab, h3]
    · by_cases h2 : a = k
      · subst h2; simp [h, sget, hab]
      · simp only [h1, h2, if_false, sget, ih]

theorem swfFrom_below {lo : Nat} {l : List (Nat × β)} (h : swfFrom d (some lo) l = true) {a : Nat} (ha : a ≤ lo) :
    sget d l a = d := by
  cases l with
  | nil => rfl
  | cons x l =>
    obtain ⟨k, w⟩ := x
    simp only [swfFrom, Bool.and_eq_true, decide_eq_true_eq] at h
    have : ¬ k = a := by omega
    simp [sget, this, show a < k by omega]

theorem swfFrom_weaken {l : List (Nat × β)} {lo : Option Nat} {b : Nat} (h : swfFrom d (some b) l = true)
    (hb : ∀ c, lo = some c → c ≤ b) : swfFrom d lo l = true := by
  cases l with
  | nil => rfl
  | cons x l =>
    obtain ⟨k, w⟩ := x
    simp only [swfFrom, Bool.and_eq_true, decide_eq_true_eq] at h ⊢
    refine ⟨⟨?_, h.1.2⟩, h.2⟩
    cases lo with
    | none => rfl
    | some c => have := hb c rfl; simp; omega

theorem swfFrom_sset {lo : Option Nat} {l : List (Nat × β)} (h : swfFrom d lo l = true) (a : Nat) (v : β)
    (ha : ∀ b, lo = some b → b < a) : swfFrom d lo (sset d l a v) = true := by
  induction l generalizing lo with
  | nil =>
    simp only [sset]
    by_cases hv : v = d
    · simp [hv, swfFrom]
    · simp only [hv, if_false, swfFrom, Bool.and_true, Bool.and_eq_true, decide_eq_true_eq, ne_eq, not_false_eq_true, and_true]
      cases lo with
      | none => rfl
      | some b => simpa using ha b rfl
  | cons x l ih =>
    obtain ⟨k, w⟩ := x
    have h0 := h
    simp only [swfFrom, Bool.and_eq_true, decide_eq_true_eq] at h
    obtain ⟨⟨h1, h2⟩, h3⟩ := h
    simp only [sset]
    by_cases ak : a < k
    · simp only [ak, if_true]
      by_cases hv : v = d
      · simp only [hv, if_true]; exact h0
      · simp only [hv, if_false, swfFrom, Bool.and_eq_true, decide_eq_true_eq]
        refine ⟨⟨?_, hv⟩, ⟨⟨ak, h2⟩, h3⟩⟩
        cases lo with
        | none => rfl
        | some b => simpa using ha b rfl
    · by_cases ek : a = k
      · subst ek
        simp only [Nat.lt_irrefl, if_false, if_true]
        by_cases hv : v = d
        · simp only [hv, if_true]
          refine swfFrom_weaken h3 fun c hc => Nat.le_of_lt (ha c hc)
        · simp only [hv, if_false, swfFrom, Bool.and_eq_true, decide_eq_true_eq]
          exact ⟨⟨h1, hv⟩, h3⟩
      · simp only [ak, ek, if_false, swfFrom, Bool.and_eq_true, decide_eq_true_eq]
        refine ⟨⟨h1, h2⟩, ih h3 fun b hb => ?_⟩
        cases hb; omega

/-- A write keeps the canonical form. -/
theorem swf_sset {l : List (Nat × β)} (h : swf d l = true) (a : Nat) (v : β) : swf d (sset d l a v) = true :=
  swfFrom_sset h a v fun _ hb => by cases hb

theorem sgetFrom_sset {lo : Option Nat} {l : List (Nat × β)} (h : swfFrom d lo l = true) (a b : Nat) (v : β) :
    sget d (sset d l a v) b = if b = a then v else sget d l b := by
  by_cases hv : v ≠ d
  · by_cases hb : b = a
    · subst hb; simp [sget_sset_of_ne l b v hv]
    · simp [hb, sget_sset_other_of_ne l v hv hb]
  · have hv : v = d := Classical.not_not.mp hv
    subst hv
    induction l generalizing lo with
    | nil => simp [sset, sget]
    | cons x l ih =>
      obtain ⟨k, w⟩ := x
      simp only [swfFrom, Bool.and_eq_true, decide_eq_true_eq] at h
      obtain ⟨⟨-, -⟩, h3⟩ := h
      simp only [sset, if_true]
      by_cases ak : a < k
      · simp only [ak, if_true]
        by_cases hb : b = a
        · subst hb
          have : ¬ k = b := by omega
          simp [sget, this, ak]
        · simp [hb]
      · by_cases ek : a = k
        · subst ek
          simp only [Nat.lt_irrefl, if_false, if_true]
          by_cases hb : b = a
          · subst hb; simp [swfFrom_below h3 (Nat.le_refl _)]
          · have : ¬ a = b := fun e => hb e.symm
            simp only [hb, if_false, sget, beq_iff_eq, this]
            split
            · exact swfFrom_below h3 (by omega)
            · rfl
        · have ih' := ih h3
          simp only [ak, ek, if_false, sget]
          by_cases kb : k = b
          · subst kb; simp [Ne.symm ek]
          · simp only [beq_iff_eq, kb, if_false, ih']
            by_cases bk : b < k
            · have : ¬ b = a := by omega
              simp [bk, this]
            · simp [bk]

/-- A read after a write to a list in canonical form. -/
theorem sget_sset {l : List (Nat × β)} (h : swf d l = true) (a b : Nat) (v : β) :
    sget d (sset d l a v) b = if b = a then v else sget d l b := sgetFrom_sset h a b v

end

/-! ### Bytes and marks -/

theorem swf_writeBytes (bs : List Byte) {l : List Host.Cell} (h : swf (0 : Byte) l = true) (a : Nat) :
    swf (0 : Byte) (writeBytes l a bs) = true := by
  induction bs generalizing l a with
  | nil => exact h
  | cons b bs ih => exact ih (swf_sset h a b) (a + 1)

/-- Bytes after a run of writes. -/
theorem sget_writeBytes (bs : List Byte) {l : List Host.Cell} (h : swf (0 : Byte) l = true) (a k : Nat) :
    sget 0 (writeBytes l a bs) k = if a ≤ k ∧ k < a + bs.length then bs.getD (k - a) 0 else sget 0 l k := by
  induction bs generalizing l a with
  | nil =>
    have : ¬ (a ≤ k ∧ k < a + ([] : List Byte).length) := by simp
    rw [if_neg this]; rfl
  | cons b bs ih =>
    rw [writeBytes, ih (swf_sset h a b) (a + 1), sget_sset h]
    simp only [List.length_cons]
    by_cases h1 : a + 1 ≤ k ∧ k < a + 1 + bs.length
    · have h2 : a ≤ k ∧ k < a + (bs.length + 1) := by omega
      rw [if_pos h1, if_pos h2]
      have : k - a = (k - (a + 1)) + 1 := by omega
      simp [this]
    · rw [if_neg h1]
      by_cases h3 : k = a
      · subst h3; simp
      · have h2 : ¬ (a ≤ k ∧ k < a + (bs.length + 1)) := by omega
        rw [if_neg h3, if_neg h2]

theorem swf_setMarks {l : List (Nat × Bool)} (h : swf false l = true) (a : Nat) (v : Bool) (n : Nat) :
    swf false (setMarks l a v n) = true := by
  induction n generalizing l a with
  | zero => exact h
  | succ n ih => exact ih (swf_sset h a v) (a + 1)

/-- Filtering keeps the canonical form. -/
theorem swf_filter {β : Type} [DecidableEq β] {d : β} (q : Nat × β → Bool) {l : List (Nat × β)} (h : swf d l = true) :
    swf d (l.filter q) = true := by
  have key : ∀ (l : List (Nat × β)) (lo : Option Nat), swfFrom d lo l = true → swfFrom d lo (l.filter q) = true := by
    intro l
    induction l with
    | nil => intro lo _; rfl
    | cons x l ih =>
      intro lo h
      obtain ⟨k, w⟩ := x
      simp only [swfFrom, Bool.and_eq_true, decide_eq_true_eq] at h
      obtain ⟨⟨h1, h2⟩, h3⟩ := h
      by_cases hq : q (k, w) = true
      · simp only [List.filter_cons, hq, if_true, swfFrom, Bool.and_eq_true, decide_eq_true_eq]
        exact ⟨⟨h1, h2⟩, ih _ h3⟩
      · simp only [List.filter_cons, hq]
        refine swfFrom_weaken (ih _ h3) fun c hc => ?_
        subst hc; exact Nat.le_of_lt (of_decide_eq_true h1)
  exact key l none h

end Sys2Proof.Machine
end

