-- ==== Sys2Proof/Laws/State.lean ====
section
/-! SUPPORT. Reading a part of the state after a part of it has changed: one lemma per field per update. -/

namespace Sys2Proof.Machine

/-! ### Vectors -/

theorem get_set_self {α : Type} {n : Nat} (v : Vector α n) (i : Fin n) (x : α) : (v.set i x).get i = x := by
  change (v.set i x)[(i : Nat)] = x; simp

theorem get_set_ne {α : Type} {n : Nat} (v : Vector α n) {i j : Fin n} (x : α) (h : j ≠ i) : (v.set i x).get j = v.get j := by
  have : (i : Nat) ≠ j := fun e => h (Fin.ext e.symm)
  change (v.set i x)[(j : Nat)] = v[(j : Nat)]; simp [this]

theorem set_get_self {α : Type} {n : Nat} (v : Vector α n) (i : Fin n) : v.set i (v.get i) = v := by
  change v.set i v[(i : Nat)] = v; simp

/-! ### Dies -/

@[simp] theorem Pack.die_modDie (p : Pack) (d : DieId) (f : Die → Die) : (p.modDie d f).die d = f (p.die d) := by
  simp only [Pack.die, Pack.modDie]; exact get_set_self _ _ _

theorem Pack.die_modDie_ne (p : Pack) {d e : DieId} (f : Die → Die) (h : e ≠ d) : (p.modDie d f).die e = p.die e := by
  simp only [Pack.die, Pack.modDie]; exact get_set_ne _ _ h

theorem Pack.die_modDie_ite (p : Pack) (d e : DieId) (f : Die → Die) :
    (p.modDie d f).die e = if e = d then f (p.die e) else p.die e := by
  by_cases h : e = d
  · subst h; simp
  · rw [if_neg h, Pack.die_modDie_ne _ _ h]

/-! ### Tiles -/

theorem Pack.die_modTile_ite (p : Pack) (t : TileId) (e : DieId) (f : Tile → Tile) :
    (p.modTile t f).die e =
      if e = t.die then { p.die e with tiles := (p.die e).tiles.set t.n (f ((p.die e).tiles.get t.n)) } else p.die e := by
  rw [Pack.modTile, Pack.die_modDie_ite]

/-- A field of a die that is no tile does not see a change of a tile. -/
theorem Pack.dieField_modTile {α : Type} (F : Die → α) (hF : ∀ x v, F { x with tiles := v } = F x) (p : Pack) (t : TileId)
    (e : DieId) (f : Tile → Tile) : F ((p.modTile t f).die e) = F (p.die e) := by
  rw [Pack.die_modTile_ite]; split
  · exact hF _ _
  · rfl

@[simp] theorem Pack.tile_modTile (p : Pack) (t : TileId) (f : Tile → Tile) : (p.modTile t f).tile t = f (p.tile t) := by
  simp only [Pack.tile, Pack.modTile, Pack.die_modDie]; exact get_set_self _ _ _

theorem Pack.tile_modTile_ne (p : Pack) {t u : TileId} (f : Tile → Tile) (h : u ≠ t) : (p.modTile t f).tile u = p.tile u := by
  simp only [Pack.tile, Pack.modTile]
  by_cases hd : u.die = t.die
  · have hn : u.n ≠ t.n := fun e => h (by cases u; cases t; simp_all)
    rw [hd, Pack.die_modDie]; exact get_set_ne _ _ hn
  · rw [Pack.die_modDie_ne _ _ hd]

theorem Pack.tile_modTile_ite (p : Pack) (t u : TileId) (f : Tile → Tile) :
    (p.modTile t f).tile u = if u = t then f (p.tile u) else p.tile u := by
  by_cases h : u = t
  · subst h; simp
  · rw [if_neg h, Pack.tile_modTile_ne _ _ h]

/-- A field of a tile that an update keeps. -/
theorem Pack.tileField_modTile {α : Type} (F : Tile → α) (p : Pack) (t u : TileId) (f : Tile → Tile)
    (hF : F (f (p.tile t)) = F (p.tile t)) : F ((p.modTile t f).tile u) = F (p.tile u) := by
  rw [Pack.tile_modTile_ite]; split
  · next h => subst h; exact hF
  · rfl

/-- Tiles do not see a change of another part of their die. -/
theorem Pack.tile_modDie (p : Pack) (d : DieId) (f : Die → Die) (u : TileId) (hf : (f (p.die d)).tiles = (p.die d).tiles) :
    (p.modDie d f).tile u = p.tile u := by
  simp only [Pack.tile]; rw [Pack.die_modDie_ite]; split
  · next h => rw [h, hf]
  · rfl

/-! ### Contexts -/

@[simp] theorem Tile.ctx_modCtx (t : Tile) (c : CtxId) (f : Ctx → Ctx) : (t.modCtx c f).ctx c = f (t.ctx c) := get_set_self _ _ _

theorem Tile.ctx_modCtx_ne (t : Tile) {c b : CtxId} (f : Ctx → Ctx) (h : b ≠ c) : (t.modCtx c f).ctx b = t.ctx b :=
  get_set_ne _ _ h

theorem Tile.ctx_modCtx_ite (t : Tile) (c b : CtxId) (f : Ctx → Ctx) :
    (t.modCtx c f).ctx b = if b = c then f (t.ctx b) else t.ctx b := by
  by_cases h : b = c
  · subst h; simp
  · rw [if_neg h, Tile.ctx_modCtx_ne _ _ h]

@[simp] theorem Pack.ctx_modCtx (p : Pack) (t : TileId) (c : CtxId) (f : Ctx → Ctx) : (p.modCtx t c f).ctx t c = f (p.ctx t c) := by
  simp [Pack.ctx, Pack.modCtx]

/-! ### Residencies, swarms, VIs, queues -/

@[simp] theorem Pack.resid?_modResid (p : Pack) (r : Nat) (f : Resid → Resid) : (p.modResid r f).resid? r = (p.resid? r).map f := by
  simp [Pack.resid?, Pack.modResid]

theorem Pack.resid?_modResid_ne (p : Pack) {r k : Nat} (f : Resid → Resid) (h : k ≠ r) : (p.modResid r f).resid? k = p.resid? k := by
  simp [Pack.resid?, Pack.modResid, Ne.symm h]

@[simp] theorem Pack.swarm?_modSwarm (p : Pack) (w : Nat) (f : Swarm → Swarm) : (p.modSwarm w f).swarm? w = (p.swarm? w).map f := by
  simp [Pack.swarm?, Pack.modSwarm]

theorem Pack.swarm?_modSwarm_ne (p : Pack) {w k : Nat} (f : Swarm → Swarm) (h : k ≠ w) : (p.modSwarm w f).swarm? k = p.swarm? k := by
  simp [Pack.swarm?, Pack.modSwarm, Ne.symm h]

@[simp] theorem Pack.vi_modVi (p : Pack) (v : Fin 64) (f : ViBlock → ViBlock) : (p.modVi v f).vi v = f (p.vi v) := get_set_self _ _ _

theorem Pack.vi_modVi_ne (p : Pack) {v u : Fin 64} (f : ViBlock → ViBlock) (h : u ≠ v) : (p.modVi v f).vi u = p.vi u :=
  get_set_ne _ _ h

/-- A queue after a change that leaves something in it. -/
theorem Pack.queue_modQueue (p : Pack) (q : Nat) (f : HostQueue → HostQueue) (h : f (p.queue q) ≠ {}) :
    (p.modQueue q f).queue q = f (p.queue q) := sget_sset_of_ne _ _ _ h

/-! ### The other fields of the package -/

@[simp] theorem Pack.modDie_resids (p : Pack) (d : DieId) (f : Die → Die) : (p.modDie d f).resids = p.resids := rfl
@[simp] theorem Pack.modDie_swarms (p : Pack) (d : DieId) (f : Die → Die) : (p.modDie d f).swarms = p.swarms := rfl
@[simp] theorem Pack.modDie_vis (p : Pack) (d : DieId) (f : Die → Die) : (p.modDie d f).vis = p.vis := rfl
@[simp] theorem Pack.modDie_queues (p : Pack) (d : DieId) (f : Die → Die) : (p.modDie d f).queues = p.queues := rfl
@[simp] theorem Pack.modDie_accs (p : Pack) (d : DieId) (f : Die → Die) : (p.modDie d f).accs = p.accs := rfl
@[simp] theorem Pack.modDie_ring (p : Pack) (d : DieId) (f : Die → Die) : (p.modDie d f).ring = p.ring := rfl
@[simp] theorem Pack.modDie_plain (p : Pack) (d : DieId) (f : Die → Die) : (p.modDie d f).plain = p.plain := rfl
@[simp] theorem Pack.modDie_ringUp (p : Pack) (d : DieId) (f : Die → Die) : (p.modDie d f).ringUp = p.ringUp := rfl
@[simp] theorem Pack.modDie_member (p : Pack) (d : DieId) (f : Die → Die) : (p.modDie d f).member = p.member := rfl
@[simp] theorem Pack.modDie_populated (p : Pack) (d : DieId) (f : Die → Die) : (p.modDie d f).populated = p.populated := rfl
@[simp] theorem Pack.modDie_membersUp (p : Pack) (d : DieId) (f : Die → Die) : (p.modDie d f).membersUp = p.membersUp := rfl
@[simp] theorem Pack.modDie_flits (p : Pack) (d : DieId) (f : Die → Die) : (p.modDie d f).flits = p.flits := rfl
@[simp] theorem Pack.modDie_pending (p : Pack) (d : DieId) (f : Die → Die) : (p.modDie d f).pending = p.pending := rfl
@[simp] theorem Pack.modDie_outgoing (p : Pack) (d : DieId) (f : Die → Die) : (p.modDie d f).outgoing = p.outgoing := rfl
@[simp] theorem Pack.modDie_hostReply (p : Pack) (d : DieId) (f : Die → Die) : (p.modDie d f).hostReply = p.hostReply := rfl
@[simp] theorem Pack.modDie_ucie (p : Pack) (d : DieId) (f : Die → Die) : (p.modDie d f).ucie = p.ucie := rfl
@[simp] theorem Pack.modDie_arrivals (p : Pack) (d : DieId) (f : Die → Die) : (p.modDie d f).arrivals = p.arrivals := rfl
@[simp] theorem Pack.modDie_hist (p : Pack) (d : DieId) (f : Die → Die) : (p.modDie d f).hist = p.hist := rfl
@[simp] theorem Pack.modTile_resids (p : Pack) (t : TileId) (f : Tile → Tile) : (p.modTile t f).resids = p.resids := rfl
@[simp] theorem Pack.modTile_swarms (p : Pack) (t : TileId) (f : Tile → Tile) : (p.modTile t f).swarms = p.swarms := rfl
@[simp] theorem Pack.modTile_vis (p : Pack) (t : TileId) (f : Tile → Tile) : (p.modTile t f).vis = p.vis := rfl
@[simp] theorem Pack.modTile_queues (p : Pack) (t : TileId) (f : Tile → Tile) : (p.modTile t f).queues = p.queues := rfl
@[simp] theorem Pack.modTile_accs (p : Pack) (t : TileId) (f : Tile → Tile) : (p.modTile t f).accs = p.accs := rfl
@[simp] theorem Pack.modTile_ring (p : Pack) (t : TileId) (f : Tile → Tile) : (p.modTile t f).ring = p.ring := rfl
@[simp] theorem Pack.modTile_plain (p : Pack) (t : TileId) (f : Tile → Tile) : (p.modTile t f).plain = p.plain := rfl
@[simp] theorem Pack.modTile_ringUp (p : Pack) (t : TileId) (f : Tile → Tile) : (p.modTile t f).ringUp = p.ringUp := rfl
@[simp] theorem Pack.modTile_member (p : Pack) (t : TileId) (f : Tile → Tile) : (p.modTile t f).member = p.member := rfl
@[simp] theorem Pack.modTile_populated (p : Pack) (t : TileId) (f : Tile → Tile) : (p.modTile t f).populated = p.populated := rfl
@[simp] theorem Pack.modTile_membersUp (p : Pack) (t : TileId) (f : Tile → Tile) : (p.modTile t f).membersUp = p.membersUp := rfl
@[simp] theorem Pack.modTile_flits (p : Pack) (t : TileId) (f : Tile → Tile) : (p.modTile t f).flits = p.flits := rfl
@[simp] theorem Pack.modTile_pending (p : Pack) (t : TileId) (f : Tile → Tile) : (p.modTile t f).pending = p.pending := rfl
@[simp] theorem Pack.modTile_outgoing (p : Pack) (t : TileId) (f : Tile → Tile) : (p.modTile t f).outgoing = p.outgoing := rfl
@[simp] theorem Pack.modTile_hostReply (p : Pack) (t : TileId) (f : Tile → Tile) : (p.modTile t f).hostReply = p.hostReply := rfl
@[simp] theorem Pack.modTile_ucie (p : Pack) (t : TileId) (f : Tile → Tile) : (p.modTile t f).ucie = p.ucie := rfl
@[simp] theorem Pack.modTile_arrivals (p : Pack) (t : TileId) (f : Tile → Tile) : (p.modTile t f).arrivals = p.arrivals := rfl
@[simp] theorem Pack.modTile_hist (p : Pack) (t : TileId) (f : Tile → Tile) : (p.modTile t f).hist = p.hist := rfl
@[simp] theorem Pack.modCtx_resids (p : Pack) (t : TileId) (c : CtxId) (f : Ctx → Ctx) : (p.modCtx t c f).resids = p.resids := rfl
@[simp] theorem Pack.modCtx_swarms (p : Pack) (t : TileId) (c : CtxId) (f : Ctx → Ctx) : (p.modCtx t c f).swarms = p.swarms := rfl
@[simp] theorem Pack.modCtx_vis (p : Pack) (t : TileId) (c : CtxId) (f : Ctx → Ctx) : (p.modCtx t c f).vis = p.vis := rfl
@[simp] theorem Pack.modCtx_queues (p : Pack) (t : TileId) (c : CtxId) (f : Ctx → Ctx) : (p.modCtx t c f).queues = p.queues := rfl
@[simp] theorem Pack.modCtx_accs (p : Pack) (t : TileId) (c : CtxId) (f : Ctx → Ctx) : (p.modCtx t c f).accs = p.accs := rfl
@[simp] theorem Pack.modCtx_ring (p : Pack) (t : TileId) (c : CtxId) (f : Ctx → Ctx) : (p.modCtx t c f).ring = p.ring := rfl
@[simp] theorem Pack.modCtx_plain (p : Pack) (t : TileId) (c : CtxId) (f : Ctx → Ctx) : (p.modCtx t c f).plain = p.plain := rfl
@[simp] theorem Pack.modCtx_ringUp (p : Pack) (t : TileId) (c : CtxId) (f : Ctx → Ctx) : (p.modCtx t c f).ringUp = p.ringUp := rfl
@[simp] theorem Pack.modCtx_member (p : Pack) (t : TileId) (c : CtxId) (f : Ctx → Ctx) : (p.modCtx t c f).member = p.member := rfl
@[simp] theorem Pack.modCtx_populated (p : Pack) (t : TileId) (c : CtxId) (f : Ctx → Ctx) : (p.modCtx t c f).populated = p.populated := rfl
@[simp] theorem Pack.modCtx_membersUp (p : Pack) (t : TileId) (c : CtxId) (f : Ctx → Ctx) : (p.modCtx t c f).membersUp = p.membersUp := rfl
@[simp] theorem Pack.modCtx_flits (p : Pack) (t : TileId) (c : CtxId) (f : Ctx → Ctx) : (p.modCtx t c f).flits = p.flits := rfl
@[simp] theorem Pack.modCtx_pending (p : Pack) (t : TileId) (c : CtxId) (f : Ctx → Ctx) : (p.modCtx t c f).pending = p.pending := rfl
@[simp] theorem Pack.modCtx_outgoing (p : Pack) (t : TileId) (c : CtxId) (f : Ctx → Ctx) : (p.modCtx t c f).outgoing = p.outgoing := rfl
@[simp] theorem Pack.modCtx_hostReply (p : Pack) (t : TileId) (c : CtxId) (f : Ctx → Ctx) : (p.modCtx t c f).hostReply = p.hostReply := rfl
@[simp] theorem Pack.modCtx_ucie (p : Pack) (t : TileId) (c : CtxId) (f : Ctx → Ctx) : (p.modCtx t c f).ucie = p.ucie := rfl
@[simp] theorem Pack.modCtx_arrivals (p : Pack) (t : TileId) (c : CtxId) (f : Ctx → Ctx) : (p.modCtx t c f).arrivals = p.arrivals := rfl
@[simp] theorem Pack.modCtx_hist (p : Pack) (t : TileId) (c : CtxId) (f : Ctx → Ctx) : (p.modCtx t c f).hist = p.hist := rfl
@[simp] theorem Pack.modCur_resids (p : Pack) (t : TileId) (c : CtxId) (f : CtxImage → CtxImage) : (p.modCur t c f).resids = p.resids := rfl
@[simp] theorem Pack.modCur_swarms (p : Pack) (t : TileId) (c : CtxId) (f : CtxImage → CtxImage) : (p.modCur t c f).swarms = p.swarms := rfl
@[simp] theorem Pack.modCur_vis (p : Pack) (t : TileId) (c : CtxId) (f : CtxImage → CtxImage) : (p.modCur t c f).vis = p.vis := rfl
@[simp] theorem Pack.modCur_queues (p : Pack) (t : TileId) (c : CtxId) (f : CtxImage → CtxImage) : (p.modCur t c f).queues = p.queues := rfl
@[simp] theorem Pack.modCur_accs (p : Pack) (t : TileId) (c : CtxId) (f : CtxImage → CtxImage) : (p.modCur t c f).accs = p.accs := rfl
@[simp] theorem Pack.modCur_ring (p : Pack) (t : TileId) (c : CtxId) (f : CtxImage → CtxImage) : (p.modCur t c f).ring = p.ring := rfl
@[simp] theorem Pack.modCur_plain (p : Pack) (t : TileId) (c : CtxId) (f : CtxImage → CtxImage) : (p.modCur t c f).plain = p.plain := rfl
@[simp] theorem Pack.modCur_ringUp (p : Pack) (t : TileId) (c : CtxId) (f : CtxImage → CtxImage) : (p.modCur t c f).ringUp = p.ringUp := rfl
@[simp] theorem Pack.modCur_member (p : Pack) (t : TileId) (c : CtxId) (f : CtxImage → CtxImage) : (p.modCur t c f).member = p.member := rfl
@[simp] theorem Pack.modCur_populated (p : Pack) (t : TileId) (c : CtxId) (f : CtxImage → CtxImage) : (p.modCur t c f).populated = p.populated := rfl
@[simp] theorem Pack.modCur_membersUp (p : Pack) (t : TileId) (c : CtxId) (f : CtxImage → CtxImage) : (p.modCur t c f).membersUp = p.membersUp := rfl
@[simp] theorem Pack.modCur_flits (p : Pack) (t : TileId) (c : CtxId) (f : CtxImage → CtxImage) : (p.modCur t c f).flits = p.flits := rfl
@[simp] theorem Pack.modCur_pending (p : Pack) (t : TileId) (c : CtxId) (f : CtxImage → CtxImage) : (p.modCur t c f).pending = p.pending := rfl
@[simp] theorem Pack.modCur_outgoing (p : Pack) (t : TileId) (c : CtxId) (f : CtxImage → CtxImage) : (p.modCur t c f).outgoing = p.outgoing := rfl
@[simp] theorem Pack.modCur_hostReply (p : Pack) (t : TileId) (c : CtxId) (f : CtxImage → CtxImage) : (p.modCur t c f).hostReply = p.hostReply := rfl
@[simp] theorem Pack.modCur_ucie (p : Pack) (t : TileId) (c : CtxId) (f : CtxImage → CtxImage) : (p.modCur t c f).ucie = p.ucie := rfl
@[simp] theorem Pack.modCur_arrivals (p : Pack) (t : TileId) (c : CtxId) (f : CtxImage → CtxImage) : (p.modCur t c f).arrivals = p.arrivals := rfl
@[simp] theorem Pack.modCur_hist (p : Pack) (t : TileId) (c : CtxId) (f : CtxImage → CtxImage) : (p.modCur t c f).hist = p.hist := rfl
@[simp] theorem Pack.modResid_dies (p : Pack) (r : Nat) (f : Resid → Resid) : (p.modResid r f).dies = p.dies := rfl
@[simp] theorem Pack.modResid_swarms (p : Pack) (r : Nat) (f : Resid → Resid) : (p.modResid r f).swarms = p.swarms := rfl
@[simp] theorem Pack.modResid_vis (p : Pack) (r : Nat) (f : Resid → Resid) : (p.modResid r f).vis = p.vis := rfl
@[simp] theorem Pack.modResid_queues (p : Pack) (r : Nat) (f : Resid → Resid) : (p.modResid r f).queues = p.queues := rfl
@[simp] theorem Pack.modResid_accs (p : Pack) (r : Nat) (f : Resid → Resid) : (p.modResid r f).accs = p.accs := rfl
@[simp] theorem Pack.modResid_ring (p : Pack) (r : Nat) (f : Resid → Resid) : (p.modResid r f).ring = p.ring := rfl
@[simp] theorem Pack.modResid_plain (p : Pack) (r : Nat) (f : Resid → Resid) : (p.modResid r f).plain = p.plain := rfl
@[simp] theorem Pack.modResid_ringUp (p : Pack) (r : Nat) (f : Resid → Resid) : (p.modResid r f).ringUp = p.ringUp := rfl
@[simp] theorem Pack.modResid_member (p : Pack) (r : Nat) (f : Resid → Resid) : (p.modResid r f).member = p.member := rfl
@[simp] theorem Pack.modResid_populated (p : Pack) (r : Nat) (f : Resid → Resid) : (p.modResid r f).populated = p.populated := rfl
@[simp] theorem Pack.modResid_membersUp (p : Pack) (r : Nat) (f : Resid → Resid) : (p.modResid r f).membersUp = p.membersUp := rfl
@[simp] theorem Pack.modResid_flits (p : Pack) (r : Nat) (f : Resid → Resid) : (p.modResid r f).flits = p.flits := rfl
@[simp] theorem Pack.modResid_pending (p : Pack) (r : Nat) (f : Resid → Resid) : (p.modResid r f).pending = p.pending := rfl
@[simp] theorem Pack.modResid_outgoing (p : Pack) (r : Nat) (f : Resid → Resid) : (p.modResid r f).outgoing = p.outgoing := rfl
@[simp] theorem Pack.modResid_hostReply (p : Pack) (r : Nat) (f : Resid → Resid) : (p.modResid r f).hostReply = p.hostReply := rfl
@[simp] theorem Pack.modResid_ucie (p : Pack) (r : Nat) (f : Resid → Resid) : (p.modResid r f).ucie = p.ucie := rfl
@[simp] theorem Pack.modResid_arrivals (p : Pack) (r : Nat) (f : Resid → Resid) : (p.modResid r f).arrivals = p.arrivals := rfl
@[simp] theorem Pack.modResid_hist (p : Pack) (r : Nat) (f : Resid → Resid) : (p.modResid r f).hist = p.hist := rfl
@[simp] theorem Pack.modSwarm_dies (p : Pack) (w : Nat) (f : Swarm → Swarm) : (p.modSwarm w f).dies = p.dies := rfl
@[simp] theorem Pack.modSwarm_resids (p : Pack) (w : Nat) (f : Swarm → Swarm) : (p.modSwarm w f).resids = p.resids := rfl
@[simp] theorem Pack.modSwarm_vis (p : Pack) (w : Nat) (f : Swarm → Swarm) : (p.modSwarm w f).vis = p.vis := rfl
@[simp] theorem Pack.modSwarm_queues (p : Pack) (w : Nat) (f : Swarm → Swarm) : (p.modSwarm w f).queues = p.queues := rfl
@[simp] theorem Pack.modSwarm_accs (p : Pack) (w : Nat) (f : Swarm → Swarm) : (p.modSwarm w f).accs = p.accs := rfl
@[simp] theorem Pack.modSwarm_ring (p : Pack) (w : Nat) (f : Swarm → Swarm) : (p.modSwarm w f).ring = p.ring := rfl
@[simp] theorem Pack.modSwarm_plain (p : Pack) (w : Nat) (f : Swarm → Swarm) : (p.modSwarm w f).plain = p.plain := rfl
@[simp] theorem Pack.modSwarm_ringUp (p : Pack) (w : Nat) (f : Swarm → Swarm) : (p.modSwarm w f).ringUp = p.ringUp := rfl
@[simp] theorem Pack.modSwarm_member (p : Pack) (w : Nat) (f : Swarm → Swarm) : (p.modSwarm w f).member = p.member := rfl
@[simp] theorem Pack.modSwarm_populated (p : Pack) (w : Nat) (f : Swarm → Swarm) : (p.modSwarm w f).populated = p.populated := rfl
@[simp] theorem Pack.modSwarm_membersUp (p : Pack) (w : Nat) (f : Swarm → Swarm) : (p.modSwarm w f).membersUp = p.membersUp := rfl
@[simp] theorem Pack.modSwarm_flits (p : Pack) (w : Nat) (f : Swarm → Swarm) : (p.modSwarm w f).flits = p.flits := rfl
@[simp] theorem Pack.modSwarm_pending (p : Pack) (w : Nat) (f : Swarm → Swarm) : (p.modSwarm w f).pending = p.pending := rfl
@[simp] theorem Pack.modSwarm_outgoing (p : Pack) (w : Nat) (f : Swarm → Swarm) : (p.modSwarm w f).outgoing = p.outgoing := rfl
@[simp] theorem Pack.modSwarm_hostReply (p : Pack) (w : Nat) (f : Swarm → Swarm) : (p.modSwarm w f).hostReply = p.hostReply := rfl
@[simp] theorem Pack.modSwarm_ucie (p : Pack) (w : Nat) (f : Swarm → Swarm) : (p.modSwarm w f).ucie = p.ucie := rfl
@[simp] theorem Pack.modSwarm_arrivals (p : Pack) (w : Nat) (f : Swarm → Swarm) : (p.modSwarm w f).arrivals = p.arrivals := rfl
@[simp] theorem Pack.modSwarm_hist (p : Pack) (w : Nat) (f : Swarm → Swarm) : (p.modSwarm w f).hist = p.hist := rfl
@[simp] theorem Pack.modVi_dies (p : Pack) (v : Fin 64) (f : ViBlock → ViBlock) : (p.modVi v f).dies = p.dies := rfl
@[simp] theorem Pack.modVi_resids (p : Pack) (v : Fin 64) (f : ViBlock → ViBlock) : (p.modVi v f).resids = p.resids := rfl
@[simp] theorem Pack.modVi_swarms (p : Pack) (v : Fin 64) (f : ViBlock → ViBlock) : (p.modVi v f).swarms = p.swarms := rfl
@[simp] theorem Pack.modVi_queues (p : Pack) (v : Fin 64) (f : ViBlock → ViBlock) : (p.modVi v f).queues = p.queues := rfl
@[simp] theorem Pack.modVi_accs (p : Pack) (v : Fin 64) (f : ViBlock → ViBlock) : (p.modVi v f).accs = p.accs := rfl
@[simp] theorem Pack.modVi_ring (p : Pack) (v : Fin 64) (f : ViBlock → ViBlock) : (p.modVi v f).ring = p.ring := rfl
@[simp] theorem Pack.modVi_plain (p : Pack) (v : Fin 64) (f : ViBlock → ViBlock) : (p.modVi v f).plain = p.plain := rfl
@[simp] theorem Pack.modVi_ringUp (p : Pack) (v : Fin 64) (f : ViBlock → ViBlock) : (p.modVi v f).ringUp = p.ringUp := rfl
@[simp] theorem Pack.modVi_member (p : Pack) (v : Fin 64) (f : ViBlock → ViBlock) : (p.modVi v f).member = p.member := rfl
@[simp] theorem Pack.modVi_populated (p : Pack) (v : Fin 64) (f : ViBlock → ViBlock) : (p.modVi v f).populated = p.populated := rfl
@[simp] theorem Pack.modVi_membersUp (p : Pack) (v : Fin 64) (f : ViBlock → ViBlock) : (p.modVi v f).membersUp = p.membersUp := rfl
@[simp] theorem Pack.modVi_flits (p : Pack) (v : Fin 64) (f : ViBlock → ViBlock) : (p.modVi v f).flits = p.flits := rfl
@[simp] theorem Pack.modVi_pending (p : Pack) (v : Fin 64) (f : ViBlock → ViBlock) : (p.modVi v f).pending = p.pending := rfl
@[simp] theorem Pack.modVi_outgoing (p : Pack) (v : Fin 64) (f : ViBlock → ViBlock) : (p.modVi v f).outgoing = p.outgoing := rfl
@[simp] theorem Pack.modVi_hostReply (p : Pack) (v : Fin 64) (f : ViBlock → ViBlock) : (p.modVi v f).hostReply = p.hostReply := rfl
@[simp] theorem Pack.modVi_ucie (p : Pack) (v : Fin 64) (f : ViBlock → ViBlock) : (p.modVi v f).ucie = p.ucie := rfl
@[simp] theorem Pack.modVi_arrivals (p : Pack) (v : Fin 64) (f : ViBlock → ViBlock) : (p.modVi v f).arrivals = p.arrivals := rfl
@[simp] theorem Pack.modVi_hist (p : Pack) (v : Fin 64) (f : ViBlock → ViBlock) : (p.modVi v f).hist = p.hist := rfl
@[simp] theorem Pack.modQueue_dies (p : Pack) (q : Nat) (f : HostQueue → HostQueue) : (p.modQueue q f).dies = p.dies := rfl
@[simp] theorem Pack.modQueue_resids (p : Pack) (q : Nat) (f : HostQueue → HostQueue) : (p.modQueue q f).resids = p.resids := rfl
@[simp] theorem Pack.modQueue_swarms (p : Pack) (q : Nat) (f : HostQueue → HostQueue) : (p.modQueue q f).swarms = p.swarms := rfl
@[simp] theorem Pack.modQueue_vis (p : Pack) (q : Nat) (f : HostQueue → HostQueue) : (p.modQueue q f).vis = p.vis := rfl
@[simp] theorem Pack.modQueue_accs (p : Pack) (q : Nat) (f : HostQueue → HostQueue) : (p.modQueue q f).accs = p.accs := rfl
@[simp] theorem Pack.modQueue_ring (p : Pack) (q : Nat) (f : HostQueue → HostQueue) : (p.modQueue q f).ring = p.ring := rfl
@[simp] theorem Pack.modQueue_plain (p : Pack) (q : Nat) (f : HostQueue → HostQueue) : (p.modQueue q f).plain = p.plain := rfl
@[simp] theorem Pack.modQueue_ringUp (p : Pack) (q : Nat) (f : HostQueue → HostQueue) : (p.modQueue q f).ringUp = p.ringUp := rfl
@[simp] theorem Pack.modQueue_member (p : Pack) (q : Nat) (f : HostQueue → HostQueue) : (p.modQueue q f).member = p.member := rfl
@[simp] theorem Pack.modQueue_populated (p : Pack) (q : Nat) (f : HostQueue → HostQueue) : (p.modQueue q f).populated = p.populated := rfl
@[simp] theorem Pack.modQueue_membersUp (p : Pack) (q : Nat) (f : HostQueue → HostQueue) : (p.modQueue q f).membersUp = p.membersUp := rfl
@[simp] theorem Pack.modQueue_flits (p : Pack) (q : Nat) (f : HostQueue → HostQueue) : (p.modQueue q f).flits = p.flits := rfl
@[simp] theorem Pack.modQueue_pending (p : Pack) (q : Nat) (f : HostQueue → HostQueue) : (p.modQueue q f).pending = p.pending := rfl
@[simp] theorem Pack.modQueue_outgoing (p : Pack) (q : Nat) (f : HostQueue → HostQueue) : (p.modQueue q f).outgoing = p.outgoing := rfl
@[simp] theorem Pack.modQueue_hostReply (p : Pack) (q : Nat) (f : HostQueue → HostQueue) : (p.modQueue q f).hostReply = p.hostReply := rfl
@[simp] theorem Pack.modQueue_ucie (p : Pack) (q : Nat) (f : HostQueue → HostQueue) : (p.modQueue q f).ucie = p.ucie := rfl
@[simp] theorem Pack.modQueue_arrivals (p : Pack) (q : Nat) (f : HostQueue → HostQueue) : (p.modQueue q f).arrivals = p.arrivals := rfl
@[simp] theorem Pack.modQueue_hist (p : Pack) (q : Nat) (f : HostQueue → HostQueue) : (p.modQueue q f).hist = p.hist := rfl
@[simp] theorem Pack.note_dies (p : Pack) (r : PendRec) : (p.note r).dies = p.dies := rfl
@[simp] theorem Pack.note_resids (p : Pack) (r : PendRec) : (p.note r).resids = p.resids := rfl
@[simp] theorem Pack.note_swarms (p : Pack) (r : PendRec) : (p.note r).swarms = p.swarms := rfl
@[simp] theorem Pack.note_vis (p : Pack) (r : PendRec) : (p.note r).vis = p.vis := rfl
@[simp] theorem Pack.note_queues (p : Pack) (r : PendRec) : (p.note r).queues = p.queues := rfl
@[simp] theorem Pack.note_accs (p : Pack) (r : PendRec) : (p.note r).accs = p.accs := rfl
@[simp] theorem Pack.note_ring (p : Pack) (r : PendRec) : (p.note r).ring = p.ring := rfl
@[simp] theorem Pack.note_plain (p : Pack) (r : PendRec) : (p.note r).plain = p.plain := rfl
@[simp] theorem Pack.note_ringUp (p : Pack) (r : PendRec) : (p.note r).ringUp = p.ringUp := rfl
@[simp] theorem Pack.note_member (p : Pack) (r : PendRec) : (p.note r).member = p.member := rfl
@[simp] theorem Pack.note_populated (p : Pack) (r : PendRec) : (p.note r).populated = p.populated := rfl
@[simp] theorem Pack.note_membersUp (p : Pack) (r : PendRec) : (p.note r).membersUp = p.membersUp := rfl
@[simp] theorem Pack.note_flits (p : Pack) (r : PendRec) : (p.note r).flits = p.flits := rfl
@[simp] theorem Pack.note_outgoing (p : Pack) (r : PendRec) : (p.note r).outgoing = p.outgoing := rfl
@[simp] theorem Pack.note_hostReply (p : Pack) (r : PendRec) : (p.note r).hostReply = p.hostReply := rfl
@[simp] theorem Pack.note_ucie (p : Pack) (r : PendRec) : (p.note r).ucie = p.ucie := rfl
@[simp] theorem Pack.note_arrivals (p : Pack) (r : PendRec) : (p.note r).arrivals = p.arrivals := rfl
@[simp] theorem Pack.note_hist (p : Pack) (r : PendRec) : (p.note r).hist = p.hist := rfl

/-! ### Accesses and orders -/

@[simp] theorem Pack.modOrder_dies (p : Pack) (plain : Bool) (f : Order → Order) : (p.modOrder plain f).dies = p.dies := by cases plain <;> rfl
@[simp] theorem Pack.modOrder_resids (p : Pack) (plain : Bool) (f : Order → Order) : (p.modOrder plain f).resids = p.resids := by cases plain <;> rfl
@[simp] theorem Pack.modOrder_swarms (p : Pack) (plain : Bool) (f : Order → Order) : (p.modOrder plain f).swarms = p.swarms := by cases plain <;> rfl
@[simp] theorem Pack.modOrder_vis (p : Pack) (plain : Bool) (f : Order → Order) : (p.modOrder plain f).vis = p.vis := by cases plain <;> rfl
@[simp] theorem Pack.modOrder_queues (p : Pack) (plain : Bool) (f : Order → Order) : (p.modOrder plain f).queues = p.queues := by cases plain <;> rfl
@[simp] theorem Pack.modOrder_ringUp (p : Pack) (plain : Bool) (f : Order → Order) : (p.modOrder plain f).ringUp = p.ringUp := by cases plain <;> rfl
@[simp] theorem Pack.modOrder_member (p : Pack) (plain : Bool) (f : Order → Order) : (p.modOrder plain f).member = p.member := by cases plain <;> rfl
@[simp] theorem Pack.modOrder_populated (p : Pack) (plain : Bool) (f : Order → Order) : (p.modOrder plain f).populated = p.populated := by cases plain <;> rfl
@[simp] theorem Pack.modOrder_membersUp (p : Pack) (plain : Bool) (f : Order → Order) : (p.modOrder plain f).membersUp = p.membersUp := by cases plain <;> rfl
@[simp] theorem Pack.modOrder_flits (p : Pack) (plain : Bool) (f : Order → Order) : (p.modOrder plain f).flits = p.flits := by cases plain <;> rfl
@[simp] theorem Pack.modOrder_pending (p : Pack) (plain : Bool) (f : Order → Order) : (p.modOrder plain f).pending = p.pending := by cases plain <;> rfl
@[simp] theorem Pack.modOrder_arrivals (p : Pack) (plain : Bool) (f : Order → Order) : (p.modOrder plain f).arrivals = p.arrivals := by cases plain <;> rfl
@[simp] theorem Pack.modOrder_outgoing (p : Pack) (plain : Bool) (f : Order → Order) : (p.modOrder plain f).outgoing = p.outgoing := by cases plain <;> rfl
@[simp] theorem Pack.modOrder_hostReply (p : Pack) (plain : Bool) (f : Order → Order) : (p.modOrder plain f).hostReply = p.hostReply := by cases plain <;> rfl
@[simp] theorem Pack.modOrder_hist (p : Pack) (plain : Bool) (f : Order → Order) : (p.modOrder plain f).hist = p.hist := by cases plain <;> rfl
@[simp] theorem Pack.modOrder_ucie (p : Pack) (plain : Bool) (f : Order → Order) : (p.modOrder plain f).ucie = p.ucie := by cases plain <;> rfl
@[simp] theorem Pack.modOrder_accs (p : Pack) (plain : Bool) (f : Order → Order) : (p.modOrder plain f).accs = p.accs := by cases plain <;> rfl

/-! ### The other fields of a tile -/

@[simp] theorem Tile.modCtx_links (t : Tile) (c : CtxId) (f : Ctx → Ctx) : (t.modCtx c f).links = t.links := rfl
@[simp] theorem Tile.modCtx_store (t : Tile) (c : CtxId) (f : Ctx → Ctx) : (t.modCtx c f).store = t.store := rfl
@[simp] theorem Tile.modCtx_runs (t : Tile) (c : CtxId) (f : Ctx → Ctx) : (t.modCtx c f).runs = t.runs := rfl
@[simp] theorem Tile.modCtx_runLog (t : Tile) (c : CtxId) (f : Ctx → Ctx) : (t.modCtx c f).runLog = t.runLog := rfl
@[simp] theorem Tile.modCtx_active (t : Tile) (c : CtxId) (f : Ctx → Ctx) : (t.modCtx c f).active = t.active := rfl
@[simp] theorem Tile.modCtx_shadow (t : Tile) (c : CtxId) (f : Ctx → Ctx) : (t.modCtx c f).shadow = t.shadow := rfl
@[simp] theorem Tile.modCtx_cfgStream (t : Tile) (c : CtxId) (f : Ctx → Ctx) : (t.modCtx c f).cfgStream = t.cfgStream := rfl
@[simp] theorem Tile.modCtx_images (t : Tile) (c : CtxId) (f : Ctx → Ctx) : (t.modCtx c f).images = t.images := rfl
@[simp] theorem Tile.modCtx_fetches (t : Tile) (c : CtxId) (f : Ctx → Ctx) : (t.modCtx c f).fetches = t.fetches := rfl
@[simp] theorem Tile.modCtx_insts (t : Tile) (c : CtxId) (f : Ctx → Ctx) : (t.modCtx c f).insts = t.insts := rfl
@[simp] theorem Tile.modCtx_sections (t : Tile) (c : CtxId) (f : Ctx → Ctx) : (t.modCtx c f).sections = t.sections := rfl
@[simp] theorem Tile.modCtx_stamp (t : Tile) (c : CtxId) (f : Ctx → Ctx) : (t.modCtx c f).stamp = t.stamp := rfl
@[simp] theorem Tile.modCtx_spawnRes (t : Tile) (c : CtxId) (f : Ctx → Ctx) : (t.modCtx c f).spawnRes = t.spawnRes := rfl
@[simp] theorem Tile.modCtx_pad (t : Tile) (c : CtxId) (f : Ctx → Ctx) : (t.modCtx c f).pad = t.pad := rfl
@[simp] theorem Tile.modCtx_padFull (t : Tile) (c : CtxId) (f : Ctx → Ctx) : (t.modCtx c f).padFull = t.padFull := rfl
@[simp] theorem Tile.modCtx_padPoison (t : Tile) (c : CtxId) (f : Ctx → Ctx) : (t.modCtx c f).padPoison = t.padPoison := rfl
@[simp] theorem Tile.modCtx_padBad (t : Tile) (c : CtxId) (f : Ctx → Ctx) : (t.modCtx c f).padBad = t.padBad := rfl
@[simp] theorem Tile.modCtx_om (t : Tile) (c : CtxId) (f : Ctx → Ctx) : (t.modCtx c f).om = t.om := rfl
@[simp] theorem Tile.modCtx_omPoison (t : Tile) (c : CtxId) (f : Ctx → Ctx) : (t.modCtx c f).omPoison = t.omPoison := rfl
@[simp] theorem Tile.modCtx_omSt (t : Tile) (c : CtxId) (f : Ctx → Ctx) : (t.modCtx c f).omSt = t.omSt := rfl
@[simp] theorem Tile.modCtx_acc (t : Tile) (c : CtxId) (f : Ctx → Ctx) : (t.modCtx c f).acc = t.acc := rfl
@[simp] theorem Tile.modCtx_accPoison (t : Tile) (c : CtxId) (f : Ctx → Ctx) : (t.modCtx c f).accPoison = t.accPoison := rfl
@[simp] theorem Tile.modCtx_accScale (t : Tile) (c : CtxId) (f : Ctx → Ctx) : (t.modCtx c f).accScale = t.accScale := rfl
@[simp] theorem Tile.modCtx_accBuf (t : Tile) (c : CtxId) (f : Ctx → Ctx) : (t.modCtx c f).accBuf = t.accBuf := rfl
@[simp] theorem Tile.modCtx_wActive (t : Tile) (c : CtxId) (f : Ctx → Ctx) : (t.modCtx c f).wActive = t.wActive := rfl
@[simp] theorem Tile.modCtx_wShadow (t : Tile) (c : CtxId) (f : Ctx → Ctx) : (t.modCtx c f).wShadow = t.wShadow := rfl
@[simp] theorem Tile.modCtx_wReady (t : Tile) (c : CtxId) (f : Ctx → Ctx) : (t.modCtx c f).wReady = t.wReady := rfl
@[simp] theorem Tile.modCtx_streamQ (t : Tile) (c : CtxId) (f : Ctx → Ctx) : (t.modCtx c f).streamQ = t.streamQ := rfl
@[simp] theorem Tile.modCtx_matrixQ (t : Tile) (c : CtxId) (f : Ctx → Ctx) : (t.modCtx c f).matrixQ = t.matrixQ := rfl
@[simp] theorem Tile.modCtx_configQ (t : Tile) (c : CtxId) (f : Ctx → Ctx) : (t.modCtx c f).configQ = t.configQ := rfl
@[simp] theorem Tile.modCtx_sideQ (t : Tile) (c : CtxId) (f : Ctx → Ctx) : (t.modCtx c f).sideQ = t.sideQ := rfl
@[simp] theorem Tile.modCtx_streamMode (t : Tile) (c : CtxId) (f : Ctx → Ctx) : (t.modCtx c f).streamMode = t.streamMode := rfl
@[simp] theorem Tile.modCtx_matrixMode (t : Tile) (c : CtxId) (f : Ctx → Ctx) : (t.modCtx c f).matrixMode = t.matrixMode := rfl
@[simp] theorem Tile.modCtx_configMode (t : Tile) (c : CtxId) (f : Ctx → Ctx) : (t.modCtx c f).configMode = t.configMode := rfl
@[simp] theorem Tile.modCtx_blockCache (t : Tile) (c : CtxId) (f : Ctx → Ctx) : (t.modCtx c f).blockCache = t.blockCache := rfl
@[simp] theorem Tile.modCtx_portSlot (t : Tile) (c : CtxId) (f : Ctx → Ctx) : (t.modCtx c f).portSlot = t.portSlot := rfl
@[simp] theorem Tile.modCtx_handles (t : Tile) (c : CtxId) (f : Ctx → Ctx) : (t.modCtx c f).handles = t.handles := rfl
@[simp] theorem Tile.modCtx_bars (t : Tile) (c : CtxId) (f : Ctx → Ctx) : (t.modCtx c f).bars = t.bars := rfl
@[simp] theorem Tile.modCtx_tasks (t : Tile) (c : CtxId) (f : Ctx → Ctx) : (t.modCtx c f).tasks = t.tasks := rfl
@[simp] theorem Tile.modCtx_tlb (t : Tile) (c : CtxId) (f : Ctx → Ctx) : (t.modCtx c f).tlb = t.tlb := rfl
@[simp] theorem Tile.modCtx_ranges (t : Tile) (c : CtxId) (f : Ctx → Ctx) : (t.modCtx c f).ranges = t.ranges := rfl
@[simp] theorem Tile.modCtx_clk (t : Tile) (c : CtxId) (f : Ctx → Ctx) : (t.modCtx c f).clk = t.clk := rfl
@[simp] theorem Tile.modCtx_stretched (t : Tile) (c : CtxId) (f : Ctx → Ctx) : (t.modCtx c f).stretched = t.stretched := rfl
@[simp] theorem Tile.modCtx_stretches (t : Tile) (c : CtxId) (f : Ctx → Ctx) : (t.modCtx c f).stretches = t.stretches := rfl
@[simp] theorem Tile.modCtx_excess (t : Tile) (c : CtxId) (f : Ctx → Ctx) : (t.modCtx c f).excess = t.excess := rfl
@[simp] theorem Tile.modCtx_fenced (t : Tile) (c : CtxId) (f : Ctx → Ctx) : (t.modCtx c f).fenced = t.fenced := rfl
@[simp] theorem Tile.modCtx_ret (t : Tile) (c : CtxId) (f : Ctx → Ctx) : (t.modCtx c f).ret = t.ret := rfl
@[simp] theorem Tile.modCtx_retCycles (t : Tile) (c : CtxId) (f : Ctx → Ctx) : (t.modCtx c f).retCycles = t.retCycles := rfl
@[simp] theorem Tile.modCtx_res (t : Tile) (c : CtxId) (f : Ctx → Ctx) : (t.modCtx c f).res = t.res := rfl
@[simp] theorem Tile.modCtx_halting (t : Tile) (c : CtxId) (f : Ctx → Ctx) : (t.modCtx c f).halting = t.halting := rfl
@[simp] theorem Tile.modCtx_inPlace (t : Tile) (c : CtxId) (f : Ctx → Ctx) : (t.modCtx c f).inPlace = t.inPlace := rfl
@[simp] theorem Tile.modInst_links (t : Tile) (c : CtxId) (n : Nat) (f : Inst → Inst) : (t.modInst c n f).links = t.links := rfl
@[simp] theorem Tile.modInst_store (t : Tile) (c : CtxId) (n : Nat) (f : Inst → Inst) : (t.modInst c n f).store = t.store := rfl
@[simp] theorem Tile.modInst_runs (t : Tile) (c : CtxId) (n : Nat) (f : Inst → Inst) : (t.modInst c n f).runs = t.runs := rfl
@[simp] theorem Tile.modInst_runLog (t : Tile) (c : CtxId) (n : Nat) (f : Inst → Inst) : (t.modInst c n f).runLog = t.runLog := rfl
@[simp] theorem Tile.modInst_active (t : Tile) (c : CtxId) (n : Nat) (f : Inst → Inst) : (t.modInst c n f).active = t.active := rfl
@[simp] theorem Tile.modInst_shadow (t : Tile) (c : CtxId) (n : Nat) (f : Inst → Inst) : (t.modInst c n f).shadow = t.shadow := rfl
@[simp] theorem Tile.modInst_cfgStream (t : Tile) (c : CtxId) (n : Nat) (f : Inst → Inst) : (t.modInst c n f).cfgStream = t.cfgStream := rfl
@[simp] theorem Tile.modInst_images (t : Tile) (c : CtxId) (n : Nat) (f : Inst → Inst) : (t.modInst c n f).images = t.images := rfl
@[simp] theorem Tile.modInst_fetches (t : Tile) (c : CtxId) (n : Nat) (f : Inst → Inst) : (t.modInst c n f).fetches = t.fetches := rfl
@[simp] theorem Tile.modInst_sections (t : Tile) (c : CtxId) (n : Nat) (f : Inst → Inst) : (t.modInst c n f).sections = t.sections := rfl
@[simp] theorem Tile.modInst_stamp (t : Tile) (c : CtxId) (n : Nat) (f : Inst → Inst) : (t.modInst c n f).stamp = t.stamp := rfl
@[simp] theorem Tile.modInst_ctxs (t : Tile) (c : CtxId) (n : Nat) (f : Inst → Inst) : (t.modInst c n f).ctxs = t.ctxs := rfl
@[simp] theorem Tile.modInst_spawnRes (t : Tile) (c : CtxId) (n : Nat) (f : Inst → Inst) : (t.modInst c n f).spawnRes = t.spawnRes := rfl
@[simp] theorem Tile.modInst_pad (t : Tile) (c : CtxId) (n : Nat) (f : Inst → Inst) : (t.modInst c n f).pad = t.pad := rfl
@[simp] theorem Tile.modInst_padFull (t : Tile) (c : CtxId) (n : Nat) (f : Inst → Inst) : (t.modInst c n f).padFull = t.padFull := rfl
@[simp] theorem Tile.modInst_padPoison (t : Tile) (c : CtxId) (n : Nat) (f : Inst → Inst) : (t.modInst c n f).padPoison = t.padPoison := rfl
@[simp] theorem Tile.modInst_padBad (t : Tile) (c : CtxId) (n : Nat) (f : Inst → Inst) : (t.modInst c n f).padBad = t.padBad := rfl
@[simp] theorem Tile.modInst_om (t : Tile) (c : CtxId) (n : Nat) (f : Inst → Inst) : (t.modInst c n f).om = t.om := rfl
@[simp] theorem Tile.modInst_omPoison (t : Tile) (c : CtxId) (n : Nat) (f : Inst → Inst) : (t.modInst c n f).omPoison = t.omPoison := rfl
@[simp] theorem Tile.modInst_omSt (t : Tile) (c : CtxId) (n : Nat) (f : Inst → Inst) : (t.modInst c n f).omSt = t.omSt := rfl
@[simp] theorem Tile.modInst_acc (t : Tile) (c : CtxId) (n : Nat) (f : Inst → Inst) : (t.modInst c n f).acc = t.acc := rfl
@[simp] theorem Tile.modInst_accPoison (t : Tile) (c : CtxId) (n : Nat) (f : Inst → Inst) : (t.modInst c n f).accPoison = t.accPoison := rfl
@[simp] theorem Tile.modInst_accScale (t : Tile) (c : CtxId) (n : Nat) (f : Inst → Inst) : (t.modInst c n f).accScale = t.accScale := rfl
@[simp] theorem Tile.modInst_accBuf (t : Tile) (c : CtxId) (n : Nat) (f : Inst → Inst) : (t.modInst c n f).accBuf = t.accBuf := rfl
@[simp] theorem Tile.modInst_wActive (t : Tile) (c : CtxId) (n : Nat) (f : Inst → Inst) : (t.modInst c n f).wActive = t.wActive := rfl
@[simp] theorem Tile.modInst_wShadow (t : Tile) (c : CtxId) (n : Nat) (f : Inst → Inst) : (t.modInst c n f).wShadow = t.wShadow := rfl
@[simp] theorem Tile.modInst_wReady (t : Tile) (c : CtxId) (n : Nat) (f : Inst → Inst) : (t.modInst c n f).wReady = t.wReady := rfl
@[simp] theorem Tile.modInst_streamQ (t : Tile) (c : CtxId) (n : Nat) (f : Inst → Inst) : (t.modInst c n f).streamQ = t.streamQ := rfl
@[simp] theorem Tile.modInst_matrixQ (t : Tile) (c : CtxId) (n : Nat) (f : Inst → Inst) : (t.modInst c n f).matrixQ = t.matrixQ := rfl
@[simp] theorem Tile.modInst_configQ (t : Tile) (c : CtxId) (n : Nat) (f : Inst → Inst) : (t.modInst c n f).configQ = t.configQ := rfl
@[simp] theorem Tile.modInst_sideQ (t : Tile) (c : CtxId) (n : Nat) (f : Inst → Inst) : (t.modInst c n f).sideQ = t.sideQ := rfl
@[simp] theorem Tile.modInst_streamMode (t : Tile) (c : CtxId) (n : Nat) (f : Inst → Inst) : (t.modInst c n f).streamMode = t.streamMode := rfl
@[simp] theorem Tile.modInst_matrixMode (t : Tile) (c : CtxId) (n : Nat) (f : Inst → Inst) : (t.modInst c n f).matrixMode = t.matrixMode := rfl
@[simp] theorem Tile.modInst_configMode (t : Tile) (c : CtxId) (n : Nat) (f : Inst → Inst) : (t.modInst c n f).configMode = t.configMode := rfl
@[simp] theorem Tile.modInst_blockCache (t : Tile) (c : CtxId) (n : Nat) (f : Inst → Inst) : (t.modInst c n f).blockCache = t.blockCache := rfl
@[simp] theorem Tile.modInst_portSlot (t : Tile) (c : CtxId) (n : Nat) (f : Inst → Inst) : (t.modInst c n f).portSlot = t.portSlot := rfl
@[simp] theorem Tile.modInst_handles (t : Tile) (c : CtxId) (n : Nat) (f : Inst → Inst) : (t.modInst c n f).handles = t.handles := rfl
@[simp] theorem Tile.modInst_bars (t : Tile) (c : CtxId) (n : Nat) (f : Inst → Inst) : (t.modInst c n f).bars = t.bars := rfl
@[simp] theorem Tile.modInst_tasks (t : Tile) (c : CtxId) (n : Nat) (f : Inst → Inst) : (t.modInst c n f).tasks = t.tasks := rfl
@[simp] theorem Tile.modInst_tlb (t : Tile) (c : CtxId) (n : Nat) (f : Inst → Inst) : (t.modInst c n f).tlb = t.tlb := rfl
@[simp] theorem Tile.modInst_ranges (t : Tile) (c : CtxId) (n : Nat) (f : Inst → Inst) : (t.modInst c n f).ranges = t.ranges := rfl
@[simp] theorem Tile.modInst_clk (t : Tile) (c : CtxId) (n : Nat) (f : Inst → Inst) : (t.modInst c n f).clk = t.clk := rfl
@[simp] theorem Tile.modInst_stretched (t : Tile) (c : CtxId) (n : Nat) (f : Inst → Inst) : (t.modInst c n f).stretched = t.stretched := rfl
@[simp] theorem Tile.modInst_stretches (t : Tile) (c : CtxId) (n : Nat) (f : Inst → Inst) : (t.modInst c n f).stretches = t.stretches := rfl
@[simp] theorem Tile.modInst_excess (t : Tile) (c : CtxId) (n : Nat) (f : Inst → Inst) : (t.modInst c n f).excess = t.excess := rfl
@[simp] theorem Tile.modInst_fenced (t : Tile) (c : CtxId) (n : Nat) (f : Inst → Inst) : (t.modInst c n f).fenced = t.fenced := rfl
@[simp] theorem Tile.modInst_ret (t : Tile) (c : CtxId) (n : Nat) (f : Inst → Inst) : (t.modInst c n f).ret = t.ret := rfl
@[simp] theorem Tile.modInst_retCycles (t : Tile) (c : CtxId) (n : Nat) (f : Inst → Inst) : (t.modInst c n f).retCycles = t.retCycles := rfl
@[simp] theorem Tile.modInst_res (t : Tile) (c : CtxId) (n : Nat) (f : Inst → Inst) : (t.modInst c n f).res = t.res := rfl
@[simp] theorem Tile.modInst_halting (t : Tile) (c : CtxId) (n : Nat) (f : Inst → Inst) : (t.modInst c n f).halting = t.halting := rfl
@[simp] theorem Tile.modInst_inPlace (t : Tile) (c : CtxId) (n : Nat) (f : Inst → Inst) : (t.modInst c n f).inPlace = t.inPlace := rfl
@[simp] theorem Tile.modSection_links (t : Tile) (c : CtxId) (a : VA) (f : Section → Section) : (t.modSection c a f).links = t.links := rfl
@[simp] theorem Tile.modSection_store (t : Tile) (c : CtxId) (a : VA) (f : Section → Section) : (t.modSection c a f).store = t.store := rfl
@[simp] theorem Tile.modSection_runs (t : Tile) (c : CtxId) (a : VA) (f : Section → Section) : (t.modSection c a f).runs = t.runs := rfl
@[simp] theorem Tile.modSection_runLog (t : Tile) (c : CtxId) (a : VA) (f : Section → Section) : (t.modSection c a f).runLog = t.runLog := rfl
@[simp] theorem Tile.modSection_active (t : Tile) (c : CtxId) (a : VA) (f : Section → Section) : (t.modSection c a f).active = t.active := rfl
@[simp] theorem Tile.modSection_shadow (t : Tile) (c : CtxId) (a : VA) (f : Section → Section) : (t.modSection c a f).shadow = t.shadow := rfl
@[simp] theorem Tile.modSection_cfgStream (t : Tile) (c : CtxId) (a : VA) (f : Section → Section) : (t.modSection c a f).cfgStream = t.cfgStream := rfl
@[simp] theorem Tile.modSection_images (t : Tile) (c : CtxId) (a : VA) (f : Section → Section) : (t.modSection c a f).images = t.images := rfl
@[simp] theorem Tile.modSection_fetches (t : Tile) (c : CtxId) (a : VA) (f : Section → Section) : (t.modSection c a f).fetches = t.fetches := rfl
@[simp] theorem Tile.modSection_insts (t : Tile) (c : CtxId) (a : VA) (f : Section → Section) : (t.modSection c a f).insts = t.insts := rfl
@[simp] theorem Tile.modSection_stamp (t : Tile) (c : CtxId) (a : VA) (f : Section → Section) : (t.modSection c a f).stamp = t.stamp := rfl
@[simp] theorem Tile.modSection_ctxs (t : Tile) (c : CtxId) (a : VA) (f : Section → Section) : (t.modSection c a f).ctxs = t.ctxs := rfl
@[simp] theorem Tile.modSection_spawnRes (t : Tile) (c : CtxId) (a : VA) (f : Section → Section) : (t.modSection c a f).spawnRes = t.spawnRes := rfl
@[simp] theorem Tile.modSection_pad (t : Tile) (c : CtxId) (a : VA) (f : Section → Section) : (t.modSection c a f).pad = t.pad := rfl
@[simp] theorem Tile.modSection_padFull (t : Tile) (c : CtxId) (a : VA) (f : Section → Section) : (t.modSection c a f).padFull = t.padFull := rfl
@[simp] theorem Tile.modSection_padPoison (t : Tile) (c : CtxId) (a : VA) (f : Section → Section) : (t.modSection c a f).padPoison = t.padPoison := rfl
@[simp] theorem Tile.modSection_padBad (t : Tile) (c : CtxId) (a : VA) (f : Section → Section) : (t.modSection c a f).padBad = t.padBad := rfl
@[simp] theorem Tile.modSection_om (t : Tile) (c : CtxId) (a : VA) (f : Section → Section) : (t.modSection c a f).om = t.om := rfl
@[simp] theorem Tile.modSection_omPoison (t : Tile) (c : CtxId) (a : VA) (f : Section → Section) : (t.modSection c a f).omPoison = t.omPoison := rfl
@[simp] theorem Tile.modSection_omSt (t : Tile) (c : CtxId) (a : VA) (f : Section → Section) : (t.modSection c a f).omSt = t.omSt := rfl
@[simp] theorem Tile.modSection_acc (t : Tile) (c : CtxId) (a : VA) (f : Section → Section) : (t.modSection c a f).acc = t.acc := rfl
@[simp] theorem Tile.modSection_accPoison (t : Tile) (c : CtxId) (a : VA) (f : Section → Section) : (t.modSection c a f).accPoison = t.accPoison := rfl
@[simp] theorem Tile.modSection_accScale (t : Tile) (c : CtxId) (a : VA) (f : Section → Section) : (t.modSection c a f).accScale = t.accScale := rfl
@[simp] theorem Tile.modSection_accBuf (t : Tile) (c : CtxId) (a : VA) (f : Section → Section) : (t.modSection c a f).accBuf = t.accBuf := rfl
@[simp] theorem Tile.modSection_wActive (t : Tile) (c : CtxId) (a : VA) (f : Section → Section) : (t.modSection c a f).wActive = t.wActive := rfl
@[simp] theorem Tile.modSection_wShadow (t : Tile) (c : CtxId) (a : VA) (f : Section → Section) : (t.modSection c a f).wShadow = t.wShadow := rfl
@[simp] theorem Tile.modSection_wReady (t : Tile) (c : CtxId) (a : VA) (f : Section → Section) : (t.modSection c a f).wReady = t.wReady := rfl
@[simp] theorem Tile.modSection_streamQ (t : Tile) (c : CtxId) (a : VA) (f : Section → Section) : (t.modSection c a f).streamQ = t.streamQ := rfl
@[simp] theorem Tile.modSection_matrixQ (t : Tile) (c : CtxId) (a : VA) (f : Section → Section) : (t.modSection c a f).matrixQ = t.matrixQ := rfl
@[simp] theorem Tile.modSection_configQ (t : Tile) (c : CtxId) (a : VA) (f : Section → Section) : (t.modSection c a f).configQ = t.configQ := rfl
@[simp] theorem Tile.modSection_sideQ (t : Tile) (c : CtxId) (a : VA) (f : Section → Section) : (t.modSection c a f).sideQ = t.sideQ := rfl
@[simp] theorem Tile.modSection_streamMode (t : Tile) (c : CtxId) (a : VA) (f : Section → Section) : (t.modSection c a f).streamMode = t.streamMode := rfl
@[simp] theorem Tile.modSection_matrixMode (t : Tile) (c : CtxId) (a : VA) (f : Section → Section) : (t.modSection c a f).matrixMode = t.matrixMode := rfl
@[simp] theorem Tile.modSection_configMode (t : Tile) (c : CtxId) (a : VA) (f : Section → Section) : (t.modSection c a f).configMode = t.configMode := rfl
@[simp] theorem Tile.modSection_blockCache (t : Tile) (c : CtxId) (a : VA) (f : Section → Section) : (t.modSection c a f).blockCache = t.blockCache := rfl
@[simp] theorem Tile.modSection_portSlot (t : Tile) (c : CtxId) (a : VA) (f : Section → Section) : (t.modSection c a f).portSlot = t.portSlot := rfl
@[simp] theorem Tile.modSection_handles (t : Tile) (c : CtxId) (a : VA) (f : Section → Section) : (t.modSection c a f).handles = t.handles := rfl
@[simp] theorem Tile.modSection_bars (t : Tile) (c : CtxId) (a : VA) (f : Section → Section) : (t.modSection c a f).bars = t.bars := rfl
@[simp] theorem Tile.modSection_tasks (t : Tile) (c : CtxId) (a : VA) (f : Section → Section) : (t.modSection c a f).tasks = t.tasks := rfl
@[simp] theorem Tile.modSection_tlb (t : Tile) (c : CtxId) (a : VA) (f : Section → Section) : (t.modSection c a f).tlb = t.tlb := rfl
@[simp] theorem Tile.modSection_ranges (t : Tile) (c : CtxId) (a : VA) (f : Section → Section) : (t.modSection c a f).ranges = t.ranges := rfl
@[simp] theorem Tile.modSection_clk (t : Tile) (c : CtxId) (a : VA) (f : Section → Section) : (t.modSection c a f).clk = t.clk := rfl
@[simp] theorem Tile.modSection_stretched (t : Tile) (c : CtxId) (a : VA) (f : Section → Section) : (t.modSection c a f).stretched = t.stretched := rfl
@[simp] theorem Tile.modSection_stretches (t : Tile) (c : CtxId) (a : VA) (f : Section → Section) : (t.modSection c a f).stretches = t.stretches := rfl
@[simp] theorem Tile.modSection_excess (t : Tile) (c : CtxId) (a : VA) (f : Section → Section) : (t.modSection c a f).excess = t.excess := rfl
@[simp] theorem Tile.modSection_fenced (t : Tile) (c : CtxId) (a : VA) (f : Section → Section) : (t.modSection c a f).fenced = t.fenced := rfl
@[simp] theorem Tile.modSection_ret (t : Tile) (c : CtxId) (a : VA) (f : Section → Section) : (t.modSection c a f).ret = t.ret := rfl
@[simp] theorem Tile.modSection_retCycles (t : Tile) (c : CtxId) (a : VA) (f : Section → Section) : (t.modSection c a f).retCycles = t.retCycles := rfl
@[simp] theorem Tile.modSection_res (t : Tile) (c : CtxId) (a : VA) (f : Section → Section) : (t.modSection c a f).res = t.res := rfl
@[simp] theorem Tile.modSection_halting (t : Tile) (c : CtxId) (a : VA) (f : Section → Section) : (t.modSection c a f).halting = t.halting := rfl
@[simp] theorem Tile.modSection_inPlace (t : Tile) (c : CtxId) (a : VA) (f : Section → Section) : (t.modSection c a f).inPlace = t.inPlace := rfl
@[simp] theorem Tile.modOp_links (t : Tile) (id : Nat) (f : Op → Op) : (t.modOp id f).links = t.links := rfl
@[simp] theorem Tile.modOp_store (t : Tile) (id : Nat) (f : Op → Op) : (t.modOp id f).store = t.store := rfl
@[simp] theorem Tile.modOp_runs (t : Tile) (id : Nat) (f : Op → Op) : (t.modOp id f).runs = t.runs := rfl
@[simp] theorem Tile.modOp_runLog (t : Tile) (id : Nat) (f : Op → Op) : (t.modOp id f).runLog = t.runLog := rfl
@[simp] theorem Tile.modOp_active (t : Tile) (id : Nat) (f : Op → Op) : (t.modOp id f).active = t.active := rfl
@[simp] theorem Tile.modOp_shadow (t : Tile) (id : Nat) (f : Op → Op) : (t.modOp id f).shadow = t.shadow := rfl
@[simp] theorem Tile.modOp_cfgStream (t : Tile) (id : Nat) (f : Op → Op) : (t.modOp id f).cfgStream = t.cfgStream := rfl
@[simp] theorem Tile.modOp_images (t : Tile) (id : Nat) (f : Op → Op) : (t.modOp id f).images = t.images := rfl
@[simp] theorem Tile.modOp_fetches (t : Tile) (id : Nat) (f : Op → Op) : (t.modOp id f).fetches = t.fetches := rfl
@[simp] theorem Tile.modOp_insts (t : Tile) (id : Nat) (f : Op → Op) : (t.modOp id f).insts = t.insts := rfl
@[simp] theorem Tile.modOp_sections (t : Tile) (id : Nat) (f : Op → Op) : (t.modOp id f).sections = t.sections := rfl
@[simp] theorem Tile.modOp_stamp (t : Tile) (id : Nat) (f : Op → Op) : (t.modOp id f).stamp = t.stamp := rfl
@[simp] theorem Tile.modOp_ctxs (t : Tile) (id : Nat) (f : Op → Op) : (t.modOp id f).ctxs = t.ctxs := rfl
@[simp] theorem Tile.modOp_spawnRes (t : Tile) (id : Nat) (f : Op → Op) : (t.modOp id f).spawnRes = t.spawnRes := rfl
@[simp] theorem Tile.modOp_pad (t : Tile) (id : Nat) (f : Op → Op) : (t.modOp id f).pad = t.pad := rfl
@[simp] theorem Tile.modOp_padFull (t : Tile) (id : Nat) (f : Op → Op) : (t.modOp id f).padFull = t.padFull := rfl
@[simp] theorem Tile.modOp_padPoison (t : Tile) (id : Nat) (f : Op → Op) : (t.modOp id f).padPoison = t.padPoison := rfl
@[simp] theorem Tile.modOp_padBad (t : Tile) (id : Nat) (f : Op → Op) : (t.modOp id f).padBad = t.padBad := rfl
@[simp] theorem Tile.modOp_om (t : Tile) (id : Nat) (f : Op → Op) : (t.modOp id f).om = t.om := rfl
@[simp] theorem Tile.modOp_omPoison (t : Tile) (id : Nat) (f : Op → Op) : (t.modOp id f).omPoison = t.omPoison := rfl
@[simp] theorem Tile.modOp_omSt (t : Tile) (id : Nat) (f : Op → Op) : (t.modOp id f).omSt = t.omSt := rfl
@[simp] theorem Tile.modOp_acc (t : Tile) (id : Nat) (f : Op → Op) : (t.modOp id f).acc = t.acc := rfl
@[simp] theorem Tile.modOp_accPoison (t : Tile) (id : Nat) (f : Op → Op) : (t.modOp id f).accPoison = t.accPoison := rfl
@[simp] theorem Tile.modOp_accScale (t : Tile) (id : Nat) (f : Op → Op) : (t.modOp id f).accScale = t.accScale := rfl
@[simp] theorem Tile.modOp_accBuf (t : Tile) (id : Nat) (f : Op → Op) : (t.modOp id f).accBuf = t.accBuf := rfl
@[simp] theorem Tile.modOp_wActive (t : Tile) (id : Nat) (f : Op → Op) : (t.modOp id f).wActive = t.wActive := rfl
@[simp] theorem Tile.modOp_wShadow (t : Tile) (id : Nat) (f : Op → Op) : (t.modOp id f).wShadow = t.wShadow := rfl
@[simp] theorem Tile.modOp_wReady (t : Tile) (id : Nat) (f : Op → Op) : (t.modOp id f).wReady = t.wReady := rfl
@[simp] theorem Tile.modOp_streamMode (t : Tile) (id : Nat) (f : Op → Op) : (t.modOp id f).streamMode = t.streamMode := rfl
@[simp] theorem Tile.modOp_matrixMode (t : Tile) (id : Nat) (f : Op → Op) : (t.modOp id f).matrixMode = t.matrixMode := rfl
@[simp] theorem Tile.modOp_configMode (t : Tile) (id : Nat) (f : Op → Op) : (t.modOp id f).configMode = t.configMode := rfl
@[simp] theorem Tile.modOp_blockCache (t : Tile) (id : Nat) (f : Op → Op) : (t.modOp id f).blockCache = t.blockCache := rfl
@[simp] theorem Tile.modOp_portSlot (t : Tile) (id : Nat) (f : Op → Op) : (t.modOp id f).portSlot = t.portSlot := rfl
@[simp] theorem Tile.modOp_handles (t : Tile) (id : Nat) (f : Op → Op) : (t.modOp id f).handles = t.handles := rfl
@[simp] theorem Tile.modOp_bars (t : Tile) (id : Nat) (f : Op → Op) : (t.modOp id f).bars = t.bars := rfl
@[simp] theorem Tile.modOp_tasks (t : Tile) (id : Nat) (f : Op → Op) : (t.modOp id f).tasks = t.tasks := rfl
@[simp] theorem Tile.modOp_tlb (t : Tile) (id : Nat) (f : Op → Op) : (t.modOp id f).tlb = t.tlb := rfl
@[simp] theorem Tile.modOp_ranges (t : Tile) (id : Nat) (f : Op → Op) : (t.modOp id f).ranges = t.ranges := rfl
@[simp] theorem Tile.modOp_clk (t : Tile) (id : Nat) (f : Op → Op) : (t.modOp id f).clk = t.clk := rfl
@[simp] theorem Tile.modOp_stretched (t : Tile) (id : Nat) (f : Op → Op) : (t.modOp id f).stretched = t.stretched := rfl
@[simp] theorem Tile.modOp_stretches (t : Tile) (id : Nat) (f : Op → Op) : (t.modOp id f).stretches = t.stretches := rfl
@[simp] theorem Tile.modOp_excess (t : Tile) (id : Nat) (f : Op → Op) : (t.modOp id f).excess = t.excess := rfl
@[simp] theorem Tile.modOp_fenced (t : Tile) (id : Nat) (f : Op → Op) : (t.modOp id f).fenced = t.fenced := rfl
@[simp] theorem Tile.modOp_ret (t : Tile) (id : Nat) (f : Op → Op) : (t.modOp id f).ret = t.ret := rfl
@[simp] theorem Tile.modOp_retCycles (t : Tile) (id : Nat) (f : Op → Op) : (t.modOp id f).retCycles = t.retCycles := rfl
@[simp] theorem Tile.modOp_res (t : Tile) (id : Nat) (f : Op → Op) : (t.modOp id f).res = t.res := rfl
@[simp] theorem Tile.modOp_halting (t : Tile) (id : Nat) (f : Op → Op) : (t.modOp id f).halting = t.halting := rfl
@[simp] theorem Tile.modOp_inPlace (t : Tile) (id : Nat) (f : Op → Op) : (t.modOp id f).inPlace = t.inPlace := rfl
@[simp] theorem Tile.modHandle_links (t : Tile) (h : Fin 64) (f : Handle → Handle) : (t.modHandle h f).links = t.links := rfl
@[simp] theorem Tile.modHandle_store (t : Tile) (h : Fin 64) (f : Handle → Handle) : (t.modHandle h f).store = t.store := rfl
@[simp] theorem Tile.modHandle_runs (t : Tile) (h : Fin 64) (f : Handle → Handle) : (t.modHandle h f).runs = t.runs := rfl
@[simp] theorem Tile.modHandle_runLog (t : Tile) (h : Fin 64) (f : Handle → Handle) : (t.modHandle h f).runLog = t.runLog := rfl
@[simp] theorem Tile.modHandle_active (t : Tile) (h : Fin 64) (f : Handle → Handle) : (t.modHandle h f).active = t.active := rfl
@[simp] theorem Tile.modHandle_shadow (t : Tile) (h : Fin 64) (f : Handle → Handle) : (t.modHandle h f).shadow = t.shadow := rfl
@[simp] theorem Tile.modHandle_cfgStream (t : Tile) (h : Fin 64) (f : Handle → Handle) : (t.modHandle h f).cfgStream = t.cfgStream := rfl
@[simp] theorem Tile.modHandle_images (t : Tile) (h : Fin 64) (f : Handle → Handle) : (t.modHandle h f).images = t.images := rfl
@[simp] theorem Tile.modHandle_fetches (t : Tile) (h : Fin 64) (f : Handle → Handle) : (t.modHandle h f).fetches = t.fetches := rfl
@[simp] theorem Tile.modHandle_insts (t : Tile) (h : Fin 64) (f : Handle → Handle) : (t.modHandle h f).insts = t.insts := rfl
@[simp] theorem Tile.modHandle_sections (t : Tile) (h : Fin 64) (f : Handle → Handle) : (t.modHandle h f).sections = t.sections := rfl
@[simp] theorem Tile.modHandle_stamp (t : Tile) (h : Fin 64) (f : Handle → Handle) : (t.modHandle h f).stamp = t.stamp := rfl
@[simp] theorem Tile.modHandle_ctxs (t : Tile) (h : Fin 64) (f : Handle → Handle) : (t.modHandle h f).ctxs = t.ctxs := rfl
@[simp] theorem Tile.modHandle_spawnRes (t : Tile) (h : Fin 64) (f : Handle → Handle) : (t.modHandle h f).spawnRes = t.spawnRes := rfl
@[simp] theorem Tile.modHandle_pad (t : Tile) (h : Fin 64) (f : Handle → Handle) : (t.modHandle h f).pad = t.pad := rfl
@[simp] theorem Tile.modHandle_padFull (t : Tile) (h : Fin 64) (f : Handle → Handle) : (t.modHandle h f).padFull = t.padFull := rfl
@[simp] theorem Tile.modHandle_padPoison (t : Tile) (h : Fin 64) (f : Handle → Handle) : (t.modHandle h f).padPoison = t.padPoison := rfl
@[simp] theorem Tile.modHandle_padBad (t : Tile) (h : Fin 64) (f : Handle → Handle) : (t.modHandle h f).padBad = t.padBad := rfl
@[simp] theorem Tile.modHandle_om (t : Tile) (h : Fin 64) (f : Handle → Handle) : (t.modHandle h f).om = t.om := rfl
@[simp] theorem Tile.modHandle_omPoison (t : Tile) (h : Fin 64) (f : Handle → Handle) : (t.modHandle h f).omPoison = t.omPoison := rfl
@[simp] theorem Tile.modHandle_omSt (t : Tile) (h : Fin 64) (f : Handle → Handle) : (t.modHandle h f).omSt = t.omSt := rfl
@[simp] theorem Tile.modHandle_acc (t : Tile) (h : Fin 64) (f : Handle → Handle) : (t.modHandle h f).acc = t.acc := rfl
@[simp] theorem Tile.modHandle_accPoison (t : Tile) (h : Fin 64) (f : Handle → Handle) : (t.modHandle h f).accPoison = t.accPoison := rfl
@[simp] theorem Tile.modHandle_accScale (t : Tile) (h : Fin 64) (f : Handle → Handle) : (t.modHandle h f).accScale = t.accScale := rfl
@[simp] theorem Tile.modHandle_accBuf (t : Tile) (h : Fin 64) (f : Handle → Handle) : (t.modHandle h f).accBuf = t.accBuf := rfl
@[simp] theorem Tile.modHandle_wActive (t : Tile) (h : Fin 64) (f : Handle → Handle) : (t.modHandle h f).wActive = t.wActive := rfl
@[simp] theorem Tile.modHandle_wShadow (t : Tile) (h : Fin 64) (f : Handle → Handle) : (t.modHandle h f).wShadow = t.wShadow := rfl
@[simp] theorem Tile.modHandle_wReady (t : Tile) (h : Fin 64) (f : Handle → Handle) : (t.modHandle h f).wReady = t.wReady := rfl
@[simp] theorem Tile.modHandle_streamQ (t : Tile) (h : Fin 64) (f : Handle → Handle) : (t.modHandle h f).streamQ = t.streamQ := rfl
@[simp] theorem Tile.modHandle_matrixQ (t : Tile) (h : Fin 64) (f : Handle → Handle) : (t.modHandle h f).matrixQ = t.matrixQ := rfl
@[simp] theorem Tile.modHandle_configQ (t : Tile) (h : Fin 64) (f : Handle → Handle) : (t.modHandle h f).configQ = t.configQ := rfl
@[simp] theorem Tile.modHandle_sideQ (t : Tile) (h : Fin 64) (f : Handle → Handle) : (t.modHandle h f).sideQ = t.sideQ := rfl
@[simp] theorem Tile.modHandle_streamMode (t : Tile) (h : Fin 64) (f : Handle → Handle) : (t.modHandle h f).streamMode = t.streamMode := rfl
@[simp] theorem Tile.modHandle_matrixMode (t : Tile) (h : Fin 64) (f : Handle → Handle) : (t.modHandle h f).matrixMode = t.matrixMode := rfl
@[simp] theorem Tile.modHandle_configMode (t : Tile) (h : Fin 64) (f : Handle → Handle) : (t.modHandle h f).configMode = t.configMode := rfl
@[simp] theorem Tile.modHandle_blockCache (t : Tile) (h : Fin 64) (f : Handle → Handle) : (t.modHandle h f).blockCache = t.blockCache := rfl
@[simp] theorem Tile.modHandle_portSlot (t : Tile) (h : Fin 64) (f : Handle → Handle) : (t.modHandle h f).portSlot = t.portSlot := rfl
@[simp] theorem Tile.modHandle_bars (t : Tile) (h : Fin 64) (f : Handle → Handle) : (t.modHandle h f).bars = t.bars := rfl
@[simp] theorem Tile.modHandle_tasks (t : Tile) (h : Fin 64) (f : Handle → Handle) : (t.modHandle h f).tasks = t.tasks := rfl
@[simp] theorem Tile.modHandle_tlb (t : Tile) (h : Fin 64) (f : Handle → Handle) : (t.modHandle h f).tlb = t.tlb := rfl
@[simp] theorem Tile.modHandle_ranges (t : Tile) (h : Fin 64) (f : Handle → Handle) : (t.modHandle h f).ranges = t.ranges := rfl
@[simp] theorem Tile.modHandle_clk (t : Tile) (h : Fin 64) (f : Handle → Handle) : (t.modHandle h f).clk = t.clk := rfl
@[simp] theorem Tile.modHandle_stretched (t : Tile) (h : Fin 64) (f : Handle → Handle) : (t.modHandle h f).stretched = t.stretched := rfl
@[simp] theorem Tile.modHandle_stretches (t : Tile) (h : Fin 64) (f : Handle → Handle) : (t.modHandle h f).stretches = t.stretches := rfl
@[simp] theorem Tile.modHandle_excess (t : Tile) (h : Fin 64) (f : Handle → Handle) : (t.modHandle h f).excess = t.excess := rfl
@[simp] theorem Tile.modHandle_fenced (t : Tile) (h : Fin 64) (f : Handle → Handle) : (t.modHandle h f).fenced = t.fenced := rfl
@[simp] theorem Tile.modHandle_ret (t : Tile) (h : Fin 64) (f : Handle → Handle) : (t.modHandle h f).ret = t.ret := rfl
@[simp] theorem Tile.modHandle_retCycles (t : Tile) (h : Fin 64) (f : Handle → Handle) : (t.modHandle h f).retCycles = t.retCycles := rfl
@[simp] theorem Tile.modHandle_res (t : Tile) (h : Fin 64) (f : Handle → Handle) : (t.modHandle h f).res = t.res := rfl
@[simp] theorem Tile.modHandle_halting (t : Tile) (h : Fin 64) (f : Handle → Handle) : (t.modHandle h f).halting = t.halting := rfl
@[simp] theorem Tile.modHandle_inPlace (t : Tile) (h : Fin 64) (f : Handle → Handle) : (t.modHandle h f).inPlace = t.inPlace := rfl

/-! ### Orders -/

@[simp] theorem Pack.order_modOrder (p : Pack) (b : Bool) (f : Order → Order) : (p.modOrder b f).order b = f (p.order b) := by
  cases b <;> rfl

theorem Pack.order_modOrder_ne (p : Pack) (b : Bool) (f : Order → Order) : (p.modOrder b f).order (!b) = p.order (!b) := by
  cases b <;> rfl

end Sys2Proof.Machine
end

