-- ==== Sys2Proof/Laws/Memory.lean ====
section
/-! SUPPORT. The operations on the package's memory: each keeps the canonical form, and what each does to the bytes. -/

namespace Sys2Proof.Machine

theorem Memory.wf_iff (m : Memory) : m.wf = true ↔
    swf (0 : Byte) m.cells = true ∧ swf false m.full = true ∧ swf false m.poison = true ∧ swf false m.bad = true ∧
      swf false m.flaw = true := by
  simp [Memory.wf, and_assoc]

/-! ### What an operation leaves of the bytes -/

@[simp] theorem Memory.poisonGranule_cells (m : Memory) (a : Nat) : (m.poisonGranule a).cells = m.cells := rfl

@[simp] theorem Memory.settle_cells (m : Memory) (a : Nat) : (m.settle a).1.cells = m.cells := by
  unfold Memory.settle; split
  · rfl
  · split <;> rfl

@[simp] theorem readGranule_mem (m : Memory) (p : Pack) (vi : Fin 64) (a : Nat) : (readGranule m p vi a).1 = (m.settle a).1 := rfl

@[simp] theorem Memory.emptyWord_cells (m : Memory) (a : Nat) : (m.emptyWord a).cells = m.cells := by
  unfold Memory.emptyWord; split <;> rfl

/-- What is true of a state and kept by every granule that a walk reads holds after the walk. -/
theorem State.walkedOn_ind (P : State → Prop) (vi : Fin 64) (hread : ∀ s a, P s → P (s.stored (readGranule s.mem s.pk vi a)))
    (hpk : ∀ (s : State) (p : Pack), P s → P { s with pk := p }) (s : State) (d : DieId) (n : WalkNote) (h : P s) :
    P (s.walkedOn d vi n) := by
  have key : ∀ (l : List Nat) (s : State), P s → P (l.foldl (fun s g => s.stored (readGranule s.mem s.pk vi (16 * g))) s) := by
    intro l
    induction l with
    | nil => intro s h; exact h
    | cons g l ih => intro s h; exact ih _ (hread s _ h)
  exact hpk _ _ (key _ _ h)

theorem State.walked_ind (P : State → Prop) (vi : Fin 64) (hread : ∀ s a, P s → P (s.stored (readGranule s.mem s.pk vi a)))
    (hpk : ∀ (s : State) (p : Pack), P s → P { s with pk := p }) (s : State) (t : TileId) (n : WalkNote) (h : P s) :
    P (s.walked t vi n) := by
  have h1 := State.walkedOn_ind P vi hread hpk s t.die n h
  unfold State.walked; dsimp only; split
  · exact hpk _ _ h1
  · exact h1

@[simp] theorem State.walked_cells (s : State) (t : TileId) (vi : Fin 64) (n : WalkNote) : (s.walked t vi n).mem.cells = s.mem.cells :=
  State.walked_ind (fun x => x.mem.cells = s.mem.cells) vi (fun x a h => by simpa [State.stored] using h) (fun _ _ h => h) s t n rfl

/-- A walk that reads and keeps nothing leaves the state. -/
@[simp] theorem State.walked_none (s : State) (t : TileId) (vi : Fin 64) : s.walked t vi {} = s := rfl

/-- Settling words of the scratchpad leaves the package's memory. -/
theorem padSettle_fst (t : TileId) (vi : Fin 64) (off : Nat) (l : List Nat) (x : Memory × Pack) :
    (l.foldl (fun (mp : Memory × Pack) k =>
      let w := (off + k) / 8
      if sget false (mp.2.tile t).padBad w then
        (mp.1, (mp.2.modTile t (·.padPoisonWord w)).softError t.die vi 3)
      else mp) x).1 = x.1 := by
  induction l generalizing x with
  | nil => rfl
  | cons k l ih => rw [List.foldl_cons, ih]; dsimp only; split <;> rfl

theorem settlePlace_cells (m : Memory) (p : Pack) (t : TileId) (vi : Fin 64) (pl : Place) (n : Nat) :
    (settlePlace m p t vi pl n).1.cells = m.cells := by
  unfold settlePlace
  split
  · rw [padSettle_fst]
  · simp
  · rfl

/-! ### The canonical form -/

section
variable {m : Memory}

theorem Memory.poisonGranule_wf (h : m.wf = true) (a : Nat) : (m.poisonGranule a).wf = true := by
  rw [Memory.wf_iff] at h ⊢
  obtain ⟨h1, h2, h3, h4, h5⟩ := h
  exact ⟨h1, h2, swf_sset h3 _ _, swf_sset h4 _ _, swf_sset h5 _ _⟩

theorem Memory.settle_wf (h : m.wf = true) (a : Nat) : (m.settle a).1.wf = true := by
  unfold Memory.settle; split
  · exact Memory.poisonGranule_wf h a
  · split
    · obtain ⟨h1, h2, h3, h4, h5⟩ := (Memory.wf_iff m).1 h
      exact (Memory.wf_iff _).2 ⟨h1, h2, h3, h4, swf_sset h5 _ _⟩
    · exact h

theorem Memory.storeM_wf (h : m.wf = true) (a : Nat) (bs : List Byte) : (m.storeM a bs).1.wf = true := by
  obtain ⟨h1, h2, h3, h4, h5⟩ := (Memory.wf_iff m).1 h
  unfold Memory.storeM; dsimp only
  split
  · exact (Memory.wf_iff _).2 ⟨swf_writeBytes bs h1 a, swf_setMarks h2 _ _ _, swf_sset h3 _ _, swf_sset h4 _ _, swf_sset h5 _ _⟩
  · split
    · exact Memory.poisonGranule_wf h a
    · obtain ⟨-, -, k3, k4, k5⟩ := (Memory.wf_iff _).1 (Memory.settle_wf h a)
      refine (Memory.wf_iff _).2 ⟨swf_writeBytes bs h1 a, ?_, k3, k4, k5⟩
      dsimp only; split
      · exact swf_sset h2 _ _
      · exact h2

theorem Memory.fillWord_wf (h : m.wf = true) (a : Nat) (bs : List Byte) : (m.fillWord a bs).1.wf = true := by
  obtain ⟨h1, h2, h345⟩ := (Memory.wf_iff m).1 h
  unfold Memory.fillWord
  split
  · exact h
  · exact (Memory.wf_iff _).2 ⟨swf_writeBytes bs h1 a, swf_sset h2 _ _, h345⟩

theorem Memory.storeP_wf (h : m.wf = true) (a : Nat) (bs : List Byte) : (m.storeP a bs).1.wf = true := by
  have h1 := Memory.fillWord_wf (Memory.settle_wf h a) a (bs.take 8)
  unfold Memory.storeP; dsimp only
  split
  · exact Memory.fillWord_wf h1 _ _
  · exact h1

theorem Memory.emptyWord_wf (h : m.wf = true) (a : Nat) : (m.emptyWord a).wf = true := by
  obtain ⟨h1, h2, h345⟩ := (Memory.wf_iff m).1 h
  unfold Memory.emptyWord
  split
  · exact h
  · exact (Memory.wf_iff _).2 ⟨h1, swf_sset h2 _ _, h345⟩

theorem writePlace_wf (h : m.wf = true) (p : Pack) (t : TileId) (pl : Place) (bs : List Byte) :
    (writePlace m p t pl bs).1.wf = true := by
  unfold writePlace; split
  · exact h
  · dsimp only; split
    · exact Memory.storeP_wf h _ _
    · exact Memory.storeM_wf h _ _
  · exact h

theorem emptyPlace_wf (h : m.wf = true) (p : Pack) (t : TileId) (pl : Place) (n : Nat) :
    (emptyPlace m p t pl n).1.wf = true := by
  unfold emptyPlace; split
  · exact h
  · next d off _ _ =>
    have key : ∀ (l : List Nat) (m : Memory), m.wf = true →
        (l.foldl (fun m k => m.emptyWord (memIndex d off + k)) m).wf = true := by
      intro l
      induction l with
      | nil => intro m h; exact h
      | cons k l ih => intro m h; exact ih _ (Memory.emptyWord_wf h _)
    exact key _ _ h
  · exact h

theorem poisonPlace_wf (h : m.wf = true) (p : Pack) (t : TileId) (pl : Place) (n : Nat) :
    (poisonPlace m p t pl n).1.wf = true := by
  unfold poisonPlace; split
  · exact h
  · exact Memory.poisonGranule_wf h _
  · exact h

theorem settlePlace_wf (h : m.wf = true) (p : Pack) (t : TileId) (vi : Fin 64) (pl : Place) (n : Nat) :
    (settlePlace m p t vi pl n).1.wf = true := by
  unfold settlePlace
  split
  · rw [padSettle_fst]; exact h
  · exact Memory.settle_wf h _
  · exact h

end

theorem State.walked_wf {s : State} (h : s.mem.wf = true) (t : TileId) (vi : Fin 64) (n : WalkNote) : (s.walked t vi n).mem.wf = true :=
  State.walked_ind (fun x => x.mem.wf = true) vi (fun _ _ h => Memory.settle_wf h _) (fun _ _ h => h) s t n h

/-! ### Bytes after a write -/

/-- A write through an M mapping to a granule without error stores its bytes, and no other byte changes. -/
theorem Memory.storeM_byte {m : Memory} (h : m.wf = true) {a : Nat} {bs : List Byte}
    (hb : bs.length = 16 ∨ m.badGranule a = false) (k : Nat) :
    (m.storeM a bs).1.byte k = if a ≤ k ∧ k < a + bs.length then bs.getD (k - a) 0 else m.byte k := by
  have h' := ((Memory.wf_iff m).1 h).1
  unfold Memory.storeM; dsimp only
  by_cases h16 : bs.length = 16
  · rw [if_pos (by simp [h16])]; exact sget_writeBytes bs h' a k
  · rw [if_neg (by simp [h16]), if_neg (by simp [hb.resolve_left h16])]; exact sget_writeBytes bs h' a k

end Sys2Proof.Machine
end

