-- ==== Sys2Proof/Laws/Firing.lean ====
section
/-! SUPPORT. What the shared operations of a firing leave: every byte of memory, and of each tile its memories and
what commits alone change of its contexts (R51). -/

namespace Sys2Proof.Machine

/-- What commits, engines and steps of the part change of a context, and firings do not. -/
def Ctx.core (x : Ctx) : CtxSt × CtxImage × Option (CtxImage × FaultRec) × BitVec 18 × VA × BitVec 80 × VA :=
  (x.st, x.cur, x.trapped, x.tcause, x.tblock, x.tinfo, x.tval)

/-- What firings leave of a tile. -/
structure TileKept (a b : Tile) : Prop where
  pad : b.pad = a.pad
  om : b.om = a.om
  acc : b.acc = a.acc
  accBuf : b.accBuf = a.accBuf
  ctx : ∀ c, (b.ctx c).core = (a.ctx c).core

/-- What firings leave of the state. -/
structure Kept (s t : State) : Prop where
  cells : t.mem.cells = s.mem.cells
  wf : s.mem.wf = true → t.mem.wf = true
  tile : ∀ u, TileKept (s.pk.tile u) (t.pk.tile u)

def PackKept (p q : Pack) : Prop := ∀ u, TileKept (p.tile u) (q.tile u)

theorem TileKept.refl (a : Tile) : TileKept a a := ⟨rfl, rfl, rfl, rfl, fun _ => rfl⟩

theorem TileKept.trans {a b c : Tile} (h : TileKept a b) (k : TileKept b c) : TileKept a c :=
  ⟨k.pad.trans h.pad, k.om.trans h.om, k.acc.trans h.acc, k.accBuf.trans h.accBuf, fun x => (k.ctx x).trans (h.ctx x)⟩

theorem PackKept.refl (p : Pack) : PackKept p p := fun _ => TileKept.refl _

theorem PackKept.trans {p q r : Pack} (h : PackKept p q) (k : PackKept q r) : PackKept p r := fun u => (h u).trans (k u)

theorem Kept.refl (s : State) : Kept s s := ⟨rfl, id, fun _ => TileKept.refl _⟩

theorem Kept.trans {a b c : State} (h : Kept a b) (k : Kept b c) : Kept a c :=
  ⟨k.cells.trans h.cells, fun w => k.wf (h.wf w), fun u => (h.tile u).trans (k.tile u)⟩

/-- A change of the package alone. -/
theorem kept_pk {s t : State} (hm : t.mem = s.mem) (h : PackKept s.pk t.pk) : Kept s t :=
  ⟨by rw [hm], fun w => by rw [hm]; exact w, h⟩

/-! ### Parts of the package -/

theorem packKept_dies {p q : Pack} (h : q.dies = p.dies) : PackKept p q := by
  intro u
  have : q.tile u = p.tile u := by simp only [Pack.tile, Pack.die, h]
  rw [this]; exact TileKept.refl _

theorem packKept_modTile (p : Pack) (t : TileId) {f : Tile → Tile} (h : TileKept (p.tile t) (f (p.tile t))) :
    PackKept p (p.modTile t f) := by
  intro u
  rw [Pack.tile_modTile_ite]; split
  · next e => subst e; exact h
  · exact TileKept.refl _

theorem packKept_modDie (p : Pack) (d : DieId) {f : Die → Die} (h : (f (p.die d)).tiles = (p.die d).tiles) :
    PackKept p (p.modDie d f) := by
  intro u
  rw [Pack.tile_modDie p d f u h]; exact TileKept.refl _

theorem tileKept_modCtx (t : Tile) (c : CtxId) {f : Ctx → Ctx} (h : (f (t.ctx c)).core = (t.ctx c).core) :
    TileKept t (t.modCtx c f) := by
  refine ⟨rfl, rfl, rfl, rfl, fun b => ?_⟩
  rw [Tile.ctx_modCtx_ite]; split
  · next e => subst e; exact h
  · rfl

theorem packKept_modCtx (p : Pack) (t : TileId) (c : CtxId) {f : Ctx → Ctx} (h : ∀ x, (f x).core = x.core) :
    PackKept p (p.modCtx t c f) := packKept_modTile p t (tileKept_modCtx _ c (h _))

theorem packKept_foldl {α : Type} (l : List α) (f : Pack → α → Pack) (h : ∀ p a, PackKept p (f p a)) (p : Pack) :
    PackKept p (l.foldl f p) := by
  induction l generalizing p with
  | nil => exact PackKept.refl p
  | cons a l ih => exact (h p a).trans (ih _)

/-! ### Operations on a tile -/

/-- A change of fields that no claim on memories or contexts reads. -/
theorem tileKept_of {a b : Tile} (h1 : b.pad = a.pad) (h2 : b.om = a.om) (h3 : b.acc = a.acc) (h4 : b.accBuf = a.accBuf)
    (h5 : b.ctxs = a.ctxs) : TileKept a b := ⟨h1, h2, h3, h4, fun c => by simp only [Tile.ctx, h5]⟩

theorem tileKept_modInst (t : Tile) (c : CtxId) (n : Nat) (f : Inst → Inst) : TileKept t (t.modInst c n f) :=
  tileKept_of rfl rfl rfl rfl rfl

theorem tileKept_send (t : Tile) (a : BitVec 12) (w : Work) (g : Target) (k : Token) : TileKept t (t.send a w g k) :=
  tileKept_of rfl rfl rfl rfl rfl

theorem tileKept_sendOpt (t : Tile) (a : BitVec 12) (w : Work) (g : Target) (k : Option Token) : TileKept t (t.sendOpt a w g k) := by
  cases k
  · exact TileKept.refl t
  · exact tileKept_send t a w g _

theorem tileKept_addFlags (t : Tile) (a : BitVec 12) (w : Work) (fl : BitVec 5) : TileKept t (t.addFlags a w fl) := by
  unfold Tile.addFlags; split
  · exact TileKept.refl t
  · split <;> exact tileKept_of rfl rfl rfl rfl rfl

theorem tileKept_finish (t : Tile) (c : Firing) (f : Slot) (l : Option Nat) (r : Result) : TileKept t (t.finish c f l r) := by
  have h := ((tileKept_sendOpt t c.elem c.work f.t0 r.t0).trans (tileKept_sendOpt _ c.elem c.work f.t1 r.t1)).trans
    (tileKept_addFlags _ c.elem c.work r.flags)
  unfold Tile.finish; dsimp only
  split
  · split
    · exact h
    · exact h.trans (tileKept_modInst _ _ _ _)
  · exact h

theorem tileKept_squash (t : Tile) (c : CtxId) (k : Nat) : TileKept t (t.squash c k) := tileKept_of rfl rfl rfl rfl rfl

/-! ### Operations on the state -/

theorem kept_modTile (s : State) (t : TileId) {f : Tile → Tile} (h : TileKept (s.pk.tile t) (f (s.pk.tile t))) :
    Kept s { s with pk := s.pk.modTile t f } := kept_pk rfl (packKept_modTile _ _ h)

theorem kept_finish (s : State) (f : Slot) (fm : Form) (r : Result) : Kept s (s.finish f fm r) :=
  kept_modTile s _ (tileKept_finish _ _ _ _ _)

theorem kept_putBack (s : State) : Kept s s.putBack := kept_modTile s _ (tileKept_of rfl rfl rfl rfl rfl)

theorem kept_post (s : State) (a : Access) : Kept s (s.post a) := kept_pk rfl (packKept_dies rfl)

theorem packKept_note (p : Pack) (r : PendRec) : PackKept p (p.note r) := packKept_dies rfl

theorem packKept_softError (p : Pack) (d : DieId) (vi : Fin 64) (b : Byte) : PackKept p (p.softError d vi b) :=
  (packKept_modDie p d rfl).trans (packKept_note _ _)

/-- Storage left by a step that changes no byte of memory and no tile, with the loads it serves. -/
theorem kept_stored (s : State) {r : Memory × Pack} (hc : r.1.cells = s.mem.cells) (hw : s.mem.wf = true → r.1.wf = true)
    (h : PackKept s.pk r.2) : Kept s (s.stored r) := ⟨hc, hw, h⟩

theorem packKept_noteRead (p : Pack) (vi : Fin 64) (a : Nat) (e : Ecc) : PackKept p (p.noteRead vi a e) := by
  cases e
  · exact PackKept.refl p
  · exact packKept_modDie p _ rfl
  · exact packKept_softError _ _ _ _

theorem kept_readGranule (s : State) (vi : Fin 64) (a : Nat) : Kept s (s.stored (readGranule s.mem s.pk vi a)) :=
  kept_stored s (by simp) (fun w => Memory.settle_wf w a) (packKept_noteRead _ _ _ _)

theorem tileKept_fillTlb (t : Tile) (e : Trans) : TileKept t (t.fillTlb e) := tileKept_of rfl rfl rfl rfl rfl

theorem kept_walkedOn (s : State) (d : DieId) (vi : Fin 64) (n : WalkNote) : Kept s (s.walkedOn d vi n) := by
  have key : ∀ (l : List Nat) (s : State), Kept s (l.foldl (fun s g => s.stored (readGranule s.mem s.pk vi (16 * g))) s) := by
    intro l
    induction l with
    | nil => intro s; exact Kept.refl s
    | cons g l ih => intro s; exact (kept_readGranule s vi _).trans (ih _)
  refine (key n.read s).trans (kept_pk rfl ?_)
  exact packKept_foldl _ _ (fun p e => packKept_modDie p d rfl) _

theorem kept_walked (s : State) (t : TileId) (vi : Fin 64) (n : WalkNote) : Kept s (s.walked t vi n) := by
  refine (kept_walkedOn s t.die vi n).trans ?_
  unfold State.walked; dsimp only; split
  · exact kept_modTile _ _ (tileKept_fillTlb _ _)
  · exact Kept.refl _

theorem packKept_sectionFault (p : Pack) (t : TileId) (w : Work) (k : Token) : PackKept p (p.sectionFault t w k) := by
  unfold Pack.sectionFault; split
  · exact PackKept.refl p
  · dsimp only
    have h : PackKept p (p.modTile t fun y => y.modSection w.ctx w.img (·.halt w.n k)) :=
      packKept_modTile p t (tileKept_of rfl rfl rfl rfl rfl)
    split
    · split
      · exact PackKept.refl p
      · exact h
    · split
      · exact PackKept.refl p
      · exact h

theorem kept_storeFault (s : State) (f : Slot) (fm : Form) (k : Token) : Kept s (s.storeFault f fm k) := by
  unfold State.storeFault; split
  · split
    · exact kept_pk rfl (packKept_sectionFault _ _ _ _)
    · exact Kept.refl s
  · exact kept_finish _ _ _ _

theorem packKept_useWindow (p : Pack) (d : DieId) (n : Nat) (f : Nat → Nat) : PackKept p (p.useWindow d n f) := packKept_modDie p d rfl

theorem packKept_returnLsid (p : Pack) (t : TileId) (v : LsidVal) : PackKept p (p.returnLsid t v) := by
  unfold Pack.returnLsid; split
  · dsimp only; split
    · refine (packKept_modDie p _ rfl).trans (packKept_foldl _ _ (fun q d => ?_) _)
      split
      · exact packKept_useWindow _ _ _ _
      · exact PackKept.refl q
    · exact packKept_modDie p _ rfl
  · exact packKept_modDie p _ rfl
  · exact PackKept.refl p

theorem core_leaveLoop (k : Nat) (x : Ctx) : (x.leaveLoop k).core = x.core := by
  unfold Ctx.leaveLoop; split
  · split <;> rfl
  · rfl

theorem core_unspawn (k : Nat) (b : Bool) (x : Ctx) : (Ctx.unspawn k b x).core = x.core := core_leaveLoop k x

theorem packKept_squash (p : Pack) (t : TileId) (c : CtxId) (k : Nat) : PackKept p (p.squash t c k) := by
  have h : PackKept p (p.returnHeld t ((p.tile t).insts.filter fun i => i.ctx == c && k ≤ i.seq)) :=
    packKept_foldl _ _ (fun q _ => packKept_foldl _ _ (fun q _ => packKept_returnLsid q t _) q) p
  have h2 := packKept_modTile (p.returnHeld t ((p.tile t).insts.filter fun i => i.ctx == c && k ≤ i.seq)) t
    (f := fun x => (x.squash c k).modCtx c (Ctx.unspawn k (((p.tile t).insts.filter fun i => i.ctx == c && k ≤ i.seq).any (·.skipBkpt))))
    ((tileKept_squash _ c k).trans (tileKept_modCtx _ c (core_unspawn k _ _)))
  exact (h.trans h2).trans (packKept_dies rfl)

theorem kept_walkInto (s : State) (t : TileId) (va : VA) : Kept s (s.walkInto t va) := kept_walked _ _ _ _

theorem packKept_respawn (p : Pack) (t : TileId) (c : CtxId) (i : Inst) (n : Option Nat) : PackKept p (p.respawn t c i n) := by
  refine packKept_modCtx p t c fun x => ?_
  dsimp only
  split
  · rfl
  · split
    · rfl
    · split
      · split <;> rfl
      · rfl

theorem packKept_reclaim (p : Pack) (t : TileId) (c : CtxId) (n : Nat) (i : Inst) : PackKept p (p.reclaim t c n i) :=
  (packKept_squash p t c i.seq).trans (packKept_respawn _ t c i _)

theorem kept_fireStore (s : State) (f : Slot) (fm : Form) (a : Access) : Kept s (s.fireStore f fm a) := by
  unfold State.fireStore; split
  · exact kept_post s a
  · dsimp only; split
    · exact kept_putBack s
    · exact kept_finish s _ _ _
    · refine Kept.trans ?_ (kept_finish _ _ _ _)
      exact kept_pk rfl (packKept_reclaim _ _ _ _ _)

theorem tileKept_forgetLines (t : Tile) : TileKept t t.forgetLines := tileKept_of rfl rfl rfl rfl rfl

theorem packKept_joined (p : Pack) (t : TileId) (w : Work) (n : Nat) (g : Floor) : PackKept p (p.joined t w n g) := by
  have h := packKept_modTile p t (f := Tile.forgetLines) (tileKept_forgetLines _)
  unfold Pack.joined; dsimp only; split
  · exact h
  · exact h.trans (packKept_modCtx _ _ _ fun _ => rfl)

theorem kept_fireWait (s : State) (f : Slot) (fm : Form) (l : Token) (v : LsidVal) (g : Floor) : Kept s (s.fireWait f fm l v g) :=
  (kept_finish s f fm _).trans (kept_pk rfl (packKept_joined _ _ _ _ _))

theorem kept_takeTask (s : State) (f : Slot) (fm : Form) (r : BitVec 256) (b : Bool) (g : Floor) : Kept s (s.takeTask f fm r b g) :=
  (kept_finish s f fm _).trans (kept_pk rfl ((packKept_joined _ _ _ _ _).trans (packKept_modTile _ _ (tileKept_modInst _ _ _ _))))

/-! ### The common rules -/

theorem kept_fireWith (fm : Form) (f : Slot) (kl kr : TokKind → Bool) (s : State) (body : Token → Token → State)
    (h : ∀ l r, Kept s (body l r)) : Kept s (fireWith fm f kl kr s body) := by
  unfold fireWith; split
  · exact Kept.refl s
  · exact kept_finish _ _ _ _
  · exact h _ _

theorem kept_fireResult (fm : Form) (f : Slot) (kl kr : TokKind → Bool) (s : State) (body : Token → Token → Result) :
    Kept s (fireResult fm f kl kr s body) := kept_fireWith _ _ _ _ _ _ fun _ _ => kept_finish _ _ _ _

theorem kept_calcWord (fm : Form) (f : Slot) (s : State) (op : W128 → W128 → W128 × BitVec 5) : Kept s (calcWord fm f s op) :=
  kept_fireResult _ _ _ _ _ _

theorem kept_firePlain (fm : Form) (f : Slot) (kl : TokKind → Bool) (a b : Byte) (s : State) (body : W128 → W128 → State)
    (h : ∀ l r, Kept s (body l r)) : Kept s (firePlain fm f kl a b s body) := by
  refine kept_fireWith _ _ _ _ _ _ fun l r => ?_
  split
  · exact kept_finish _ _ _ _
  · split
    · exact kept_finish _ _ _ _
    · exact h _ _

theorem kept_fireTrig (fm : Form) (f : Slot) (s : State) (body : Token → State) (h : ∀ l, Kept s (body l)) :
    Kept s (fireTrig fm f s body) := by
  refine kept_fireWith _ _ _ _ _ _ fun l r => ?_
  split
  · exact kept_finish _ _ _ _
  · exact h _

theorem kept_fireTrigR (fm : Form) (f : Slot) (s : State) (body : Token → W128 → State) (h : ∀ l r, Kept s (body l r)) :
    Kept s (fireTrigR fm f s body) := by
  refine kept_fireWith _ _ _ _ _ _ fun l r => ?_
  split
  · exact kept_finish _ _ _ _
  · split
    · exact kept_finish _ _ _ _
    · exact h _ _

theorem kept_fireDecision (fm : Form) (f : Slot) (kl : TokKind → Bool) (s : State) (body : Token → State)
    (h : ∀ l, Kept s (body l)) : Kept s (fireDecision fm f kl s body) := by
  refine kept_fireWith _ _ _ _ _ _ fun l r => ?_
  split
  · exact kept_finish _ _ _ _
  · exact h _

theorem kept_fireMemory (fm : Form) (f : Slot) (g : Bool) (s : State) (body : W128 → W128 → State) (h : ∀ l r, Kept s (body l r)) :
    Kept s (fireMemory fm f g s body) := by
  unfold fireMemory; split
  · exact Kept.refl s
  · exact kept_storeFault _ _ _ _
  · split
    · exact kept_storeFault _ _ _ _
    · split
      · exact kept_storeFault _ _ _ _
      · exact h _ _

theorem kept_withPlace (s : State) (f : Slot) (fm : Form) (g : Bool) (role : Role) (l : W128) (n : Nat)
    (body : State → Place → VA → State) (h : ∀ s pl va, Kept s (body s pl va)) : Kept s (s.withPlace f fm g role l n body) := by
  refine (kept_walked s s.cur.tile (s.pk.tileVi s.cur.tile) (s.address f g role l n).2.2).trans ?_
  unfold State.withPlace; dsimp only; split
  · exact kept_storeFault _ _ _ _
  · exact h _ _ _

theorem kept_withBlock (s : State) (f : Slot) (fm : Form) (role : Role) (fetch : Bool) (va : VA) (n : Nat)
    (body : State → State) (h : ∀ s, Kept s (body s)) : Kept s (s.withBlock f fm role fetch va n body) := by
  refine (kept_walked s s.cur.tile (s.pk.tileVi s.cur.tile) (s.blockCheck role fetch va n).2).trans ?_
  unfold State.withBlock; dsimp only; split
  · exact kept_finish _ _ _ _
  · exact h _

theorem kept_needS (s : State) (f : Slot) (fm : Form) (body : State) (h : Kept s body) : Kept s (s.needS f fm body) := by
  unfold State.needS; split
  · exact h
  · exact kept_finish _ _ _ _

theorem kept_inHandler (s : State) (f : Slot) (fm : Form) (body : State) (h : Kept s body) : Kept s (s.inHandler f fm body) := by
  refine kept_needS s f fm _ ?_
  split
  · exact kept_finish _ _ _ _
  · exact h

theorem kept_giveChecked (s : State) (f : Slot) (fm : Form) (ok : Bool) (c : EngineCmd) : Kept s (s.giveChecked f fm ok c) := by
  unfold State.giveChecked; split <;> exact kept_finish _ _ _ _

theorem tileKept_padPoisonWord (t : Tile) (w : Nat) : TileKept t (t.padPoisonWord w) := tileKept_of rfl rfl rfl rfl rfl

theorem packKept_settlePlace (m : Memory) (p : Pack) (t : TileId) (vi : Fin 64) (pl : Place) (n : Nat) :
    PackKept p (settlePlace m p t vi pl n).2 := by
  unfold settlePlace; split
  · next off isP =>
    generalize wordOffsets n = l
    induction l generalizing m p with
    | nil => exact PackKept.refl p
    | cons k l ih =>
      rw [List.foldl_cons]; dsimp only; split
      · exact ((packKept_modTile p t (tileKept_padPoisonWord _ _)).trans (packKept_softError _ _ _ _)).trans (ih _ _)
      · exact ih _ _
  · exact packKept_noteRead _ _ _ _
  · exact PackKept.refl p

theorem kept_settlePlace (s : State) (t : TileId) (vi : Fin 64) (pl : Place) (n : Nat) :
    Kept s (s.stored (settlePlace s.mem s.pk t vi pl n)) :=
  kept_stored s (settlePlace_cells _ _ _ _ _ _) (fun w => settlePlace_wf w _ _ _ _ _) (packKept_settlePlace _ _ _ _ _ _)

theorem packKept_learn (p : Pack) (a : Access) (v : View) : PackKept p (p.learn a v) := by
  unfold Pack.learn; split
  · exact PackKept.refl p
  · split
    · exact packKept_modTile _ _ (tileKept_of rfl rfl rfl rfl rfl)
    · split
      · exact packKept_modCtx _ _ _ fun _ => rfl
      · exact PackKept.refl p

theorem packKept_hear (p : Pack) (a : Access) (rs : List Release) : PackKept p (p.hear a rs) := by
  unfold Pack.hear; split
  · exact PackKept.refl p
  · exact packKept_learn _ _ _

theorem kept_whichState (s : State) (a : Access) (k : Nat) (b : Bool) : Kept s (s.whichState a k b).2 := by
  unfold State.whichState; split
  · exact Kept.refl s
  · exact kept_pk rfl (PackKept.refl _)

theorem kept_readPiece (s : State) (b : Access) : Kept s (s.readPiece b).2 := by
  refine (kept_settlePlace s b.tile (s.pk.tileVi b.tile) b.place 8).trans ?_
  refine (kept_whichState _ b 0 true).trans ?_
  exact kept_pk rfl (packKept_hear _ _ _)

theorem kept_withWords (s : State) (f : Slot) (fm : Form) (va : VA) (n : Nat) (body : List Byte → Bool → State)
    (h : ∀ bs b, Kept s (body bs b)) : Kept s (s.withWords f fm va n body) := by
  unfold State.withWords; dsimp only; split
  · exact h _ _
  · have hw := fun va n => kept_walked s s.cur.tile (s.pk.tileVi s.cur.tile) (checkG s.mem s.pk s.cur.tile s.level .load va n).2
    split
    · exact (hw _ _).trans (kept_finish _ _ _ _)
    · split
      · exact (hw _ _).trans (kept_finish _ _ _ _)
      · split
        · exact (hw _ _).trans (kept_putBack _)
        · exact (((hw _ _).trans (kept_readPiece _ _)).trans (kept_putBack _)).trans
            (kept_pk rfl (packKept_modTile _ _ (tileKept_modInst _ _ _ _)))

theorem kept_readBlockAt (s : State) (f : Slot) (fm : Form) (va : VA) (al n : Nat) (body : State → List Byte → Bool → State)
    (h : ∀ s bs b, Kept s (body s bs b)) : Kept s (s.readBlockAt f fm va al n body) := by
  have hw := kept_walked s s.cur.tile (s.pk.tileVi s.cur.tile) (checkG s.mem s.pk s.cur.tile s.level .load va al).2
  unfold State.readBlockAt; dsimp only; split
  · exact hw.trans (kept_finish _ _ _ _)
  · split
    · exact hw.trans (kept_finish _ _ _ _)
    · exact hw.trans (kept_withWords _ _ _ _ _ _ fun _ _ => h _ _ _)

theorem packKept_useWindows (p : Pack) (l : List DieId) (w : Nat) (g : DieId → Bool) (k : DieId → Nat → Nat) :
    PackKept p (l.foldl (fun p c => if g c then p.useWindow c w (k c) else p) p) :=
  packKept_foldl l _ (fun q c => by
    split
    · exact packKept_useWindow _ _ _ _
    · exact PackKept.refl q) p

theorem kept_launch (s : State) (f : Slot) (fm : Form) (desc : BitVec 1024) : Kept s (s.launch f fm desc) := by
  have fin : ∀ (s : State) p r, PackKept s.pk p → Kept s (State.finish { s with pk := p } f fm r) := fun s p r h =>
    Kept.trans (kept_pk (t := { s with pk := p }) rfl h) (kept_finish _ _ _ _)
  unfold State.launch; dsimp only
  split
  · exact kept_finish _ _ _ _
  · next r _ =>
    split
    · exact kept_finish _ _ _ _
    · next w _ =>
      refine (kept_walkedOn s s.cur.tile.die r.vi (checkAll s.mem s.pk s.cur.tile.die r.vi w.cls desc none).2).trans ?_
      generalize s.walkedOn s.cur.tile.die r.vi (checkAll s.mem s.pk s.cur.tile.die r.vi w.cls desc none).2 = s1
      split
      · exact kept_finish _ _ _ _
      · split
        · exact kept_finish _ _ _ _
        · split
          · exact kept_finish _ _ _ _
          · refine fin _ _ _ ?_
            split
            · exact (packKept_modDie _ _ rfl).trans (packKept_useWindows _ _ _ (fun c => bit (Desc.dies desc) c.val) _)
            · exact packKept_modDie _ _ rfl

theorem packKept_modBar (p : Pack) (t : TileId) (b : Fin 16) (f : BarCopy → BarCopy) : PackKept p (p.modBar t b f) := by
  unfold Pack.modBar; split
  · exact packKept_modTile p t (tileKept_of rfl rfl rfl rfl rfl)
  · split
    · exact packKept_dies rfl
    · exact packKept_modTile p t (tileKept_of rfl rfl rfl rfl rfl)

theorem packKept_enqueueSeq (p : Pack) (d : DieId) (b : Bool) (n : Nat) (m : MsgBody) (g : Floor) :
    PackKept p (p.enqueueSeq d b n m g) := by
  refine packKept_dies ?_
  unfold Pack.enqueueSeq Pack.enqueuePlain; split
  · dsimp only; split <;> rfl
  · rfl

theorem packKept_arriveAt (p : Pack) (t : TileId) (c : CtxId) (b : Fin 16) (n : Nat) (g : Floor) : PackKept p (p.arriveAt t c b n g) := by
  have h : PackKept p (p.recordArrival t c b) := packKept_modCtx _ _ _ fun _ => rfl
  unfold Pack.arriveAt; dsimp only
  generalize p.recordArrival t c b = q at h ⊢
  split
  · exact h.trans (packKept_modBar _ _ _ _)
  · exact h.trans (packKept_modBar _ _ _ _)
  · exact h.trans (packKept_enqueueSeq _ _ _ _ _ _)
  · exact h.trans (packKept_modBar _ _ _ _)

theorem kept_barSync (s : State) (f : Slot) (fm : Form) (l : Token) : Kept s (s.barSync f fm l) := by
  unfold State.barSync; dsimp only
  repeat' (first | exact Kept.refl s | exact kept_putBack s | exact kept_fireWait _ _ _ _ _ _ | split)
  · refine (kept_putBack s).trans (kept_pk rfl ?_)
    exact (packKept_modTile _ _ (tileKept_modInst _ _ _ _)).trans (packKept_note _ _)
  · refine (kept_putBack s).trans (kept_pk rfl ?_)
    exact packKept_arriveAt _ _ _ _ _ _

/-! ### Run-aware slots -/

theorem tileKept_emitRun (t : Tile) (c : Firing) (f : Slot) (n : Nat) (l : List (Token × BitVec 5)) :
    TileKept t (t.emitRun c f n l) := by
  induction l generalizing t n with
  | nil => exact TileKept.refl t
  | cons x l ih =>
    exact (((tileKept_send t _ _ _ _).trans (tileKept_send _ _ _ _ _)).trans (tileKept_addFlags _ _ _ _)).trans (ih _ _)

theorem tileKept_withLog (t : Tile) (st : List MatchEntry) (l : List RunState) : TileKept t { t with store := st, runLog := l } :=
  tileKept_of rfl rfl rfl rfl rfl

theorem tileKept_takeFlags (t : Tile) (c : Firing) (l : List (OpSide × Nat)) (n : Nat) : TileKept t (t.takeFlags c l n) :=
  tileKept_of rfl rfl rfl rfl rfl

theorem tileKept_setRun (t : Tile) (r : RunState) : TileKept t (t.setRun r) := tileKept_of rfl rfl rfl rfl rfl

theorem tileKept_reachSink (t : Tile) (c : CtxId) (img : VA) (k n : Nat) (e : Bool) : TileKept t (t.reachSink c img k n e) := by
  unfold Tile.reachSink; split
  · exact TileKept.refl _
  · split
    · exact tileKept_of rfl rfl rfl rfl rfl
    · exact TileKept.refl _

theorem tileKept_sinkRun (t : Tile) (fm : Form) (c : Firing) (f : Slot) (x : RunStep) : TileKept t (t.sinkRun fm c f x) := by
  unfold Tile.sinkRun; dsimp only
  repeat' split
  all_goals first | exact TileKept.refl _ | exact tileKept_reachSink ..

theorem kept_applyRun (s : State) (fm : Form) (f : Slot) (op : RunState → Firing → RunStep) : Kept s (s.applyRun fm f op) := by
  refine kept_modTile s _ ?_
  refine TileKept.trans ?_ (tileKept_sinkRun _ _ _ _ _)
  unfold Tile.applyRun; dsimp only
  generalize s.pk.tile s.cur.tile = t
  exact (tileKept_withLog _ _ _).trans ((tileKept_takeFlags _ _ _ _).trans ((tileKept_emitRun _ _ _ _ _).trans (tileKept_setRun _ _)))

end Sys2Proof.Machine
end

