-- ==== Sys2Proof/Laws/Lanes.lean ====
section
/-! SUPPORT. Lanes and integers: a word's lanes are what it was made from, and wrapping an integer is the remainder
by a power of two. -/

namespace Sys2Proof.Machine

/-! ### Lanes -/

theorem packLanes_lt (w : Nat) (vs : List Nat) : packLanes w vs < 2 ^ (w * vs.length) := by
  induction vs with
  | nil => simp [packLanes]
  | cons v vs ih =>
    simp only [packLanes, List.length_cons, Nat.mul_add, Nat.mul_one]
    have h1 : v % 2 ^ w < 2 ^ w := Nat.mod_lt _ (Nat.two_pow_pos w)
    rw [Nat.pow_add, Nat.mul_comm (2 ^ (w * vs.length))]
    calc v % 2 ^ w + 2 ^ w * packLanes w vs < 2 ^ w + 2 ^ w * packLanes w vs := by omega
      _ = 2 ^ w * (packLanes w vs + 1) := by rw [Nat.mul_add, Nat.mul_one, Nat.add_comm]
      _ ≤ 2 ^ w * 2 ^ (w * vs.length) := Nat.mul_le_mul_left _ ih

theorem packLanes_lane (w : Nat) (vs : List Nat) (k : Nat) :
    packLanes w vs / 2 ^ (w * k) % 2 ^ w = vs.getD k 0 % 2 ^ w := by
  induction vs generalizing k with
  | nil => simp [packLanes]
  | cons v vs ih =>
    have hp : 0 < 2 ^ w := Nat.two_pow_pos w
    cases k with
    | zero => simp [packLanes]
    | succ k =>
      rw [Nat.mul_succ, Nat.add_comm, Nat.pow_add, ← Nat.div_div_eq_div_mul, packLanes,
        Nat.add_mul_div_left _ _ hp, Nat.div_eq_of_lt (Nat.mod_lt _ hp), Nat.zero_add, ih]
      simp

theorem lanes_fill (t : Ty) : t.laneWidth * t.lanesOf = 128 := by cases t <;> rfl

theorem valueWidth_le (t : Ty) : t.valueWidth ≤ t.laneWidth := by cases t <;> decide

theorem valueWidth_pos (t : Ty) : 0 < t.valueWidth := by cases t <;> decide

@[simp] theorem lanesOf_length (t : Ty) (x : W128) : (lanesOf t x).length = t.lanesOf := by simp [lanesOf]

theorem lanesOf_lt (t : Ty) (x : W128) : ∀ v ∈ lanesOf t x, v < 2 ^ t.valueWidth := by
  intro v hv
  simp only [lanesOf, List.mem_map] at hv
  obtain ⟨k, -, rfl⟩ := hv
  exact Nat.mod_lt _ (Nat.two_pow_pos _)

/-- Lane k of a word packed from lanes of the same width. -/
theorem laneNat_ofLanes (w : Nat) (vs : List Nat) (h : w * vs.length ≤ 128) (k : Nat) :
    laneNat w (ofLanes w vs) k = vs.getD k 0 % 2 ^ w := by
  have hlt : packLanes w vs < 2 ^ 128 :=
    Nat.lt_of_lt_of_le (packLanes_lt w vs) (Nat.pow_le_pow_right (by decide) h)
  rw [laneNat, ofLanes, BitVec.toNat_ofNat, Nat.mod_eq_of_lt hlt, packLanes_lane]

theorem lanesOf_wordOf (t : Ty) (vs : List Nat) (h : vs.length = t.lanesOf) :
    lanesOf t (wordOf t vs) = vs.map (· % 2 ^ t.valueWidth) := by
  apply List.ext_getElem
  · simp [h]
  · intro k h1 h2
    have hk : k < vs.length := by simpa using h2
    simp only [lanesOf, wordOf, List.getElem_map, List.getElem_range]
    rw [laneNat_ofLanes t.laneWidth _ (by simp [h, lanes_fill])]
    have hd : 2 ^ t.valueWidth ∣ 2 ^ t.laneWidth := Nat.pow_dvd_pow 2 (valueWidth_le t)
    rw [Nat.mod_mod_of_dvd _ hd]
    simp [List.getD, hk]

/-- A word made lane by lane depends on the lanes' low bits alone. -/
theorem wordOf_congr (t : Ty) {us vs : List Nat}
    (h : us.map (· % 2 ^ t.valueWidth) = vs.map (· % 2 ^ t.valueWidth)) : wordOf t us = wordOf t vs := by
  simp [wordOf, h]

/-- Two lane operations that agree on lanes make the same word. -/
theorem zipLanes_congr (t : Ty) {f g : Nat → Nat → Nat} (a b : W128)
    (h : ∀ x y, x < 2 ^ t.valueWidth → y < 2 ^ t.valueWidth → f x y % 2 ^ t.valueWidth = g x y % 2 ^ t.valueWidth) :
    zipLanes t f a b = zipLanes t g a b := by
  apply wordOf_congr
  rw [List.map_zipWith, List.map_zipWith]
  have ha := lanesOf_lt t a
  have hb := lanesOf_lt t b
  revert ha hb
  generalize lanesOf t a = la
  generalize lanesOf t b = lb
  induction la generalizing lb with
  | nil => simp
  | cons x la ih =>
    intro ha hb
    cases lb with
    | nil => simp
    | cons y lb =>
      simp only [List.zipWith_cons_cons]
      rw [h x y (ha x (by simp)) (hb y (by simp)), ih lb (fun v hv => ha v (by simp [hv])) (fun v hv => hb v (by simp [hv]))]

/-! ### Integers -/

theorem lowBits_lt (w : Nat) (x : Int) : lowBits w x < 2 ^ w := by
  have h : (0 : Int) < ((2 ^ w : Nat) : Int) := by exact_mod_cast Nat.two_pow_pos w
  have h1 := Int.emod_lt_of_pos x h
  have h2 := Int.emod_nonneg x (Int.ne_of_gt h)
  unfold lowBits; omega

theorem lowBits_cast (w : Nat) (x : Int) : ((lowBits w x : Nat) : Int) = x % ((2 ^ w : Nat) : Int) := by
  have h : (0 : Int) < ((2 ^ w : Nat) : Int) := by exact_mod_cast Nat.two_pow_pos w
  exact Int.toNat_of_nonneg (Int.emod_nonneg x (Int.ne_of_gt h))

theorem lowBits_congr (w : Nat) {x y : Int} (h : x % ((2 ^ w : Nat) : Int) = y % ((2 ^ w : Nat) : Int)) :
    lowBits w x = lowBits w y := by simp only [lowBits, h]

theorem lowBits_nat (w n : Nat) : lowBits w (n : Int) = n % 2 ^ w := by
  apply Int.ofNat.inj
  simpa using lowBits_cast w n

theorem signedOf_emod (w v : Nat) : signedOf w v % ((2 ^ w : Nat) : Int) = (v : Int) % ((2 ^ w : Nat) : Int) := by
  unfold signedOf
  simp only
  split
  · simp
  · rw [Int.sub_emod_right]; simp

theorem Ty.int_emod (t : Ty) (v : Nat) :
    t.int v % ((2 ^ t.valueWidth : Nat) : Int) = (v : Int) % ((2 ^ t.valueWidth : Nat) : Int) := by
  unfold Ty.int
  split
  · exact signedOf_emod _ _
  · simp

theorem Ty.wrap_lt (t : Ty) (x : Int) : t.wrap x < 2 ^ t.valueWidth := lowBits_lt _ _

theorem Ty.wrap_int (t : Ty) (v : Nat) (h : v < 2 ^ t.valueWidth) : t.wrap (t.int v) = v := by
  rw [Ty.wrap, lowBits_congr _ (Ty.int_emod t v), lowBits_nat, Nat.mod_eq_of_lt h]

theorem Ty.wrap_add (t : Ty) (a b : Nat) : t.wrap (t.int a + t.int b) = (a + b) % 2 ^ t.valueWidth := by
  rw [Ty.wrap, lowBits_congr (y := ((a + b : Nat) : Int)), lowBits_nat]
  rw [Int.add_emod, Ty.int_emod, Ty.int_emod, ← Int.add_emod]; simp

theorem Ty.wrap_mul (t : Ty) (a b : Nat) : t.wrap (t.int a * t.int b) = (a * b) % 2 ^ t.valueWidth := by
  rw [Ty.wrap, lowBits_congr (y := ((a * b : Nat) : Int)), lowBits_nat]
  rw [Int.mul_emod, Ty.int_emod, Ty.int_emod, ← Int.mul_emod]; simp

theorem Ty.wrap_sub (t : Ty) (a b : Nat) (h : b < 2 ^ t.valueWidth) :
    t.wrap (t.int a - t.int b) = (a + (2 ^ t.valueWidth - b)) % 2 ^ t.valueWidth := by
  rw [Ty.wrap, lowBits_congr (y := ((a + (2 ^ t.valueWidth - b) : Nat) : Int)), lowBits_nat]
  rw [Int.sub_emod, Ty.int_emod, Ty.int_emod, ← Int.sub_emod]
  rw [Int.natCast_add, Int.natCast_sub (Nat.le_of_lt h),
    show (a : Int) + (((2 ^ t.valueWidth : Nat) : Int) - b) = ((a : Int) - b) + ((2 ^ t.valueWidth : Nat) : Int) by omega,
    Int.add_emod_right]

theorem Ty.wrap_neg (t : Ty) (a : Nat) (h : a < 2 ^ t.valueWidth) :
    t.wrap (-t.int a) = (2 ^ t.valueWidth - a) % 2 ^ t.valueWidth := by
  have h0 : t.int 0 = 0 := by
    unfold Ty.int signedOf; simp
  have := Ty.wrap_sub t 0 a h
  rw [h0, Int.zero_sub, Nat.zero_add] at this
  exact this

end Sys2Proof.Machine
end

