-- ==== Sys2Proof/Laws/Operands.lean ====
section
/-! SUPPORT. What the shared operations of a firing do when its operands stand (`Given`): one lemma per operation. -/

namespace Sys2Proof.Machine

/-- A kind that an operand may have to reach an instruction's own effect (R41, R42). -/
abbrev Plain (k : TokKind → Bool) : Prop := k .null = false ∧ k .eor = false

theorem plain_data : Plain kData := by decide
theorem plain_pred : Plain kPred := by decide
theorem plain_trig : Plain kTrig := by decide
theorem plain_digit : Plain kDigit := by decide

theorem kind_ne_null {k : TokKind → Bool} (h : Plain k) {t : Token} (ht : k t.kind = true) : t.kind ≠ .null := by
  intro e; rw [e, h.1] at ht; exact absurd ht (by decide)

theorem kind_ne_eor {k : TokKind → Bool} (h : Plain k) {t : Token} (ht : k t.kind = true) : t.kind ≠ .eor := by
  intro e; rw [e, h.2] at ht; exact absurd ht (by decide)

@[simp] theorem predTok_kind (b p : Bool) : (predTok b p).kind = .pred := rfl
@[simp] theorem predTok_poison (b p : Bool) : (predTok b p).poison = p := rfl
@[simp] theorem dataTok_kind (v : W128) (p : Bool) : (dataTok v p).kind = .data := rfl
@[simp] theorem dataTok_poison (v : W128) (p : Bool) : (dataTok v p).poison = p := rfl
@[simp] theorem dataTok_val (v : W128) (p : Bool) : (dataTok v p).val = v := rfl

theorem predTok_bit (b p : Bool) : bit (predTok b p).val 0 = b := by cases b <;> simp [predTok, bit]

/-- The token in an operand place, and what the firing consumed there. -/
theorem opL_of_token {fm : Form} {f : Slot} {c : Firing} {l : Token} (hw : wantsL fm f = true) (h : c.l = some l) :
    opL fm f c = l := by
  simp only [wantsL, Bool.and_eq_true, bne_iff_ne, ne_eq] at hw
  simp [opL, hw.2, h]

theorem opR_of_token {fm : Form} {f : Slot} {c : Firing} {r : Token} (hw : wantsR fm f = true) (h : c.r = some r) :
    opR fm f c = r := by
  simp only [wantsR, Bool.and_eq_true, bne_iff_ne, ne_eq] at hw
  simp [opR, hw.1, hw.2, h]

/-- With operands that stand, of kinds the instruction accepts, the common rules let it act on them. -/
theorem preFire_given {i : Instr} {s : State} {l r : Token} (g : Given i s l r) {kl kr : TokKind → Bool}
    (pl : Plain kl) (pr : Plain kr)
    (hl : wantsL (formOf i) (slotOf i) = true → kl l.kind = true)
    (hr : wantsR (formOf i) (slotOf i) = true → kr r.kind = true) :
    preFire (formOf i) (slotOf i) kl kr s.cur = .go l r := by
  obtain ⟨gl, gr, gp⟩ := g
  generalize hfm : formOf i = fm at *
  generalize hf : slotOf i = f at *
  have el : opL fm f s.cur = l := by
    by_cases hw : wantsL fm f = true
    · rw [if_pos hw] at gl; exact opL_of_token hw gl
    · rw [if_neg hw] at gl; exact gl
  have er : opR fm f s.cur = r := by
    by_cases hw : wantsR fm f = true
    · rw [if_pos hw] at gr; exact opR_of_token hw gr
    · rw [if_neg hw] at gr; exact gr
  have hp : predPasses f s.cur = true := by
    unfold predPasses
    cases hm : f.pmode with
    | none => rfl
    | _ =>
      have := gp (by simp [wantsP, hm])
      simp [this, hm, Token.isNull, predTok_bit]
  have all : ∀ t ∈ consumed fm f s.cur, t.kind ≠ .null ∧ t.kind ≠ .eor := by
    intro t ht
    simp only [consumed, List.mem_append] at ht
    rcases ht with (ht | ht) | ht
    · by_cases hw : wantsL fm f = true
      · rw [if_pos hw] at gl
        simp [hw, gl] at ht
        subst ht
        exact ⟨kind_ne_null pl (hl hw), kind_ne_eor pl (hl hw)⟩
      · simp [hw] at ht
    · by_cases hw : wantsR fm f = true
      · rw [if_pos hw] at gr
        simp [hw, gr] at ht
        subst ht
        exact ⟨kind_ne_null pr (hr hw), kind_ne_eor pr (hr hw)⟩
      · simp [hw] at ht
    · by_cases hw : wantsP f = true
      · simp [hw, gp hw] at ht
        subst ht
        simp
      · simp [hw] at ht
  have hfault : (consumed fm f s.cur).find? (·.isFault) = none := by
    rw [List.find?_eq_none]
    intro t ht
    simp [Token.isFault, (all t ht).1]
  have heor : eorRule s.cur.work.stream s.cur.elem (consumed fm f s.cur) = none := by
    have : (consumed fm f s.cur).any (·.isEor) = false := by
      rw [List.any_eq_false]
      intro t ht
      simp [Token.isEor, (all t ht).2]
    simp [eorRule, this]
  have hnl : (wantsL fm f && l.isNull) = false := by
    by_cases hw : wantsL fm f = true
    · simp [Token.isNull, kind_ne_null pl (hl hw)]
    · simp [hw]
  have hnr : (wantsR fm f && r.isNull) = false := by
    by_cases hw : wantsR fm f = true
    · simp [Token.isNull, kind_ne_null pr (hr hw)]
    · simp [hw]
  have hkl : (wantsL fm f && !kl l.kind) = false := by
    by_cases hw : wantsL fm f = true
    · simp [hl hw]
    · simp [hw]
  have hkr : (wantsR fm f && !kr r.kind) = false := by
    by_cases hw : wantsR fm f = true
    · simp [hr hw]
    · simp [hw]
  have hkp : (wantsP f && (s.cur.p.map fun p => p.kind != .pred).getD false) = false := by
    by_cases hw : wantsP f = true
    · simp [gp hw]
    · simp [hw]
  have hpp : (wantsP f && (s.cur.p.map (·.poison)).getD false) = false := by
    by_cases hw : wantsP f = true
    · simp [gp hw]
    · simp [hw]
  simp [preFire, hp, hfault, el, er, hnl, hnr, heor, hkl, hkr, hkp, hpp]

section
variable {i : Instr} {s : State} {l r : Token} {kl kr : TokKind → Bool}

theorem fireWith_given (g : Given i s l r) (pl : Plain kl) (pr : Plain kr)
    (hl : wantsL (formOf i) (slotOf i) = true → kl l.kind = true)
    (hr : wantsR (formOf i) (slotOf i) = true → kr r.kind = true) (body : Token → Token → State) :
    fireWith (formOf i) (slotOf i) kl kr s body = body l r := by
  simp [fireWith, preFire_given g pl pr hl hr]

theorem fireResult_given (g : Given i s l r) (pl : Plain kl) (pr : Plain kr)
    (hl : wantsL (formOf i) (slotOf i) = true → kl l.kind = true)
    (hr : wantsR (formOf i) (slotOf i) = true → kr r.kind = true) (body : Token → Token → Result) :
    fireResult (formOf i) (slotOf i) kl kr s body = s.answer i (body l r) :=
  fireWith_given g pl pr hl hr _

theorem calcWord_given (g : Given i s l r) (hl : l.kind = .data) (hr : r.kind = .data)
    (op : W128 → W128 → W128 × BitVec 5) :
    calcWord (formOf i) (slotOf i) s op = s.gives i (op l.val r.val).1 (l.poison || r.poison) (op l.val r.val).2 :=
  fireResult_given g plain_data plain_data (fun _ => by simp [kData, hl]) (fun _ => by simp [kData, hr]) _

theorem calcLanes_given (g : Given i s l r) (hl : l.kind = .data) (hr : r.kind = .data) (op : Nat → Nat → Nat) :
    calcLanes (formOf i) (slotOf i) s op = s.gives i (zipLanes (slotOf i).ty op l.val r.val) (l.poison || r.poison) :=
  calcWord_given g hl hr _

theorem calcFlags_given (g : Given i s l r) (hl : l.kind = .data) (hr : r.kind = .data)
    (op : Nat → Nat → Nat × BitVec 5) :
    calcFlags (formOf i) (slotOf i) s op =
      s.gives i (zipLanes (slotOf i).ty (fun a b => (op a b).1) l.val r.val) (l.poison || r.poison)
        ((List.zipWith op (lanesOf (slotOf i).ty l.val) (lanesOf (slotOf i).ty r.val)).foldl (fun a v => a ||| v.2) 0) := by
  rw [calcFlags, calcWord_given g hl hr]
  simp [zipLanes, List.map_zipWith]

theorem firePlain_given (g : Given i s l r) (pl : Plain kl)
    (hl : wantsL (formOf i) (slotOf i) = true → kl l.kind = true)
    (hr : wantsR (formOf i) (slotOf i) = true → r.kind = .data) (cl : l.poison = false) (cr : r.poison = false)
    (sl sr : Byte) (body : W128 → W128 → State) :
    firePlain (formOf i) (slotOf i) kl sl sr s body = body l.val r.val := by
  rw [firePlain, fireWith_given g pl plain_data hl (fun h => by simp [kData, hr h])]
  simp [cl, cr]

/-- An operand that no token brings is clean data. -/
theorem given_r_clean (g : Given i s l r) (h : wantsR (formOf i) (slotOf i) = false) : r.kind = .data ∧ r.poison = false := by
  have e := g.2.1
  rw [if_neg (by simp [h])] at e
  rw [← e]; unfold opR
  split
  · exact ⟨rfl, rfl⟩
  · next h1 =>
    have : (formOf i).needsR = false := by
      simp only [wantsR, Bool.and_eq_false_iff, bne_eq_false_iff_eq] at h
      rcases h with h | h
      · exact h
      · exact absurd (by simp [h]) h1
    simp [this]

theorem wantsR_of_needs (h : (formOf i).needsR = false) : wantsR (formOf i) (slotOf i) = false := by simp [wantsR, h]

theorem fireTrig_given (g : Given i s l r) (h : l.kind = .data ∨ l.kind = .pred) (cl : l.poison = false)
    (hn : (formOf i).needsR = false) (body : Token → State) : fireTrig (formOf i) (slotOf i) s body = body l := by
  rw [fireTrig, fireWith_given g plain_trig plain_data (fun _ => by rcases h with h | h <;> simp [kTrig, h])
    (fun e => absurd (wantsR_of_needs hn) (by simp [e]))]
  simp [cl]

theorem fireTrigR_given (g : Given i s l r) (h : l.kind = .data ∨ l.kind = .pred) (cl : l.poison = false)
    (hr : r.kind = .data) (cr : r.poison = false) (body : Token → W128 → State) :
    fireTrigR (formOf i) (slotOf i) s body = body l r.val := by
  rw [fireTrigR, fireWith_given g plain_trig plain_data (fun _ => by rcases h with h | h <;> simp [kTrig, h])
    (fun _ => by simp [kData, hr])]
  simp [cl, cr]

theorem fireTrigDesc_given (g : Given i s l r) (h : l.kind = .data ∨ l.kind = .pred) (cl : l.poison = false)
    (hr : r.kind = .data) (cr : r.poison = false) (body : W32 → State) :
    fireTrigDesc (formOf i) (slotOf i) s body = body (r.val.extractLsb' 0 32) := fireTrigR_given g h cl hr cr _

theorem firePlain_data (g : Given i s l r) (hl : l.kind = .data) (cl : l.poison = false) (hr : r.kind = .data)
    (cr : r.poison = false) (sl sr : Byte) (body : W128 → W128 → State) :
    firePlain (formOf i) (slotOf i) kData sl sr s body = body l.val r.val :=
  firePlain_given g plain_data (fun _ => by simp [kData, hl]) (fun _ => hr) cl cr _ _ _

theorem firePlain_left (g : Given i s l r) (hl : l.kind = .data) (cl : l.poison = false) (hn : (formOf i).needsR = false)
    (sl sr : Byte) (body : W128 → W128 → State) : firePlain (formOf i) (slotOf i) kData sl sr s body = body l.val r.val :=
  have h := given_r_clean g (wantsR_of_needs hn)
  firePlain_data g hl cl h.1 h.2 _ _ _

theorem fireDesc_given (g : Given i s l r) (hl : l.kind = .data) (cl : l.poison = false) (hn : (formOf i).needsR = false)
    (body : W128 → State) : fireDesc (formOf i) (slotOf i) s body = body l.val := firePlain_left g hl cl hn _ _ _

theorem fireBlock_given (g : Given i s l r) (hl : l.kind = .data) (cl : l.poison = false) (hn : (formOf i).needsR = false)
    (fetch : Bool) (body : VA → State → State) : fireBlock (formOf i) (slotOf i) fetch s body =
      s.withBlock (slotOf i) (formOf i) .load fetch (l.val.extractLsb' 0 80) 64 (body (l.val.extractLsb' 0 80)) :=
  firePlain_left g hl cl hn _ _ _

theorem fireDecision_given {kl : TokKind → Bool} (g : Given i s l r) (pl : Plain kl) (h : kl l.kind = true)
    (hn : (formOf i).needsR = false) (body : Token → State) : fireDecision (formOf i) (slotOf i) kl s body =
      if l.poison then s.faults i Cause.poison 4 else body l :=
  fireWith_given g pl plain_data (fun _ => h) (fun e => absurd (wantsR_of_needs hn) (by simp [e])) _

theorem fireMemory_given (g : Given i s l r) (hl : l.kind = .data) (cl : l.poison = false) (hr : r.kind = .data)
    (cr : r.poison = false) (b : Bool) (body : W128 → W128 → State) : fireMemory (formOf i) (slotOf i) b s body = body l.val r.val := by
  unfold fireMemory
  rw [preFire_given g plain_data plain_data (fun _ => by simp [kData, hl]) (fun _ => by simp [kData, hr])]
  simp [cl, cr]

theorem fireMemory_left (g : Given i s l r) (hl : l.kind = .data) (cl : l.poison = false) (hn : (formOf i).needsR = false)
    (b : Bool) (body : W128 → W128 → State) : fireMemory (formOf i) (slotOf i) b s body = body l.val r.val :=
  have h := given_r_clean g (wantsR_of_needs hn)
  fireMemory_given g hl cl h.1 h.2 _ _

end

/-! ### Checks that pass -/

theorem State.withPlace_ok {s : State} {f : Slot} {fm : Form} {g : Bool} {role : Role} {l : W128} {n : Nat} {pl : Place}
    {va : VA} {k : WalkNote} (h : s.address f g role l n = (.ok pl, va, k)) (body : State → Place → VA → State) :
    s.withPlace f fm g role l n body = body (s.walked s.cur.tile (s.pk.tileVi s.cur.tile) k) pl va := by
  simp only [State.withPlace, h]

theorem State.withBlock_ok {s : State} {f : Slot} {fm : Form} {role : Role} {fetch : Bool} {va : VA} {n : Nat} {k : WalkNote}
    (h : s.blockCheck role fetch va n = (none, k)) (body : State → State) :
    s.withBlock f fm role fetch va n body = body (s.walked s.cur.tile (s.pk.tileVi s.cur.tile) k) := by
  simp only [State.withBlock, h]

end Sys2Proof.Machine
end

