-- ==== Sys2Proof/Laws/PerInstr.lean ====
section
/-! SUPPORT. Per instruction: the opcode of a well-formed slot instruction names that instruction and no other (R106). -/

set_option maxRecDepth 4000

namespace Sys2Proof.Laws.Opcode

/-- The opcode group of R106 that holds an instruction gives it back from its slot, where the slot is well formed: the
forms that share an opcode are told apart by their mode. -/
def Statement (i : Instr) : Prop := i.wf = true → ∀ f, i.slot = some f → instrOf i.opcode f = some i

/-- The mode of a well-formed slot is one that its instruction accepts. -/
theorem modeOk_of_wf {i : Instr} {fm : Form} {f : Slot} (h : (i.slotError == none) = true) (hf : i.form = some fm)
    (hs : i.slot = some f) : fm.modeOk f.mode f.ty = true := by
  have e := eq_of_beq h
  simp only [Instr.slotError, hf, hs, Form.check] at e
  cases hc : fm.modeOk f.mode f.ty with
  | true => rfl
  | false => simp [Form.check5, hc] at e

theorem nop (f : Slot) : Statement (.nop f) := by
  rintro - g ⟨⟩
  rfl

theorem iadd (f : Slot) : Statement (.iadd f) := by
  rintro - g ⟨⟩
  rfl

theorem isub (f : Slot) : Statement (.isub f) := by
  rintro - g ⟨⟩
  rfl

theorem imul (f : Slot) : Statement (.imul f) := by
  rintro - g ⟨⟩
  rfl

theorem imulh (f : Slot) : Statement (.imulh f) := by
  rintro - g ⟨⟩
  rfl

theorem imad (f : Slot) : Statement (.imad f) := by
  rintro - g ⟨⟩
  rfl

theorem idiv (f : Slot) : Statement (.idiv f) := by
  rintro - g ⟨⟩
  rfl

theorem irem (f : Slot) : Statement (.irem f) := by
  rintro - g ⟨⟩
  rfl

theorem ineg (f : Slot) : Statement (.ineg f) := by
  rintro - g ⟨⟩
  rfl

theorem iabs (f : Slot) : Statement (.iabs f) := by
  rintro - g ⟨⟩
  rfl

theorem imin (f : Slot) : Statement (.imin f) := by
  rintro - g ⟨⟩
  rfl

theorem imax (f : Slot) : Statement (.imax f) := by
  rintro - g ⟨⟩
  rfl

theorem bitAnd (f : Slot) : Statement (.bitAnd f) := by
  rintro - g ⟨⟩
  rfl

theorem bitOr (f : Slot) : Statement (.bitOr f) := by
  rintro - g ⟨⟩
  rfl

theorem bitXor (f : Slot) : Statement (.bitXor f) := by
  rintro - g ⟨⟩
  rfl

theorem bitAndn (f : Slot) : Statement (.bitAndn f) := by
  rintro - g ⟨⟩
  rfl

theorem bitNot (f : Slot) : Statement (.bitNot f) := by
  rintro - g ⟨⟩
  rfl

theorem shl (f : Slot) : Statement (.shl f) := by
  rintro - g ⟨⟩
  rfl

theorem shr (f : Slot) : Statement (.shr f) := by
  rintro - g ⟨⟩
  rfl

theorem sar (f : Slot) : Statement (.sar f) := by
  rintro - g ⟨⟩
  rfl

theorem rol (f : Slot) : Statement (.rol f) := by
  rintro - g ⟨⟩
  rfl

theorem clz (f : Slot) : Statement (.clz f) := by
  rintro - g ⟨⟩
  rfl

theorem ctz (f : Slot) : Statement (.ctz f) := by
  rintro - g ⟨⟩
  rfl

theorem popc (f : Slot) : Statement (.popc f) := by
  rintro - g ⟨⟩
  rfl

theorem bfx (f : Slot) : Statement (.bfx f) := by
  rintro - g ⟨⟩
  rfl

theorem bfi (f : Slot) : Statement (.bfi f) := by
  rintro - g ⟨⟩
  rfl

theorem sext (f : Slot) : Statement (.sext f) := by
  rintro - g ⟨⟩
  rfl

theorem zext (f : Slot) : Statement (.zext f) := by
  rintro - g ⟨⟩
  rfl

theorem movi (f : Slot) : Statement (.movi f) := by
  rintro - g ⟨⟩
  rfl

theorem movhi (f : Slot) : Statement (.movhi f) := by
  rintro - g ⟨⟩
  rfl

theorem lea (f : Slot) : Statement (.lea f) := by
  rintro - g ⟨⟩
  rfl

theorem mov (f : Slot) : Statement (.mov f) := by
  rintro - g ⟨⟩
  rfl

theorem nul (f : Slot) : Statement (.nul f) := by
  rintro - g ⟨⟩
  rfl

theorem lane (f : Slot) : Statement (.lane f) := by
  rintro - g ⟨⟩
  rfl

theorem ins (f : Slot) : Statement (.ins f) := by
  rintro - g ⟨⟩
  rfl

theorem splat (f : Slot) : Statement (.splat f) := by
  rintro - g ⟨⟩
  rfl

theorem shuf (f : Slot) : Statement (.shuf f) := by
  rintro - g ⟨⟩
  rfl

theorem pack (f : Slot) : Statement (.pack f) := by
  rintro - g ⟨⟩
  rfl

theorem unpk (f : Slot) : Statement (.unpk f) := by
  rintro - g ⟨⟩
  rfl

theorem redl (f : Slot) : Statement (.redl f) := by
  rintro - g ⟨⟩
  rfl

theorem perm (f : Slot) : Statement (.perm f) := by
  rintro - g ⟨⟩
  rfl

theorem fadd (f : Slot) : Statement (.fadd f) := by
  rintro - g ⟨⟩
  rfl

theorem fsub (f : Slot) : Statement (.fsub f) := by
  rintro - g ⟨⟩
  rfl

theorem fmul (f : Slot) : Statement (.fmul f) := by
  rintro - g ⟨⟩
  rfl

theorem fma (f : Slot) : Statement (.fma f) := by
  rintro - g ⟨⟩
  rfl

theorem fnma (f : Slot) : Statement (.fnma f) := by
  rintro - g ⟨⟩
  rfl

theorem fdiv (f : Slot) : Statement (.fdiv f) := by
  rintro - g ⟨⟩
  rfl

theorem fsqrt (f : Slot) : Statement (.fsqrt f) := by
  rintro - g ⟨⟩
  rfl

theorem frcp (f : Slot) : Statement (.frcp f) := by
  rintro - g ⟨⟩
  rfl

theorem frsq (f : Slot) : Statement (.frsq f) := by
  rintro - g ⟨⟩
  rfl

theorem fexp2 (f : Slot) : Statement (.fexp2 f) := by
  rintro - g ⟨⟩
  rfl

theorem flog2 (f : Slot) : Statement (.flog2 f) := by
  rintro - g ⟨⟩
  rfl

theorem fmin (f : Slot) : Statement (.fmin f) := by
  rintro - g ⟨⟩
  rfl

theorem fmax (f : Slot) : Statement (.fmax f) := by
  rintro - g ⟨⟩
  rfl

theorem fabs (f : Slot) : Statement (.fabs f) := by
  rintro - g ⟨⟩
  rfl

theorem fneg (f : Slot) : Statement (.fneg f) := by
  rintro - g ⟨⟩
  rfl

theorem frnd (f : Slot) : Statement (.frnd f) := by
  rintro - g ⟨⟩
  rfl

theorem fscale (f : Slot) : Statement (.fscale f) := by
  rintro - g ⟨⟩
  rfl

theorem fclass (f : Slot) : Statement (.fclass f) := by
  rintro - g ⟨⟩
  rfl

theorem fdot4 (f : Slot) : Statement (.fdot4 f) := by
  rintro - g ⟨⟩
  rfl

theorem freds (f : Slot) : Statement (.freds f) := by
  rintro - g ⟨⟩
  rfl

theorem cvt (f : Slot) : Statement (.cvt f) := by
  rintro - g ⟨⟩
  rfl

theorem qblk (f : Slot) : Statement (.qblk f) := by
  rintro - g ⟨⟩
  rfl

theorem dqblk (f : Slot) : Statement (.dqblk f) := by
  rintro - g ⟨⟩
  rfl

theorem mxpk (f : Slot) : Statement (.mxpk f) := by
  rintro - g ⟨⟩
  rfl

theorem mxunpk (f : Slot) : Statement (.mxunpk f) := by
  rintro - g ⟨⟩
  rfl

theorem hstep (f : Slot) : Statement (.hstep f) := by
  rintro - g ⟨⟩
  rfl

theorem icmp (f : Slot) : Statement (.icmp f) := by
  rintro - g ⟨⟩
  rfl

theorem fcmp (f : Slot) : Statement (.fcmp f) := by
  rintro - g ⟨⟩
  rfl

theorem sel (f : Slot) : Statement (.sel f) := by
  rintro - g ⟨⟩
  rfl

theorem pand (f : Slot) : Statement (.pand f) := by
  rintro - g ⟨⟩
  rfl

theorem por (f : Slot) : Statement (.por f) := by
  rintro - g ⟨⟩
  rfl

theorem pnot (f : Slot) : Statement (.pnot f) := by
  rintro - g ⟨⟩
  rfl

theorem testp (f : Slot) : Statement (.testp f) := by
  rintro - g ⟨⟩
  rfl

theorem ld (f : Slot) : Statement (.ld f) := by
  rintro - g ⟨⟩
  rfl

theorem st (f : Slot) : Statement (.st f) := by
  rintro - g ⟨⟩
  rfl

theorem lda (f : Slot) : Statement (.lda f) := by
  rintro - g ⟨⟩
  rfl

theorem stl (f : Slot) : Statement (.stl f) := by
  rintro - g ⟨⟩
  rfl

theorem empty (f : Slot) : Statement (.empty f) := by
  rintro - g ⟨⟩
  rfl

theorem pref (f : Slot) : Statement (.pref f) := by
  rintro - g ⟨⟩
  rfl

theorem accrd (f : Slot) : Statement (.accrd f) := by
  rintro - g ⟨⟩
  rfl

theorem accwr (f : Slot) : Statement (.accwr f) := by
  rintro - g ⟨⟩
  rfl

theorem fence (f : Slot) : Statement (.fence f) := by
  rintro - g ⟨⟩
  rfl

theorem seqf (f : Slot) : Statement (.seqf f) := by
  rintro - g ⟨⟩
  rfl

theorem ldpq (f : Slot) : Statement (.ldpq f) := by
  rintro - g ⟨⟩
  rfl

theorem amo (f : Slot) : Statement (.amo f) := by
  rintro - g ⟨⟩
  rfl

theorem cas (f : Slot) : Statement (.cas f) := by
  rintro - g ⟨⟩
  rfl

theorem barInit (f : Slot) : Statement (.barInit f) := by
  rintro - g ⟨⟩
  rfl

theorem barArr (f : Slot) : Statement (.barArr f) := by
  rintro - g ⟨⟩
  rfl

theorem barSync (f : Slot) : Statement (.barSync f) := by
  rintro - g ⟨⟩
  rfl

theorem cwait (f : Slot) : Statement (.cwait f) := by
  rintro - g ⟨⟩
  rfl

theorem hwait (f : Slot) : Statement (.hwait f) := by
  rintro - g ⟨⟩
  rfl

theorem hrel (f : Slot) : Statement (.hrel f) := by
  rintro - g ⟨⟩
  rfl

theorem hqry (f : Slot) : Statement (.hqry f) := by
  rintro - g ⟨⟩
  rfl

theorem waitdep (f : Slot) : Statement (.waitdep f) := by
  rintro - g ⟨⟩
  rfl

theorem trig (f : Slot) : Statement (.trig f) := by
  rintro - g ⟨⟩
  rfl

theorem strm (f : Slot) : Statement (.strm f) := by
  rintro - g ⟨⟩
  rfl

theorem strmpb (f : Slot) : Statement (.strmpb f) := by
  rintro - g ⟨⟩
  rfl

theorem send (f : Slot) : Statement (.send f) := by
  rintro - g ⟨⟩
  rfl

theorem sendpb (f : Slot) : Statement (.sendpb f) := by
  rintro - g ⟨⟩
  rfl

theorem mma (f : Slot) : Statement (.mma f) := by
  rintro - g ⟨⟩
  rfl

theorem mmald (f : Slot) : Statement (.mmald f) := by
  rintro - g ⟨⟩
  rfl

theorem accz (f : Slot) : Statement (.accz f) := by
  rintro - g ⟨⟩
  rfl

theorem accdrn (f : Slot) : Statement (.accdrn f) := by
  rintro - g ⟨⟩
  rfl

theorem omclaim (f : Slot) : Statement (.omclaim f) := by
  rintro - g ⟨⟩
  rfl

theorem omrel (f : Slot) : Statement (.omrel f) := by
  rintro - g ⟨⟩
  rfl

theorem pfire (f : Slot) : Statement (.pfire f) := by
  rintro - g ⟨⟩
  rfl

theorem cfgld (f : Slot) : Statement (.cfgld f) := by
  rintro - g ⟨⟩
  rfl

theorem cfgsw (f : Slot) : Statement (.cfgsw f) := by
  rintro - g ⟨⟩
  rfl

theorem cfgwr (f : Slot) : Statement (.cfgwr f) := by
  rintro - g ⟨⟩
  rfl

theorem engq (f : Slot) : Statement (.engq f) := by
  rintro h g ⟨⟩
  have key : ∀ m : BitVec 6, (decide (m.toNat < 3)) = true → m.getLsbD 2 = false := by decide
  show some (engqOf f) = some (.engq f)
  rw [engqOf, key f.mode (modeOk_of_wf h rfl rfl)]
  rfl

theorem engqSet (f : Slot) : Statement (.engqSet f) := by
  rintro h g ⟨⟩
  have key : ∀ m : BitVec 6, (decide (4 ≤ m.toNat) && decide (m.toNat < 7)) = true → m.getLsbD 2 = true := by decide
  show some (engqOf f) = some (.engqSet f)
  rw [engqOf, key f.mode (modeOk_of_wf h rfl rfl)]
  rfl

theorem br (f : Slot) : Statement (.br f) := by
  rintro - g ⟨⟩
  rfl

theorem cont (f : Slot) : Statement (.cont f) := by
  rintro - g ⟨⟩
  rfl

theorem halt (f : Slot) : Statement (.halt f) := by
  rintro h g ⟨⟩
  have key : ∀ m : BitVec 6, (m == 0) = true → m.getLsbD 0 = false := by decide
  show some (haltOf f) = some (.halt f)
  rw [haltOf, key f.mode (modeOk_of_wf h rfl rfl)]
  rfl

theorem haltRes (f : Slot) : Statement (.haltRes f) := by
  rintro h g ⟨⟩
  have key : ∀ m : BitVec 6, (m == 1) = true → m.getLsbD 0 = true := by decide
  show some (haltOf f) = some (.haltRes f)
  rw [haltOf, key f.mode (modeOk_of_wf h rfl rfl)]
  rfl

theorem launch (f : Slot) : Statement (.launch f) := by
  rintro - g ⟨⟩
  rfl

theorem yield (f : Slot) : Statement (.yield f) := by
  rintro - g ⟨⟩
  rfl

theorem spawn (f : Slot) : Statement (.spawn f) := by
  rintro - g ⟨⟩
  rfl

theorem join (f : Slot) : Statement (.join f) := by
  rintro - g ⟨⟩
  rfl

theorem callx (f : Slot) : Statement (.callx f) := by
  rintro - g ⟨⟩
  rfl

theorem tagq (f : Slot) : Statement (.tagq f) := by
  rintro - g ⟨⟩
  rfl

theorem tqput (f : Slot) : Statement (.tqput f) := by
  rintro - g ⟨⟩
  rfl

theorem tqget (f : Slot) : Statement (.tqget f) := by
  rintro - g ⟨⟩
  rfl

theorem tqsteal (f : Slot) : Statement (.tqsteal f) := by
  rintro - g ⟨⟩
  rfl

theorem drec (f : Slot) : Statement (.drec f) := by
  rintro - g ⟨⟩
  rfl

theorem dcut (f : Slot) : Statement (.dcut f) := by
  rintro - g ⟨⟩
  rfl

theorem dadd (f : Slot) : Statement (.dadd f) := by
  rintro - g ⟨⟩
  rfl

theorem dmul (f : Slot) : Statement (.dmul f) := by
  rintro - g ⟨⟩
  rfl

theorem dval (f : Slot) : Statement (.dval f) := by
  rintro - g ⟨⟩
  rfl

theorem merge (f : Slot) : Statement (.merge f) := by
  rintro - g ⟨⟩
  rfl

theorem eose (f : Slot) : Statement (.eose f) := by
  rintro - g ⟨⟩
  rfl

theorem eost (f : Slot) : Statement (.eost f) := by
  rintro - g ⟨⟩
  rfl

theorem trap (f : Slot) : Statement (.trap f) := by
  rintro - g ⟨⟩
  rfl

theorem eretRs (f : Slot) : Statement (.eretRs f) := by
  rintro h g ⟨⟩
  have key : ∀ m : BitVec 6, (m == 0) = true → (m.extractLsb' 0 2).toNat = 0 := by decide
  show some (eretOf f) = some (.eretRs f)
  rw [eretOf, key f.mode (modeOk_of_wf h rfl rfl)]
  rfl

theorem eretNb (f : Slot) : Statement (.eretNb f) := by
  rintro h g ⟨⟩
  have key : ∀ m : BitVec 6, (m == 1) = true → (m.extractLsb' 0 2).toNat = 1 := by decide
  show some (eretOf f) = some (.eretNb f)
  rw [eretOf, key f.mode (modeOk_of_wf h rfl rfl)]
  rfl

theorem eretAb (f : Slot) : Statement (.eretAb f) := by
  rintro h g ⟨⟩
  have key : ∀ m : BitVec 6, (m == 2) = true → (m.extractLsb' 0 2).toNat = 2 := by decide
  show some (eretOf f) = some (.eretAb f)
  rw [eretOf, key f.mode (modeOk_of_wf h rfl rfl)]
  rfl

theorem eretDr (f : Slot) : Statement (.eretDr f) := by
  rintro h g ⟨⟩
  have key : ∀ m : BitVec 6, (m == 3) = true → (m.extractLsb' 0 2).toNat = 3 := by decide
  show some (eretOf f) = some (.eretDr f)
  rw [eretOf, key f.mode (modeOk_of_wf h rfl rfl)]
  rfl

theorem srd (f : Slot) : Statement (.srd f) := by
  rintro - g ⟨⟩
  rfl

theorem swr (f : Slot) : Statement (.swr f) := by
  rintro - g ⟨⟩
  rfl

theorem bkpt (f : Slot) : Statement (.bkpt f) := by
  rintro - g ⟨⟩
  rfl

theorem xlinvPg (f : Slot) : Statement (.xlinvPg f) := by
  rintro h g ⟨⟩
  have key : ∀ m : BitVec 6, ((m.extractLsb' 0 2).toNat == 0 && decide (m.toNat < 12)) = true → (m.extractLsb' 0 2).toNat = 0 := by decide
  show some (xlinvOf f) = some (.xlinvPg f)
  rw [xlinvOf, key f.mode (modeOk_of_wf h rfl rfl)]
  rfl

theorem xlinvAll (f : Slot) : Statement (.xlinvAll f) := by
  rintro h g ⟨⟩
  have key : ∀ m : BitVec 6, ((m.extractLsb' 0 2).toNat == 1 && decide (m.toNat < 12)) = true → (m.extractLsb' 0 2).toNat = 1 := by decide
  show some (xlinvOf f) = some (.xlinvAll f)
  rw [xlinvOf, key f.mode (modeOk_of_wf h rfl rfl)]
  rfl

theorem xlinvRng (f : Slot) : Statement (.xlinvRng f) := by
  rintro h g ⟨⟩
  have key : ∀ m : BitVec 6, ((m.extractLsb' 0 2).toNat == 2 && decide (m.toNat < 12)) = true → (m.extractLsb' 0 2).toNat = 2 := by decide
  show some (xlinvOf f) = some (.xlinvRng f)
  rw [xlinvOf, key f.mode (modeOk_of_wf h rfl rfl)]
  rfl

theorem errq (f : Slot) : Statement (.errq f) := by
  rintro - g ⟨⟩
  rfl

theorem pclr (f : Slot) : Statement (.pclr f) := by
  rintro - g ⟨⟩
  rfl

theorem ctxsave (f : Slot) : Statement (.ctxsave f) := by
  rintro - g ⟨⟩
  rfl

theorem ctxrest (f : Slot) : Statement (.ctxrest f) := by
  rintro - g ⟨⟩
  rfl

theorem preemptStop (f : Slot) : Statement (.preemptStop f) := by
  rintro h g ⟨⟩
  have key : ∀ m : BitVec 6, (m == 0) = true → (m.extractLsb' 0 2).toNat = 0 := by decide
  show some (preemptOf f) = some (.preemptStop f)
  rw [preemptOf, key f.mode (modeOk_of_wf h rfl rfl)]
  rfl

theorem preemptRes (f : Slot) : Statement (.preemptRes f) := by
  rintro h g ⟨⟩
  have key : ∀ m : BitVec 6, (m == 1) = true → (m.extractLsb' 0 2).toNat = 1 := by decide
  show some (preemptOf f) = some (.preemptRes f)
  rw [preemptOf, key f.mode (modeOk_of_wf h rfl rfl)]
  rfl

theorem preemptAb (f : Slot) : Statement (.preemptAb f) := by
  rintro h g ⟨⟩
  have key : ∀ m : BitVec 6, (m == 2) = true → (m.extractLsb' 0 2).toNat = 2 := by decide
  show some (preemptOf f) = some (.preemptAb f)
  rw [preemptOf, key f.mode (modeOk_of_wf h rfl rfl)]
  rfl

theorem preemptBe (f : Slot) : Statement (.preemptBe f) := by
  rintro h g ⟨⟩
  have key : ∀ m : BitVec 6, (m == 3) = true → (m.extractLsb' 0 2).toNat = 3 := by decide
  show some (preemptOf f) = some (.preemptBe f)
  rw [preemptOf, key f.mode (modeOk_of_wf h rfl rfl)]
  rfl

theorem cfgchk (f : Slot) : Statement (.cfgchk f) := by
  rintro - g ⟨⟩
  rfl

theorem configCommand (elem : BitVec 12) (field : BitVec 4) (value : W16) : Statement (.configCommand elem field value) := fun _ _ e => nomatch e

theorem clearCommand (elem : BitVec 12) : Statement (.clearCommand elem) := fun _ _ e => nomatch e

theorem tokenDelivery (t : TileId) (k : Nat) : Statement (.tokenDelivery t k) := fun _ _ e => nomatch e

theorem blockRequest (t : TileId) (c : CtxId) : Statement (.blockRequest t c) := fun _ _ e => nomatch e

theorem imageFetchDone (t : TileId) (a : VA) : Statement (.imageFetchDone t a) := fun _ _ e => nomatch e

theorem instanceSpawn (t : TileId) (c : CtxId) : Statement (.instanceSpawn t c) := fun _ _ e => nomatch e

theorem loopSpawn (t : TileId) (c : CtxId) : Statement (.loopSpawn t c) := fun _ _ e => nomatch e

theorem commit (t : TileId) (c : CtxId) : Statement (.commit t c) := fun _ _ e => nomatch e

theorem trapExact (t : TileId) (c : CtxId) : Statement (.trapExact t c) := fun _ _ e => nomatch e

theorem streamEgress (t : TileId) (port : Fin 64) : Statement (.streamEgress t port) := fun _ _ e => nomatch e

theorem homeAccess (id : Nat) : Statement (.homeAccess id) := fun _ _ e => nomatch e

theorem loadRetry (id : Nat) : Statement (.loadRetry id) := fun _ _ e => nomatch e

theorem remoteTimeout (id : Nat) : Statement (.remoteTimeout id) := fun _ _ e => nomatch e

theorem remoteRequestArrival (member : Fin 16) (pvi : BitVec 12) (q : RemoteReq) : Statement (.remoteRequestArrival member pvi q) := fun _ _ e => nomatch e

theorem remoteReply (id : Nat) (r : RemoteAnswer) : Statement (.remoteReply id r) := fun _ _ e => nomatch e

theorem pageWalk (t : TileId) (va : VA) : Statement (.pageWalk t va) := fun _ _ e => nomatch e

theorem scrubStep (t : TileId) (bank : Fin 32) : Statement (.scrubStep t bank) := fun _ _ e => nomatch e

theorem matrixOpStart (t : TileId) : Statement (.matrixOpStart t) := fun _ _ e => nomatch e

theorem kstep (t : TileId) : Statement (.kstep t) := fun _ _ e => nomatch e

theorem engineOpComplete (t : TileId) (op : Nat) : Statement (.engineOpComplete t op) := fun _ _ e => nomatch e

theorem accWriteApply (t : TileId) : Statement (.accWriteApply t) := fun _ _ e => nomatch e

theorem streamOpStart (t : TileId) : Statement (.streamOpStart t) := fun _ _ e => nomatch e

theorem memoryPortSlot (t : TileId) : Statement (.memoryPortSlot t) := fun _ _ e => nomatch e

theorem sendStart (t : TileId) (op : Nat) : Statement (.sendStart t op) := fun _ _ e => nomatch e

theorem handleReserve (spot : Spot) (h : Fin 64) (member : Fin 16) (pvi : BitVec 12) (bytes reply : Nat) : Statement (.handleReserve spot h member pvi bytes reply) := fun _ _ e => nomatch e

theorem handleFillTimeout (t : TileId) (h : Fin 64) : Statement (.handleFillTimeout t h) := fun _ _ e => nomatch e

theorem taskPut (t : TileId) (op : Nat) : Statement (.taskPut t op) := fun _ _ e => nomatch e

theorem configPlaneSwap (t : TileId) : Statement (.configPlaneSwap t) := fun _ _ e => nomatch e

theorem passTokenVisit (plain : Bool) : Statement (.passTokenVisit plain) := fun _ _ e => nomatch e

theorem sequencedMessageAct (d : DieId) (plain : Bool) : Statement (.sequencedMessageAct d plain) := fun _ _ e => nomatch e

theorem plainRelay (foreign : Option ForeignMsg) : Statement (.plainRelay foreign) := fun _ _ e => nomatch e

theorem flitResend (d : DieId) (f : Flit) : Statement (.flitResend d f) := fun _ _ e => nomatch e

theorem tokenLossRegenerate (plain : Bool) (silent : BitVec 16) : Statement (.tokenLossRegenerate plain silent) := fun _ _ e => nomatch e

theorem stealRequest (t : TileId) (c : CtxId) : Statement (.stealRequest t c) := fun _ _ e => nomatch e

theorem stealArrival (t : TileId) (c : CtxId) : Statement (.stealArrival t c) := fun _ _ e => nomatch e

theorem stealAck (t : TileId) (k : Nat) : Statement (.stealAck t k) := fun _ _ e => nomatch e

theorem haltResStop (t : TileId) : Statement (.haltResStop t) := fun _ _ e => nomatch e

theorem descriptorTake (d : DieId) (q : Nat) : Statement (.descriptorTake d q) := fun _ _ e => nomatch e

theorem recordWrite (q : Nat) : Statement (.recordWrite q) := fun _ _ e => nomatch e

theorem bestEffortChoice (d : DieId) : Statement (.bestEffortChoice d) := fun _ _ e => nomatch e

theorem quantumExpiry (d : DieId) : Statement (.quantumExpiry d) := fun _ _ e => nomatch e

theorem intervalStart (d : DieId) (k : Nat) : Statement (.intervalStart d k) := fun _ _ e => nomatch e

theorem earlyStart (d : DieId) (k : Nat) : Statement (.earlyStart d k) := fun _ _ e => nomatch e

theorem residencyStart (r : Nat) : Statement (.residencyStart r) := fun _ _ e => nomatch e

theorem costartReservation (d : DieId) (w : Nat) : Statement (.costartReservation d w) := fun _ _ e => nomatch e

theorem residencyEnd (r : Nat) : Statement (.residencyEnd r) := fun _ _ e => nomatch e

theorem swarmEnd (w : Nat) : Statement (.swarmEnd w) := fun _ _ e => nomatch e

theorem swarmAbort (w : Nat) : Statement (.swarmAbort w) := fun _ _ e => nomatch e

theorem dependenceRelease (w : Nat) : Statement (.dependenceRelease w) := fun _ _ e => nomatch e

theorem triggerNotice (d : DieId) (r : Nat) : Statement (.triggerNotice d r) := fun _ _ e => nomatch e

theorem launchRecordTake (d : DieId) : Statement (.launchRecordTake d) := fun _ _ e => nomatch e

theorem budgetOverrun (r : Nat) : Statement (.budgetOverrun r) := fun _ _ e => nomatch e

theorem watchdogExpiry (r : Nat) : Statement (.watchdogExpiry r) := fun _ _ e => nomatch e

theorem horizonBoundary (d : DieId) : Statement (.horizonBoundary d) := fun _ _ e => nomatch e

theorem deferredRecordDelivery (t : TileId) (c : CtxId) : Statement (.deferredRecordDelivery t c) := fun _ _ e => nomatch e

theorem trapDelivery (t : TileId) (c : CtxId) : Statement (.trapDelivery t c) := fun _ _ e => nomatch e

theorem errorQueueStore (d : DieId) : Statement (.errorQueueStore d) := fun _ _ e => nomatch e

theorem engineElementFault (t : TileId) (op : Nat) : Statement (.engineElementFault t op) := fun _ _ e => nomatch e

theorem preemptionRequest (r : Nat) : Statement (.preemptionRequest r) := fun _ _ e => nomatch e

theorem preemptionCutoff (r : Nat) : Statement (.preemptionCutoff r) := fun _ _ e => nomatch e

theorem preemptionLastIssue (r : Nat) : Statement (.preemptionLastIssue r) := fun _ _ e => nomatch e

theorem residencyResume (r : Nat) : Statement (.residencyResume r) := fun _ _ e => nomatch e

theorem parityError (t : TileId) (elem : BitVec 12) : Statement (.parityError t elem) := fun _ _ e => nomatch e

theorem registerEccError (t : TileId) (c : CtxId) (g : Fin 128) : Statement (.registerEccError t c g) := fun _ _ e => nomatch e

theorem sramUncorrectable (t : TileId) (site : SramSite) : Statement (.sramUncorrectable t site) := fun _ _ e => nomatch e

theorem tileFence (t : TileId) (cause : FenceCause) : Statement (.tileFence t cause) := fun _ _ e => nomatch e

theorem clockStretch (t : TileId) (cycles : Nat) : Statement (.clockStretch t cycles) := fun _ _ e => nomatch e

theorem stretchExcess (t : TileId) : Statement (.stretchExcess t) := fun _ _ e => nomatch e

theorem margin (d : DieId) (floorKHz : W32) : Statement (.margin d floorKHz) := fun _ _ e => nomatch e

theorem thermalStop (d : DieId) : Statement (.thermalStop d) := fun _ _ e => nomatch e

theorem thermalResume (d : DieId) : Statement (.thermalResume d) := fun _ _ e => nomatch e

theorem retentionEntry (t : TileId) : Statement (.retentionEntry t) := fun _ _ e => nomatch e

theorem retentionExit (t : TileId) : Statement (.retentionExit t) := fun _ _ e => nomatch e

theorem dieBoot (d : DieId) (b : BootInput) : Statement (.dieBoot d b) := fun _ _ e => nomatch e

theorem qtailWrite (vi : Fin 64) (q : BitVec 14) (v : W64) : Statement (.qtailWrite vi q v) := fun _ _ e => nomatch e

theorem qcfgEnable (vi : Fin 64) (q : BitVec 14) (v : W64) : Statement (.qcfgEnable vi q v) := fun _ _ e => nomatch e

theorem qcfgDisable (vi : Fin 64) (q : BitVec 14) (v : W64) : Statement (.qcfgDisable vi q v) := fun _ _ e => nomatch e

theorem qcheadWrite (vi : Fin 64) (q : BitVec 14) (v : W64) : Statement (.qcheadWrite vi q v) := fun _ _ e => nomatch e

theorem hostMemoryAccess (vi : Fin 64) (va : VA) (len : Nat) (data : Option (List Byte)) : Statement (.hostMemoryAccess vi va len data) := fun _ _ e => nomatch e

theorem viEnable (vi : Fin 64) (v : W64) : Statement (.viEnable vi v) := fun _ _ e => nomatch e

theorem viDisable (vi : Fin 64) (v : W64) : Statement (.viDisable vi v) := fun _ _ e => nomatch e

theorem attestRequest (vi : Fin 64) : Statement (.attestRequest vi) := fun _ _ e => nomatch e

theorem attestDone (vi : Fin 64) : Statement (.attestDone vi) := fun _ _ e => nomatch e

theorem mcfgRho (d : DieId) (v : BitVec 2) : Statement (.mcfgRho d v) := fun _ _ e => nomatch e

theorem mcfgRst (d : DieId) : Statement (.mcfgRst d) := fun _ _ e => nomatch e

theorem mcfgSmode (d : DieId) (v : Bool) : Statement (.mcfgSmode d v) := fun _ _ e => nomatch e

theorem mpoolWrite (d : DieId) (v : W64) : Statement (.mpoolWrite d v) := fun _ _ e => nomatch e

theorem mretWrite (d : DieId) (v : W64) : Statement (.mretWrite d v) := fun _ _ e => nomatch e

theorem registerWrite (w : RegWrite) : Statement (.registerWrite w) := fun _ _ e => nomatch e

theorem digitRateCap (d : DieId) (quarters : Fin 5) (collar : Bool) : Statement (.digitRateCap d quarters collar) := fun _ _ e => nomatch e

theorem ratedLimitsExcursion (m : Rating) : Statement (.ratedLimitsExcursion m) := fun _ _ e => nomatch e

theorem ucieModuleLoss (m : Fin 4) : Statement (.ucieModuleLoss m) := fun _ _ e => nomatch e

theorem powerGating (d : DieId) (tile : Option (Fin 64)) : Statement (.powerGating d tile) := fun _ _ e => nomatch e

end Sys2Proof.Laws.Opcode
end

