-- ==== Sys2Proof/Laws/Results.lean ====
section
/-! SUPPORT. How a result that a meaning computes by lists of lanes is the word that the claims state lane by lane. -/

namespace Sys2Proof.Machine

/-- Lane by lane instructions on data operands. -/
theorem givesLanes_of {mk : Slot → Instr} {ok : Slot → Prop} {op : Slot → Nat → Nat → Nat} (hs : ∀ f, slotOf (mk f) = f)
    (g : Slot → Nat → Nat → Nat)
    (he : ∀ f s, exec (mk f) s = .next (calcLanes (formOf (mk f)) f s (g f)))
    (h2 : ∀ f, ok f → ∀ x y, x < 2 ^ f.ty.valueWidth → y < 2 ^ f.ty.valueWidth → g f x y % 2 ^ f.ty.valueWidth = op f x y % 2 ^ f.ty.valueWidth) :
    GivesLanes mk ok op := by
  intro f s a b pa pb hok gv
  have := calcLanes_given gv rfl rfl (g f)
  rw [hs] at this
  rw [he, this]
  simp only [dataTok_val, dataTok_poison]
  rw [zipLanes_congr f.ty a b (h2 f hok)]

theorem fit_false (t : Ty) (x : Int) : t.fit false x = t.wrap x := by simp [Ty.fit]

theorem minInt_le_maxInt (t : Ty) : t.minInt ≤ t.maxInt := by cases t <;> decide

theorem fit_true (t : Ty) (x : Int) : t.fit true x = lowBits t.valueWidth (clampTo t x) := by
  have := minInt_le_maxInt t
  simp only [Ty.fit, if_true, Ty.sat, clampTo, Ty.wrap]
  congr 1
  split
  · omega
  · split <;> omega

theorem mode0_false {f : Slot} (h : Mode0 false f) : satMode f = false := h

theorem mode0_true {f : Slot} (h : Mode0 true f) : satMode f = true := h

theorem lowBits_mod (w : Nat) (x : Int) : lowBits w x % 2 ^ w = lowBits w x := Nat.mod_eq_of_lt (lowBits_lt w x)

theorem givesWord_of {mk : Slot → Instr} {ok : Slot → Prop} {op : Slot → W128 → W128 → W128}
    (g : Slot → W128 → W128 → W128 × BitVec 5)
    (he : ∀ f s, exec (mk f) s = .next (calcWord (formOf (mk f)) (slotOf (mk f)) s (g f)))
    (h2 : ∀ f, ok f → ∀ a b, g f a b = (op f a b, 0)) :
    GivesWord mk ok op := by
  intro f s a b pa pb hok gv
  rw [he, calcWord_given gv rfl rfl (g f)]
  simp only [dataTok_val, dataTok_poison, h2 f hok]

theorem packLanes_zeros (w : Nat) (vs : List Nat) (m : Nat) : packLanes w (vs ++ List.replicate m 0) = packLanes w vs := by
  induction vs with
  | nil =>
    induction m with
    | zero => rfl
    | succ m ih => simp only [List.nil_append, List.replicate_succ, packLanes] at *; simp [ih]
  | cons v vs ih => simp [packLanes, ih]

theorem wordOf_short (t : Ty) (vs : List Nat) (h : vs.length ≤ t.lanesOf) :
    wordOf t vs = perLane t fun k => vs.getD k 0 := by
  have : (List.range t.lanesOf).map (fun k => vs.getD k 0) = vs ++ List.replicate (t.lanesOf - vs.length) 0 := by
    apply List.ext_getElem
    · simp; omega
    · intro k h1 h2
      simp only [List.getElem_map, List.getElem_range]
      by_cases hk : k < vs.length
      · simp [hk]
      · simp [List.getElem_append, hk]
  rw [perLane, this, wordOf, wordOf, List.map_append, List.map_replicate, ofLanes, ofLanes]
  simp only [Nat.zero_mod]
  rw [packLanes_zeros]

theorem perLane_congr (t : Ty) {g h : Nat → Nat} (e : ∀ k, k < t.lanesOf → g k = h k) : perLane t g = perLane t h := by
  unfold perLane
  congr 1
  apply List.map_congr_left
  intro k hk; exact e k (List.mem_range.1 hk)

theorem laneAt_eq (t : Ty) (a : W128) (k : Nat) (h : k < (lanesOf t a).length) : (lanesOf t a)[k] = laneAt t a k := by
  unfold laneAt; rw [List.getD_eq_getElem?_getD, List.getElem?_eq_getElem h]; rfl

theorem packedInputs_eq (t zt : Ty) (l r : W128) (h1 : t.lanesOf / 2 ≤ zt.lanesOf) :
    packedInputs t zt l r = (List.range (t.lanesOf / 2)).map fun k => (laneAt t l k, laneAt t l (k + t.lanesOf / 2), laneAt zt r k) := by
  apply List.ext_getElem
  · simp [packedInputs]; omega
  · intro k h2 h3
    have hk : k < t.lanesOf / 2 := by simpa using h3
    simp only [packedInputs, List.getElem_take, List.getElem_zip, List.getElem_drop, List.getElem_map, List.getElem_range]
    rw [laneAt_eq, laneAt_eq, laneAt_eq, Nat.add_comm]

theorem div_mod_testBit (x p n j : Nat) : (x / 2 ^ p % 2 ^ n).testBit j = (decide (j < n) && x.testBit (p + j)) := by
  rw [Nat.testBit_mod_two_pow, Nat.testBit_div_two_pow, Nat.add_comm]

theorem bfi_testBit (w dst v c j : Nat) (hj : j < w) : (bfiLane w dst v c).testBit j =
      (if c % 128 ≤ j ∧ j < c % 128 + c / 256 % 128 then v.testBit (j - c % 128) else dst.testBit j) := by
  have gen : ∀ p n : Nat, (dst % 2 ^ p + v % 2 ^ n * 2 ^ p + dst / 2 ^ (p + n) * 2 ^ (p + n)).testBit j =
      if p ≤ j ∧ j < p + n then v.testBit (j - p) else dst.testBit j := by
    intro p n
    have e1 : dst % 2 ^ p + v % 2 ^ n * 2 ^ p + dst / 2 ^ (p + n) * 2 ^ (p + n) =
        2 ^ (p + n) * (dst / 2 ^ (p + n)) + (2 ^ p * (v % 2 ^ n) + dst % 2 ^ p) := by
      rw [Nat.mul_comm (dst / 2 ^ (p + n)), Nat.mul_comm (v % 2 ^ n)]; omega
    have hl : 2 ^ p * (v % 2 ^ n) + dst % 2 ^ p < 2 ^ (p + n) := by
      have h1 : dst % 2 ^ p < 2 ^ p := Nat.mod_lt _ (Nat.two_pow_pos p)
      have h2 : v % 2 ^ n < 2 ^ n := Nat.mod_lt _ (Nat.two_pow_pos n)
      rw [Nat.pow_add]
      calc 2 ^ p * (v % 2 ^ n) + dst % 2 ^ p < 2 ^ p * (v % 2 ^ n) + 2 ^ p := by omega
        _ = 2 ^ p * (v % 2 ^ n + 1) := by rw [Nat.mul_add, Nat.mul_one]
        _ ≤ 2 ^ p * 2 ^ n := Nat.mul_le_mul_left _ h2
    rw [e1, Nat.testBit_two_pow_mul_add _ hl]
    by_cases h1 : j < p + n
    · rw [if_pos h1, Nat.testBit_two_pow_mul_add _ (Nat.mod_lt _ (Nat.two_pow_pos p))]
      by_cases h2 : j < p
      · have : ¬ (p ≤ j ∧ j < p + n) := by omega
        rw [if_pos h2, if_neg this, Nat.testBit_mod_two_pow]; simp [h2]
      · have : p ≤ j ∧ j < p + n := by omega
        rw [if_neg h2, if_pos this, Nat.testBit_mod_two_pow]
        have : j - p < n := by omega
        simp [this]
    · have : ¬ (p ≤ j ∧ j < p + n) := by omega
      rw [if_neg h1, if_neg this, Nat.testBit_div_two_pow]; congr 1; omega
  unfold bfiLane fieldOf
  simp only
  generalize c % 128 = p
  generalize c / 256 % 128 = n
  by_cases h : n = 0 ∨ w ≤ p
  · have hb : (n == 0 || decide (w ≤ p)) = true := by simpa using h
    simp only [hb, if_true, gen]
    have : ¬ (p ≤ j ∧ j < p + n) := by omega
    rw [if_neg this]; rw [if_neg (by omega)]
  · have hb : (n == 0 || decide (w ≤ p)) = false := by simpa using h
    simp only [hb, gen]
    by_cases h1 : p ≤ j ∧ j < p + n
    · rw [if_pos h1, if_pos (by simp; omega)]; simp
    · rw [if_neg h1, if_neg (by simp; omega)]

theorem laneNat_lt (w : Nat) (x : W128) (k : Nat) : laneNat w x k < 2 ^ w := Nat.mod_lt _ (Nat.two_pow_pos w)

theorem laneNat32_extract (a : W128) (k : Nat) : laneNat 32 a k = (a.extractLsb' (32 * k) 32).toNat := by
  simp [laneNat, BitVec.extractLsb'_toNat, Nat.shiftRight_eq_div_pow]

theorem ofLanes_extract (w : Nat) (vs : List Nat) (h : w * vs.length ≤ 128) (k : Nat) :
    ((ofLanes w vs).extractLsb' (w * k) w).toNat = vs.getD k 0 % 2 ^ w := by
  rw [← laneNat_ofLanes w vs h k]
  simp [laneNat, BitVec.extractLsb'_toNat, Nat.shiftRight_eq_div_pow]

theorem laneAt_lt (t : Ty) (a : W128) (k : Nat) : laneAt t a k < 2 ^ t.valueWidth := by
  unfold laneAt
  by_cases h : k < (lanesOf t a).length
  · rw [List.getD_eq_getElem?_getD, List.getElem?_eq_getElem h]; exact lanesOf_lt t a _ (List.getElem_mem h)
  · rw [List.getD_eq_getElem?_getD, List.getElem?_eq_none (by omega)]; exact Nat.two_pow_pos _

theorem extract_ofNat (n : Nat) (l w : Nat) : ((BitVec.ofNat 128 n).extractLsb' l w).toNat = (n % 2 ^ 128) / 2 ^ l % 2 ^ w := by
  simp [BitVec.extractLsb'_toNat, Nat.shiftRight_eq_div_pow]

theorem signed64 (b : W128) : signedOf 64 b.toNat = (b.extractLsb' 0 64).toInt := by
  rw [BitVec.toInt_eq_toNat_cond]
  simp only [BitVec.extractLsb'_toNat, signedOf, Nat.shiftRight_zero]
/-- The parts of an address that takes a displacement (R27). -/
theorem sum_parts (a : W128) (y : Int) : let s : W128 := (addrG a y).setWidth 128
    s.extractLsb' 72 8 = a.extractLsb' 72 8 ∧ s.extractLsb' 80 48 = 0 ∧
      ((s.extractLsb' 0 72).toInt) % 2 ^ 72 = ((a.extractLsb' 0 72).toInt + y) % 2 ^ 72 := by
  have hl : lowBits 72 ((fld a 71 0 : Int) + y) < 2 ^ 72 := lowBits_lt _ _
  have hp : fld a 79 72 < 2 ^ 8 := Nat.mod_lt _ (by decide)
  have e : ((addrG a y).setWidth 128).toNat = fld a 79 72 * 2 ^ 72 + lowBits 72 ((fld a 71 0 : Int) + y) := by
    rw [addrG, BitVec.toNat_setWidth, BitVec.toNat_ofNat]; omega
  refine ⟨?_, ?_, ?_⟩
  · apply BitVec.eq_of_toNat_eq
    rw [BitVec.extractLsb'_toNat, BitVec.extractLsb'_toNat, e, Nat.shiftRight_eq_div_pow, Nat.shiftRight_eq_div_pow]
    simp only [fld] at *
    omega
  · apply BitVec.eq_of_toNat_eq
    rw [BitVec.extractLsb'_toNat, e, Nat.shiftRight_eq_div_pow]
    show _ % 2 ^ 48 = 0
    omega
  · have h1 : ∀ (x : BitVec 72), x.toInt % 2 ^ 72 = (x.toNat : Int) % 2 ^ 72 := by
      intro x; rw [BitVec.toInt_eq_toNat_cond]; split
      · rfl
      · omega
    rw [h1, Int.add_emod, h1, ← Int.add_emod, BitVec.extractLsb'_toNat, BitVec.extractLsb'_toNat, e]
    have e3 : ((a.toNat >>> 0 % 2 ^ 72 : Nat) : Int) = (fld a 71 0 : Int) := by simp [fld]
    rw [e3]
    have e2 : (fld a 79 72 * 2 ^ 72 + lowBits 72 ((fld a 71 0 : Int) + y)) >>> 0 % 2 ^ 72 = lowBits 72 ((fld a 71 0 : Int) + y) := by
      rw [Nat.shiftRight_zero]; omega
    rw [e2, lowBits_cast]
    simp

end Sys2Proof.Machine
end

