-- ==== Sys2Proof/Tests/Slice0.lean ====
section
/-! SUPPORT. Tests: words written out from the spec's encodings, ill-formed instructions, results of the spec's worked
examples, and states that meet the hypotheses of the claims. -/

open Sys2Proof Sys2Proof.Machine

namespace Sys2Proof.Tests

set_option Elab.async false

/-! ### Words (R84-R106, and the encoding tables of R147-R188, R206, R272, R360, R395-R416) -/

def bare : Slot := { mode := 0, t0 := .none, t1 := .none, imm := 0, pmode := .none, immuse := .none, ty := .w128, aux := 0, idx := 0 }

/-- The six fields decode to the instruction. -/
def reads (f0 f1 f2 f3 f4 f5 : Nat) (i : Instr) : Bool := decodeTableWord 96 (slotBits f0 f1 f2 f3 f4 f5) == some i

theorem test_decode_integer : [
    reads 0 0 0 0 0 0x0D00 (.nop { bare with ty := .w128 }),
    reads 0x0401 0x8A6C 0 0 0 0x0200 (.iadd { bare with ty := .i32, mode := 1, t0 := .operand .l .e 1 3 3 .single }),
    reads 0x0440 0x8A6C 0 0 0 0x0500 (.isub { bare with ty := .n16, t0 := .operand .l .e 1 3 3 .single }),
    reads 0x0481 0x8A6C 0 0 0 0x0300 (.imul { bare with ty := .i64, mode := 1, t0 := .operand .l .e 1 3 3 .single }),
    reads 0x04C0 0x8A6C 0 0 0 0x0600 (.imulh { bare with ty := .n32, t0 := .operand .l .e 1 3 3 .single }),
    reads 0x0501 0x8A6C 0 0 0 0 (.imad { bare with ty := .i8, mode := 1, t0 := .operand .l .e 1 3 3 .single }),
    reads 0x0540 0x8A6C 0 0 0 0x0200 (.idiv { bare with ty := .i32, t0 := .operand .l .e 1 3 3 .single }),
    reads 0x0580 0x8A6C 0 0 0 0x0700 (.irem { bare with ty := .n64, t0 := .operand .l .e 1 3 3 .single }),
    reads 0x05C1 0x8A6C 0 0 0 0x0100 (.ineg { bare with ty := .i16, mode := 1, t0 := .operand .l .e 1 3 3 .single }),
    reads 0x0601 0x8A6C 0 0 0 0 (.iabs { bare with ty := .i8, mode := 1, t0 := .operand .l .e 1 3 3 .single }),
    reads 0x0640 0x8A6C 0 0 0 0x0200 (.imin { bare with ty := .i32, t0 := .operand .l .e 1 3 3 .single }),
    reads 0x0680 0x8A6C 0 0 0 0x0600 (.imax { bare with ty := .n32, t0 := .operand .l .e 1 3 3 .single }),
    reads 0x06C0 0x8A6C 0 0 0 0x0D00 (.bitAnd { bare with ty := .w128, t0 := .operand .l .e 1 3 3 .single }),
    reads 0x0700 0x8A6C 0 0 0 0x0400 (.bitOr { bare with ty := .n8, t0 := .operand .l .e 1 3 3 .single }),
    reads 0x0740 0x8A6C 0 0 0 0x0D00 (.bitXor { bare with ty := .w128, t0 := .operand .l .e 1 3 3 .single }),
    reads 0x0780 0x8A6C 0 0 0 0x0200 (.bitAndn { bare with ty := .i32, t0 := .operand .l .e 1 3 3 .single }),
    reads 0x07C0 0x8A6C 0 0 0 0x0D00 (.bitNot { bare with ty := .w128, t0 := .operand .l .e 1 3 3 .single }),
    reads 0x0800 0x8A6C 0 0 0 0x0D00 (.shl { bare with ty := .w128, t0 := .operand .l .e 1 3 3 .single }),
    reads 0x0840 0x8A6C 0 0 0 0x0600 (.shr { bare with ty := .n32, t0 := .operand .l .e 1 3 3 .single }),
    reads 0x0880 0x8A6C 0 0 0 0x0300 (.sar { bare with ty := .i64, t0 := .operand .l .e 1 3 3 .single }),
    reads 0x08C0 0x8A6C 0 0 0 0x0500 (.rol { bare with ty := .n16, t0 := .operand .l .e 1 3 3 .single }),
    reads 0x0900 0x8A6C 0 0 0 0x0D00 (.clz { bare with ty := .w128, t0 := .operand .l .e 1 3 3 .single }),
    reads 0x0940 0x8A6C 0 0 0 0x0600 (.ctz { bare with ty := .n32, t0 := .operand .l .e 1 3 3 .single }),
    reads 0x0980 0x8A6C 0 0 0 0x0700 (.popc { bare with ty := .n64, t0 := .operand .l .e 1 3 3 .single }),
    reads 0x09C0 0x8A6C 0 0 0 0x0200 (.bfx { bare with ty := .i32, t0 := .operand .l .e 1 3 3 .single }),
    reads 0x0A00 0x8A6C 0 0 0 0x0500 (.bfi { bare with ty := .n16, t0 := .operand .l .e 1 3 3 .single }),
    reads 0x0A40 0x8A6C 0 0 0 0x0300 (.sext { bare with ty := .i64, t0 := .operand .l .e 1 3 3 .single }),
    reads 0x0A80 0x8A6C 0 0 0 0x0600 (.zext { bare with ty := .n32, t0 := .operand .l .e 1 3 3 .single }),
    reads 0x0AC0 0x8A6C 0 0 0 0x0800 (.movi { bare with ty := .f32, t0 := .operand .l .e 1 3 3 .single }),
    reads 0x0B03 0x8A6C 0 0 0 0x0D00 (.movhi { bare with ty := .w128, mode := 3, t0 := .operand .l .e 1 3 3 .single }),
    reads 0x0B47 0x8A6C 0 0 0 0x0D00 (.lea { bare with ty := .w128, mode := 7, t0 := .operand .l .e 1 3 3 .single }),
    reads 0x0B80 0x8A6C 0 0 0 0x0E00 (.mov { bare with ty := .bx, t0 := .operand .l .e 1 3 3 .single }),
    reads 0x0BC0 0x8A6C 0 0 0 0x0B00 (.nul { bare with ty := .e4m3, t0 := .operand .l .e 1 3 3 .single })].all id = true := by decide +kernel

theorem test_decode_lane : [
    reads 0x1000 0x8A6C 0 0 0 0x0900 (.lane { bare with ty := .f16, t0 := .operand .l .e 1 3 3 .single }),
    reads 0x1047 0x8A6C 0 0 0 0x0100 (.ins { bare with ty := .i16, mode := 7, t0 := .operand .l .e 1 3 3 .single }),
    reads 0x1081 0x8A6C 0 0 0 0x0300 (.splat { bare with ty := .i64, mode := 1, t0 := .operand .l .e 1 3 3 .single }),
    reads 0x10C0 0x8A6C 0 0 0 0x0200 (.shuf { bare with ty := .i32, t0 := .operand .l .e 1 3 3 .single }),
    reads 0x1101 0x8A6C 0 0 0 0x0840 (.pack { bare with ty := .f32, mode := 1, t0 := .operand .l .e 1 3 3 .single, aux := 2 }),
    reads 0x1141 0x8A6C 0 0 0 0x0A00 (.unpk { bare with ty := .bf16, mode := 1, t0 := .operand .l .e 1 3 3 .single }),
    reads 0x1180 0x8A6C 0 0 0 0x0960 (.redl { bare with ty := .f16, t0 := .operand .l .e 1 3 3 .single, aux := 3 }),
    reads 0x11C3 0x8A6C 0 0 0 0x0400 (.perm { bare with ty := .n8, mode := 3, t0 := .operand .l .e 1 3 3 .single })].all id = true := by decide +kernel

theorem test_decode_float : [
    reads 0x2000 0x8A6C 0 0 0 0x0880 (.fadd { bare with ty := .f32, t0 := .operand .l .e 1 3 3 .single, aux := 4 }),
    reads 0x2040 0x8A6C 0 0 0 0x0920 (.fsub { bare with ty := .f16, t0 := .operand .l .e 1 3 3 .single, aux := 1 }),
    reads 0x2080 0x8A6C 0 0 0 0x0A00 (.fmul { bare with ty := .bf16, t0 := .operand .l .e 1 3 3 .single }),
    reads 0x20C0 0x8A6C 0 0 0 0x0B40 (.fma { bare with ty := .e4m3, t0 := .operand .l .e 1 3 3 .single, aux := 2 }),
    reads 0x2100 0x8A6C 0 0 0 0x0C00 (.fnma { bare with ty := .e5m2, t0 := .operand .l .e 1 3 3 .single }),
    reads 0x2140 0x8A6C 0 0 0 0x0800 (.fdiv { bare with ty := .f32, t0 := .operand .l .e 1 3 3 .single }),
    reads 0x2180 0x8A6C 0 0 0 0x0860 (.fsqrt { bare with ty := .f32, t0 := .operand .l .e 1 3 3 .single, aux := 3 }),
    reads 0x21C0 0x8A6C 0 0 0 0x0900 (.frcp { bare with ty := .f16, t0 := .operand .l .e 1 3 3 .single }),
    reads 0x2200 0x8A6C 0 0 0 0x0800 (.frsq { bare with ty := .f32, t0 := .operand .l .e 1 3 3 .single }),
    reads 0x2240 0x8A6C 0 0 0 0x0A00 (.fexp2 { bare with ty := .bf16, t0 := .operand .l .e 1 3 3 .single }),
    reads 0x2280 0x8A6C 0 0 0 0x0800 (.flog2 { bare with ty := .f32, t0 := .operand .l .e 1 3 3 .single }),
    reads 0x22C0 0x8A6C 0 0 0 0x0800 (.fmin { bare with ty := .f32, t0 := .operand .l .e 1 3 3 .single }),
    reads 0x2300 0x8A6C 0 0 0 0x0900 (.fmax { bare with ty := .f16, t0 := .operand .l .e 1 3 3 .single }),
    reads 0x2340 0x8A6C 0 0 0 0x0A00 (.fabs { bare with ty := .bf16, t0 := .operand .l .e 1 3 3 .single }),
    reads 0x2380 0x8A6C 0 0 0 0x0800 (.fneg { bare with ty := .f32, t0 := .operand .l .e 1 3 3 .single }),
    reads 0x23C1 0x8A6C 0 0 0 0x0820 (.frnd { bare with ty := .f32, mode := 1, t0 := .operand .l .e 1 3 3 .single, aux := 1 }),
    reads 0x2400 0x8A6C 0 0 0 0x0800 (.fscale { bare with ty := .f32, t0 := .operand .l .e 1 3 3 .single }),
    reads 0x2440 0x8A6C 0 0 0 0x0C00 (.fclass { bare with ty := .e5m2, t0 := .operand .l .e 1 3 3 .single }),
    reads 0x2480 0x8A6C 0 0 0 0x0800 (.fdot4 { bare with ty := .f32, t0 := .operand .l .e 1 3 3 .single }),
    reads 0x24C0 0x8A6C 0 0 0 0x0900 (.freds { bare with ty := .f16, t0 := .operand .l .e 1 3 3 .single })].all id = true := by decide +kernel

theorem test_decode_conversion : [
    reads 0x403C 0x8A6C 0 0 0 0x0820 (.cvt { bare with ty := .f32, mode := 60, t0 := .operand .l .e 1 3 3 .single, aux := 1 }),
    reads 0x4042 0x8A6C 0 0 0 0x0800 (.qblk { bare with ty := .f32, mode := 2, t0 := .operand .l .e 1 3 3 .single }),
    reads 0x4081 0x8A6C 0 0 0 0x0800 (.dqblk { bare with ty := .f32, mode := 1, t0 := .operand .l .e 1 3 3 .single }),
    reads 0x40C9 0x8A6C 0 0 0 0x0900 (.mxpk { bare with ty := .f16, mode := 9, t0 := .operand .l .e 1 3 3 .single }),
    reads 0x4112 0x8A6C 0 0 0 0x0800 (.mxunpk { bare with ty := .f32, mode := 18, t0 := .operand .l .e 1 3 3 .single }),
    reads 0x4148 0x8A6C 0 0 0 0x0800 (.hstep { bare with ty := .f32, mode := 8, t0 := .operand .l .e 1 3 3 .single })].all id = true := by decide +kernel

theorem test_decode_compare : [
    reads 0x5002 0x8A6C 0 0 0 0x0200 (.icmp { bare with ty := .i32, mode := 2, t0 := .operand .l .e 1 3 3 .single }),
    reads 0x504F 0x8A6C 0 0 0 0x0B00 (.fcmp { bare with ty := .e4m3, mode := 15, t0 := .operand .l .e 1 3 3 .single }),
    reads 0x5080 0x8A6C 0 0 0 0x0E00 (.sel { bare with ty := .bx, t0 := .operand .l .e 1 3 3 .single }),
    reads 0x50C0 0x8A6C 0 0 0 0x0D00 (.pand { bare with ty := .w128, t0 := .operand .l .e 1 3 3 .single }),
    reads 0x5100 0x8A6C 0 0 0 0x0D00 (.por { bare with ty := .w128, t0 := .operand .l .e 1 3 3 .single }),
    reads 0x5140 0x8A6C 0 0 0 0x0D00 (.pnot { bare with ty := .w128, t0 := .operand .l .e 1 3 3 .single }),
    reads 0x5183 0x8A6C 0 0 0 0x0600 (.testp { bare with ty := .n32, mode := 3, t0 := .operand .l .e 1 3 3 .single })].all id = true := by decide +kernel

theorem test_decode_memory : [
    reads 0x6003 0xE040 0 0xFFF8 0xFFFF 0x071F (.ld { bare with ty := .n64, mode := 3, t0 := .output 2, imm := 0xFFFFFFF8, idx := 31 }),
    reads 0x6041 0 0 0x0010 0 0x0002 (.st { bare with ty := .i8, mode := 1, imm := 0x10, idx := 2 }),
    reads 0x608D 0xE040 0 0 0 0x0601 (.lda { bare with ty := .n32, mode := 13, t0 := .output 2, idx := 1 }),
    reads 0x60C9 0 0 0 0 0x0803 (.stl { bare with ty := .f32, mode := 9, idx := 3 }),
    reads 0x6101 0 0 0 0 0x0704 (.empty { bare with ty := .n64, mode := 1, idx := 4 }),
    reads 0x6140 0 0 0x0040 0 0x0D05 (.pref { bare with ty := .w128, imm := 0x40, idx := 5 }),
    reads 0x6182 0x8A6C 0 0 0 0x0806 (.accrd { bare with ty := .f32, mode := 2, t0 := .operand .l .e 1 3 3 .single, idx := 6 }),
    reads 0x61C3 0 0 0 0 0x0D07 (.accwr { bare with ty := .w128, mode := 3, idx := 7 }),
    reads 0x6206 0 0 0 0 0x0D08 (.fence { bare with ty := .w128, mode := 6, idx := 8 }),
    reads 0x6241 0 0 0 0 0x0D09 (.seqf { bare with ty := .w128, mode := 1, idx := 9 }),
    reads 0x6281 0xE040 0 0x0008 0 0x030A (.ldpq { bare with ty := .i64, mode := 1, t0 := .output 2, imm := 0x8, idx := 10 }),
    reads 0x801D 0xE040 0 0 0 0x060B (.amo { bare with ty := .n32, mode := 29, t0 := .output 2, idx := 11 }),
    reads 0x8068 0xE040 0 0 0 0x0704 (.cas { bare with ty := .n64, mode := 40, t0 := .output 2, idx := 4 })].all id = true := by decide +kernel

theorem test_decode_synchronisation : [
    reads 0x901F 0 0 0x0005 0 0x164F (.barInit { bare with ty := .n32, mode := 31, imm := 0x5, immuse := .forR, aux := 2, idx := 15 }),
    reads 0x9041 0 0 0 0 0x0D03 (.barArr { bare with ty := .w128, mode := 1, idx := 3 }),
    reads 0x9082 0xE040 0 0 0 0x0D04 (.barSync { bare with ty := .w128, mode := 2, t0 := .output 2, idx := 4 }),
    reads 0x90C3 0x8A6C 0 0x0001 0 0x1607 (.cwait { bare with ty := .n32, mode := 3, t0 := .operand .l .e 1 3 3 .single, imm := 0x1, immuse := .forR, idx := 7 }),
    reads 0x9104 0x8A6C 0 0 0 0x0D3F (.hwait { bare with ty := .w128, mode := 4, t0 := .operand .l .e 1 3 3 .single, aux := 1, idx := 31 }),
    reads 0x9145 0 0 0 0 0x0D02 (.hrel { bare with ty := .w128, mode := 5, idx := 2 }),
    reads 0x9180 0x8A6C 0 0 0 0x0D20 (.hqry { bare with ty := .w128, t0 := .operand .l .e 1 3 3 .single, aux := 1 }),
    reads 0x91C6 0x8A6C 0 0 0 0x0D00 (.waitdep { bare with ty := .w128, mode := 6, t0 := .operand .l .e 1 3 3 .single }),
    reads 0x9207 0 0 0 0 0x0D00 (.trig { bare with ty := .w128, mode := 7 })].all id = true := by decide +kernel

theorem test_decode_engine : [
    reads 0xA001 0 0 0 0 0x0D41 (.strm { bare with ty := .w128, mode := 1, aux := 2, idx := 1 }),
    reads 0xA040 0 0 0 0 0x0D22 (.strmpb { bare with ty := .w128, aux := 1, idx := 2 }),
    reads 0xA080 0 0 0 0 0x0DE3 (.send { bare with ty := .w128, aux := 7, idx := 3 }),
    reads 0xA0C0 0 0 0 0 0x0D04 (.sendpb { bare with ty := .w128, idx := 4 }),
    reads 0xA100 0 0 0 0 0x0D02 (.mma { bare with ty := .w128, idx := 2 }),
    reads 0xA140 0 0 0x0011 0 0x1621 (.mmald { bare with ty := .n32, imm := 0x11, immuse := .forR, aux := 1, idx := 1 }),
    reads 0xA183 0 0 0 0 0x0D20 (.accz { bare with ty := .w128, mode := 3, aux := 1 }),
    reads 0xA1C0 0 0 0 0 0x0D03 (.accdrn { bare with ty := .w128, idx := 3 }),
    reads 0xA201 0 0 0x000F 0 0x1601 (.omclaim { bare with ty := .n32, mode := 1, imm := 0xF, immuse := .forR, idx := 1 }),
    reads 0xA240 0 0 0x000F 0 0x1602 (.omrel { bare with ty := .n32, imm := 0xF, immuse := .forR, idx := 2 }),
    reads 0xA280 0 0 0x0003 0 0x1601 (.pfire { bare with ty := .n32, imm := 0x3, immuse := .forR, idx := 1 }),
    reads 0xA2C0 0 0 0 0 0x0D21 (.cfgld { bare with ty := .w128, aux := 1, idx := 1 }),
    reads 0xA303 0 0 0 0 0x0D22 (.cfgsw { bare with ty := .w128, mode := 3, aux := 1, idx := 2 }),
    reads 0xA341 0 0 0 0 0x0D23 (.cfgwr { bare with ty := .w128, mode := 1, aux := 1, idx := 3 }),
    reads 0xA382 0x8A6C 0 0 0 0x0601 (.engq { bare with ty := .n32, mode := 2, t0 := .operand .l .e 1 3 3 .single, idx := 1 }),
    reads 0xA385 0 0 0x0001 0 0x1601 (.engqSet { bare with ty := .n32, mode := 5, imm := 0x1, immuse := .forR, idx := 1 })].all id = true := by decide +kernel

theorem test_decode_control : [
    reads 0xC001 0xE800 0xE820 0 0 0x0D00 (.br { bare with ty := .w128, mode := 1, t0 := .exit 0, t1 := .exit 1 }),
    reads 0xC040 0xE800 0 0 0 0x0D00 (.cont { bare with ty := .w128, t0 := .exit 0 }),
    reads 0xC080 0xE800 0 0 0 0x0D00 (.halt { bare with ty := .w128, t0 := .exit 0 }),
    reads 0xC081 0xE800 0 0 0 0x0D00 (.haltRes { bare with ty := .w128, mode := 1, t0 := .exit 0 }),
    reads 0xC0C0 0x8A6C 0 0 0 0x0D03 (.launch { bare with ty := .w128, t0 := .operand .l .e 1 3 3 .single, idx := 3 }),
    reads 0xC100 0x8A6C 0 0x0064 0 0x1601 (.yield { bare with ty := .n32, t0 := .operand .l .e 1 3 3 .single, imm := 0x64, immuse := .forR, idx := 1 }),
    reads 0xC140 0xE000 0xE800 0 0 0x0D00 (.spawn { bare with ty := .w128, t0 := .output 0, t1 := .exit 0 }),
    reads 0xC180 0xE800 0 0 0 0x0600 (.join { bare with ty := .n32, t0 := .exit 0 }),
    reads 0xC1C0 0xE800 0 0 0 0x0D00 (.callx { bare with ty := .w128, t0 := .exit 0 })].all id = true := by decide +kernel

theorem test_decode_tags : [
    reads 0xD001 0x8A6C 0 0 0 0x0D03 (.tagq { bare with ty := .w128, mode := 1, t0 := .operand .l .e 1 3 3 .single, idx := 3 }),
    reads 0xD040 0x8A6C 0 0 0 0x0D01 (.tqput { bare with ty := .w128, t0 := .operand .l .e 1 3 3 .single, idx := 1 }),
    reads 0xD081 0xE800 0xE820 0 0 0x0D00 (.tqget { bare with ty := .w128, mode := 1, t0 := .exit 0, t1 := .exit 1 }),
    reads 0xD0C0 0xE800 0xE820 0x000A 0 0x1600 (.tqsteal { bare with ty := .n32, t0 := .exit 0, t1 := .exit 1, imm := 0xA, immuse := .forR })].all id = true := by decide +kernel

theorem test_decode_digit : [
    reads 0xE005 0x8A6C 0 0 0 0x0E00 (.drec { bare with ty := .bx, mode := 5, t0 := .operand .l .e 1 3 3 .single }),
    reads 0xE046 0x8A6C 0 0 0 0x0E00 (.dcut { bare with ty := .bx, mode := 6, t0 := .operand .l .e 1 3 3 .single }),
    reads 0xE080 0x8A6C 0 0 0 0x0E00 (.dadd { bare with ty := .bx, t0 := .operand .l .e 1 3 3 .single }),
    reads 0xE0C7 0x8A6C 0 0 0 0x0200 (.dmul { bare with ty := .i32, mode := 7, t0 := .operand .l .e 1 3 3 .single }),
    reads 0xE103 0x8A6C 0 0 0 0x0100 (.dval { bare with ty := .i16, mode := 3, t0 := .operand .l .e 1 3 3 .single })].all id = true := by decide +kernel

theorem test_decode_stream : [
    reads 0xE401 0x8A6C 0 0 0 0x0800 (.merge { bare with ty := .f32, mode := 1, t0 := .operand .l .e 1 3 3 .single }),
    reads 0xE446 0x8A6C 0 0 0 0x0920 (.eose { bare with ty := .f16, mode := 6, t0 := .operand .l .e 1 3 3 .single, aux := 1 }),
    reads 0xE480 0x8A6C 0 0x0008 0 0x1E00 (.eost { bare with ty := .bx, t0 := .operand .l .e 1 3 3 .single, imm := 0x8, immuse := .forR })].all id = true := by decide +kernel

theorem test_decode_system : [
    reads 0xF005 0 0 0 0 0x0D02 (.trap { bare with ty := .w128, mode := 5, idx := 2 }),
    reads 0xF040 0xE800 0 0 0 0x0D00 (.eretRs { bare with ty := .w128, t0 := .exit 0 }),
    reads 0xF041 0xE800 0 0 0 0x0D00 (.eretNb { bare with ty := .w128, mode := 1, t0 := .exit 0 }),
    reads 0xF042 0xE800 0 0 0 0x0D00 (.eretAb { bare with ty := .w128, mode := 2, t0 := .exit 0 }),
    reads 0xF043 0xE800 0 0 0 0x0D00 (.eretDr { bare with ty := .w128, mode := 3, t0 := .exit 0 }),
    reads 0xF080 0x8A6C 0 0x0011 0 0x0D00 (.srd { bare with ty := .w128, t0 := .operand .l .e 1 3 3 .single, imm := 0x11 }),
    reads 0xF0C0 0 0 0x0010 0 0x0D01 (.swr { bare with ty := .w128, imm := 0x10, idx := 1 }),
    reads 0xF100 0 0 0 0 0x0D02 (.bkpt { bare with ty := .w128, idx := 2 }),
    reads 0xF140 0 0 0x0001 0 0x1600 (.xlinvPg { bare with ty := .n32, imm := 0x1, immuse := .forR }),
    reads 0xF149 0 0 0 0 0x0D21 (.xlinvAll { bare with ty := .w128, mode := 9, aux := 1, idx := 1 }),
    reads 0xF146 0 0 0 0 0x0D02 (.xlinvRng { bare with ty := .w128, mode := 6, idx := 2 }),
    reads 0xF181 0x8A6C 0 0 0 0x0D01 (.errq { bare with ty := .w128, mode := 1, t0 := .operand .l .e 1 3 3 .single, idx := 1 }),
    reads 0xF1C0 0x8A6C 0 0 0 0x0D00 (.pclr { bare with ty := .w128, t0 := .operand .l .e 1 3 3 .single }),
    reads 0xF200 0 0 0 0 0x0D03 (.ctxsave { bare with ty := .w128, idx := 3 }),
    reads 0xF240 0x8A6C 0 0 0 0x0D04 (.ctxrest { bare with ty := .w128, t0 := .operand .l .e 1 3 3 .single, idx := 4 }),
    reads 0xF280 0 0 0 0 0x0623 (.preemptStop { bare with ty := .n32, aux := 1, idx := 3 }),
    reads 0xF281 0 0 0 0 0x0600 (.preemptRes { bare with ty := .n32, mode := 1 }),
    reads 0xF282 0 0 0 0 0x0600 (.preemptAb { bare with ty := .n32, mode := 2 }),
    reads 0xF283 0 0 0 0 0x0600 (.preemptBe { bare with ty := .n32, mode := 3 }),
    reads 0xF2C0 0x8A6C 0 0 0 0x0D01 (.cfgchk { bare with ty := .w128, t0 := .operand .l .e 1 3 3 .single, idx := 1 })].all id = true := by decide +kernel

/-- The two commands of the image of R115's example, and a clear. -/
theorem test_decode_commands : decodeTableWord 32 0x20000400 = some (.configCommand 0x200 0 0x0400) ∧
    decodeTableWord 32 0x200F0000 = some (.clearCommand 0x200) := by decide +kernel

/-- Words that the spec rejects: an unassigned opcode, a reserved type code, a reserved immuse, a reserved bcast, a
reserved okind, a bit of F1 that an exit leaves reserved, a field the element does not have. -/
theorem test_decode_rejects : [slotBits 0x0040 0 0 0 0 0x0D00, slotBits 0x0400 0x8A6C 0 0 0 0x0F00, slotBits 0x0400 0x8A6C 0 0 0 0x3200,
      slotBits 0x0400 0x8A6F 0 0 0 0x0200, slotBits 0xC080 0xF000 0 0 0 0x0D00, slotBits 0xC080 0xE801 0 0 0 0x0D00].all
        (fun w => decodeTableWord 96 w == none) = true ∧ decodeTableWord 32 0x20060000 = none := by decide +kernel

/-! ### Ill-formed instructions: one for each check -/

theorem test_ill_formed :
    (Instr.commit ⟨0, 0⟩ 0).slotError = some .notASlot ∧
    (Instr.iadd { bare with ty := .f32 }).slotError = some .typeCode ∧
    (Instr.iadd { bare with ty := .i32, mode := 2 }).slotError = some .mode ∧
    (Instr.fadd { bare with ty := .f32, aux := 5 }).slotError = some .rounding ∧
    (Instr.iadd { bare with ty := .i32, aux := 1 }).slotError = some .auxiliary ∧
    (Instr.iadd { bare with ty := .i32, idx := 1 }).slotError = some .index ∧
    (Instr.iadd { bare with ty := .i32, imm := 1 }).slotError = some .immediate ∧
    (Instr.st { bare with ty := .i32, t0 := .output 0 }).slotError = some .target ∧
    (Instr.iadd { bare with ty := .i32, t0 := .none, t1 := .output 0 }).slotError = some .targetShape ∧
    (Instr.configCommand 0x200 6 0).wf = false ∧ (Instr.clearCommand 0xFFF).wf = false := by decide +kernel

/-! ### One firing -/

/-- A state in which an operand set fires at tile (0, 0) of die 0, in a block. -/
def fired (l r : Token) (p : Option Token := none) : State :=
  { State.reset with cur := { elem := 0x021, work := { img := 0x4000, n := 1 }, l := some l, r := some r, p := p } }

/-- The values that the tokens of a firing carry to its first target. -/
def result (i : Instr) (l r : Token) : List W128 :=
  match exec i (fired l r) with
  | .next t => (t.pk.tile ⟨0, 0⟩).links.map (·.tok.val)
  | _ => []

def to0 (ty : Ty) : Slot := { bare with ty := ty, t0 := .operand .l .n 1 0 0 .single }

/-- R155's table. -/
theorem test_integer :
    result (.idiv (to0 .i32)) (dataTok 7) (dataTok 0xFFFFFFFE) = [0xFFFFFFFF_FFFFFFFF_FFFFFFFF_FFFFFFFD] ∧
    laneAt .i32 ((result (.irem (to0 .i32)) (dataTok 0xFFFFFFF9) (dataTok 2)).getD 0 0) 0 = 0xFFFFFFFF ∧
    laneAt .n32 ((result (.idiv (to0 .n32)) (dataTok 9) (dataTok 0)).getD 0 0) 0 = 4294967295 ∧
    laneAt .i32 ((result (.idiv (to0 .i32)) (dataTok 0x80000000) (dataTok 0xFFFFFFFF)).getD 0 0) 0 = 0x80000000 ∧
    laneAt .i32 ((result (.iadd { to0 .i32 with mode := 1 }) (dataTok 0x7FFFFFFF) (dataTok 1)).getD 0 0) 0 = 0x7FFFFFFF ∧
    laneAt .n32 ((result (.ineg { to0 .n32 with mode := 1 }) (dataTok 5) (dataTok 0)).getD 0 0) 0 = 0 ∧
    laneAt .i32 ((result (.imulh (to0 .i32)) (dataTok 0xFFFFFFFF) (dataTok 2)).getD 0 0) 0 = 0xFFFFFFFF ∧
    laneAt .n32 ((result (.imulh (to0 .n32)) (dataTok 0xFFFFFFFF) (dataTok 2)).getD 0 0) 0 = 1 := by decide +kernel

/-- R160's example of LEA. -/
theorem test_lea : result (.lea { to0 .w128 with mode := 3 }) (dataTok 0xFF000000000000010000) (dataTok 0xFFFFFFFFFFFFFFFD) =
    [0xFF00000000000000FFE8] := by decide +kernel

/-- R162: the selector 0x0123 reverses four lanes. -/
theorem test_shuf : result (.shuf { to0 .i32 with immuse := .forR, imm := 0x0123 }) (dataTok 0x00000004_00000003_00000002_00000001) (dataTok 0) =
    [0x00000001_00000002_00000003_00000004] := by decide +kernel

/-- R168: FDOT4 of (1, 2^24, 1, -2^24) with ones is 1. -/
theorem test_fdot4 : result (.fdot4 (to0 .f32)) (dataTok 0xCB800000_3F800000_4B800000_3F800000) (dataTok 0x3F800000_3F800000_3F800000_3F800000) =
    [0x3F800000] := by decide +kernel

/-- R183: DVAL of element 0's digits -1, -2, +1, -1 at width 8 passes through -64, -96, -92, -93. -/
theorem test_digits :
    let step (acc : W128) (j : Nat) : W128 := (result (.dval (to0 .i16)) (dataTok acc)
      { kind := .digit, val := digitWord (j == 3) j 2 0 ((List.range 32).map fun e => if e = 0 then [7, 6, 1, 7].getD j 0 else 0) }).getD 0 0
    ((List.range 4).map fun j => Ty.i16.int (laneAt .i16 ((List.range (j + 1)).foldl step 0) 0)) = [-64, -96, -92, -93] := by decide +kernel

/-! ### Operands that meet the hypotheses of the results -/

def met (i : Instr) (s : State) (l r : Token) : Bool := decide (
  (if wantsL (formOf i) (slotOf i) then s.cur.l = some l else opL (formOf i) (slotOf i) s.cur = l) ∧
  (if wantsR (formOf i) (slotOf i) then s.cur.r = some r else opR (formOf i) (slotOf i) s.cur = r) ∧
  (wantsP (slotOf i) = true → s.cur.p = some (predTok ((slotOf i).pmode == .onTrue))))

theorem given_of_met {i : Instr} {s : State} {l r : Token} (h : met i s l r = true) : Given i s l r := by
  have := of_decide_eq_true h
  exact this

/-- Instructions with their operands, every one well formed and given. -/
def allMet (l r : Token) (is : List Instr) : Bool := is.all fun i => i.wf && met i (fired l r) l r

/-- Operands for IntegerArithmetic, MultiplyAdd, ChoicesAndBits, ShiftsAndCounts, BitFields, MovesAndAddresses, LaneMoves,
RoundedArithmetic, FusedSums, NarrowingAndConversions and ComparisonsAndPredicates, with each mode and type their
clauses ask for. -/
theorem witness_results : allMet (dataTok 5) (dataTok 0) (
    (([.iadd, .isub, .imul, .ineg] : List (Slot → Instr)).flatMap fun mk => [mk (to0 .i32), mk { to0 .i32 with mode := 1 }]) ++
    (([.imulh, .idiv, .irem, .imin, .imax, .bitAnd, .bitOr, .bitXor, .bitAndn, .bitNot, .shl, .shr, .rol, .clz, .ctz, .popc,
      .bfx, .bfi, .sext, .zext, .iabs, .sar] : List (Slot → Instr)).map fun mk => mk (to0 .i32)) ++
    [.iabs { to0 .i8 with mode := 1 }, .imad (to0 .i8), .imad { to0 .n32 with mode := 1 }, .movi (to0 .bx), .mov (to0 .bx),
      .nul (to0 .i8), .movhi { to0 .w128 with mode := 3 }, .lea (to0 .n32), .lea { to0 .w128 with mode := 7 }] ++
    [.lane (to0 .f16), .ins { to0 .i16 with mode := 7 }, .splat { to0 .i64 with mode := 1 }, .shuf (to0 .i32),
      .perm (to0 .i8), .perm { to0 .f32 with mode := 1 }, .perm { to0 .n64 with mode := 2 }, .perm { to0 .i64 with mode := 3 },
      .pack (to0 .i64), .pack (to0 .f32), .pack { to0 .f32 with mode := 1 }, .unpk (to0 .i8), .unpk { to0 .bf16 with mode := 1 },
      .redl (to0 .i64), .redl { to0 .f32 with mode := 2 }, .redl { to0 .f16 with mode := 1 }] ++
    (([.fadd, .fsub, .fmul, .fdiv, .fsqrt, .frcp, .frsq, .fexp2, .flog2, .fscale, .fmin, .fmax, .fabs, .fneg, .frnd, .fma,
      .fnma, .fdot4, .freds, .fclass] : List (Slot → Instr)).flatMap fun mk => [mk (to0 .f32), mk (to0 .f16)]) ++
    [.cvt { to0 .f32 with mode := 0x3C }, .cvt { to0 .i32 with mode := 8 }, .qblk { to0 .f32 with mode := 2 }, .dqblk (to0 .f32),
      .mxpk (to0 .f16), .mxunpk (to0 .f32), .hstep { to0 .f16 with mode := 2 }, .hstep { to0 .f32 with mode := 8 }] ++
    [.icmp { to0 .i32 with mode := 5 }, .icmp { to0 .i32 with mode := 8 }, .fcmp { to0 .f32 with mode := 7 },
      .fcmp { to0 .f32 with mode := 15 }, .testp (to0 .i32), .testp { to0 .i32 with mode := 3 }]) = true := by decide +kernel

/-- ComparisonsAndPredicates: a predicate decides what fires: SEL, PAND, POR, PNOT, and a firing whose P passes. -/
theorem witness_predicates : allMet (predTok true) (dataTok 5) [.sel (to0 .i32)] = true ∧ allMet (predTok true true) (dataTok 5) [.sel (to0 .i32)] = true ∧
    allMet (predTok true) (predTok false true) [.pand (to0 .w128), .por (to0 .w128)] = true ∧
    allMet (predTok false) (dataTok 0) [.pnot (to0 .w128)] = true ∧
    met (.iadd { to0 .i32 with pmode := .onFalse }) (fired (dataTok 1) (dataTok 2) (some (predTok false))) (dataTok 1) (dataTok 2) = true := by
  decide +kernel

/-- Magnitude m * 2^e lies strictly between the values of the codes c and c + 1, in units of 2^lo. -/
def between (f : Fmt) (c m : Nat) (e lo : Int) : Bool :=
  let a := (f.value c).units lo
  let b := if c = f.maxCode then 2 * a - (f.value (c - 1)).units lo else (f.value (c + 1)).units lo
  c ≤ f.maxCode && lo ≤ e && lo ≤ f.emin - (f.frac : Int) && a < unitsOf lo m e && unitsOf lo m e < b

/-- Values that a format represents, at both ends of its range; values between two neighbours: below the smallest, across
the smallest normal, a tie, and beyond the largest, where R138's result and where the largest comes; and terms of sums,
products, quotients and roots. -/
theorem witness_RoundingAndExactValues :
    between .f16 0 1 (-25) (-25) = true ∧ between .f16 0x3FF 2047 (-25) (-25) = true ∧ between .f16 0x3C00 2049 (-11) (-24) = true ∧
    between .f16 0x7BFF 65519 0 (-24) = true ∧ (Fmt.f16.value 0x7BFF).units (-24) = unitsOf (-24) 65504 0 ∧ Fmt.f16.maxCode = 0x7BFF ∧
    unitsOf (-24) 65536 0 = 2 * (Fmt.f16.value 0x7BFF).units (-24) - (Fmt.f16.value 0x7BFE).units (-24) ∧
    between .e2m1 7 13 (-1) (-1) = true ∧ Fmt.e2m1.hasNan = false ∧ Fmt.f16.hasNan = true ∧ between .e4m3 Fmt.e4m3.maxCode 449 0 (-9) = true ∧
    ((-3 : Int) ≤ 0 ∧ (5 : Nat) ≠ 0) ∧
    ((Fmt.f32.value 1).isNan || (Fmt.f32.value 1).isInf || (Fmt.f32.value 0x7F7FFFFF).isNan || (Fmt.f32.value 0x7F7FFFFF).isInf) = false ∧
    0x7F7FFFFF < 2 * Fmt.f32.signBit := by decide +kernel

/-- FMIN's cases: two NaNs, one, none in each order. -/
theorem witness_FloatSelections : (Fmt.f16.value 0x7E00).isNan = true ∧ (Fmt.f16.value 0x0000).isNan = false ∧
    (Fmt.f16.value 0x8000).before (Fmt.f16.value 0) = true ∧ (Fmt.f16.value 0).before (Fmt.f16.value 0) = false ∧
    Fmt.f16.value 0xFC00 = .inf true ∧ Fmt.f16.value 0x7C01 = .nan true ∧ Fmt.f16.value 0x7E00 = .nan false := by decide +kernel

/-- A digit token of 32 zero digits but element 0's. -/
def digits (pos d : Nat) : Token := { kind := .digit, val := digitWord (pos == 3) pos 2 0 (d :: List.replicate 31 0) }

theorem witness_DigitInstructions :
    allMet (dataTok 0) (dataTok 0) [.drec { to0 .bx with mode := 5 }, .drec { to0 .bx with mode := 1 }] = true ∧
    bxBits (fld (0 : W128) 105 104) / 2 = 2 ∧
    allMet (digits 3 1) (dataTok 0) [.dcut { to0 .bx with mode := 1 }, .dcut { to0 .bx with mode := 4 }, .dcut { to0 .bx with mode := 6 }] = true ∧
    allMet (digits 3 1) (digits 3 7) [.dadd (to0 .bx)] = true ∧ allMet (digits 3 1) (digits 2 7) [.dadd (to0 .bx)] = true ∧
    allMet (digits 3 1) nullTok [.dadd (to0 .bx)] = true ∧ allMet nullTok (digits 3 1) [.dadd (to0 .bx)] = true ∧
    allMet nullTok nullTok [.dadd (to0 .bx)] = true ∧
    (digitsAt (digits 3 1).val 0 32).isSome = true ∧ (digitsAt (digits 3 7).val 0 32).isSome = true ∧ dPos (digits 3 1).val ≠ dPos (digits 2 7).val ∧
    allMet (digits 3 1) (dataTok 9) [.dmul { to0 .i32 with mode := 7 }] = true ∧ (digitsAt (digits 3 1).val 28 4).isSome = true ∧
    allMet (dataTok 9) (digits 3 1) [.dval { to0 .i16 with mode := 3 }] = true ∧ (digitsAt (digits 3 1).val 24 8).isSome = true ∧
    digitsAt (digits 3 3).val 0 32 = none ∧
    allMet (digits 3 3) (dataTok 0) [.dcut { to0 .bx with mode := 1 }] = true ∧ allMet (digits 3 3) (dataTok 9) [.dmul (to0 .i32)] = true ∧
    allMet (dataTok 9) (digits 3 3) [.dval (to0 .i16)] = true ∧ allMet (digits 3 3) (digits 3 1) [.dadd (to0 .bx)] = true ∧
    allMet nullTok (dataTok 9) [.dmul (to0 .i32)] = true ∧ allMet (dataTok 9) nullTok [.dval (to0 .i16)] = true := by decide +kernel

/-- The heads of a MERGE, an EOSE and an EOST, and R186's first step. -/
theorem witness_StreamSteps :
    let c (l r : Token) : Firing := { l := some l, r := some r }
    (c (dataTok 1) (eorTok true)).l = some (dataTok 1) ∧ (dataTok 1).kind = .data ∧ (eorTok true).isEos = true ∧ (eorTok false).kind = .eor ∧
    (eorTok false).isEos = false ∧ wantsP { to0 .i32 with pmode := .onTrue } = true ∧ (c nullTok nullTok).p = none ∧
    ({ c nullTok nullTok with p := some (predTok false) } : Firing).p = some (predTok (({ to0 .i32 with pmode := .onTrue } : Slot).pmode != .onTrue)) ∧
    (opL (formOf (.eost (to0 .i32))) { to0 .i32 with immuse := .forL, imm := 5 } (c (dataTok 1) (dataTok 3))).kind = .data ∧
    lane0 3 ≠ 0 ∧ ({ to0 .i32 with immuse := .forR, imm := 1 } : Slot).imm.toNat ≠ 0 ∧
    (mergeStep (to0 .i32) { elem := 0, ctx := 0, img := 0 } (c (dataTok 1) (dataTok 2))).takeL = true ∧
    (mergeStep (to0 .i32) { elem := 0, ctx := 0, img := 0 } (c (dataTok 2) (dataTok 2))).takeL = true ∧
    (mergeStep (to0 .i32) { elem := 0, ctx := 0, img := 0 } (c (dataTok 3) (dataTok 2))).takeR = true := by decide +kernel

/-- A fault, a null, an end-of-run, and predicates that stop a firing. -/
theorem witness_CommonOperandRules :
    let i : Instr := .iadd (to0 .i32)
    let p : Instr := .iadd { to0 .i32 with pmode := .onTrue }
    let ts (l r : Token) : List Token := consumed (formOf i) (slotOf i) (fired l r).cur
    i.slot.isSome = true ∧ (fired (dataTok 1) (dataTok 2)).cur.work.stream = false ∧
    wantsP (slotOf p) = true ∧ (fired (dataTok 1) (dataTok 2) (some (predTok false))).cur.p = some (predTok ((slotOf p).pmode != .onTrue)) ∧
    (fired (dataTok 1) (dataTok 2) (some nullTok)).cur.p = some nullTok ∧
    predPasses (slotOf i) (fired nullTok (dataTok 1)).cur = true ∧
    (ts (faultTok 1 0 0 0) (dataTok 1)).find? (·.isFault) = some (faultTok 1 0 0 0) ∧
    (ts nullTok (dataTok 1)).any (·.isFault) = false ∧ wantsL (formOf i) (slotOf i) = true ∧
    (ts (dataTok 1) (eorTok false)).all (fun t => !t.isFault && !t.isNull) = true ∧
    (ts (dataTok 1) (eorTok false)).any (·.isEor) = true := by decide +kernel

/-! ### A small machine -/

/-- Two ranges of VI 0 over the first megabytes of die 0's memory, each byte at its own address: one of class M, one of
class P at package scope, both open to reads, writes, fetches and U. -/
def rangeM : BitVec 256 := BitVec.ofNat 256 (0x100000 + 0x10000F * 2 ^ 64 + 0x100000 * 2 ^ 128 + 0x8F * 2 ^ 192)
def rangeP : BitVec 256 := BitVec.ofNat 256 (0x100010 + 0x10001F * 2 ^ 64 + 0x100010 * 2 ^ 128 + 0xD7 * 2 ^ 192)

/-- Their table, at PA 0x10_0080_0000. -/
def tableCells : List Host.Cell :=
  ((natToBytes 32 rangeM.toNat ++ natToBytes 32 rangeP.toNat).zipIdx.filter fun x => x.1 != 0).map fun x => (0x1000800000 + x.2, x.1)

/-- An address of the M range, 8 above a granule's start, and one of the P range. -/
def vaM : VA := 0xFF_00_0000_0010_0000_1238
def vaP : VA := 0xFF_00_0000_0010_0010_0008

def block0 : ViBlock :=
  { ctl := 1, rngt := 0x1000800000, paw := #v[0x8000000000000000 + 0x1FFFFF * 2 ^ 32 + 0x100000, 0, 0, 0], q := 4 * 2 ^ 16, tmax := 0x40, bres := 0x40
    tsh := 0xFFFFFFFFFFFFFFFF }

/-- A swarm of one tile and one context, its residency on tile (0, 0) of die 0, whose context 0 runs at level U. -/
def desc0 : BitVec 1024 := BitVec.ofNat 1024 (2 ^ 352)
def swarm0 : Swarm := { desc := desc0, vi := 0, queue := 0, home := 0, st := .placed }
def resid0 : Resid := { swarm := 0, die := 0, st := .resident }
def block1 : VA := 0x4000

def tile0 : Tile :=
  { res := some 0, ranges := [{ bits := rangeM }, { bits := rangeP }], ctxs := (Vector.replicate 32 {}).set 0 { st := .live } }

def base : State :=
  { mem := { cells := tableCells }
    pk := { dies := (Vector.replicate 8 { ready := true, stage := 6, enabled := 64 }).set 0
              { ready := true, stage := 6, enabled := 64, mpool := mpoolReset 0, tiles := (Vector.replicate 64 {}).set 0 tile0 }
            resids := [resid0], swarms := [swarm0], vis := (Vector.replicate 64 {}).set 0 block0, ringUp := 0xFF } }

def at0 : TileId := ⟨0, 0⟩

/-- It with a change to tile (0, 0), with a change to its context 0, and at level S. -/
def withTile (f : Tile → Tile) (s : State := base) : State := { s with pk := s.pk.modTile at0 f }
def withCtx (f : Ctx → Ctx) (s : State := base) : State := { s with pk := s.pk.modCtx at0 0 f }
def atS (s : State := base) : State := withCtx (fun c => { c with cur := { c.cur with lvl := true } }) s

/-- A firing in a block instance of context 0. -/
def fire (l r : Token) (s : State := base) : State :=
  { s with cur := { elem := 0x021, work := { img := block1, n := 1 }, l := some l, r := some r } }

def metOn (s : State) (l r : Token) (is : List Instr) : Bool := is.all fun i => i.wf && met i (fire l r s) l r

/-- A check that answers this, or this error. -/
def answers {ε α : Type} [DecidableEq α] (x : Except ε α) (v : α) : Bool := match x with | .ok y => decide (y = v) | .error _ => false
def refuses {ε α : Type} [DecidableEq ε] (x : Except ε α) (e : ε) : Bool := match x with | .ok _ => false | .error y => decide (y = e)

/-- The two tables translate, and the state's memory is canonical. -/
theorem test_base : base.mem.wf = true ∧ answers (placeVi base.mem base.pk 0 0 vaM .write false).1 (0, 0x1000001238, false) = true ∧
    answers (placeVi base.mem base.pk 0 0 vaP .read false).1 (0, 0x1000100008, true) = true := by decide +kernel

/-! ### Memory instructions -/

def to2 (ty : Ty) : Slot := { bare with ty := ty, t0 := .output 2 }
def reaches (s : State) (f : Slot) (g : Bool) (role : Role) (a : W128) (n : Nat) (pl : Place) (va : VA) : Bool :=
  let r := s.address f g role a n
  answers r.1 pl && r.2.1 == va && r.2.2 == {}

/-- Loads of the scratchpad's last bytes and of memory; a tile with 4096 loads outstanding. -/
theorem witness_LoadsPostTheirAccess :
    let s := fire (dataTok 0x3FFFF8) (dataTok 0)
    let g := fire (dataTok (vaM.setWidth 128)) (dataTok 0)
    let full : State := { g with pk := { g.pk with accs := List.replicate 4096 { id := 0, tile := at0, work := {}, kind := .ld, place := .home 0 0 false 0 } } }
    metOn base (dataTok 0x3FFFF8) (dataTok 0) [.ld (to2 .n64), .lda (to2 .n64), .ldpq (to2 .n64)] = true ∧
    reaches s (to2 .n64) false .load 0x3FFFF8 8 (.scratch 0x3FFFF8 false) 0 = true ∧ s.pk.outstanding at0 < 4096 ∧
    metOn base (dataTok (vaM.setWidth 128)) (dataTok 0) [.ld { to2 .n64 with mode := 1 }] = true ∧
    reaches g { to2 .n64 with mode := 1 } true .load (vaM.setWidth 128) 8 (.home 0 0x1000001238 false 0) vaM = true ∧
    reaches g { to2 .n64 with mode := 1 } true .ldpq (vaP.setWidth 128) 8 (.home 0 0x1000100008 true 2) vaP = true ∧
    4096 ≤ full.pk.outstanding at0 ∧
    metOn base (dataTok 16383) (dataTok 0) [.accrd { to2 .w128 with mode := 3 }] = true ∧ base.pk.accBreach at0 3 = false := by decide +kernel

/-- Stores, atomics and fences of a block, and an instance whose register an atomic fills. -/
theorem witness_StoresAndAtomicsWait :
    let a := dataTok (vaM.setWidth 128)
    let b := dataTok 7
    let i : Inst := { ctx := 0, img := block1, seq := 1 }
    let s := fire a b (withTile (fun t => { t with insts := [i] }))
    s.cur.work.stream = false ∧ (base.pk.tile at0).forwardRoom 0 1 = .yes ∧
    metOn base a b [.st { bare with ty := .n64, mode := 1 }, .stl { bare with ty := .n64, mode := 1 },
      .amo { bare with ty := .n64 }, .cas { bare with ty := .n64 }, .amo (to2 .n64), .cas (to2 .n64)] = true ∧
    metOn base a (dataTok 0) [.empty { bare with ty := .n64, mode := 1 }] = true ∧
    metOn base (dataTok 16383) b [.accwr { bare with mode := 3 }] = true ∧
    metOn base (predTok false) (dataTok 0) [.fence { bare with mode := 10 }, .seqf { bare with mode := 1 }] = true ∧
    reaches s { bare with ty := .n64, mode := 1 } true .store (vaM.setWidth 128) 8 (.home 0 0x1000001238 false 0) vaM = true ∧
    reaches s { bare with ty := .n64, mode := 1 } true .empty (vaP.setWidth 128) 8 (.home 0 0x1000100008 true 2) vaP = true ∧
    reaches s (to2 .n64) true .atomic (vaM.setWidth 128) 8 (.home 0 0x1000001238 false 0) vaM = true ∧
    (let v : State := { s with cur := { s.cur with work := { s.cur.work with stream := true } } }
     v.cur.work.stream = true ∧ reaches v { bare with ty := .n64, mode := 1 } true .store (vaM.setWidth 128) 8 (.home 0 0x1000001238 false 0) vaM = true ∧
       met (.st { bare with ty := .n64, mode := 1 }) v a b = true) ∧
    metOn base a b [.cas { to2 .n64 with t1 := .output 3 }, .cas { to2 .n64 with t1 := .output 2 }] = true ∧
    i.second = none ∧ (s.pk.tile at0).insts = [i] ∧ i.ctx = s.cur.work.ctx ∧ i.seq = s.cur.work.n ∧ i.writes = [] ∧ i.lsids = [] ∧ (to2 .n64).t0 = .output 2 := by
  decide +kernel

/-- A prefetch, and addresses off by one byte. -/
theorem witness_PrefetchesAndMisalignment :
    let a := dataTok (vaM.setWidth 128 + 1)
    metOn base a (dataTok 0) [.pref bare, .ld { to2 .n64 with mode := 1 }, .ld (to2 .n64), .lda (to2 .n64), .lda { to2 .n64 with mode := 1 }, .ldpq (to2 .n64),
      .ldpq { to2 .n64 with mode := 1 }, .empty { bare with ty := .n64 }, .empty { bare with ty := .n64, mode := 1 }] = true ∧
    metOn base a (dataTok 5) [.st { bare with ty := .n64 }, .stl { bare with ty := .n64 }, .st { bare with ty := .n64, mode := 1 },
      .stl { bare with ty := .n64, mode := 1 }, .amo { bare with ty := .n64 }, .cas { bare with ty := .n64 }] = true ∧
    ((((vaM.setWidth 128 + 1 : W128).toNat % 2 ^ 32 : Nat) : Int) + signedOf 32 0) % 8 ≠ 0 ∧
    answers (base.pk.peerCheck 0 (addrG (vaM.setWidth 128 + 1) 0)) none = true ∧ (addrG (vaM.setWidth 128 + 1) 0).toNat % 8 ≠ 0 := by decide +kernel


/-! ### Steps, synchronisation, engines, control and system instructions -/

/-- A slot's operand set, a run-aware slot, a command and a step of the part, as the first thing after reset. -/
theorem witness_StepRunsTheDecodedInstruction :
    let s := State.reset.withFetchWord 96 (slotBits 0x1000 0x8000 0 0 0 0x1200)
    let w := State.reset.withFetchWord 96 (slotBits 0xE400 0x8200 0 0 0 0x0700)
    let c := State.reset.withFetchWord 32 0x20000400
    (match s.agenda with
     | .fire t a w :: _ => match decodeSlot ((s.pk.tile t).active.elem a).fields with
       | .ok i => !runAware i && ((s.pk.tile t).readySet a w).isSome
       | .error _ => false
     | _ => false) = true ∧
    (match w.agenda with
     | .fire t a v :: _ => match decodeSlot ((w.pk.tile t).active.elem a).fields with
       | .ok i => runAware i && ((w.pk.tile t).runHeads (w.pk.tileAccs t) i a v.ctx v.img).isSome
       | .error _ => false
     | _ => false) = true ∧
    (match c.agenda with
     | .command t :: _ => match (c.pk.tile t).cfgStream with
       | x :: _ => match decodeCommand x.word with
         | .ok _ => true
         | .error _ => false
       | _ => false
     | _ => false) = true ∧ isEvent (.commit at0 0) = true := by decide +kernel

/-- Two slots of one PE, each with its set complete: a step for the second runs the first, which stands before it. -/
theorem witness_OlderReadySet :
    let nop : ElemState := { f := (Vector.replicate 9 0).set 5 0x0D00, configured := true, img := some block1 }
    let w : Work := { img := block1, n := 1 }
    let s : State := { withTile (fun t => { t with
      active := { elems := [(0x020, nop), (0x021, nop)] }
      store := [{ elem := 0x020, work := w, l := some (dataTok 1) }, { elem := 0x021, work := w, l := some (dataTok 1) }] }) with agenda := [.fire at0 0x021 w] }
    let left : List MatchEntry := [{ elem := 0x021, work := w, l := some (dataTok 1) }]
    let i : Instr := .nop { bare with ty := .w128 }
    (match decodeSlot ((s.pk.tile at0).active.elem 0x021).fields, decodeSlot ((s.pk.tile at0).active.elem 0x020).fields with
      | .ok j, .ok k => j == i && k == i
      | _, _ => false) = true ∧ (i.modeField w.stream).isNone = true ∧ runAware i = false ∧
    decide (s.pk.olderSets at0 0x021 w = [(0x020, w, w)]) = true ∧
    decide ((s.pk.tile at0).readySet 0x020 w = some ({ elem := 0x020, work := w, l := some (dataTok 1) }, left)) = true ∧
    (({ s.pk.tile at0 with store := left } : Tile).readySet 0x020 w).isNone = true := by decide +kernel

def n32 : Slot := { bare with ty := .n32 }

/-- An instance of context 0, and the machine that holds it on tile (0, 0). -/
def inst1 : Inst := { ctx := 0, img := block1, seq := 1 }
def inInst (s : State := base) : State := withTile (fun t => { t with insts := [inst1] }) s

theorem witness_SyncRequests : CleanTrigger (predTok true) ∧ CleanTrigger (dataTok 3) ∧
    metOn base (predTok true) (dataTok 1) [.barInit n32, .barInit { n32 with idx := 15 }] = true ∧
    metOn base (predTok true) (dataTok 65535) [.barInit n32] = true ∧ metOn base (predTok true) (dataTok 65536) [.barInit n32] = true ∧
    metOn base (dataTok 3) (dataTok 0) [.barArr bare, .trig bare] = true ∧
    metOn base (dataTok 3) (dataTok (n32Word [16, 32])) [.hrel bare] = true ∧
    metOn base (dataTok 3) (dataTok (n32Word [8, 32])) [.hrel bare] = true := by
  refine ⟨⟨.inr rfl, rfl⟩, ⟨.inl rfl, rfl⟩, ?_⟩
  decide +kernel

/-- Each wait with its condition met, and not met. -/
theorem witness_Waits :
    let l := predTok true
    let held (st : HandleSt) := withTile fun t => { t with handles := t.handles.set 0 { st := st, bytes := 64, size := 64 } }
    let counting := withCtx fun c => { c with cur := { c.cur with cnt := c.cur.cnt.set 0 64 } }
    let bar (q : W16) := inInst (withCtx fun c => { c with bar := c.bar.set 0 { q := q, o := false } })
    metOn base l (dataTok 1) [.cwait n32] = true ∧ metOn (counting) l (dataTok 64) [.cwait n32] = true ∧
    (base.pk.ctx at0 0).cur.cnt.get 0 = 0 ∧ base.pk.olderMayIssue at0 0 1 0 = false ∧ ((counting).pk.ctx at0 0).cur.cnt.get 0 = 64 ∧
    metOn (held .full) l (dataTok 0) [.hwait bare, .hqry bare] = true ∧ metOn (held .filling) l (dataTok 0) [.hwait bare] = true ∧
    (((held .full).pk.tile at0).handles.get 0).st = .full ∧ ((held .full).pk.tile at0).olderHwait 0 { img := block1, n := 1 } = false ∧
    metOn base l (dataTok 0) [.waitdep bare] = true ∧ (base.pk.resOf at0).bind (fun x => base.pk.swarmOf x.2) = some swarm0 ∧
    base.pk.depsHeard 0 swarm0 = true ∧ base.pk.depsHeard 0 { swarm0 with deps := [1] } = false ∧
    metOn (bar 1) l (dataTok 0) [.barSync bare] = true ∧ metOn (bar 0) l (dataTok 0) [.barSync bare] = true ∧
    (fire l l (bar 1)).inst? = some inst1 ∧ ((bar 1).pk.tile at0).isOldest 0 1 = true ∧ (bar 1).pk.accs = [] ∧
    ((bar 1).pk.ctx at0 0).bar.get 0 = { q := 1, o := false } ∧
    (bar 1).pk.phaseDone at0 0 0 = true ∧ (bar 0).pk.phaseDone at0 0 0 = false := by decide +kernel

/-- The engine instructions, with descriptors at the ends of their ranges and outside them. -/
theorem witness_EngineInstructions :
    let d := dataTok
    let va := vaM.setWidth 128 + 8
    metOn base (d 0) (d 0) [.strm bare, .send bare, .mma bare, .accdrn bare, .cfgwr bare, .cfgwr { bare with mode := 1 }] = true ∧
    metOn base (predTok true) (d 0) [.mmald n32, .accz { bare with mode := 3 }, .pfire n32, .cfgsw { bare with mode := 15 }, .engq n32] = true ∧
    metOn base (predTok true) (d 1) [.pfire n32, .omclaim n32, .omrel n32, .engqSet { n32 with mode := 4 }] = true ∧
    metOn base (predTok true) (d 0x10000) [.omclaim n32, .omrel n32, .engqSet { n32 with mode := 4 }] = true ∧
    metOn (atS) (predTok true) (d 2) [.engqSet { n32 with mode := 4 }] = true ∧ (fire (d 0) (d 0) (atS)).level = true ∧
    metOn base (d va) (d 0) [.strmpb bare, .sendpb bare, .cfgld bare] = true ∧
    decide (base.blockCheck .load false (vaM + 8) 64 = (none, {})) = true ∧ decide (base.blockCheck .load true (vaM + 8) 64 = (none, {})) = true ∧
    (base.blockCheck .load false (vaM + 16) 64).1.isSome = true ∧ (base.blockCheck .load false (vaM + 16) 64).2 = {} := by decide +kernel

theorem witness_Decisions :
    let l := predTok true
    metOn base l (dataTok 0) [.br { bare with t0 := .exit 0 }, .br { bare with mode := 1, t0 := .exit 0, t1 := .exit 1 }, .cont { bare with t0 := .exit 1 },
      .halt { bare with t0 := .exit 7 }, .haltRes { bare with mode := 1, t0 := .exit 7 }] = true ∧
    metOn base (dataTok (2 ^ 64)) (dataTok 0) [.callx { bare with t0 := .exit 0 }] = true ∧
    metOn base (predTok false) (dataTok 0) [.br { bare with mode := 1, t0 := .exit 0, t1 := .exit 1 }] = true ∧
    metOn base (predTok true true) (dataTok 0) [.cont { bare with t0 := .exit 1 }] = true ∧
    metOn base (dataTok 5 true) (dataTok 0) [.callx { bare with t0 := .exit 0 }] = true := by decide +kernel

/-- A spawn that finds its numbers, and one that does not; children that are done and are not. -/
theorem witness_ContextInstructions :
    let l := predTok true
    let a : W128 := 0
    let kids (done : W32) := withTile (fun t => { t with insts := [inst1], ctxs := t.ctxs.set 1 { st := .live, parent := some 0 } })
      (withCtx fun c => { c with cur := { c.cur with done := done } })
    let full := withTile fun t => { t with ctxs := (Vector.replicate 32 { st := .free }).set 0 { st := .live }, insts := List.replicate 16 inst1 }
    let t := base.pk.tile at0
    metOn base l (dataTok 65535) [.yield n32] = true ∧ metOn base l (dataTok 65536) [.yield n32] = true ∧
    metOn base (dataTok a) (dataTok 9) [.spawn bare] = true ∧ fld a 127 80 = 0 ∧ fld a 71 69 = 0 ∧ base.pk.tagLimit at0 = 16 ∧
    2 * (t.contexts + popCount t.spawnMask + 1) ≤ base.pk.tagLimit at0 ∧ 1 ≤ t.available.length ∧ 2 ≤ t.freeTags 16 ∧
    ((full).pk.tile at0).freeTags 16 < 2 ∧ 2 * (((full).pk.tile at0).contexts + 1) ≤ (full).pk.tagLimit at0 ∧
    metOn base l (dataTok 0) [.join n32, .tagq bare] = true ∧ metOn (kids 2) l (dataTok 2) [.join n32] = true ∧
    ((kids 2).pk.tile at0).isOldest 0 1 = true ∧ ((kids 0).pk.tile at0).isChild 0 1 = true ∧ ((kids 0).pk.tile at0).isChild 0 2 = false ∧
    setBits (BitVec.ofNat 32 2) = [1] ∧ BitVec.ofNat 32 2 &&& ~~~ ((kids 2).pk.ctx at0 0).cur.done = 0 ∧
    BitVec.ofNat 32 2 &&& ~~~ ((kids 0).pk.ctx at0 0).cur.done ≠ 0 := by decide +kernel

/-- Where an image, a context and a descriptor stand in the M range: the cells come before the table's. -/
def image1 : Image :=
  { addr := 0xFF_00_0000_0010_0000_2000, vi := 0
    hdr := BitVec.ofNat 512 (0x46524B31 + 2 ^ 32 + 2 ^ 56 + 2 ^ 64 + 2 ^ 80 + 2 ^ 96 + 2 ^ 104 + 5 * 2 ^ 128 + 0x34893BB2 * 2 ^ 160)
    cmds := [0xC0000003, 0xC001E000, 0xC002E800, 0xC2000005, 0xC4000000] }

def placeAt (a : Nat) (bs : List Byte) (s : State) : State :=
  { s with mem := { s.mem with cells := ((bs.zipIdx.filter fun x => x.1 != 0).map fun x => (a + x.2, x.1)) ++ s.mem.cells } }

def imageBytes : List Byte := natToBytes 64 image1.hdr.toNat ++ image1.cmds.flatMap fun w => natToBytes 4 w.toNat

/-- A descriptor for one tile of die 0 with an allotment of 2, and one of the bounded class with a cycle of work. -/
def desc1 : BitVec 1024 := BitVec.ofNat 1024 (2 ^ 352 + 2 * 2 ^ 376)
def desc2 : BitVec 1024 := desc1 + BitVec.ofNat 1024 (2 ^ 64)

/-- The first n words of its block stand read for a firing's LSID. -/
def hasRead (s : State) (i : Instr) (n : Nat) (bs : List Byte) (bad : Bool) : Bool :=
  match s.inst? with
  | none => false
  | some x =>
    let got := (x.piecesAt ((lsidOf (formOf i) (slotOf i)).getD 0)).takeWhile fun g => g.1 < n
    got.map (·.1) == List.range n && bs == got.flatMap (fun g => natToBytes 8 g.2.1.toNat) && bad == got.any fun g => g.2.2

theorem hasRead_of {s : State} {i : Instr} {n : Nat} {bs : List Byte} {bad : Bool} (h : hasRead s i n bs bad = true) :
    HasRead s i n bs bad := by
  unfold hasRead at h
  split at h
  · contradiction
  · rename_i x hx
    simp only [Bool.and_eq_true, beq_iff_eq] at h
    exact ⟨x, _, hx, rfl, h.1.1, h.1.2, h.2⟩

/-- It with words read for LSID 0 of its instance. -/
def withRead (ws : List W64) (s : State) : State :=
  withTile (fun t => { t with insts := [{ inst1 with pieces := ws.zipIdx.map fun x => (0, x.2, x.1, false) }] }) s

/-- The machine whose one range is that of class M. -/
def oneRange : State :=
  { withTile (fun t => { t with ranges := [{ bits := rangeM }] }) with mem := { cells := tableCells.filter fun x => x.1 < 0x1000800020 } }

def descWords (d : BitVec 1024) : List W64 := (List.range 16).map fun j => d.extractLsb' (64 * j) 64

/-- A task queue that is full, holds one record, holds none, and a record stolen before; a steal not asked for yet; a
descriptor of which no word is read, and one read whole, accepted from a best-effort swarm, and from a bounded one within its
budget, refused, rejected, and with no room left. -/
theorem witness_TaskAndLaunchInstructions :
    let l := predTok true
    let d := dataTok
    let e : TaskEntry := { record := 5 }
    let q (n : Nat) := withTile fun t => { t with tasks := List.replicate n e }
    let stolen := withCtx fun c => { c with cur := { c.cur with stl := some 7 } }
    let big : State := { base with pk := { base.pk with resids := [{ resid0 with w := 2 }], dies := base.pk.dies } }
    let f : Slot := { bare with t0 := .output 2, t1 := .output 3, mode := 1 }
    let k : Nat := (lsidOf (formOf (.launch bare)) bare).getD 0
    let bytes1 : List Byte := (descWords desc1).flatMap fun v => natToBytes 8 v.toNat
    let poisoned := withTile fun t => { t with insts := [{ inst1 with pieces := (List.range 16).map fun j => (0, j, 0, j == 15) }] }
    let edge : VA := 0xFF_00_0000_0010_000F_FFC0
    let asked := withTile (fun t => { t with insts := [{ inst1 with requested := true }] }) big
    let par : State := { base with pk := { base.pk with swarms := [{ swarm0 with cls := true, desc := BitVec.ofNat 1024 (2 ^ 352 + 2 ^ 64 + 5 * 2 ^ 112) }] } }
    metOn base (d 0) (d 7) [.tqput bare] = true ∧ ((q 256).pk.tile at0).tasks.length = 256 ∧ (base.pk.tile at0).tasks.length = 0 ∧
    metOn base l (d 0) [.tqget { bare with t0 := .output 2 }, .tqget f] = true ∧ (base.pk.tile at0).bufferTaken 0 = false ∧
    ((stolen).pk.ctx at0 0).cur.stl = some 7 ∧ ((q 1).pk.tile at0).tasks = [] ++ e :: [] ∧ e.st = .ready ∧ ((q 1).pk.tile at0).olderTqget at0 { img := block1, n := 1 } = false ∧
    metOn base l (d 1) [.tqsteal { f with ty := .n32, mode := 0 }] = true ∧ big.pk.regionTile at0 1 0 = some ⟨0, 1⟩ ∧ big.pk.inTransitTo at0 0 = false ∧
    ((withCtx (fun c => { c with stealFrom := some 1 }) big).pk.ctx at0 0).stealFrom.isSome = true ∧ (fire l (d 1) asked).inst?.map (·.requested) = some true ∧ (fire l (d 1) (inInst big)).inst?.map (·.requested) = some false ∧
    big.pk.regionTile at0 0 0 = some at0 ∧ big.pk.regionTile at0 2 0 = none ∧
    metOn base (d (vaM.setWidth 128 + 0x48)) (d 0) [.launch { bare with t0 := .output 2 }] = true ∧
    metOn base (d (2 ^ 80)) (d 0) [.launch { bare with t0 := .output 2 }] = true ∧
    answers (checkG base.mem base.pk at0 false .load (vaM + 0x48) 128).1 (.home 0 0x1000001280 false 0) = true ∧
    (checkG base.mem base.pk at0 false .load (vaM + 0x48) 128).2 = {} ∧
    (match (checkG base.mem base.pk at0 false .load (vaM + 0x49) 128).1 with | .error _ => true | .ok _ => false) = true ∧
    (fire (d 0) (d 0) (inInst)).inst? = some inst1 ∧ inst1.piecesAt k = [] ∧
    k = 0 ∧ absent (List.range 16) ((inst1.piecesAt k).map (·.1)) = List.range 16 ∧
    ((List.range 16).all fun j => answers (checkG base.mem base.pk at0 false .load (vaM + 0x48 + BitVec.ofNat 80 (8 * j)) 8).1 (.home 0 (0x1000001280 + 8 * j) false 0)) = true ∧
    hasRead (fire (d 0) (d 0) (withRead (descWords desc1) base)) (.launch bare) 16 bytes1 false = true ∧
    hasRead (fire (d 0) (d 0) (poisoned)) (.launch bare) 16 (List.replicate 128 0) true = true ∧
    answers (checkG oneRange.mem oneRange.pk at0 false .load edge 64).1 (.home 0 0x10000FFFC0 false 0) = true ∧
    (match (checkG oneRange.mem oneRange.pk at0 false .load (edge + 64) 8).1 with | .error _ => true | .ok _ => false) = true ∧
    BitVec.ofNat 1024 (bytesToNat bytes1) = desc1 ∧
    base.pk.resOf at0 = some (0, resid0) ∧ base.pk.swarmOf resid0 = some swarm0 ∧ answers (checkAll base.mem base.pk 0 0 false desc1 none).1 [] = true ∧
    (checkAll base.mem base.pk 0 0 false desc1 none).2 = {} ∧ refuses (checkAll base.mem base.pk 0 0 false 0 none).1 2 = true ∧
    answers (checkAll par.mem par.pk 0 0 true desc2 none).1 [] = true ∧ par.pk.childRefusal 0 (BitVec.ofNat 1024 (2 ^ 352 + 2 ^ 64 + 5 * 2 ^ 112)) desc2 = some 4 ∧
    (base.pk.die 0).launches.length + (base.pk.die 0).launchHeld < 512 ∧
    512 ≤ ({ base.pk.die 0 with launchHeld := 512 } : Die).launches.length + ({ base.pk.die 0 with launchHeld := 512 } : Die).launchHeld := by
  decide +kernel

theorem witness_TrapsAndSpecialRegisters :
    let l := predTok true
    let srd (n : Nat) : Instr := .srd { bare with t0 := .output 2, imm := BitVec.ofNat 32 n }
    let s := fire l (dataTok 0) (atS (inInst))
    let nb := withTile fun t => { t with insts := [{ inst1 with skipBkpt := true }] }
    let older := withTile fun t => { t with insts := [{ inst1 with seq := 0 }, { inst1 with stamp := 1 }] }
    let w : Work := { img := block1, n := 1 }
    metOn base (dataTok 5) (dataTok 0) [.trap { bare with mode := 5 }] = true ∧ metOn base l (dataTok 0) [.bkpt bare] = true ∧
    (fire l l (nb)).inst?.map (·.skipBkpt) = some true ∧ (fire l l (inInst)).inst?.map (·.skipBkpt) = some false ∧
    metOn base (dataTok 5) (dataTok 0) [.swr { bare with imm := 0x10 }] = true ∧
    ([0, 1, 2, 3, 4, 5, 8, 15, 0x10, 0x11, 0x12, 0x18, 0x19, 0x1A, 0x1B, 0x1C].all fun n => (srd n).wf && met (srd n) s l (dataTok 0)) = true ∧
    s.inst? = some inst1 ∧ s.level = true ∧ s.pk.resOf at0 = some (0, resid0) ∧ ageLt (inst1.stamp, 0) ((s.pk.tile at0).ageOf w) = false ∧
    ageLt (0, 0) (((older).pk.tile at0).ageOf w) = true ∧ ({ s.cur.work with stream := true } : Work).stream = true := by
  decide +kernel

def handling (s : State := base) : State := atS (withCtx (fun c => { c with tcause := 9 }) s)

/-- The ranges that CTXREST asks of an image (R422). -/
def acceptable (bs : List Byte) : Bool :=
  let at_ (off n : Nat) : Nat := bytesToNat ((bs.drop off).take n)
  let zeros (off n : Nat) : Bool := ((bs.drop off).take n).all (· == 0)
  zeros 0x81E 2 && zeros 0x823 1 && zeros 0xA40 0x5C0 && zeros 0x1780 0x880 && at_ 0x820 1 < 32 && 2 ≤ at_ 0x821 1 && at_ 0x821 1 ≤ 128 &&
    at_ 0x838 8 < 3 && at_ 0x8A0 8 < 2 && at_ 0x980 8 ≤ 256

/-- The supervisor's instructions at S, and at U. -/
theorem witness_SupervisorAndImages :
    let l := predTok true
    let d := dataTok
    let va : W128 := 0xFF_00_0000_0010_0000_4000
    let v : VA := va.setWidth 80
    let im : W128 := image1.addr.setWidth 128
    let f : Slot := { bare with t0 := .output 2 }
    let r1 : FaultRec := { cause := 4 }
    let q : State := { (handling) with pk := (handling).pk.modDie 0 fun x => { x with errq := [(0, { recs := [r1] })] } }
    let area : List W64 := List.replicate 260 0 ++ [0x200] ++ List.replicate 763 0
    let whole : List Byte := List.replicate 0x821 0 ++ [2] ++ List.replicate 6110 0
    let words : List Byte := imageBytes ++ [0, 0, 0, 0]
    let chk : State := fire (d im) (d 0) (withRead (((List.range 8).map fun j => image1.hdr.extractLsb' (64 * j) 64) ++
      [0xC001E000C0000003, 0xC2000005C002E800, 0xC4000000]) base)
    metOn (handling) l (d 0) [.eretRs { bare with t0 := .exit 0 }, .eretNb { bare with mode := 1, t0 := .exit 0 }, .eretAb { bare with mode := 2, t0 := .exit 0 },
      .eretDr { bare with mode := 3, t0 := .exit 0 }] = true ∧
    metOn (atS) (d 0) (d 0) [.preemptStop n32, .preemptRes { n32 with mode := 1 }, .preemptAb { n32 with mode := 2 }, .preemptBe { n32 with mode := 3 }] = true ∧
    (fire l l (handling)).level = true ∧ ((handling).pk.ctx at0 0).tcause ≠ 0 ∧ ((atS).pk.ctx at0 0).tcause = 0 ∧
    metOn (atS) l (d 0) [.xlinvAll { bare with mode := 1 }, .xlinvRng { bare with mode := 2 }, .pclr f] = true ∧ metOn (atS) (d va) (d 65536) [.xlinvPg n32] = true ∧
    metOn (atS) (d va) (d 65537) [.xlinvPg n32] = true ∧
    metOn q (d va) (d 0) [.errq f] = true ∧ metOn (atS) (d va) (d 0) [.errq { f with mode := 1 }] = true ∧
    decide ((fire l l q).blockCheck .store false v 64 = (none, {})) = true ∧ (sget {} (q.pk.die 0).errq (q.pk.tileVi at0).val).recs = [r1] ∧
    (sget {} ((atS).pk.die 0).errq 0).recs = [] ∧
    metOn (handling) (d va) (d 0) [.ctxsave bare, .ctxrest f] = true ∧
    answers (checkG base.mem (handling).pk at0 true .load v 64).1 (.home 0 0x1000004000 false 0) = true ∧ whole.length = 8192 ∧ acceptable whole = true ∧
    hasRead (fire (d va) (d 0) (withRead area (handling))) (.ctxrest f) 1024 whole false = true ∧ acceptable (List.replicate 8192 0) = false ∧
    ((withCtx (fun c => { c with trapped := some ({}, r1) }) (handling)).pk.ctx at0 0).trapped = some ({}, r1) ∧
    answers (checkG base.mem (atS).pk at0 true .store v 16).1 (.home 0 0x1000004000 false 0) = true ∧
    (match (checkG oneRange.mem oneRange.pk at0 false .store (0xFF_00_0000_0010_0010_0000) 16).1 with | .error _ => true | .ok _ => false) = true ∧
    metOn base (d im) (d 0) [.cfgchk f] = true ∧ (0xFF_00_0000_0010_0000_2000 : W128).extractLsb' 80 48 = 0 ∧ metOn base (d (2 ^ 80)) (d 0) [.cfgchk f] = true ∧ (checkHeader 0 []).map (·.step) = some 1 ∧ (checkHeader image1.hdr []).map (·.step) ≠ some 1 ∧
    (checkHeader image1.hdr []).map (·.step) ≠ some 2 ∧ Header.length image1.hdr = 5 ∧
    hasRead chk (.cfgchk f) 8 (natToBytes 64 image1.hdr.toNat) false = true ∧ hasRead chk (.cfgchk f) 11 words false = true ∧
    BitVec.ofNat 512 (bytesToNat (natToBytes 64 image1.hdr.toNat)) = image1.hdr ∧ cmdWords 5 (words.drop 64) = image1.cmds ∧
    image1.check.isNone = true := by decide +kernel

theorem witness_SupervisorInstructionsNeedS :
    let l := predTok true
    let d := dataTok
    let f : Slot := { bare with t0 := .output 2 }
    (fire l l).level = false ∧
    metOn base l (d 0) [.eretRs { bare with t0 := .exit 0 }, .eretNb { bare with mode := 1, t0 := .exit 0 }, .eretAb { bare with mode := 2, t0 := .exit 0 },
      .eretDr { bare with mode := 3, t0 := .exit 0 }, .xlinvAll { bare with mode := 1 }, .xlinvRng { bare with mode := 2 }, .pclr f] = true ∧
    metOn base l (d 0) [.srd { f with imm := 0x18 }] = true ∧ metOn base l (d 0) [.srd { f with imm := 0x1B }] = true ∧
    metOn base l (d 2) [.engqSet { n32 with mode := 4 }] = true ∧
    metOn base (d 0) (d 2) [.xlinvPg n32] = true ∧ metOn base (d 0) (d 0) [.errq f, .ctxsave bare, .ctxrest f, .preemptStop n32, .preemptRes { n32 with mode := 1 },
      .preemptAb { n32 with mode := 2 }, .preemptBe { n32 with mode := 3 }] = true := by decide +kernel

/-! ### Tokens, blocks, commits, traps -/

/-- A slot of element 0x021 that takes an L token, and tokens for it, for a write entry and for an exit. -/
def slotState : ElemState := { configured := true, img := some block1 }
def linked (g : Target) (s : State := inInst) : State :=
  withTile (fun t => { t with active := { elems := [(0x021, slotState)] }, links := [{ src := 0x021, tgt := g, work := { img := block1, n := 1 }, tok := dataTok 5 }] }) s

theorem witness_TokensArrive :
    let s := linked (.operand .l .n 0 4 1 .single)
    let t := s.pk.tile at0
    let named (g : Target) := withTile (fun t => { t with active := { t.active with log := [.image { image1 with addr := block1 } 0] } }) (linked g)
    t.links.length = 1 ∧ t.alive { img := block1, n := 1 } = true ∧ slotAddr .n 0 4 1 = 0x021 ∧
    t.route 0x021 .n (dataTok 5) = some (dataTok 5, 0) ∧ t.accepts 0x021 .l = true ∧ t.storeRoom (s.pk.tileAccs at0) 0x021 .l { img := block1, n := 1 } = true ∧ t.store = [] ∧
    ((named (.output 0)).pk.tile at0).links.length = 1 ∧ ((named (.exit 0)).pk.tile at0).alive { img := block1, n := 1 } = true ∧
    0 < (named (.output 0)).pk.entries at0 { img := block1, n := 1 } Header.nwrite ∧ 0 < (named (.exit 0)).pk.entries at0 { img := block1, n := 1 } Header.nexit := by decide +kernel

/-- An image in the context store and in the active plane, and a request for it. -/
def storedImg (i : Image) (q : Option BlockReq) (s : State := base) : State :=
  withTile (fun t => { t with images := [i], active := { t.active with log := [.image i 0] } }) (withCtx (fun c => { c with req := q }) s)
def stored (q : Option BlockReq) (s : State := base) : State := storedImg image1 q s
def ask1 : BlockReq := { va := image1.addr }

/-- A request without its place in the queue, one with it, one whose image must be fetched, the fetch, the spawn, a `while`
and an `iterate` entered, and a loop that goes on: first iteration, and after one that stands before it. -/
theorem witness_BlocksStart :
    let asked : BlockReq := { ask1 with stamp := some 0 }
    let set : BlockReq := { asked with placed := true }
    let fetching := withTile (fun t => { t with fetches := [image1.addr] }) (withCtx (fun c => { c with req := some asked }) (placeAt 0x1000002000 imageBytes base))
    let it : Image := { image1 with hdr := image1.hdr + BitVec.ofNat 512 (2 ^ 89 + 2 ^ 96) }
    let wh : Image := { image1 with hdr := image1.hdr + BitVec.ofNat 512 (2 ^ 90) }
    let r : LoopRun := { img := image1.addr, kind := 1, n := 2, first := 1 }
    let going := withCtx (fun c => { c with loop := some r }) (storedImg it none)
    (stored (some ask1)).pk.serves at0 0 = true ∧ ((stored (some ask1)).pk.tile at0).reqHeld 0 ask1 = false ∧ ((stored (some asked)).pk.tile at0).reqHeld 0 asked = false ∧
    decide (((stored none).pk.tile at0).image? image1.addr ((stored none).pk.tileVi at0) = some image1) = true ∧ (base.pk.tile at0).image? image1.addr (base.pk.tileVi at0) = none ∧
    (base.pk.tile at0).fetches.contains image1.addr = false ∧ image1.check.isNone = true ∧
    Header.stream image1.hdr = false ∧ ((stored none).pk.tile at0).planeHolds image1 = true ∧ overWindow (base.pk.ctx at0 0) image1 = false ∧
    ((fetching).pk.tile at0).waiters image1.addr = [0] ∧ ((fetching).pk.tile at0).loadHead image1.addr = none ∧ ((fetching).pk.tile at0).loadWaits image1.addr = false ∧
    ((fetching).fetchImage at0 false image1.addr).1.err.isNone = true ∧ ((fetching).fetchImage at0 false image1.addr).1.poison = false ∧
    decide (((fetching).fetchImage at0 false image1.addr).2 = image1) = true ∧
    (((fetching).pk.tile at0).keep image1).any (fun y => !y.loadWaits image1.addr) = true ∧
    isLoop image1 = false ∧ ((stored (some set)).pk.tile at0).breaking 0 set = false ∧ (stored (some set)).pk.maySpawn at0 0 image1 0 = true ∧
    ([it, wh].all fun i => let s := storedImg i (some set)
      isLoop i && s.pk.serves at0 0 && !(s.pk.tile at0).pendingCmds i.addr && (s.pk.tile at0).planeHolds i && (s.pk.tile at0).live 0 == [] && (s.pk.ctx at0 0).cur.lpk == 0) = true ∧
    Header.iterate wh.hdr = false ∧ Header.iterate it.hdr = true ∧
    (({ (base.pk.ctx at0 0).cur with g := (base.pk.ctx at0 0).cur.g.set 3 7 } : CtxImage).getG (it.readEntry 0).reg = (7, false)) ∧ lane0 7 ≠ 0 ∧
    ((base.pk.ctx at0 0).cur.pend.any fun y => y.1 == (it.readEntry 0).reg) = false ∧
    decide ((going).pk.loopNext at0 0 = some (r, it, 0)) = true ∧ (going).pk.maySpawn at0 0 it ((going).pk.tile at0).stamp = true ∧
    decide ((withTile (fun t => { t with insts := [{ inst1 with img := image1.addr, loop := some r }] }) going).pk.loopNext at0 0 = some (r, it, 1)) = true := by
  decide +kernel

/-- A block whose read entry and write entry name one register, spawned behind an instance of it that holds a value, a null,
a placeholder and nothing, and alone, with a pending write of the register and without. -/
theorem witness_ReadEntriesResolve :
    let i : Image := { image1 with cmds := 0xC0000005 :: image1.cmds.tail }
    let q : BlockReq := { va := image1.addr, stamp := some 0, placed := true }
    let behind (ws : List (Nat × WriteVal)) : State := withCtx (fun c => { c with cur := { c.cur with seqn := 2 } })
      (storedImg i (some q) (withTile (fun t => { t with insts := [{ inst1 with img := image1.addr, writes := ws }] })))
    let pending := withCtx (fun c => { c with cur := { c.cur with pend := [(5, 0)] } }) (storedImg i (some q))
    (i.readEntry 0).reg = 5 ∧ i.writeReg 0 = 5 ∧ 0 < Header.nread i.hdr ∧ Header.nwrite i.hdr = 1 ∧ isLoop i = false ∧
    ([[], [(0, .tok (dataTok 7))], [(0, .tok nullTok)], [(0, .pending 3)]].all fun ws => (behind ws).pk.maySpawn at0 0 i 0 &&
      !((behind ws).pk.tile at0).breaking 0 q && (((behind ws).pk.tile at0).live 0).all (fun j => j.seq < 2) &&
      decide ((behind ws).pk.imageOf at0 image1.addr = some i) && decide (((behind ws).pk.tile at0).image? q.va ((behind ws).pk.tileVi at0) = some i)) = true ∧
    (storedImg i (some q)).pk.maySpawn at0 0 i 0 = true ∧ (pending).pk.maySpawn at0 0 i 0 = true ∧
    ((pending).pk.ctx at0 0).cur.pend.any (fun y => y.1 == 5) = true ∧ (base.pk.ctx at0 0).cur.lpk = 0 := by decide +kernel

/-- The instance of `image1` with its write entry and its exit filled. -/
def done1 : Inst := { inst1 with img := image1.addr, writes := [(0, .tok (dataTok 42 true))], exits := [(0, dataTok 1)] }
def atCommit (i : Inst) (s : State := base) : State := stored none (withTile (fun t => { t with insts := [i] }) s)

/-- `image1` with an exit of another kind, and it as an iterate and as a while. -/
def exitImg (k : Nat) : Image := { image1 with cmds := image1.cmds.dropLast ++ [BitVec.ofNat 32 (0xC4000000 + k)] }
def iterImg (k : Nat) : Image := { exitImg k with hdr := image1.hdr + BitVec.ofNat 512 (2 ^ 89 + 2 ^ 96) }
def whileImg (k : Nat) : Image := { exitImg k with hdr := image1.hdr + BitVec.ofNat 512 (2 ^ 90) }

/-- Instance i of image img, which is all that its commit asks for. -/
def commitsAs (i : Inst) (img : Image) (s : State := base) : Bool :=
  let u := storedImg img none (withTile (fun t => { t with insts := i :: t.insts }) s)
  decide ((u.pk.tile at0).oldest? 0 = some i) && decide (u.pk.imageOf at0 i.img = some img) && u.pk.running at0 &&
    !(u.pk.ctx at0 0).trapDue && (i.fault? img).isNone && i.complete img && decide (u.verdict at0 0 i img = .go)

/-- The commits of each exit: a call, a return, a halt and a HALT.res, an iterate and a while that go on and that leave, an
exit that breaks the loop with a younger iteration live and without; a record taken from the queue and from the buffer; and
commits with a store, with an atomic and with an engine operation. -/
theorem witness_Commits :
    let run : LoopRun := { img := image1.addr, kind := 1, n := 2, first := 1 }
    let looping : Inst := { done1 with loop := some run }
    let younger : State := withTile (fun t => { t with insts := [{ inst1 with img := image1.addr, seq := 2, loop := some run }] }) base
    let twice := withCtx fun c => { c with cur := { c.cur with lpk := 1, lpn := 2 } }
    let nested := withCtx fun c => { c with cur := { c.cur with rs := [5] } }
    let a : Access := { id := 0, tile := at0, work := { img := block1, n := 1 }, kind := .st, place := .home 0 0x1000001238 false 0, n := 8 }
    let b : Access := { a with kind := .amo .add true true, lsid := 1 }
    let e : LsidVal := .engine (.accz 1) 3
    let taken (buffer : Bool) : Inst := { done1 with taskArgs := some (7, buffer) }
    let held := withTile fun t => { t with tasks := [{ record := 7, st := .held 0 1 }] }
    let buffered := withCtx fun c => { c with cur := { c.cur with stl := some 7 } }
    commitsAs done1 image1 = true ∧ commitsAs done1 (exitImg 1) = true ∧ commitsAs done1 (exitImg 2) (nested) = true ∧ commitsAs done1 (exitImg 3) = true ∧
    commitsAs { done1 with haltRes := true } (exitImg 3) = true ∧ commitsAs (taken false) image1 (held) = true ∧ commitsAs (taken true) image1 (buffered) = true ∧
    ([0, 1, 2, 3].all fun k => ((exitImg k).exitEntry 0).kind == BitVec.ofNat 3 k && !isLoop (exitImg k)) = true ∧
    commitsAs looping (iterImg 4) (twice) = true ∧ commitsAs looping (iterImg 4) = true ∧ ((iterImg 4).exitEntry 0).kind = 4 ∧ isLoop (iterImg 4) = true ∧
    commitsAs { looping with conts := [true] } (whileImg 5) = true ∧ commitsAs { looping with conts := [false] } (whileImg 5) = true ∧ isLoop (whileImg 5) = true ∧
    Header.iterate (whileImg 5).hdr = false ∧ Header.iterate (iterImg 4).hdr = true ∧ ((whileImg 5).exitEntry 0).kind = 5 ∧
    commitsAs looping (whileImg 0) younger = true ∧ commitsAs looping (whileImg 0) = true ∧ ((whileImg 0).exitEntry 0).kind = 0 ∧
    (((nested).pk.ctx at0 0).cur.stack.head?).isSome = true ∧ (base.pk.ctx at0 0).cur.rs.length ≤ 16 ∧ done1.taskArgs = none ∧ done1.lsids = [] ∧
    commitsAs { done1 with lsids := [(0, .access a)] } image1 = true ∧ commitsAs { done1 with lsids := [(1, .access b)] } image1 = true ∧ b.isLoad = false ∧ a.isLoad = false ∧
    commitsAs { done1 with lsids := [(1, e)] } image1 = true := by decide +kernel

theorem witness_InstancesCommit :
    let s := atCommit done1
    decide ((s.pk.tile at0).oldest? 0 = some done1) = true ∧ decide (s.pk.imageOf at0 image1.addr = some image1) = true ∧ s.pk.running at0 = true ∧
    (done1.fault? image1).isNone = true ∧ done1.complete image1 = true ∧ decide (s.verdict at0 0 done1 image1 = .go) = true ∧ done1.lsids = [] ∧
    done1.taskArgs = none ∧ isLoop image1 = false ∧ (image1.exitEntry 0).kind = 0 ∧
    (exitDest (image1.exitEntry 0) (dataTok 1) (s.pk.ctx at0 0).cur).isSome = true ∧ image1.writeReg 0 = 5 ∧ Header.nwrite image1.hdr = 1 := by decide +kernel

theorem witness_FaultTokensTrapExactly :
    let i : Inst := { done1 with writes := [(0, .tok (faultTok Cause.priv 0 0x021 0))] }
    (i.fault? image1).map (·.cause) = some Cause.priv ∧ decide (((atCommit i).pk.tile at0).oldest? 0 = some i) = true ∧
    (atCommit i).pk.running at0 = true ∧ ((atCommit i).pk.ctx at0 0).raised.isNone = true := by decide +kernel

/-- The word that names the handler, mapped by a range of its own. -/
def rangeS : BitVec 256 := BitVec.ofNat 256 (supervisorWord.toNat % 2 ^ 72 / 65536 + supervisorWord.toNat % 2 ^ 72 / 65536 * 2 ^ 64 + 0x100000 * 2 ^ 128 + 0x87 * 2 ^ 192)
def raisedAt (tc : BitVec 18) : State :=
  withTile (fun t => { t with ranges := { bits := rangeS } :: t.ranges }) (withCtx fun c => { c with tcause := tc, raised := some { cause := Cause.priv, block := block1 } })

theorem witness_TrapsAreTaken :
    ((raisedAt 0).pk.ctx at0 0).st = .live ∧ (raisedAt 0).pk.running at0 = true ∧ (raisedAt 0).pk.canMark 0 = true ∧ ((raisedAt 0).pk.ctx at0 0).raised.isSome = true ∧
    answers (((raisedAt 0).pk.squash at0 0 0).handler (raisedAt 0).mem at0) (blockAddr 0) = true ∧ (raisedAt 0).pk.markReady at0 0 = true ∧ (raisedAt 9).pk.markReady at0 0 = true ∧ (raisedAt 9).pk.running at0 = true ∧ (raisedAt 9).pk.canMark 0 = true ∧
    (raisedAt 9).pk.resOf at0 = some (0, resid0) ∧ (raisedAt 9).pk.swarm? 0 = some swarm0 ∧ swarm0.aborted = none ∧ swarm0.st = .placed := by decide +kernel

theorem witness_EretRestores :
    let i : Inst := { done1 with lsids := [(0, .eret 0)] }
    let s := atCommit i (withCtx fun c => { c with tcause := 9, trapped := some ({}, {}), cur := { c.cur with lvl := true } })
    decide ((s.pk.tile at0).oldest? 0 = some i) = true ∧ s.pk.running at0 = true ∧ (i.fault? image1).isNone = true ∧ i.complete image1 = true ∧
    decide (s.verdict at0 0 i image1 = .go) = true ∧ (s.pk.ctx at0 0).trapDue = false ∧ (s.pk.tile at0).resStopped = false ∧ (s.pk.ctx at0 0).trapped.isSome = true ∧ ({} : FaultRec).cls = 0 := by decide +kernel

theorem witness_RecordsAreDelivered :
    let r : PendRec := { ctx := some (at0, 0), res := some 0, fr := { cause := 4 } }
    let q : PendRec := { res := some 0, fr := { cause := 4 } }
    let due (s : State) (l : List PendRec) := takeFirst (s.pk.noteDue at0 0) l
    let full := withCtx fun c => { c with precs := List.replicate 8 r.fr }
    due base [q, r] = some (r, [q]) ∧ due full [q, r] = some (r, [q]) ∧ r.res = (base.pk.tile at0).res ∧ (base.pk.ctx at0 0).st = .live ∧
    (base.pk.ctx at0 0).precs = [] ∧ ((full).pk.ctx at0 0).precs.length = 8 ∧ r.fr.cls ≠ 1 ∧
    takeFirst (fun y : PendRec => y.ctx.isNone && y.on.getD y.fr.die == (0 : DieId) && base.pk.markFree y) [r, q] = some (q, [r]) ∧
    base.pk.canMark 0 = true ∧ (sget {} (base.pk.die 0).errq 0).full = false ∧ (sget {} (base.pk.die 0).errq 0).recs = [] ∧
    (let x : Section := { ctx := 0, img := block1, sides := 1, window := 1, count := none, stamp := 0, op := 9, stop := some (2, none) }
     let b : PendRec := { r with fr := { r.fr with cls := 1, op := some 9 } }
     let s := withTile fun t => { t with sections := [x] }
     ((s).pk.tile at0).stoppedSection 0 b.fr = some x ∧ ((s).pk.tile at0).renumbers x = false ∧ (s).pk.noteDue at0 0 b = true) := by decide +kernel

/-! ### The host, the dies, placement -/

def withPk (f : Pack → Pack) (s : State := base) : State := { s with pk := f s.pk }
def withDie (f : Die → Die) (s : State := base) : State := withPk (fun p => p.modDie 0 f) s

theorem witness_QueueRegisters :
    let s := withPk fun p => { p with queues := [(0, { cfg := 1 })] }
    base.pk.viQueue 0 3 = some 3 ∧ (base.pk.queue 3).en = false ∧ s.pk.viQueue 0 0 = some 0 ∧ (s.pk.queue 0).en = true ∧ (base.pk.vi 0).en = true ∧
    (base.pk.vi 0).bres ≠ 0 ∧ base.pk.viQueue 0 4 = none ∧ fld (0xC001 : W64) 15 12 = 12 ∧ fld (0xD001 : W64) 15 12 = 13 := by decide +kernel

theorem witness_ControlBlocks :
    let off : ViBlock := { block0 with ctl := 0, root := 0x1000800000 }
    let s := withPk fun p => { p with vis := p.vis.set 0 off }
    let idle := withPk fun p => { p with resids := [{ resid0 with st := .ended }], swarms := [{ swarm0 with st := .ended }] }
    (base.pk.vi 0).en = true ∧ (s.pk.vi 0).en = false ∧ off.inRange = true ∧ base.pk.clearOfPools off = true ∧ base.pk.fits 0 off = true ∧
    base.pk.fits 0 { off with bres := 0x41 } = false ∧ ({ off with tmax := 0x41 } : ViBlock).inRange = false ∧
    withBit block0.ctl 0 false = (0 : W64) &&& 0x0FFFFFFF07FF0000 ∧ base.pk.viBusy 0 = true ∧ idle.pk.viBusy 0 = false ∧
    (base.pk.die 0).ready = true ∧ ((withDie fun x => { x with ready := false }).pk.die 0).ready = false ∧
    (base.pk.vi 0).busy = false ∧ ((withPk fun p => p.modVi 0 fun v => { v with busy := true }).pk.vi 0).busy = true := by decide +kernel

/-- Pieces of 16, 8 and one byte, through an M mapping, through a P mapping to empty and to full words, and where nothing is
mapped; a longer access of two pieces, one that is stopped, and a VI that is not enabled. -/
theorem witness_HostAccesses :
    let far : VA := 0xFF_00_0000_0030_0000_0008
    let note (va : VA) (n : Need) := (placeVi base.mem base.pk 0 0 va n false).2
    let clean (n : Need) : Bool := let s1 := base.walkedOn 0 0 (note vaM n)
      !s1.mem.badGranule (memIndex 0 0x1000001238) && decide ((s1.mem.settle (memIndex 0 0x1000001238)).2 = .clean)
    let filled : State := { base with mem := { base.mem with full := [(memIndex 0 0x1000100000 / 8, true), (memIndex 0 0x1000100008 / 8, true)] } }
    let cut := hostPieces vaM.toNat 24 24
    let off := withPk fun p => { p with vis := p.vis.set 0 { block0 with ctl := 0 } }
    let cleanAt (s : State) (va : VA) (n : Need) (a : Nat) : Bool := let s1 := s.walkedOn 0 0 (placeVi s.mem s.pk 0 0 va n false).2
      !s1.mem.badGranule (memIndex 0 a) && decide ((s1.mem.settle (memIndex 0 a)).2 = .clean)
    (vaM - 8).toNat % 16 = 0 ∧ answers (placeVi base.mem base.pk 0 0 (vaM - 8) .write false).1 (0, 0x1000001230, false) = true ∧
    answers (placeVi base.mem base.pk 0 0 (vaM - 1) .read false).1 (0, 0x1000001237, false) = true ∧ cleanAt base (vaM - 1) .read 0x1000001237 = true ∧
    answers (placeVi base.mem base.pk 0 0 (vaP - 8) .write false).1 (0, 0x1000100000, true) = true ∧ cleanAt base (vaP - 8) .write 0x1000100000 = true ∧
    answers (placeVi filled.mem filled.pk 0 0 (vaP - 8) .read false).1 (0, 0x1000100000, true) = true ∧ cleanAt filled (vaP - 8) .read 0x1000100000 = true ∧
    base.mem.isFull (memIndex 0 0x1000100000) = false ∧ base.mem.isFull (memIndex 0 0x1000100008) = false ∧ filled.mem.wf = true ∧
    filled.mem.isFull (memIndex 0 0x1000100000) = true ∧ filled.mem.isFull (memIndex 0 0x1000100008) = true ∧
    cut.map (·.2) = [8, 16] ∧ (hostPlaces base.mem base.pk 0 true cut).1 = some [(.home 0 0x1000001238 false 0, 8), (.home 0 0x1000001240 false 0, 16)] ∧
    cleanAt base vaM .write 0x1000001240 = true ∧ (hostPlaces base.mem base.pk 0 false (hostPieces far.toNat 24 24)).1 = none ∧ (off.pk.vi 0).en = false ∧
    base.mem.wf = true ∧ (base.pk.vi 0).en = true ∧ (base.pk.die 0).ready = true ∧ vaM.toNat / 2 ^ 72 = 0xFF ∧ vaM.toNat % 16 = 8 ∧
    far.toNat / 2 ^ 72 = 0xFF ∧ far.toNat % 16 = 8 ∧
    answers (placeVi base.mem base.pk 0 0 vaM .write false).1 (0, 0x1000001238, false) = true ∧ clean .write = true ∧
    answers (placeVi base.mem base.pk 0 0 vaM .read false).1 (0, 0x1000001238, false) = true ∧ clean .read = true ∧
    (match (placeVi base.mem base.pk 0 0 far .write false).1 with | .error _ => true | .ok _ => false) = true ∧
    (match (placeVi base.mem base.pk 0 0 far .read false).1 with | .error _ => true | .ok _ => false) = true := by
  decide +kernel

theorem witness_DieRegisters :
    let at30 := withDie fun x => { x with elap := 2 ^ 30, pendingFloor := 500000, pendingRho := some 1, plan := [{ swarm := 0, x0 := 0, y0 := 0, w := 1, h := 1, start := 0, len := 2 ^ 31, child := true, floor := 500000, rho := 1 }] }
    let later := withDie fun x => { x with elap := 2 ^ 30, pendingFloor := 500000, plan := [{ swarm := 0, x0 := 0, y0 := 0, w := 1, h := 1, start := 0, len := 2 ^ 31, child := true, floor := 552000 }] }
    let hot := withDie fun x => { x with tj := 1051, cap := 0 }
    (base.pk.die 0).ready = true ∧ base.pk.onRing 0 = true ∧ (State.reset.pk.die 0).ready = false ∧ State.reset.pk.onRing 0 = false ∧
    base.pk.outOfLimits = false ∧ (hot).pk.outOfLimits = true ∧ (withDie fun x => { x with rhoNow := 2 }).pk.bestAtRho = false ∧ 1050 < ((hot).pk.die 0).tj.toNat ∧
    (allDies.map fun c => (base.pk.die c).pw.toNat).sum ≤ 3200 ∧
    (withPk fun p => { p with resids := [] }).pk.poolOk 0 (mpoolReset 0) = true ∧ base.pk.poolOk 0 1 = false ∧ (at30.pk.die 0).now % 2 ^ 30 = 0 ∧
    (at30.pk.openBounds 0).length = 1 ∧ (later.pk.openBounds 0).length = 1 ∧ (∀ i ∈ at30.pk.openBounds 0, i.floor ≤ (at30.pk.die 0).pendingFloor.toNat ∧ i.rho ≤ quarters 1) ∧
    (later.pk.die 0).pendingFloor.toNat < 552000 := by decide +kernel

theorem witness_ClocksAndBringUp :
    let x := base.pk.die 0
    let free := withTile fun t => { t with res := none }
    let boot (k : BitVec 4) := withDie fun x => { x with stage := k, ready := false }
    (((withTile fun t => { t with excess := some 0 }).pk.tile at0).excess = some 0) ∧ x.ready = true ∧ 489000 < x.admitFloor ∧ x.thermalStop = false ∧
    base.pk.resid? 0 = some resid0 ∧ resid0.st = .resident ∧ resid0.pre = none ∧
    ([.starting, .saving].all fun st => decide ((withPk fun p => { p with resids := [{ resid0 with st := st, pre := if st = .saving then some 1 else none }] }).pk.resid? 0 =
      some { resid0 with st := st, pre := if st = .saving then some 1 else none })) = true ∧
    (withPk fun p => { p with swarms := [swarm0, { swarm0 with desc := desc1, st := .waiting }] }).pk.waitingOn 0 ≠ [] ∧
    base.pk.onRing 0 = true ∧ State.reset.pk.onRing 0 = false ∧ ((withDie fun x => { x with fail := 1 }).pk.die 0).fail ≠ 0 ∧
    ((withDie fun x => { x with thermalStop := true }).pk.die 0).thermalStop = true ∧
    (withPk fun p => { p with resids := [{ resid0 with st := .stopped, thermal := true }] }).pk.resid? 0 = some { resid0 with st := .stopped, thermal := true } ∧
    bit ((withDie (fun x => { x with mret := 1 }) free).pk.die 0).mret 0 = true ∧ (free.pk.tile at0).ret = .active ∧ (free.pk.tile at0).res = none ∧
    free.pk.claimedSoon at0 = false ∧ ((withTile fun t => { t with ret := .retained }).pk.tile at0).ret = .retained ∧ bit x.mret 0 = false ∧
    x.fail = 0 ∧ (stageType 1).isSome = true ∧ ((boot 0).pk.die 0).stage.toNat = 0 ∧ fwAccepted ((stageType 1).getD 0) [] [] = false ∧
    ((boot 5).pk.die 0).stage = 5 ∧ base.pk.ringRoom 0 = true ∧ (base.pk.tile at0).fenced = false := by decide +kernel

/-- A queue with one descriptor, at the M range's 0x8000. -/
def queued (cls : Bool) (d : BitVec 1024) : State :=
  placeAt 0x1000008000 (natToBytes 128 d.toNat) (withPk fun p => { p with queues := [(0, { cfg := if cls then 0x11 else 1, base := 0x10_0000_8000 / 128, tail := 1 })] })

/-- A descriptor none of whose words is read, one read whole, accepted, rejected, bounded; a word that cannot be read. -/
theorem witness_SwarmsAreAdmitted :
    let s := queued false desc1
    let whole (cls : Bool) (d : BitVec 1024) := withPk (fun p => p.modQueue 0 fun y => { y with words := descWords d }) (queued cls d)
    let read (s : State) : BitVec 1024 := BitVec.ofNat 1024 (bytesToNat ((s.pk.queue 0).words.flatMap fun v => natToBytes 8 v.toNat))
    let check (cls : Bool) (d : BitVec 1024) := let u := whole cls d; (checkAll u.mem u.pk 0 0 cls (read u) (some (0 - (u.pk.vi 0).qbase, (u.pk.queue 0).head.toNat))).1
    let lost := withPk fun p => { p with queues := [(0, { cfg := 1, base := 0x30_0000_0000 / 128, tail := 1 })] }
    let dep : Swarm := { swarm0 with st := .dependent, cls := true, desc := desc2 }
    let waits := withPk fun p => { p with swarms := [dep] }
    let tight := withPk (fun p => { p with swarms := [{ dep with desc := desc2 + BitVec.ofNat 1024 (2 ^ 128) }] })
    let taken (d : BitVec 1024) : Swarm := { desc := d, vi := 0, queue := 0, home := 0, cls := true, prio := (queued true d).pk.queue 0 |>.prio,
                                              lvl := ((queued true d).pk.vi 0).queueLevel 0 }
    let offersAt (d : BitVec 1024) := let u := whole true d; Pack.offers { u.pk with swarms := u.pk.swarms ++ [taken d] } 0 d allDies
    let late : BitVec 1024 := desc2 + BitVec.ofNat 1024 (2 ^ 128)
    let orphan : Swarm := { dep with parent := some 0 }
    let child (cls : Bool) (deps : List W64) := withPk (fun p => { p with swarms := [{ swarm0 with cls := cls }] })
      (withDie fun x => { x with launches := [{ desc := desc1, deps := deps, parent := 0, ticket := 0, vi := 0, queue := 0, cls := false, prio := 0, die := 0 }] })
    (s.pk.die 0).ready = true ∧ s.pk.nextQueue 0 = some 0 ∧ s.pk.queueVi 0 = some 0 ∧ (s.pk.queue 0).words.length < 16 ∧
    answers (readWordVi s.mem s.pk 0 0 ((s.pk.queue 0).descAt 0) ).1 ((descWords desc1).getD 0 0, false) = true ∧
    (lost.pk.nextQueue 0 = some 0 ∧ lost.pk.queueVi 0 = some 0 ∧
      (match (readWordVi lost.mem lost.pk 0 0 ((lost.pk.queue 0).descAt 0)).1 with | .error _ => true | .ok _ => false) = true) ∧
    (whole false desc1).pk.nextQueue 0 = some 0 ∧ ((whole false desc1).pk.queue 0).words.length = 16 ∧ read (whole false desc1) = desc1 ∧
    answers (check false desc1) [] = true ∧ refuses (check false desc2) 6 = true ∧
    (whole true desc2).pk.nextQueue 0 = some 0 ∧ ((whole true desc2).pk.queue 0).cls = true ∧ answers (check true desc2) [] = true ∧
    (match offersAt desc2 with | .ok (o :: _) => o.die == 0 | _ => false) = true ∧ ((whole true late).pk.queue 0).words.length = 16 ∧
    answers (check true late) [] = true ∧ refuses (offersAt late) 2 = true ∧
    ((withPk fun p => { p with swarms := [orphan] }).pk.swarm? 0 = some orphan ∧ (withPk fun p => { p with swarms := [orphan] }).pk.depsDone 0 orphan = true) ∧
    ((child true []).pk.die 0).launches.length = 1 ∧ ((child true []).pk.swarm? 0).isSome = true ∧ ((child false []).pk.swarm? 0).map (·.cls) = some false ∧
    ((child true [5]).pk.die 0).launches.map (·.deps) = [[5]] ∧
    waits.pk.swarm? 0 = some dep ∧ dep.aborted = none ∧ waits.pk.depsDone dep.home dep = true ∧ dep.parent = none ∧
    (match waits.pk.offers 0 desc2 allDies with | .ok (o :: _) => o.die == 0 | _ => false) = true ∧
    refuses (tight.pk.offers 0 (desc2 + BitVec.ofNat 1024 (2 ^ 128)) allDies) 2 = true := by decide +kernel

theorem witness_RecordsAreWritten :
    let ring (base : W64) (ctail : W32) := withPk fun p => { p with queues := [(0, { cfg := 1, cbase := base, waiting := [5], ctail := ctail })] }
    let s := ring (0x10_0000_8000 / 128) 0
    let full := ring (0x10_0000_8000 / 128) 16
    let lost := ring (0x30_0000_0000 / 128) 0
    s.mem.wf = true ∧ (s.pk.queue 0).waiting = [5] ∧ s.pk.queueVi 0 = some 0 ∧ (s.pk.die (s.pk.queue 0).die).ready = true ∧ (s.pk.queue 0).held < (s.pk.queue 0).csize ∧
    answers (placeVi s.mem s.pk 0 0 ((s.pk.queue 0).recordAt 0) .write true).1 (0, 0x1000008000, false) = true ∧ (s.pk.queue 0).die = 0 ∧
    (match (placeVi lost.mem lost.pk 0 0 ((lost.pk.queue 0).recordAt 0) .write true).1 with | .error _ => true | .ok _ => false) = true ∧
    (lost.pk.queue 0).held < (lost.pk.queue 0).csize ∧ (full.pk.queue 0).csize ≤ (full.pk.queue 0).held := by decide +kernel

/-- A waiting best-effort swarm beside the placed one, and one that asks for all of the die. -/
def waiting (d : BitVec 1024) : State := withPk (fun p => { p with swarms := [swarm0, { swarm0 with desc := d, st := .waiting, headSince := Vector.replicate 8 (some 0) }] }) (withDie fun x => { x with elap := 2 ^ 21 })
def wholeDie : BitVec 1024 := desc1 + BitVec.ofNat 1024 (0xF * 2 ^ 360)
def iv : Interval := { swarm := 0, x0 := 0, y0 := 0, w := 1, h := 1, start := 0, len := 100000 }

theorem witness_Placement :
    let s := waiting desc1
    let big := withPk (fun p => { p with resids := [{ resid0 with vi := 1 }] }) (waiting wholeDie)
    let blocked := withDie (fun x => { x with blockedHead := some { who := .head 1, region := some (0, 0) } }) big
    let planned (i : Interval) := withPk (fun p => { p with resids := [resid0], swarms := [{ swarm0 with cls := true, st := .accepted }] }) (withDie fun x => { x with plan := [i] })
    let other (i : Interval) := withPk (fun p => { p with resids := [{ resid0 with swarm := 1 }], swarms := [{ swarm0 with cls := true, st := .accepted }, swarm0] }) (planned i)
    let savedAt := withPk (fun p => { p with resids := [{ resid0 with st := .saved, bounded := true, saved := [{}] }] }) (withTile fun t => { t with res := none })
    s.pk.places 0 = true ∧ (s.pk.die 0).blockedHead = none ∧ (match s.pk.choice 0 with | some x => decide (x.who = .head 1) && (s.pk.findRegion 0 x).isSome | _ => false) = true ∧
    (match big.pk.choice 0 with | some x => (big.pk.findRegion 0 x).isNone | _ => false) = true ∧
    (blocked.pk.die 0).blockedHead.isSome = true ∧ 0 ∈ blocked.pk.occupants 0 0 0 (blocked.pk.blockedShape 0).1 (blocked.pk.blockedShape 0).2 ∧
    blocked.pk.resid? 0 = some { resid0 with vi := 1 } ∧ resid0.placedAt + 2 ^ 21 ≤ (blocked.pk.die 0).now ∧
    (other iv).pk.awaits 0 0 iv = true ∧ (other iv).pk.regionFree 0 0 0 1 1 = false ∧ 0 ∈ (other iv).pk.occupants 0 0 0 1 1 ∧
    (other { iv with x0 := 1 }).pk.regionFree 0 1 0 1 1 = true ∧ (other { iv with x0 := 1 }).pk.awaits 0 0 { iv with x0 := 1 } = true ∧
    (other { iv with x0 := 1, start := 1000 }).pk.mayStartEarly 0 0 { iv with x0 := 1, start := 1000 } = true ∧
    savedAt.pk.places 0 = true ∧ savedAt.pk.underMax 0 0 1 1 = true ∧ savedAt.pk.regionFree 0 0 0 1 1 = true := by decide +kernel

theorem witness_ResidenciesStartAndEnd :
    let entry : BitVec 1024 := BitVec.ofNat 1024 (image1.addr.toNat % 2 ^ 72 / 64) + desc1
    let x : Resid := { resid0 with st := .starting }
    let y : Swarm := { swarm0 with desc := entry }
    let s := placeAt 0x1000002000 imageBytes (withPk fun p => { p with resids := [x], swarms := [y] })
    let at1 (s : State) : State := let s := s.loadRanges x.die x.vi; { s with pk := s.pk.modTile (x.tileAt 0 0) fun t => { t with ranges := s.mem.loadRanges (s.pk.vi x.vi) } }
    let a := at1 s
    let f := a.fetchImage (x.tileAt 0 0) x.lvl (blockAddr (Desc.entry y.desc))
    let empty : State := { base with pk := s.pk }
    let bad := at1 empty
    let g := bad.fetchImage (x.tileAt 0 0) x.lvl (blockAddr (Desc.entry y.desc))
    let placed := withPk (fun p => { p with resids := [{ x with imaged := true }] }) s
    let placing := withTile (fun t => { t with cfgStream := [{ word := 0, active := true, img := none }] }) placed
    let halted := withCtx fun c => { c with st := .halted }
    let co := withPk fun p => { p with resids := [x], swarms := [{ swarm0 with desc := desc1 + BitVec.ofNat 1024 (2 ^ 364) }] }
    let ended := withPk (fun p => { p with resids := [{ resid0 with st := .ended }] }) (withTile fun t => { t with res := none })
    s.pk.resid? 0 = some x ∧ x.imaged = false ∧ x.aborted = false ∧ s.pk.places 0 = true ∧ decide (s.pk.swarmOf x = some y) = true ∧ s.pk.costartSeen 0 0 y = true ∧
    ((firstImage f.1 f.2).bind Image.check).isNone = true ∧ ((firstImage g.1 g.2).bind Image.check).isSome = true ∧
    placed.pk.resid? 0 = some { x with imaged := true } ∧ x.tiles = [at0] ∧ (placed.pk.tile at0).cfgStream = [] ∧ (placing.pk.tile at0).cfgStream ≠ [] ∧
    halted.pk.residDone 0 resid0 = true ∧ co.pk.startingOn 0 0 = true ∧ co.pk.ringRoom 0 = true ∧
    swarm0.alive = true ∧ ended.pk.allEnded 0 swarm0 = true ∧ ended.pk.acknowledged 0 = true := by decide +kernel

theorem witness_StopsAndPreemption :
    let bounded : Resid := { resid0 with bounded := true, budget := 2 ^ 40 }
    let s := withPk fun p => { p with resids := [bounded] }
    let idle : Resid := { resid0 with watchdog := 2 ^ 24 }
    let w := withPk (fun p => { p with resids := [idle] }) inInst
    let saving : Resid := { resid0 with st := .saving, pre := some 12288 }
    let v := withPk (fun p => { p with resids := [saving] })
    swarm0.aborted = none ∧ bounded.counted = true ∧ s.pk.budget bounded < bounded.budget ∧ (s.pk.ctx at0 0).st = .live ∧ at0 ∈ bounded.tiles ∧
    idle.counted = true ∧ (w.pk.tile at0).oldestCtx = some 0 ∧ 2 ^ 24 ≤ idle.watchdog ∧
    (∀ u ∈ resid0.tiles, (base.pk.tile u).halting = false) ∧ v.pk.savable at0 0 saving = true ∧ saving.tiles = [at0] := by decide +kernel

/-! ### Tasks, orders, accesses, engines -/

theorem witness_TaskSteps :
    let e : TaskEntry := { record := 5 }
    let steal (ts : List TaskEntry) := withTile (fun t => { t with tasks := ts }) (withCtx fun c => { c with stealFrom := some 0 })
    let sent := steal [{ e with st := .transit at0 0 }]
    let done := withTile (fun t => { t with tasks := [{ e with st := .transit at0 0 }] })
    let o : Op := { id := 3, ctx := 0, ctr := 0, cmd := .strm { task := some (0, 0) }, record := some 9 }
    let owing := withTile fun t => { t with sideQ := [o] }
    let thief (s : State) := withCtx (fun c => { c with st := .halted }) s
    let full (s : State) := withTile (fun t => { t with tasks := List.replicate 256 e }) s
    let a : Arrival := { id := 3, tile := at0, res := some 0, record := 9 }
    let far := withPk fun p => { p with arrivals := [a] }
    ((steal [e]).pk.ctx at0 0).stealFrom = some 0 ∧ ((steal [e]).pk.tile at0).sending at0 0 = none ∧ ((steal []).pk.tile at0).tasks = [] ∧
    (sent.pk.tile at0).sending at0 0 = some { e with st := .transit at0 0 } ∧ (sent.pk.ctx at0 0).st = .live ∧ (sent.pk.ctx at0 0).cur.stl = none ∧
    (done.pk.ctx at0 0).stealFrom = none ∧ ((withTile fun t => { t with halting := true }).pk.tile at0).halting = true ∧ (base.pk.ctx at0 0).tcause = 0 ∧
    ((owing.pk.tile at0).sideQ.find? fun y => y.id == 3) = some o ∧ o.send? = none ∧ (o.stream?.map (·.task)) = some (some (0, 0)) ∧
    owing.pk.regionTile at0 0 0 = some at0 ∧ (owing.pk.tile at0).tasks.length < 256 ∧
    ((thief sent).pk.ctx at0 0).stealFrom = some 0 ∧ ((thief sent).pk.ctx at0 0).st = .halted ∧ ((thief sent).pk.tile at0).sending at0 0 = some { e with st := .transit at0 0 } ∧
    ((thief sent).pk.tile at0).tasks.length < 256 ∧ (full owing).pk.regionTile at0 0 0 = some at0 ∧ ((full owing).pk.tile at0).tasks.length = 256 ∧
    (far.pk.arrivals.find? fun b => b.id == 3 && b.tile == at0) = some a ∧ a.res.bind far.pk.resid? = some resid0 ∧ resid0.st = .resident ∧ (far.pk.tile at0).res = a.res ∧
    (∀ y ∈ ((steal [e]).pk.tile at0).tasks, (steal [e]).pk.unput y = false) ∧ ((steal [e]).pk.tile at0).tasks.any (fun y => y.st == .ready) = true ∧
    (done.pk.tile at0).tasks[0]? = some { e with st := .transit at0 0 } ∧ ((done.pk.ctx at0 0).stealFrom.map fun n => (⟨0, n⟩ : TileId)) ≠ some at0 ∧
    (base.pk.ctx at0 0).raised.isNone = true ∧ ((thief base).pk.ctx at0 0).st ≠ .live ∧
    (far.pk.tile at0).sideQ = [] ∧ (far.pk.tile at0).tasks.length < 256 ∧ ((full far).pk.tile at0).tasks.length = 256 ∧ (full far).pk.arrivals = [a] := by decide +kernel

theorem witness_OrdersMove :
    let m : Message := { id := 0, num := 1, die := 0, body := .fence }
    let a : Message := { m with body := .arrive 0 0 }
    let sent (x : Message) := withPk fun p => { p with ring := { p.ring with sent := [x], last := Vector.replicate 8 0, num := 2 } }
    let member := withPk fun p => { p with member := 0, membersUp := 3, plain := { p.plain with sent := [{ m with body := .carried none, heard := 1 }] } }
    let lost := withPk fun p => { p with ring := { p.ring with idle := 2 ^ 32 } }
    let two : Message := { m with acted := 1 }
    let queued := withPk fun p => { p with ring := { p.ring with queues := p.ring.queues.set 0 [m], sent := [two] } }
    let f : ForeignMsg := .memberUp 1
    let told (x : BitVec 8) := withPk (fun p => { p with plain := { p.plain with sent := [{ m with body := .foreign f, missing := x }] } }) member
    let fl (n : Nat) : FlitRun := { die := 0, flit := ⟨1, 4, 2⟩, fails := n }
    let failing (n : Nat) := withPk (fun p => { p with flits := [fl n] }) member
    let quiet := withPk (fun p => { p with plain := { p.plain with idle := 2 ^ 32 } }) member
    queued.pk.tokenLost false = false ∧ (∀ x ∈ queued.pk.ring.sent, x.missing = 0 ∧ x.lack = 0 ∧ queued.pk.ringUp &&& ~~~ x.acted ≠ 0) ∧
    (∀ c, ∀ x ∈ queued.pk.ring.queues.get c, x.acted = 0) ∧ queued.pk.onRing queued.pk.ring.holder = true ∧ base.pk.onRing 0 = true ∧
    (∀ x ∈ (told 0).pk.plain.sent, x.missing = 0) ∧ (∃ x ∈ (told 1).pk.plain.sent, x.body = .foreign f ∧ x.missing ≠ 0) ∧ (told 0).pk.tokenLost true = false ∧
    (told 0).pk.member ≠ 0xFF ∧ bit (told 1).pk.ringUp 0 = true ∧ (failing 14).pk.flits = [fl 14] ∧ (failing 15).pk.flits = [fl 15] ∧ (failing 15).pk.ringRoom 0 = true ∧
    (failing 15).pk.plainRoom 0 = true ∧ quiet.pk.tokenLost true = true ∧ quiet.pk.lowestDie quiet.pk.ringUp = some 0 ∧
    (sent a).pk.resid? 0 = some resid0 ∧ ({ resid0 with bars := resid0.bars.set 0 { scope := some 2 } } : Resid).bars.get 0 = { scope := some 2 } ∧
    base.pk.tokenLost false = false ∧ base.pk.tokenLost true = false ∧ base.pk.ring.sent = [] ∧
    base.pk.plain.visit = 0 ∧ base.pk.plain.sent = [] ∧ ((sent m).pk.order false).nextFor 0 = some m ∧ ((sent a).pk.order false).nextFor 0 = some a ∧
    member.pk.member ≠ 0xFF ∧ member.pk.tokenLost true = false ∧ (member.pk.plain.sent.find? fun x => !member.pk.relayed x).isSome = true ∧
    member.pk.ringRoom 0 = true ∧ bit member.pk.membersUp 1 = true ∧ member.pk.flits = [] ∧ lost.pk.tokenLost false = true ∧
    lost.pk.lowestDie (lost.pk.ringUp &&& ~~~ (BitVec.extractLsb' 0 8 (1 : BitVec 16))) = some 1 := by decide +kernel

def access1 : Access := { id := 7, tile := at0, work := { img := block1, n := 1 }, kind := .st, va := vaM, place := .home 0 0x1000001238 false 0, n := 8, ty := .n64, data := 42 }
def inFlight (a : Access) (s : State := inInst) : State := withPk (fun p => { p with accs := [a] }) s

theorem witness_AccessesPerform :
    let ld : Access := { access1 with kind := .ld }
    let wait : Access := { ld with work := { img := block1, stream := true, n := 0 }, place := .home 0 0x1000100008 true 2 }
    let out : Access := { ld with st := .remote (2 ^ 22), place := .remote 1, res := some 0 }
    let again : Access := { wait with st := .retry 64 }
    let s := withPk fun p => { p with vis := p.vis.set 0 { block0 with ctl := 2 ^ 33 + 1 }, member := 0, membersUp := 3 }
    let entry (a e : Nat) : List Host.Cell := ((natToBytes 8 e).zipIdx.filter fun x => x.1 != 0).map fun x => (a + x.2, x.1)
    let pages := entry 0x1000900000 0x1000908001 ++ entry 0x1000908000 0x1000910001 ++ entry 0x1000910000 0x1000918001 ++ entry 0x1000919800 0x101000011F
    let mapped := withPk fun p => { p with vis := p.vis.set 0 { block0 with root := 0x1000900000 } }
    let walks : State := { mapped with mem := { mapped.mem with cells := mapped.mem.cells ++ pages } }
    let far : VA := 0xFF_00_0000_0030_0000_0008
    let walked (s : State) := walk s.mem s.pk 0 (s.pk.tileVi at0) (far.toNat % 2 ^ 72 / 2 ^ 16)
    let last := withDie (fun x => { x with cache := (walked walks).2.entries.take 3 }) walks
    let pw (k : AccKind) : Access := { access1 with kind := k, place := .home 0 0x1000100008 true 2, va := vaP }
    let full : State := { inInst with mem := { base.mem with full := [(memIndex 0 0x1000100008 / 8, true)] } }
    let crowd := withPk (fun p => { p with accs := p.accs ++ List.replicate 4096 { pw .ld with id := 8, st := .deferred } }) (inFlight (pw .ld))
    let wide : Access := { access1 with n := 16, ty := .w128, va := vaM + 8, place := .home 0 0x1000001240 false 0 }
    let half : Access := { wide with got := [(8, 0, false)] }
    let amo : Access := { access1 with kind := .amo .add false false }
    let pending := withCtx (fun c => { c with cur := { c.cur with pend := [(9, 7)] } }) (inFlight amo)
    let turn (a : Access) (s : State) : Bool := decide ((s.pk.accs.find? fun x => x.id == a.id) = some a) && !(s.pk.tile at0).scoreHolds a &&
      !s.pk.heldByPosted a && !s.pk.beatHolds s.mem a && decide (s.pk.hist.past = [])
    ([.ld, .ldpq].all fun k => turn (pw k) (inFlight (pw k)) && turn (pw k) (inFlight (pw k) full) && (inFlight (pw k)).pk.loadReady base.mem (pw k) &&
      (inFlight (pw k) full).pk.loadReady full.mem (pw k) && ((inFlight (pw k)).pk.tile at0).forwardTable (pw k) == [] && ((inFlight (pw k)).pk.tile at0).alive (pw k).work) = true ∧
    ([.st, .empty].all fun k => turn (pw k) (inFlight (pw k)) && turn (pw k) (inFlight (pw k) full)) = true ∧
    base.mem.isFull (memIndex 0 0x1000100008) = false ∧ full.mem.isFull (memIndex 0 0x1000100008) = true ∧ full.mem.wf = true ∧
    crowd.pk.tableFull (pw .ld) = true ∧ (inFlight (pw .ld)).pk.tableFull (pw .ld) = false ∧ turn (pw .ld) crowd = true ∧
    turn wide (inFlight wide) = true ∧ turn half (inFlight half) = true ∧ (takeStore wide.ty wide.v wide.data).length = 16 ∧ 0x1000001240 % 16 = 0 ∧
    turn amo (inFlight amo) = true ∧ turn { amo with kind := .cas false false } (inFlight { amo with kind := .cas false false }) = true ∧ amo.n = elemBytes amo.ty ∧
    amo.ty.valueWidth = 8 * amo.n ∧ (pending.pk.ctx at0 0).cur.pend = [(9, amo.id)] ∧ (base.pk.ctx at0 0).cur.pend = [] ∧
    ((inFlight again).pk.accs.find? fun x => x.id == again.id) = some again ∧
    base.mem.wf = true ∧ ((inFlight access1).pk.accs.find? fun x => x.id == 7) = some access1 ∧ access1.st = .waiting ∧ access1.got = [] ∧ access1.n ≤ 8 ∧
    access1.origin = none ∧ access1.op = none ∧ access1.owner = none ∧ access1.poison = false ∧ (0x1000001238 % 8 + access1.n ≤ 8) ∧ access1.va.toNat % 8 = 0x1000001238 % 8 ∧
    base.mem.badGranule (memIndex 0 0x1000001238) = false ∧ ((inFlight access1).pk.tile at0).scoreHolds access1 = false ∧
    (inFlight access1).pk.heldByPosted access1 = false ∧ (inFlight access1).pk.beatHolds base.mem access1 = false ∧
    (takeStore access1.ty access1.v access1.data).length = access1.n ∧ (inFlight ld).pk.loadReady base.mem ld = true ∧
    ((inFlight ld).pk.tile at0).forwardTable ld = [] ∧ ((inFlight ld).pk.tile at0).alive ld.work = true ∧ (inFlight ld).pk.hist.past = [] ∧
    ((inFlight ld).pk.tile at0).scoreHolds ld = false ∧
    (inFlight wait).pk.loadReady base.mem wait = true ∧ (inFlight wait).pk.tableFull wait = false ∧ ((inFlight wait).pk.tile at0).scoreHolds wait = false ∧
    placeFull base.mem (inFlight wait).pk at0 (.home 0 0x1000100008 true 2) 8 = false ∧ ((inFlight again).pk.accs.find? fun x => x.id == 7) = some again ∧
    ((inFlight out).pk.tile at0).alive out.work = true ∧ out.res = ((inFlight out).pk.tile at0).res ∧
    s.pk.viOf 0 1 = some 0 ∧ (match (remotePlace s.mem s.pk (s.pk.receiver 1) 0 false .load vaM 8).1 with | .ok _ => true | .error _ => false) = true ∧
    (match (remotePlace s.mem s.pk (s.pk.receiver 1) 0 false .load far 8).1 with | .error _ => true | .ok _ => false) = true ∧
    walks.mem.wf = true ∧ (walks.pk.tile at0).res.isSome = true ∧ (walks.pk.die 0).cache = [] ∧
    1 < (walked walks).2.read.length ∧ (walked walks).2.entries ≠ [] ∧ (walked last).2.read.length ≤ 1 ∧
    ([walked walks, walked last].all fun w => answers w.1
      { map := { pa := 0x1010000000, cls := false, scope := 0, r := true, w := true, x := true, u := true }, first := 0x300000, units := 4096 }) = true := by decide +kernel

theorem witness_MatrixEngine :
    let z : Op := { id := 3, ctx := 0, ctr := 0, cmd := .accz 0 }
    let q (o : Op) := withTile fun t => { t with matrixQ := [o] }
    let k : Op := { z with cmd := .mma 0, started := true, mark := true }
    let w : AccWrite := { id := 5, a := 0, index := 3, v := 9 }
    let buf := withTile fun t => { t with accBuf := [w] }
    firstWaiting ((q z).pk.tile at0).matrixQ = some z ∧ (q z).pk.enginesRun at0 = true ∧ ((q z).pk.tile at0).mayStart z = true ∧
    (q z).pk.unacked at0 z.ctx z.po z.lsid = false ∧ (q z).pk.matrixBreach at0 z = false ∧ ((q z).pk.tile at0).sections = [] ∧ k.partner = none ∧
    ((q z).pk.tile at0).streamQ = [] ∧ (q z).pk.opAccs z.id = false ∧ ((q k).pk.tile at0).runningMma = some (k, 0) ∧
    Mma.follower 0 = false ∧ Mma.asrc 0 = false ∧ swf (0 : W128) ((q k).pk.tile at0).acc = true ∧
    (((q { z with started := true }).pk.tile at0).matrixQ.find? fun x => x.id == 3) = some { z with started := true } ∧
    (q { z with started := true }).pk.opRuns at0 { z with started := true } = true ∧
    (buf.pk.tile at0).accBuf = [w] ∧ ((buf.pk.tile at0).matrixQ.any fun x => x.id < w.id && x.cmd.names w.a) = false := by decide +kernel

/-- A parameter block at 0x10_0000_3000 of a copy from G to the scratchpad. -/
def strmBlock : BitVec 512 := BitVec.ofNat 512 ((vaM + 8).toNat + 2 ^ 80 + 3 * 2 ^ 84)
def vaBlock : VA := 0xFF_00_0000_0010_0000_3000

theorem witness_StreamEngine :
    let c : StreamCmd := { base := vaM + 8, kind := 1, esize := 3, n := [4], s := [8] }
    let o : Op := { id := 3, ctx := 0, ctr := 0, cmd := .strm c }
    let q (o : Op) (s : State := base) := withTile (fun t => { t with streamQ := [o] }) s
    let run : Op := { o with started := true, snap := some (.strm c), held := [(0, dataTok 9)] }
    let at_ (k : BitVec 3) : Op := { o with cmd := .strm { c with kind := k } }
    let port (v : W16) := withTile fun t => { t with active := { elems := [(0xD00, { f := (Vector.replicate 9 0).set 0 v, configured := true, img := some block1 })] } }
    let pb : Op := { o with cmd := .strmpb vaBlock }
    let withBlock := placeAt 0x1000003000 (natToBytes 64 strmBlock.toNat) base
    let block := BitVec.ofNat 512 (bytesToNat (readBytes withBlock.mem.cells (memIndex 0 0x1000003000) 64))
    let c2 : StreamCmd := { c with kind := 2 }
    let load : Op := { o with cmd := .strm c2, started := true, snap := some (.strm c2), held := [(0, dataTok 9)] }
    let sc : SendCmd := { peer := 0xFF }
    let so : Op := { o with cmd := .send sc, snap := some (.send sc) }
    let fresh : Op := { so with snap := none }
    let far : Op := { fresh with cmd := .send { sc with peer := 1 } }
    let sized (st : HandleSt) (n : Nat) (ws : List HandleWait) := withTile fun t => { t with handles := t.handles.set 0 { st := st, size := n, waiters := ws } }
    let h (st : HandleSt) := withTile fun t => { t with handles := t.handles.set 0 { st := st, size := 64, idle := 2 ^ 22 } }
    let up (s : State) := withDie (fun x => { x with reach := x.reach.set 0 2 })
      (withPk (fun p => { p with vis := p.vis.set 0 { block0 with ctl := 2 ^ 33 + 2 ^ 16 + 1 }, member := 0, membersUp := 3, populated := 3 }) s)
    let grouped := withPk (fun p => { p with swarms := [{ swarm0 with desc := desc1 }] }) (up (h .free))
    let fl (n : Nat) : Nat × List Byte × Bool := (16 * n, List.replicate 8 9, false)
    let filling (pos : Nat) : Op := { o with cmd := .strm c2, started := true, snap := some (.strm c2), pos := pos, fills := [fl 0, fl 1] }
    let ff : FarFill := { member := 1, reply := 5, op := 12, bytes := 64, units := [1] }
    let late := withTile fun t => { t with handles := t.handles.set 0 { st := .filling, size := 64, far := some ff, idle := 2 ^ 22 } }
    let others := withTile (fun t => { t with streamQ := [so, { so with id := 9 }] }) (sized .free 64 [.own at0 9])
    firstWaiting ((q o).pk.tile at0).streamQ = some o ∧ (q o).pk.enginesRun at0 = true ∧ ((q o).pk.tile at0).activeStreams < 16 ∧ (q o).pk.forked at0 o = true ∧
    ([o, at_ 0, at_ 3, so, fresh, far].all fun x => !x.unread && !x.stopped && !x.ending) = true ∧
    ([at_ 0, at_ 3].all fun x => (q x).pk.forked at0 x) = true ∧ (q fresh (h .free)).pk.forked at0 fresh = true ∧ (q far (up base)).pk.forked at0 far = true ∧
    (((port 0).pk.tile at0).boundPort false 0).isSome = true ∧ (((port 0x8000).pk.tile at0).boundPort true 0).isSome = true ∧ ((base.pk.tile at0).boundPort false 0) = none ∧
    answers ((q far (up base)).pk.sendPeer at0 { sc with peer := 1 }) (some 1) = true ∧ far.mark = false ∧
    pb.unread = true ∧ (q pb withBlock).pk.forked at0 pb = true ∧ ((q pb withBlock).pk.tile at0).blockCache = [] ∧
    answers (checkG withBlock.mem (q pb withBlock).pk at0 false .load vaBlock 64).1 (.home 0 0x1000003000 false 0) = true ∧
    ((List.range 4).all fun j => !withBlock.mem.badGranule (memIndex 0 0x1000003000 + 16 * j)) = true ∧
    block = strmBlock ∧ strmpbReserved block = true ∧ (parseStrmpb block).blockOk (q pb withBlock).pk at0 = true ∧
    decide (((q load).pk.tile at0).offered = [load]) = true ∧ (q load).pk.opRuns at0 load = true ∧ load.pos < c2.total ∧
    (load.pieces? (c2.piecesOf 0 1)) = some [dataTok 9] ∧ (dataTok 9).poison = false ∧ (q load).pk.omBreach at0 (c2.slot.val + 0 * c2.e / 65536) = false ∧
    (firstSome ((base).transfer at0) (base.pk.tile at0).offered).isNone = true ∧
    decide (((q run).pk.tile at0).offered = [run]) = true ∧ ((q run).transfer at0 run).isSome = true ∧
    firstWaiting ((q so (sized .free 64 [])).pk.tile at0).streamQ = some so ∧ decide (so.send? = some sc) = true ∧
    answers ((q so (sized .free 64 [])).pk.sendPeer at0 sc) none = true ∧ decide ((q so (sized .free 64 [])).pk.sendDest at0 sc = .tile at0) = true ∧
    (((q so (sized .free 64 [])).pk.tile at0).handles.get sc.handle).st = .free ∧ sc.bytes ≤ 64 ∧ ((q so (sized .free 64 [])).pk.tile at0).scoreboard < 32 ∧
    ((others.pk.tile at0).handles.get sc.handle).waiters = HandleWait.own at0 9 :: [] ∧ others.pk.stillWaits (.own at0 9) = true ∧
    firstWaiting (others.pk.tile at0).streamQ = some so ∧ HandleWait.own at0 9 ≠ .own at0 so.id ∧
    (up (h .free)).pk.viOf 0 1 = some 0 ∧ grouped.pk.viOf 0 1 = some 0 ∧ decide (grouped.pk.spotDest 0 ⟨0, 0, 0⟩ = some (.tile at0)) = true ∧
    decide (grouped.pk.spotDest 0 ⟨0, 0, 9⟩ = some .absent) = true ∧ decide (grouped.pk.spotDest 0 ⟨1, 0, 0⟩ = none) = true ∧ base.pk.viOf 0 1 = none ∧
    bit (up base).pk.membersUp 1 = true ∧
    decide (((q (filling 2)).pk.tile at0).offered = [filling 2]) = true ∧ (q (filling 2)).pk.opRuns at0 (filling 2) = true ∧
    decide (((q (filling 4)).pk.tile at0).offered = [filling 4]) = true ∧ (q (filling 4)).pk.opRuns at0 (filling 4) = true ∧ c2.total ≤ (filling 4).pos ∧ c2.total = 4 ∧
    ((up (h .free)).pk.tile at0).scoreboard < 32 ∧ (((up (h .free)).pk.tile at0).handles.get 0).waiters = [] ∧
    ((late.pk.tile at0).handles.get 0).far = some ff ∧ ((late.pk.tile at0).handles.get 0).st = .filling := by
  decide +kernel

theorem witness_BeatsAndElementFaults :
    let x : Section := { ctx := 0, img := block1, sides := 1, window := 1, count := some 4, stamp := 0, op := 9, outPos := [(0, 0)] }
    let at_ (a : Nat) (v : W16) : Nat × ElemState := (a, { f := (Vector.replicate 9 0).set 0 v, configured := true, img := some block1 })
    let fed (k : Token) := withTile fun t => { t with
      active := { elems := [at_ 0xB00 0, at_ 0xD00 0x8000] }
      sections := [x]
      links := [{ src := 0x021, tgt := .output 0, work := { img := block1, stream := true, n := 0 }, tok := k }]
      streamQ := [{ id := 4, ctx := 0, ctr := 0, cmd := .strm { kind := 3, n := [4], s := [8] }, started := true, snap := some (.strm { kind := 3, n := [4], s := [8] }) }] }
    let drain : Op := { id := 3, ctx := 0, ctr := 0, cmd := .accdrn 0, started := true }
    let d := withTile fun t => { t with matrixQ := [drain], accPoison := [(0, true)] }
    ((fed (dataTok 1)).pk.tile at0).egress? 0 = some (x, 0) ∧ x.stop.isNone = true ∧ (egressFault 0 false (dataTok 1)).isNone = true ∧
    (((fed (dataTok 1)).pk.tile at0).taker 0 x).isSome = true ∧ (egressFault 0 false (faultTok Cause.priv 0 0 0)).isSome = true ∧
    decide ((d.pk.tile at0).op? 3 = some drain) = true ∧ Drain.section_ 0 = false ∧ drain.pos < Drain.units 0 ∧
    (d.pk.tile at0).streamQ = [] ∧ d.pk.opAccs 3 = false ∧
    ((Drain.wordsOf 0 0).find? fun i => sget false (d.pk.tile at0).accPoison ((Drain.acc 0).val * 16384 + i)) = some 0 := by decide +kernel

theorem witness_ConfigurationCommands :
    let o : Op := { id := 3, ctx := 0, ctr := 0, cmd := .cfgsw 1, started := true }
    let s := withTile fun t => { t with configQ := [o] }
    let bad : ElemState := { configured := true, blocked := true, img := some block1 }
    let b := withTile fun t => { t with configQ := [o], shadow := { elems := [(0x021, bad)] } }
    b.pk.enginesRun at0 = true ∧ b.pk.planesIdle at0 1 = true ∧ ((((b.pk.tile at0).shadow.part 1).elems.find? fun e => e.2.blocked) = some (0x021, bad)) ∧
    commandOk 0x200 0 = true ∧ commandOk 0x200 9 = false ∧ swf {} ((base.pk.tile at0).plane true).elems = true ∧ (s.pk.tile at0).configQ = [o] ∧
    s.pk.enginesRun at0 = true ∧ s.pk.planesIdle at0 1 = true ∧ ((((s.pk.tile at0).shadow.part 1).elems.find? fun e => e.2.blocked).isNone) = true := by
  decide +kernel

theorem witness_StorageErrors :
    (base.pk.ctx at0 0).st = .live ∧ (0x021 : BitVec 12).toNat / 256 ≠ 12 ∧ (base.pk.tile at0).fenced = false ∧ resid0.die = 0 ∧
    (base.pk.tile at0).res = some 0 ∧ base.pk.resid? 0 = some resid0 ∧ resid0.st = .resident ∧ resid0.aborted = false := by decide +kernel

/-- A step from a state that keeps the invariant, and a firing, both with a next state; an instruction that encodes. -/
theorem witness_EveryStepKeepsTheInvariant : (State.reset.withFetchWord 32 0x20000400).mem.wf = true ∧
    (match step (State.reset.withFetchWord 32 0x20000400) with | .next _ => true | _ => false) = true := by decide +kernel

theorem witness_FiringsLeaveCommittedState : (Instr.iadd (to0 .i32)).slot.isSome = true ∧
    (match exec (.iadd (to0 .i32)) (fire (dataTok 1) (dataTok 2)) with | .next _ => true | _ => false) = true := by decide +kernel

theorem witness_DecodeAndEncodeAgree : (Instr.iadd (to0 .i32)).wf = true ∧
    answers (decode (encode (.iadd (to0 .i32)))) (.iadd (to0 .i32)) = true := by decide +kernel
end Sys2Proof.Tests
end

/-! SUPPORT. The part as a whole: records noted, what work on tiles leaves of the dies, residencies that lose a tile, the
ring's queues, and caps. -/

namespace Sys2Proof.Machine

/-! ### Bits and vectors -/

theorem bit_withBit {w : Nat} (x : BitVec w) (k : Nat) (v : Bool) (j : Nat) :
    bit (withBit x k v) j = if j = k then v && decide (k < w) else bit x j := by
  have hp : (BitVec.ofNat w (2 ^ k)).getLsbD j = (decide (j < w) && decide (k = j)) := by
    rw [BitVec.getLsbD_ofNat, Nat.testBit_two_pow]
  have hx : ¬ j < w → x.getLsbD j = false := fun h => x.getLsbD_of_ge j (Nat.le_of_not_lt h)
  have hw : bit (withBit x k v) j = if v then x.getLsbD j || (decide (j < w) && decide (k = j))
      else x.getLsbD j && (decide (j < w) && !(decide (j < w) && decide (k = j))) := by
    cases v <;> simp only [withBit, bit, Bool.false_eq_true, if_false, if_true, BitVec.getLsbD_and, BitVec.getLsbD_not,
      BitVec.getLsbD_or, hp]
  rw [hw]
  by_cases h : j = k
  · subst h; by_cases hj : j < w <;> cases v <;> simp [hj, hx]
  · have hk : ¬ k = j := fun e => h e.symm
    by_cases hj : j < w <;> cases v <;> simp [hj, hx, h, hk, bit]

theorem get_map {α β : Type} {n : Nat} (v : Vector α n) (f : α → β) (i : Fin n) : (v.map f).get i = f (v.get i) := by
  change (v.map f)[(i : Nat)] = f v[(i : Nat)]; simp

/-! ### Updates that agree where they are made -/

theorem Pack.modDie_congr {p : Pack} {d : DieId} {f g : Die → Die} (h : f (p.die d) = g (p.die d)) : p.modDie d f = p.modDie d g := by
  simp only [Pack.modDie, Pack.die] at h ⊢; rw [h]

theorem Pack.modDie_self {p : Pack} {d : DieId} {f : Die → Die} (h : f (p.die d) = p.die d) : p.modDie d f = p := by
  simp only [Pack.modDie, Pack.die] at h ⊢; rw [h, set_get_self]

theorem Pack.modTile_congr {p : Pack} {t : TileId} {f g : Tile → Tile} (h : f (p.tile t) = g (p.tile t)) :
    p.modTile t f = p.modTile t g := by
  refine Pack.modDie_congr ?_
  simp only [Pack.tile] at h; rw [h]

/-- The outcomes of a step of the package, for two packages that are one. -/
theorem next_pk {s : State} {p q : Pack} (h : p = q) :
    (.next { s with pk := p } : Host.Outcome State Fault Refusal) = .next { s with pk := q } := by rw [h]

/-! ### Records of a list of VIs -/

/-- A record for each member of a list. -/
theorem Pack.foldl_note {α : Type} (g : α → PendRec) (l : List α) (p : Pack) :
    l.foldl (fun p a => p.note (g a)) p = { p with pending := p.pending ++ l.map g } := by
  induction l generalizing p with
  | nil => simp
  | cons a l ih => rw [List.foldl_cons, ih]; simp [Pack.note]

/-- A residency at work is that of a VI with work on its die. -/
theorem Pack.vi_mem_visOn {p : Pack} {d : DieId} {r : Nat} {x : Resid} (hx : p.resid? r = some x) (hd : x.die = d)
    (hst : x.st ≠ .ended) : x.vi ∈ p.visOn d := by
  have hm : x ∈ p.resids := List.mem_of_getElem? hx
  simp only [Pack.visOn, List.mem_eraseDups, List.mem_map, List.mem_filter]
  exact ⟨x, ⟨hm, by simp [hd, hst]⟩, rfl⟩

theorem Pack.noteMargin_eq (p : Pack) (d : DieId) : p.noteMargin d = { p with pending := p.pending ++ (p.visOn d).map fun v =>
    { fr := { vi := v, die := d, kind := 5, cause := Cause.margin, cls := 2 } } } := Pack.foldl_note _ _ _

/-- The MARGIN record of a VI whose residency is at work on the die. -/
theorem Pack.noteMargin_tells {p : Pack} {d : DieId} {r : Nat} {x : Resid} (hx : p.resid? r = some x) (hd : x.die = d)
    (hst : x.st ≠ .ended) : ∃ n ∈ (p.noteMargin d).pending, n.fr.kind = 5 ∧ n.fr.cause = Cause.margin ∧ n.fr.vi = x.vi := by
  rw [Pack.noteMargin_eq]
  exact ⟨_, List.mem_append_right _ (List.mem_map_of_mem (Pack.vi_mem_visOn hx hd hst)), rfl, rfl, rfl⟩

/-! ### Residencies in turn -/

/-- A step made for each residency of a list, which changes that residency alone: one in the list that holds `P` holds `Q` in
the end, where a second turn keeps `Q`. -/
theorem Pack.resid?_foldl {f : Pack → Nat → Pack} {r : Nat} {P Q : Resid → Prop}
    (hother : ∀ p k, k ≠ r → (f p k).resid? r = p.resid? r)
    (hself : ∀ p x, p.resid? r = some x → P x ∨ Q x → ∃ y, (f p r).resid? r = some y ∧ Q y)
    (l : List Nat) (p : Pack) (x : Resid) (hx : p.resid? r = some x) (h : (P x ∧ r ∈ l) ∨ Q x) :
    ∃ y, (l.foldl f p).resid? r = some y ∧ Q y := by
  induction l generalizing p x with
  | nil => exact ⟨x, hx, h.resolve_left (by simp)⟩
  | cons k l ih =>
    by_cases hk : k = r
    · subst hk
      obtain ⟨y, hy, hq⟩ := hself p x hx (h.imp_left (·.1))
      exact ih _ y hy (.inr hq)
    · refine ih _ x ((hother p k hk).trans hx) (h.imp_left fun h => ⟨h.1, ?_⟩)
      exact (List.mem_cons.1 h.2).resolve_left (Ne.symm hk)

/-! ### What work on tiles leaves of the dies -/

/-- A die's registers: all but its tiles and what its scheduler and its error queues hold. -/
def Die.regs (x : Die) : Die := { x with tiles := Vector.replicate 64 {}, stays := [], plan := [], launchHeld := 0, errq := [] }

/-- Every die's registers, the order ring and the records noted so far stand. -/
structure RegsKept (p q : Pack) : Prop where
  regs : ∀ d, (q.die d).regs = (p.die d).regs
  ring : q.ring = p.ring
  ringUp : q.ringUp = p.ringUp
  pending : p.pending <+: q.pending

theorem RegsKept.refl (p : Pack) : RegsKept p p := ⟨fun _ => rfl, rfl, rfl, List.prefix_rfl⟩

theorem RegsKept.trans {p q r : Pack} (h : RegsKept p q) (k : RegsKept q r) : RegsKept p r :=
  ⟨fun d => (k.regs d).trans (h.regs d), k.ring.trans h.ring, k.ringUp.trans h.ringUp, h.pending.trans k.pending⟩

/-- A register of a die that stands. -/
theorem RegsKept.field {α : Type} {p q : Pack} (h : RegsKept p q) (F : Die → α) (hF : ∀ x, F x.regs = F x) (d : DieId) :
    F (q.die d) = F (p.die d) := by rw [← hF, h.regs, hF]

theorem RegsKept.foldl {α : Type} {f : Pack → α → Pack} (h : ∀ p a, RegsKept p (f p a)) (l : List α) (p : Pack) :
    RegsKept p (l.foldl f p) :=
  List.foldlRecOn l f (motive := RegsKept p) (RegsKept.refl p) fun q hq a _ => hq.trans (h q a)

theorem regsKept_of {p q : Pack} (hd : q.dies = p.dies) (hr : q.ring = p.ring) (hu : q.ringUp = p.ringUp)
    (hp : p.pending <+: q.pending) : RegsKept p q := ⟨fun d => by simp only [Pack.die, hd], hr, hu, hp⟩

theorem regsKept_modDie (p : Pack) (d : DieId) {f : Die → Die} (h : (f (p.die d)).regs = (p.die d).regs) :
    RegsKept p (p.modDie d f) := by
  refine ⟨fun e => ?_, rfl, rfl, List.prefix_rfl⟩
  rw [Pack.die_modDie_ite]; split
  · next e => rw [e, h]
  · rfl

theorem regsKept_modTile (p : Pack) (t : TileId) (f : Tile → Tile) : RegsKept p (p.modTile t f) :=
  regsKept_modDie p t.die rfl

theorem regsKept_modResid (p : Pack) (r : Nat) (f : Resid → Resid) : RegsKept p (p.modResid r f) :=
  regsKept_of rfl rfl rfl List.prefix_rfl

theorem regsKept_accs (p : Pack) (l : List Access) : RegsKept p { p with accs := l } := regsKept_of rfl rfl rfl List.prefix_rfl

theorem regsKept_note (p : Pack) (n : PendRec) : RegsKept p (p.note n) := regsKept_of rfl rfl rfl (List.prefix_append _ _)

/-! ### A residency that loses a tile -/

theorem regsKept_handOver (p : Pack) (ts : List TileId) (lost : TileId → Bool) : RegsKept p (p.handOver ts lost) := by
  refine RegsKept.foldl (fun q t => RegsKept.foldl (fun q e => ?_) _ q) _ p
  split
  · split
    · exact regsKept_modTile q _ _
    · exact RegsKept.refl q
  · exact RegsKept.refl q

theorem regsKept_vacate (p : Pack) (x : Resid) (r : Nat) : RegsKept p (p.vacate x r) :=
  RegsKept.foldl (fun q t => regsKept_modTile q t _) _ p

theorem regsKept_endStay (p : Pack) (r : Nat) : RegsKept p (p.endStay r) := by
  unfold Pack.endStay; split
  · exact RegsKept.refl p
  · exact regsKept_modDie p _ rfl

theorem regsKept_stopLost (p : Pack) (r : Nat) (lost : TileId → Bool) (cause : Byte) : RegsKept p (p.stopLost r lost cause) := by
  unfold Pack.stopLost; split
  · exact RegsKept.refl p
  · next x _ =>
    split
    · exact RegsKept.refl p
    · have h1 := regsKept_handOver p x.tiles lost
      have h2 := h1.trans (regsKept_accs _ _ : RegsKept _ ((p.handOver x.tiles lost).loseAccs r))
      have h3 := (h2.trans (regsKept_vacate _ x r)).trans (regsKept_endStay _ r)
      have h4 := fun f => h3.trans (regsKept_modResid _ r f)
      refine RegsKept.trans ?_ (regsKept_note _ _)
      exact (h4 _).trans (RegsKept.foldl (fun q t => regsKept_modTile q t _) _ _)

@[simp] theorem Pack.handOver_resids (p : Pack) (ts : List TileId) (lost : TileId → Bool) : (p.handOver ts lost).resids = p.resids := by
  refine List.foldlRecOn _ _ (motive := fun q : Pack => q.resids = p.resids) rfl fun q hq t _ => ?_
  refine List.foldlRecOn _ _ (motive := fun q : Pack => q.resids = p.resids) hq fun q hq e _ => ?_
  split
  · split <;> exact hq
  · exact hq

theorem Pack.foldl_modTile_resids (l : List TileId) (f : Tile → Tile) (p : Pack) :
    (l.foldl (fun p t => p.modTile t f) p).resids = p.resids :=
  List.foldlRecOn l _ (motive := fun q : Pack => q.resids = p.resids) rfl fun _ hq _ _ => hq

@[simp] theorem Pack.vacate_resids (p : Pack) (x : Resid) (r : Nat) : (p.vacate x r).resids = p.resids :=
  Pack.foldl_modTile_resids _ _ _

@[simp] theorem Pack.endStay_resids (p : Pack) (r : Nat) : (p.endStay r).resids = p.resids := by
  unfold Pack.endStay; split <;> rfl

/-- What a lost tile makes of its residency: stopped for good, or ended where its swarm is aborted. -/
theorem Pack.stopLost_resids {p : Pack} {r : Nat} {x : Resid} (lost : TileId → Bool) (cause : Byte) (hx : p.resid? r = some x)
    (hst : x.st ≠ .ended) : ∃ saved, (p.stopLost r lost cause).resids = p.resids.modify r fun y =>
      { y with st := if y.aborted then .ended else .stopped, fencedOut := true, stopCause := some cause, pre := none, cut := false
               saved := if y.aborted then [] else saved } := by
  refine ⟨(p.handOver x.tiles lost).remains x r lost, ?_⟩
  simp [Pack.stopLost, hx, hst, Pack.note, Pack.foldl_modTile_resids, Pack.modResid, Pack.loseAccs]

theorem Pack.stopLost_resid?_ne (p : Pack) {r k : Nat} (lost : TileId → Bool) (cause : Byte) (h : k ≠ r) :
    (p.stopLost k lost cause).resid? r = p.resid? r := by
  by_cases hk : ∃ x, p.resid? k = some x ∧ x.st ≠ .ended
  · obtain ⟨x, hx, hst⟩ := hk
    obtain ⟨sv, e⟩ := Pack.stopLost_resids lost cause hx hst
    simp [Pack.resid?, e, h]
  · unfold Pack.stopLost; split
    · rfl
    · next x hx =>
      have hst : x.st = .ended := Classical.byContradiction fun hst => hk ⟨x, hx, hst⟩
      rw [if_pos (beq_iff_eq.2 hst)]

/-- A residency that the loss of a tile stops for good (R18, R439). -/
def Resid.Lost (x : Resid) : Prop := x.st = .stopped ∧ x.fencedOut = true ∧ x.aborted = false

theorem Pack.stopLost_lost {p : Pack} {r : Nat} {x : Resid} (lost : TileId → Bool) (cause : Byte) (hx : p.resid? r = some x)
    (hst : x.st ≠ .ended) (ha : x.aborted = false) : ∃ y, (p.stopLost r lost cause).resid? r = some y ∧ y.Lost := by
  obtain ⟨sv, e⟩ := Pack.stopLost_resids lost cause hx hst
  simp only [Pack.resid?] at hx
  simp [Pack.resid?, e, hx, ha, Resid.Lost]

/-- Every residency with state on a lost tile is stopped for good. -/
theorem Pack.foldl_stopLost_lost {p : Pack} {r : Nat} {x : Resid} {l : List Nat} (lost : TileId → Bool) (cause : Byte) (hr : r ∈ l)
    (hx : p.resid? r = some x) (hst : x.st ≠ .ended) (ha : x.aborted = false) :
    ∃ y, (l.foldl (fun p r => p.stopLost r lost cause) p).resid? r = some y ∧ y.Lost := by
  refine Pack.resid?_foldl (P := fun y => y.st ≠ .ended ∧ y.aborted = false) (fun q k hk => q.stopLost_resid?_ne lost cause hk)
    (fun q y hy h => ?_) l p x hx (.inl ⟨⟨hst, ha⟩, hr⟩)
  obtain ⟨h1, h2⟩ | ⟨h1, -, h2⟩ := h
  · exact Pack.stopLost_lost lost cause hy h1 h2
  · exact Pack.stopLost_lost lost cause hy (by simp [h1]) h2

/-! ### The ring's queues -/

/-- A message enters a die's queue where that has room. -/
theorem Order.push_queue {o : Order} {d : DieId} (h : o.room d = true) (m : Message) :
    (o.push d m).queues.get d = o.queues.get d ++ [m] := by simp [Order.push, h, get_set_self]

/-- A message stands behind every one of its die's that has not been sent, in its queue or waiting for room there. -/
theorem Order.push_behind (o : Order) (d : DieId) (m : Message) :
    (o.push d m).queues.get d ++ (o.push d m).late.get d = o.queues.get d ++ o.late.get d ++ [m] := by
  by_cases h : o.room d = true
  · have hl : o.late.get d = [] := by
      simp only [Order.room, Bool.and_eq_true, List.isEmpty_iff] at h; exact h.2
    simp [Order.push, h, hl, get_set_self]
  · simp [Order.push, h, get_set_self]

theorem Pack.enqueueRing_bodies {p : Pack} {d : DieId} (h : p.ringRoom d = true) (n : Nat) (b : MsgBody) :
    ((p.enqueueRing d n b).ring.queues.get d).map (·.body) = (p.ring.queues.get d).map (·.body) ++ [b] := by
  simp [Pack.enqueueRing, Order.push_queue (show p.ring.room d = true from h)]

@[simp] theorem Pack.enqueueRing_die (p : Pack) (d e : DieId) (n : Nat) (b : MsgBody) : (p.enqueueRing d n b).die e = p.die e := rfl

@[simp] theorem Pack.enqueueRing_tile (p : Pack) (d : DieId) (t : TileId) (n : Nat) (b : MsgBody) :
    (p.enqueueRing d n b).tile t = p.tile t := rfl

/-! ### Caps -/

theorem quarters_le (c : BitVec 2) : quarters c ≤ 4 := Nat.sub_le _ _

theorem Die.capAt_cap (x : Die) (b : Bool) {q : Nat} (hq : q ≤ 4) :
    (x.capAt b q).cap.val = if b then quarters x.rhoNow else max q (quarters x.rhoNow) := by
  have hr := quarters_le x.rhoNow
  simp only [Die.capAt, Fin.ofNat]
  split <;> omega

/-- No cap lies below ρ, and the collar's issue is capped only at ρ. -/
theorem Die.capAt_bounds (x : Die) (b : Bool) {q : Nat} (hq : q ≤ 4) : quarters x.rhoNow ≤ (x.capAt b q).cap.val ∧
    ((x.capAt b q).collarCap = true → (x.capAt b q).cap.val = quarters x.rhoNow) := by
  have hr := quarters_le x.rhoNow
  have hcap := Die.capAt_cap x b hq
  constructor
  · rw [hcap]; split
    · exact Nat.le_refl _
    · exact Nat.le_max_right _ _
  · intro hc
    simp only [Die.capAt, Bool.and_eq_true, beq_iff_eq] at hc
    rw [hcap]; exact hc.2

@[simp] theorem Pack.recap_die (p : Pack) (d : DieId) : p.recap.die d = (p.die d).capAt p.outOfLimits (p.die d).cap.val := by
  simp only [Pack.recap, Pack.die]; exact get_map _ _ _

@[simp] theorem Pack.recap_resid? (p : Pack) (r : Nat) : p.recap.resid? r = p.resid? r := rfl

end Sys2Proof.Machine

/-! PROOF. Errors that the part finds in its storage (O60). -/

namespace Sys2Proof.Machine

/-! ### Registers and accumulator words (R216, R433) -/

theorem CtxImage.getG_setG (x : CtxImage) (g : Fin 128) (v : W128) (b : Bool) (k : Nat) :
    (x.setG g.val v b).getG k = if k = g.val then (v, b) else x.getG k := by
  by_cases hk : k = g.val
  · subst hk; simp [CtxImage.setG, CtxImage.getG, bit_withBit]
  · simp [CtxImage.setG, CtxImage.getG, bit_withBit, hk, Ne.symm hk]

@[simp] theorem CtxImage.setG_pc (x : CtxImage) (k : Nat) (v : W128) (b : Bool) : (x.setG k v b).pc = x.pc := by
  unfold CtxImage.setG; split <;> rfl

@[simp] theorem Pack.modCur_cur (p : Pack) (t : TileId) (c : CtxId) (f : CtxImage → CtxImage) :
    ((p.modCur t c f).ctx t c).cur = f (p.ctx t c).cur := by simp [Pack.modCur]

@[simp] theorem Pack.defer_ctx (p : Pack) (t u : TileId) (c b : CtxId) (cause sub : Byte) (va block : VA)
    (itb : BitVec 48) (coord : W16) (op : Option Nat) : (p.defer t c cause sub va block itb coord op).ctx u b = p.ctx u b := rfl

/-- A register's error poisons that register alone, and a deferred ECC trap is noted for its context (R433). -/
theorem execRegisterEccError_poisons {s : State} {t : TileId} {c : CtxId} (g : Fin 128) (h : (s.pk.ctx t c).st ≠ .free) :
    ∃ u, execRegisterEccError t c g s = .next u ∧ u.mem = s.mem ∧ ((u.pk.ctx t c).cur.getG g.val).2 = true ∧
      (∀ k, k ≠ g.val → (u.pk.ctx t c).cur.getG k = (s.pk.ctx t c).cur.getG k) ∧ (u.pk.ctx t c).cur.pc = (s.pk.ctx t c).cur.pc ∧
      ∃ n, u.pk.pending = s.pk.pending ++ [n] ∧ n.ctx = some (t, c) ∧ n.fr.cause = Cause.eccDeferred ∧ n.fr.sub = 4 ∧ n.fr.cls = 2 := by
  refine ⟨{ s with pk := (s.pk.modCur t c _).defer t c Cause.eccDeferred 4, freeCount := s.freeCount + 1 },
    by rw [execRegisterEccError, if_neg (by simpa using h)], rfl, ?_, fun k hk => ?_, ?_, _, rfl, rfl, rfl, rfl, rfl⟩
  · simp [CtxImage.getG_setG]
  · simp [CtxImage.getG_setG, hk]
  · simp

theorem Pack.softNote_softErrors (p : Pack) (t : TileId) :
    ((p.softNote t).die t.die).softErrors = (p.die t.die).softErrors + 1 := by
  have h : ((p.softNote t).die t.die) = (p.modDie t.die fun d => { d with softErrors := d.softErrors + 1 }).die t.die := by
    unfold Pack.softNote; dsimp only; split <;> rfl
  rw [h, Pack.die_modDie]

theorem packKept_softNote (p : Pack) (t : TileId) : PackKept p (p.softNote t) := by
  have h := packKept_modDie p t.die (f := fun d => { d with softErrors := d.softErrors + 1 }) rfl
  unfold Pack.softNote; dsimp only; split
  · exact h.trans (packKept_note _ _)
  · exact h

@[simp] theorem Pack.softNote_tile (p : Pack) (t u : TileId) : (p.softNote t).tile u = p.tile u := by
  have h := Pack.tile_modDie p t.die (fun d => { d with softErrors := d.softErrors + 1 }) u rfl
  unfold Pack.softNote; dsimp only; split <;> exact h

/-- An accumulator word's error poisons it and counts as a soft error (R216). -/
theorem execSramUncorrectable_acc (s : State) (t : TileId) (a : Fin 4) {w : Nat} (hw : w < 16384) :
    ∃ u, execSramUncorrectable t (.acc a w) s = .next u ∧ u.mem = s.mem ∧
      (u.pk.die t.die).softErrors = (s.pk.die t.die).softErrors + 1 ∧
      sget false (u.pk.tile t).accPoison (a.val * 16384 + w) = true ∧ (u.pk.tile t).acc = (s.pk.tile t).acc ∧
      (u.pk.tile t).ctxs = (s.pk.tile t).ctxs := by
  refine ⟨_, rfl, rfl, ?_, ?_, ?_, ?_⟩
  · rw [Pack.softNote_softErrors, Pack.dieField_modTile Die.softErrors fun _ _ => rfl]
  · simpa [Tile.spoil, Nat.mod_eq_of_lt hw] using sget_sset_of_ne _ _ _ (by decide)
  · simp [Tile.spoil]
  · simp [Tile.spoil]

/-! ### Parity (R432) -/

theorem regsKept_useWindow (p : Pack) (d : DieId) (n : Nat) (f : Nat → Nat) : RegsKept p (p.useWindow d n f) := by
  unfold Pack.useWindow; exact regsKept_modDie p d rfl

theorem regsKept_returnLsid (p : Pack) (t : TileId) (v : LsidVal) : RegsKept p (p.returnLsid t v) := by
  unfold Pack.returnLsid; split
  · dsimp only; split
    · refine (regsKept_modDie p _ rfl).trans (RegsKept.foldl (fun q d => ?_) _ _)
      split
      · exact regsKept_useWindow _ _ _ _
      · exact RegsKept.refl q
    · exact regsKept_modDie p _ rfl
  · exact regsKept_modDie p _ rfl
  · exact RegsKept.refl p

theorem regsKept_squash (p : Pack) (t : TileId) (c : CtxId) (k : Nat) : RegsKept p (p.squash t c k) := by
  have h : ∀ gone, RegsKept p (p.returnHeld t gone) := fun gone =>
    RegsKept.foldl (fun q _ => RegsKept.foldl (fun q _ => regsKept_returnLsid q t _) _ q) _ p
  exact ((h _).trans (regsKept_modTile _ t _)).trans (regsKept_accs _ _)

theorem regsKept_respawn (p : Pack) (t : TileId) (c : CtxId) (i : Inst) (n : Option Nat) : RegsKept p (p.respawn t c i n) := by
  unfold Pack.respawn Pack.modCtx; exact regsKept_modTile p t _

theorem PackKept.cur {p q : Pack} (h : PackKept p q) (t : TileId) (c : CtxId) : (q.ctx t c).cur = (p.ctx t c).cur :=
  congrArg (·.2.1) ((h t).ctx c)

/-- Replaying instances keeps the dies' registers and what is committed of every context. -/
theorem Pack.replayHurt_kept (p : Pack) (t : TileId) (a : BitVec 12) (c : CtxId) :
    RegsKept p (p.replayHurt t a c) ∧ PackKept p (p.replayHurt t a c) := by
  unfold Pack.replayHurt; split
  · exact ⟨RegsKept.refl p, PackKept.refl p⟩
  · split
    · exact ⟨RegsKept.refl p, PackKept.refl p⟩
    · exact ⟨(regsKept_squash p t c _).trans (regsKept_respawn _ t c _ _),
        (packKept_squash p t c _).trans (packKept_respawn _ t c _ _)⟩

/-- So does setting sections back. -/
theorem Pack.rearm_kept (p : Pack) (t : TileId) (a : BitVec 12) : RegsKept p (p.rearm t a) ∧ PackKept p (p.rearm t a) := by
  have hr (q : Pack) (x : Section) (b : Nat) : RegsKept q (q.takeBack t x b) :=
    (regsKept_accs q _).trans (regsKept_modTile _ t _)
  have hp (q : Pack) (x : Section) (b : Nat) : PackKept q (q.takeBack t x b) :=
    (packKept_dies (p := q) (q := q.dropLoads t x) rfl).trans (packKept_modTile _ t (tileKept_of rfl rfl rfl rfl rfl))
  exact ⟨RegsKept.foldl (fun q x => hr q x _) _ p, packKept_foldl _ _ (fun q x => hp q x _) p⟩

/-- A parity error of an element counts as a soft error and keeps what is committed of every context (R432). -/
theorem execParityError_element (s : State) (t : TileId) {e : BitVec 12} (he : e.toNat / 256 ≠ 12) :
    ∃ u, execParityError t e s = .next u ∧ u.mem = s.mem ∧
      (u.pk.die t.die).softErrors = (s.pk.die t.die).softErrors + 1 ∧ ∀ b, (u.pk.ctx t b).cur = (s.pk.ctx t b).cur := by
  obtain ⟨p, hp⟩ : ∃ p, p = allCtxs.foldl (fun p c => p.replayHurt t e c) s.pk := ⟨_, rfl⟩
  have hr : RegsKept s.pk (p.rearm t e) :=
    (hp ▸ RegsKept.foldl (fun q c => (q.replayHurt_kept t e c).1) _ _ : RegsKept s.pk p).trans (p.rearm_kept t e).1
  have hk : PackKept s.pk ((p.rearm t e).softNote t) :=
    ((hp ▸ packKept_foldl _ _ (fun q c => (q.replayHurt_kept t e c).2) _ : PackKept s.pk p).trans (p.rearm_kept t e).2).trans
      (packKept_softNote _ t)
  refine ⟨{ s with pk := (p.rearm t e).softNote t }, by simp [execParityError, he, hp], rfl, ?_, hk.cur t⟩
  rw [Pack.softNote_softErrors, hr.field Die.softErrors fun _ => rfl]

/-! ### A fenced tile (R18, R439) -/

/-- Stopping the residencies of a list keeps the dies' registers, the ring and the records noted so far. -/
theorem regsKept_stopAll (l : List Nat) (lost : TileId → Bool) (cause : Byte) (p : Pack) :
    RegsKept p (l.foldl (fun p r => p.stopLost r lost cause) p) := RegsKept.foldl (fun q r => regsKept_stopLost q r lost cause) l p

theorem Pack.fence_ring (p : Pack) (t : TileId) (cause : Byte) : (p.fence t cause).ring = p.ring := (regsKept_stopAll _ _ cause p).ring

theorem Pack.fence_pending (p : Pack) (t : TileId) (cause : Byte) : p.pending <+: (p.fence t cause).pending :=
  (regsKept_stopAll _ _ cause p).pending

/-- A fenced tile holds nothing. -/
theorem Pack.fence_tile (p : Pack) (t : TileId) (cause : Byte) :
    ((p.fence t cause).tile t).fenced = true ∧ ((p.fence t cause).tile t).res = none ∧ ((p.fence t cause).tile t).insts = [] := by
  unfold Pack.fence
  rw [Pack.tile_modTile]
  exact ⟨rfl, rfl, rfl⟩

/-- The residency of a fenced tile is stopped for good. -/
theorem Pack.fence_stops {p : Pack} {t : TileId} {r : Nat} {x : Resid} (cause : Byte) (hr : (p.tile t).res = some r)
    (hx : p.resid? r = some x) (hst : x.st ≠ .ended) (ha : x.aborted = false) :
    ∃ y, (p.fence t cause).resid? r = some y ∧ y.Lost :=
  Pack.foldl_stopLost_lost _ cause (by simp [Tile.tenants, hr]) hx hst ha

/-- A failed tile is fenced at once, holds nothing, and is announced on the ring; its residency is stopped; for want of margin
each VI with work on the die is told (R18, R439). -/
theorem execTileFence_fences {s : State} {t : TileId} (f : FenceCause) (h : (s.pk.tile t).fenced = false) :
    ∃ u, execTileFence t f s = .next u ∧ u.mem = s.mem ∧ (u.pk.tile t).fenced = true ∧ (u.pk.tile t).res = none ∧
      (u.pk.tile t).insts = [] ∧
      (u.pk.ring.queues.get t.die ++ u.pk.ring.late.get t.die).map (·.body) =
        (s.pk.ring.queues.get t.die ++ s.pk.ring.late.get t.die).map (·.body) ++ [.gone t.die (some t.n)] ∧
      (f = .margin → ∀ r x, s.pk.resid? r = some x → x.die = t.die → x.st ≠ .ended →
        ∃ n ∈ u.pk.pending, n.fr.kind = 5 ∧ n.fr.cause = Cause.margin ∧ n.fr.vi = x.vi) ∧
      ∀ r x, (s.pk.tile t).res = some r → s.pk.resid? r = some x → x.st ≠ .ended → x.aborted = false →
        ∃ y, u.pk.resid? r = some y ∧ y.st = .stopped ∧ y.fencedOut = true := by
  obtain ⟨p, hp⟩ : ∃ p, p = if f == .margin then s.pk.noteMargin t.die else s.pk := ⟨_, rfl⟩
  have hk : p.dies = s.pk.dies ∧ p.resids = s.pk.resids ∧ p.ring = s.pk.ring := by
    rw [hp, Pack.noteMargin_eq]; split <;> exact ⟨rfl, rfl, rfl⟩
  obtain ⟨hdies, hresids, hring⟩ := hk
  obtain ⟨h1, h2, h3⟩ := p.fence_tile t (FenceCause.cause f)
  refine ⟨{ s with pk := p.fenceTile t (FenceCause.cause f) }, by simp [execTileFence, h, hp], rfl, h1, h2, h3, ?_, fun hf r x hx hd hst => ?_,
    fun r x hr hx hst ha => ?_⟩
  · simp only [Pack.fenceTile, Pack.enqueueRing, Order.push_behind, Pack.fence_ring, hring, List.map_append, List.map_cons,
      List.map_nil]
  · subst hf
    obtain ⟨n, hn, hk⟩ := Pack.noteMargin_tells hx hd hst
    simp only [beq_self_eq_true, if_true] at hp
    exact ⟨n, (p.fence_pending t _).subset (hp ▸ hn), hk⟩
  · have hr' : (p.tile t).res = some r := by simpa only [Pack.tile, Pack.die, hdies] using hr
    have hx' : p.resid? r = some x := by simpa only [Pack.resid?, hresids] using hx
    obtain ⟨y, hy, hs, hf, -⟩ := Pack.fence_stops (FenceCause.cause f) hr' hx' hst ha
    exact ⟨y, hy, hs, hf⟩

/-- Settles O60, site by site. -/
theorem storageErrors : Obligations.StorageErrors := by
  unfold Obligations.StorageErrors
  intro s t c g a w e f
  exact ⟨execRegisterEccError_poisons g, execSramUncorrectable_acc s t a, execParityError_element s t, execTileFence_fences f⟩

end Sys2Proof.Machine

/-! PROOF. A die's registers, its caps and the horizon (O46). -/

namespace Sys2Proof.Machine

/-! ### Register writes of a die (R457-R460) -/

theorem Pack.writeManagement_die (p : Pack) (d : DieId) (k : Nat) (v : W64) (hk : k < 0x1000) :
    p.writeManagement (0x1000 * d.val + k) v = p.writeDie d k v := by
  have h1 : 0x1000 * d.val + k < 0x8000 := by omega
  have h2 : (0x1000 * d.val + k) / 0x1000 = d.val := by omega
  have h3 : (0x1000 * d.val + k) % 0x1000 = k := by omega
  have h4 : Fin.ofNat 8 d.val = d := Fin.ext (Nat.mod_eq_of_lt d.isLt)
  rw [Pack.writeManagement, if_pos h1, h2, h3, h4]

theorem execRegisterWrite_die (s : State) (d : DieId) (k : Nat) (v : W64) (hk : k < 0x1000) :
    execRegisterWrite (.management (0x1000 * d.val + k) v) s = .next { s with pk := s.pk.writeDie d k v } := by
  rw [execRegisterWrite, Pack.writeManagement_die _ _ _ _ hk]

/-- A write to MCFG that does not write rst (R458). -/
theorem execRegisterWrite_mcfg (s : State) (d : DieId) {v : W64} (h : bit v 1 = false) :
    execRegisterWrite (.management (0x1000 * d.val + 0x08) v) s = .next { s with pk := s.pk.modDie d fun x =>
      { x with smode := bit v 0, rho := v.extractLsb' 8 2
               pendingRho := if x.rho = v.extractLsb' 8 2 then x.pendingRho else some (v.extractLsb' 8 2) } } := by
  rw [execRegisterWrite_die _ _ _ _ (by decide)]
  simp [Pack.writeDie, Pack.writeMcfg, h]

theorem execMretWrite_ready {s : State} {d : DieId} (v : W64) (h : (s.pk.die d).ready = true) :
    execMretWrite d v s = .next { s with pk := s.pk.modDie d fun x => { x with mret := v } } :=
  next_pk (Pack.modDie_congr (if_pos h))

theorem execMretWrite_notReady {s : State} {d : DieId} (v : W64) (h : (s.pk.die d).ready = false) :
    execMretWrite d v s = .next s :=
  next_pk (Pack.modDie_self (if_neg (by simp [h])))

/-- MRET at its place in the die's block. -/
theorem execRegisterWrite_mret (s : State) (d : DieId) (v : W64) :
    execRegisterWrite (.management (0x1000 * d.val + 0x10) v) s = execMretWrite d v s := by
  rw [execRegisterWrite_die _ _ _ _ (by decide)]
  cases h : (s.pk.die d).ready
  · rw [execMretWrite_notReady v h]; simp [Pack.writeDie, h]
  · rw [execMretWrite_ready v h]; simp [Pack.writeDie, h]

theorem Pack.poolOk_ready {p : Pack} {d : DieId} {v : W64} (h : p.poolOk d v = true) : (p.die d).ready = true := by
  simp only [Pack.poolOk, Bool.and_eq_true, and_assoc] at h
  exact h.1

theorem execMpoolWrite_ok {s : State} {d : DieId} {v : W64} (h : s.pk.poolOk d v = true) :
    execMpoolWrite d v s = .next { s with pk := s.pk.modDie d fun x => { x with mpool := BitVec.ofNat 64 (fld v 41 0) } } := by
  rw [execMpoolWrite, if_pos h]

theorem execMpoolWrite_not {s : State} {d : DieId} {v : W64} (h : s.pk.poolOk d v = false) : execMpoolWrite d v s = .next s := by
  rw [execMpoolWrite, if_neg (by simp [h])]

/-- MPOOL at its place in the die's block. -/
theorem execRegisterWrite_mpool (s : State) (d : DieId) (v : W64) :
    execRegisterWrite (.management (0x1000 * d.val + 0x20) v) s = execMpoolWrite d v s := by
  rw [execRegisterWrite_die _ _ _ _ (by decide)]
  cases h : s.pk.poolOk d v
  · rw [execMpoolWrite_not h]; simp [Pack.writeDie, h]
  · rw [execMpoolWrite_ok h]; simp [Pack.writeDie, h, Pack.poolOk_ready h]

/-! ### A die that leaves (R254, R456, R457) -/

/-- The residencies on a die. -/
def Pack.residsOn (p : Pack) (d : DieId) : List Nat :=
  (List.range p.resids.length).filter fun r => ((p.resid? r).map fun x => x.die == d).getD false

theorem Pack.mem_residsOn {p : Pack} {d : DieId} {r : Nat} {y : Resid} (hy : p.resid? r = some y) (hd : y.die = d) :
    r ∈ p.residsOn d := by
  rw [Pack.residsOn, List.mem_filter, List.mem_range]
  exact ⟨(List.getElem?_eq_some_iff.1 hy).1, by simp [hy, hd]⟩

/-- What a reset keeps of a die are registers of it. -/
theorem Die.afterReset_regs (x : Die) (n : Nat) : x.regs.afterReset n = x.afterReset n := rfl

/-- A die that leaves keeps what a reset keeps, whatever became of its residencies. -/
theorem Pack.downDie_die (p : Pack) (d : DieId) : (p.downDie d).die d = (p.die d).afterReset d.val := by
  have e : (p.downDie d).die d =
    (((p.residsOn d).foldl (fun p r => p.stopLost r (fun t => t.die == d) 0) p).modDie d fun x => x.afterReset d.val).die d := rfl
  rw [e, Pack.die_modDie]
  exact (regsKept_stopAll _ _ 0 p).field (·.afterReset d.val) (fun x => x.afterReset_regs d.val) d

theorem execMcfgRst_onRing {s : State} {d : DieId} (h : s.pk.onRing d = true) :
    execMcfgRst d s = .next { s with pk := s.pk.enqueueRing d 0 (.gone d none) } := by
  rw [execMcfgRst, Pack.resetDie, if_pos h]

/-- A die that is not on the ring resets at once (R456, R457). -/
theorem execMcfgRst_offRing {s : State} {d : DieId} (h : s.pk.onRing d = false) : ∃ t, execMcfgRst d s = .next t ∧ t.mem = s.mem ∧
    t.pk.die d = { s.pk.die d with gated := false }.afterReset d.val := by
  refine ⟨_, rfl, rfl, ?_⟩
  rw [Pack.resetDie, if_neg (by simp [h]), Pack.downDie_die, Pack.die_modDie]

/-! ### Caps (R338, R461, R462) -/

/-- The power measured on the other dies. -/
def Pack.othersPower (p : Pack) (d : DieId) : Nat := ((allDies.filter (· != d)).map fun c => (p.die c).pw.toNat).sum

theorem Pack.powerLeft_eq (p : Pack) (d : DieId) : p.powerLeft d = 3200 - p.othersPower d := rfl

theorem mem_allDies (d : DieId) : d ∈ allDies := List.mem_finRange d

theorem nodup_allDies : allDies.Nodup := List.nodup_finRange 8

/-- A sum over a list without doubles, with one member's share set apart. -/
theorem sum_map_apart (f : DieId → Nat) (d : DieId) {l : List DieId} (hn : l.Nodup) (hd : d ∈ l) :
    (l.map f).sum = f d + ((l.filter (· != d)).map f).sum := by
  induction l with
  | nil => exact absurd hd List.not_mem_nil
  | cons a l ih =>
    obtain ⟨ha, hl⟩ := List.nodup_cons.1 hn
    by_cases hda : a = d
    · subst hda
      have hrest : l.filter (· != a) = l := List.filter_eq_self.2 fun c hc => bne_iff_ne.2 fun e => ha (e ▸ hc)
      rw [List.filter_cons_of_neg (by simp), hrest, List.map_cons, List.sum_cons]
    · have hdl : d ∈ l := (List.mem_cons.1 hd).resolve_left fun e => hda e.symm
      have hk : (a != d) = true := bne_iff_ne.2 hda
      rw [List.filter_cons_of_pos (p := (· != d)) hk, List.map_cons, List.map_cons, List.sum_cons, List.sum_cons, ih hl hdl]
      omega

/-- The module's power: that of one die and of the others. -/
theorem Pack.power_sum (p : Pack) (d : DieId) :
    (allDies.map fun c => (p.die c).pw.toNat).sum = (p.die d).pw.toNat + p.othersPower d :=
  sum_map_apart (fun c => (p.die c).pw.toNat) d nodup_allDies (mem_allDies d)

theorem Pack.othersPower_modDie (p : Pack) (d : DieId) (f : Die → Die) : (p.modDie d f).othersPower d = p.othersPower d := by
  refine congrArg List.sum (List.map_congr_left fun c hc => ?_)
  have hcd : c ≠ d := by simpa using (List.mem_filter.1 hc).2
  rw [Pack.die_modDie_ne _ _ hcd]

theorem Pack.outOfLimits_iff (p : Pack) : p.outOfLimits = true ↔ (∃ c, (p.die c).outside = true) ∨ ∃ c, 1050 < (p.die c).tj.toNat := by
  simp only [Pack.outOfLimits, List.any_eq_true, Bool.or_eq_true, decide_eq_true_eq, mem_allDies, true_and, exists_or]

/-- A die whose power is measured, and held within what the envelope leaves it (R461). -/
def Die.metered (x : Die) (demand left : Nat) (collar : Bool) : Die :=
  { x with pw := BitVec.ofNat 16 (min demand left), collarCap := decide (left < demand) && collar }

/-- The cap asked for where the envelope is used up; else none. -/
def capWanted (demand left : Nat) (q : Fin 5) : Nat := if decide (left < demand) then q.val else 4

theorem capWanted_le (demand left : Nat) (q : Fin 5) : capWanted demand left q ≤ 4 := by
  unfold capWanted; split <;> omega

/-- A cap is asked for only where the envelope is used up. -/
theorem lt_of_capWanted_lt {demand left : Nat} {q : Fin 5} (h : capWanted demand left q < 4) : left < demand := by
  unfold capWanted at h; split at h
  · next hlt => exact of_decide_eq_true hlt
  · exact absurd h (Nat.lt_irrefl 4)

theorem Die.metered_pw (x : Die) (demand : Nat) (p : Pack) (d : DieId) (b : Bool) :
    (x.metered demand (p.powerLeft d) b).pw.toNat = min demand (3200 - p.othersPower d) := by
  simp only [Die.metered, BitVec.toNat_ofNat, Pack.powerLeft_eq]; omega

/-- The die's power is measured, and its cap set; what it would draw is free (log 62). -/
theorem execDigitRateCap_meters (s : State) (d : DieId) (q : Fin 5) (b : Bool) :
    ∃ t demand, execDigitRateCap d q b s = .next t ∧ t.mem = s.mem ∧ t.pk = s.pk.modDie d fun x =>
      (x.metered demand (s.pk.powerLeft d) b).capAt s.pk.outOfLimits (capWanted demand (s.pk.powerLeft d) q) :=
  ⟨_, ((Config.freeValue s.freeCount).setWidth 16 : W16).toNat, rfl, rfl, rfl⟩

/-- No cap lies below ρ, one comes only where the envelope is used up or outside the rated limits, and the module's power stays
within its envelope (R338, R461, R462). -/
theorem execDigitRateCap_caps (s : State) (d : DieId) (q : Fin 5) (b : Bool) :
    ∃ t, execDigitRateCap d q b s = .next t ∧ t.mem = s.mem ∧ t.pk.resids = s.pk.resids ∧
      (∀ c, c ≠ d → t.pk.die c = s.pk.die c) ∧
      (t.pk.die d).rhoNow = (s.pk.die d).rhoNow ∧ (t.pk.die d).tiles = (s.pk.die d).tiles ∧
      quarters (t.pk.die d).rhoNow ≤ (t.pk.die d).cap.val ∧
      ((t.pk.die d).collarCap = true → (t.pk.die d).cap.val = quarters (s.pk.die d).rhoNow) ∧
      (s.pk.othersPower d ≤ 3200 → (allDies.map fun c => (t.pk.die c).pw.toNat).sum ≤ 3200) ∧
      (s.pk.outOfLimits = true → (t.pk.die d).cap.val = quarters (s.pk.die d).rhoNow) ∧
      (s.pk.outOfLimits = false → (t.pk.die d).cap.val < 4 → 3200 ≤ s.pk.othersPower d + (t.pk.die d).pw.toNat) ∧
      (t.pk.outOfLimits = false → t.pk.bestAtRho = false → ∀ c, t.pk.boundedCap c = 4) := by
  obtain ⟨t, demand, ht, hm, hpk⟩ := execDigitRateCap_meters s d q b
  have hq := capWanted_le demand (s.pk.powerLeft d) q
  have hpw := (s.pk.die d).metered_pw demand s.pk d b
  have hleft := s.pk.powerLeft_eq d
  obtain ⟨x, hx⟩ : ∃ x, x = (s.pk.die d).metered demand (s.pk.powerLeft d) b := ⟨_, rfl⟩
  rw [← hx] at hpw
  have hrho : x.rhoNow = (s.pk.die d).rhoNow := by rw [hx]; rfl
  have hcap := x.capAt_cap s.pk.outOfLimits hq
  obtain ⟨hlow, hcollar⟩ := x.capAt_bounds s.pk.outOfLimits hq
  have hd : t.pk.die d = x.capAt s.pk.outOfLimits (capWanted demand (s.pk.powerLeft d) q) := by
    rw [hpk, hx]; exact Pack.die_modDie _ _ _
  have ho : t.pk.othersPower d = s.pk.othersPower d := by rw [hpk]; exact Pack.othersPower_modDie _ _ _
  have hp : (t.pk.die d).pw.toNat = min demand (3200 - s.pk.othersPower d) := by rw [hd]; exact hpw
  refine ⟨t, ht, hm, by rw [hpk]; rfl, fun c hc => by rw [hpk]; exact Pack.die_modDie_ne _ _ hc, by rw [hd]; exact hrho,
    by rw [hd, hx]; rfl, by rw [hd]; exact hlow, by rw [hd, ← hrho]; exact hcollar, fun h => ?_, fun h => ?_, fun h hc => ?_,
    fun h1 h2 c => ?_⟩
  · rw [Pack.power_sum _ d, ho, hp]; omega
  · rw [hd, hcap, if_pos h, hrho]
  · rw [hd, hcap, if_neg (by simp [h])] at hc
    have := lt_of_capWanted_lt (Nat.lt_of_le_of_lt (Nat.le_max_left _ _) hc)
    omega
  · simp [Pack.boundedCap, h1, h2]

/-- Inside the rated limits no cap remains; outside them every die is capped to ρ (R462). -/
theorem execRatedLimitsExcursion_caps (s : State) (m : Rating) :
    ∃ t, execRatedLimitsExcursion m s = .next t ∧ t.mem = s.mem ∧ ∀ c, (t.pk.die c).tin = m.tin ∧
      ((t.pk.die c).outside = true ↔ ¬ withinRated m = true) ∧
      (withinRated m = true ∧ (¬ ∃ c, 1050 < (s.pk.die c).tj.toNat) → (t.pk.die c).cap.val = 4) ∧
      (¬ withinRated m = true ∨ (∃ c, 1050 < (s.pk.die c).tj.toNat) → (t.pk.die c).cap.val = quarters (s.pk.die c).rhoNow) := by
  obtain ⟨p, hp⟩ : ∃ p : Pack, p = { s.pk with dies := s.pk.dies.map fun x =>
      { x with outside := !withinRated m, tin := m.tin, cap := 4, collarCap := !withinRated m && x.collarCap } } := ⟨_, rfl⟩
  have hdie (c : DieId) : p.die c = { s.pk.die c with
      outside := !withinRated m, tin := m.tin, cap := 4, collarCap := !withinRated m && (s.pk.die c).collarCap } := by
    rw [hp]; exact get_map _ _ _
  have hout : p.outOfLimits = true ↔ ¬ withinRated m = true ∨ ∃ c, 1050 < (s.pk.die c).tj.toNat := by
    simp [Pack.outOfLimits_iff, hdie]
  refine ⟨{ s with pk := p.recap }, by rw [hp]; rfl, rfl, fun c => ?_⟩
  have hcap := (p.die c).capAt_cap p.outOfLimits (q := 4) (Nat.le_refl 4)
  have hr : quarters (p.die c).rhoNow = quarters (s.pk.die c).rhoNow := by rw [hdie]
  have hle := quarters_le (s.pk.die c).rhoNow
  have h4 : (p.die c).cap.val = 4 := by rw [hdie]; rfl
  rw [hr] at hcap
  simp only [Pack.recap_die, h4]
  refine ⟨by simp [Die.capAt, hdie], by simp [Die.capAt, hdie], fun h => ?_, fun h => ?_⟩
  · have hn : ¬ p.outOfLimits = true := fun e => (hout.1 e).elim (fun k => k h.1) h.2
    rw [hcap, if_neg hn]; omega
  · rw [hcap, if_pos (hout.2 h)]

theorem withinRated_iff (m : Rating) : withinRated m = true ↔
    150 ≤ m.tin.toNat ∧ m.tin.toNat ≤ 400 ∧ 60 ≤ m.flow ∧ 440 ≤ m.supply ∧ m.supply ≤ 540 := by
  simp [withinRated, and_assoc]

/-! ### The horizon (R337, R338) -/

/-- What is pending takes effect at the horizon once no open bound was computed with a higher one; the cap follows ρ. -/
theorem execHorizonBoundary_takes {s : State} {d : DieId} (h : (s.pk.die d).now % 2 ^ 30 = 0) :
    ∃ t, execHorizonBoundary d s = .next t ∧ t.mem = s.mem ∧
      ((s.pk.die d).pendingFloor ≠ 0 → (∀ i ∈ s.pk.openBounds d, i.floor ≤ (s.pk.die d).pendingFloor.toNat) →
        (t.pk.die d).floorKHz = (s.pk.die d).pendingFloor ∧ (t.pk.die d).pendingFloor = 0) ∧
      (∀ i ∈ s.pk.openBounds d, (s.pk.die d).pendingFloor.toNat < i.floor → (t.pk.die d).floorKHz = (s.pk.die d).floorKHz) ∧
      (∀ r, (s.pk.die d).pendingRho = some r → (∀ i ∈ s.pk.openBounds d, i.rho ≤ quarters r) →
        (t.pk.die d).rhoNow = r ∧ (t.pk.die d).pendingRho = none) ∧
      quarters (t.pk.die d).rhoNow ≤ (t.pk.die d).cap.val ∧
      ((t.pk.die d).collarCap = true → (t.pk.die d).cap.val = quarters (t.pk.die d).rhoNow) := by
  refine ⟨{ s with pk := s.pk.horizon d }, by rw [execHorizonBoundary, if_pos (by rw [h]; rfl)], rfl, fun h0 hi => ?_, fun i hi hlt => ?_,
    fun r hr hi => ?_, ?_⟩
  · have ha : ((s.pk.openBounds d).all fun i => decide (i.floor ≤ (s.pk.die d).pendingFloor.toNat)) = true := by simpa using hi
    have hz : ((s.pk.die d).pendingFloor != 0) = true := bne_iff_ne.2 h0
    simp only [Pack.horizon, Pack.recap_die, Pack.die_modDie, Die.capAt, hz, ha, Bool.and_self, if_true, and_self]
  · have ha : ((s.pk.openBounds d).all fun i => decide (i.floor ≤ (s.pk.die d).pendingFloor.toNat)) = false := by
      simpa using ⟨i, hi, hlt⟩
    simp [Pack.horizon, Die.capAt, ha]
  · have ha : ((s.pk.openBounds d).all fun i => decide (i.rho ≤ quarters r)) = true := by simpa using hi
    simp [Pack.horizon, Die.capAt, hr, ha]
  · obtain ⟨p, hp⟩ : ∃ p : Pack, s.pk.horizon d = p.recap := ⟨_, rfl⟩
    rw [hp, Pack.recap_die]
    exact (p.die d).capAt_bounds _ (Nat.le_of_lt_succ (Fin.isLt _))

/-- Settles O46, register by register. -/
theorem dieRegisters : Obligations.DieRegisters := by
  unfold Obligations.DieRegisters
  intro s d v rho b q m tin flow supply
  refine ⟨rfl, rfl, execRegisterWrite_mcfg s d, execRegisterWrite_mret s d v, execRegisterWrite_mpool s d v, execMcfgRst_onRing,
    fun h => ?_, execMpoolWrite_ok, execMpoolWrite_not, execMretWrite_ready v, execMretWrite_notReady v,
    execDigitRateCap_caps s d q b, ?_, rfl, execHorizonBoundary_takes⟩
  · obtain ⟨t, ht, hm, hd⟩ := execMcfgRst_offRing h
    exact ⟨t, ht, hm, by rw [hd]; rfl, by rw [hd]; rfl, by rw [hd]; rfl, by rw [hd]; rfl, by rw [hd]; rfl, by rw [hd]; rfl,
      by rw [hd]; rfl, by rw [hd]; rfl, by rw [hd]; rfl⟩
  · have h := execRatedLimitsExcursion_caps s ⟨tin, flow, supply⟩
    simp only [withinRated_iff] at h
    exact h

end Sys2Proof.Machine

/-! PROOF. Clocks, temperature, retention, bring-up and gating (O47). -/

namespace Sys2Proof.Machine

/-! ### Stretches and margins (R30, R437, R438) -/

/-- A stretch changes only its tile's counts of it. -/
theorem execClockStretch_counts (s : State) (t : TileId) (n : Nat) : ∃ e l, execClockStretch t n s =
    .next { s with pk := s.pk.modTile t fun y => { y with stretched := y.stretched + n, excess := e, stretches := l } } :=
  ⟨_, _, next_pk (Pack.modTile_congr rfl)⟩

/-- An excess caps the die's digit rate at once (R438). -/
theorem execStretchExcess_caps {s : State} {t : TileId} {c : Nat} (hx : (s.pk.tile t).excess = some c)
    (h : (s.pk.tile t).clk.toNat < c + 2 ^ 20) : execStretchExcess t s =
      .next { s with pk := s.pk.modDie t.die fun y => { y with cap := Fin.ofNat 5 (quarters y.rhoNow) } } := by
  simp only [execStretchExcess, hx, if_pos h]
  exact next_pk (Pack.modDie_congr rfl)

/-- A lower floor is pending, and every VI with work on the die is told (R437). -/
theorem execMargin_announces {s : State} {d : DieId} {f : W32} (hr : (s.pk.die d).ready = true) (h1 : 489000 ≤ f.toNat)
    (h2 : f.toNat < (s.pk.die d).admitFloor) : ∃ u, execMargin d f s = .next u ∧ u.mem = s.mem ∧
      (u.pk.die d).pendingFloor = f ∧ (u.pk.die d).floorKHz = (s.pk.die d).floorKHz ∧ (u.pk.die d).tiles = (s.pk.die d).tiles ∧
      u.pk.resids = s.pk.resids ∧
      ∀ r y, s.pk.resid? r = some y → y.die = d → y.st ≠ .ended → ∃ z ∈ u.pk.pending, z.fr.cause = Cause.margin ∧ z.fr.vi = y.vi := by
  have hd : (s.pk.noteMargin d).die d = s.pk.die d := by rw [Pack.noteMargin_eq]; rfl
  have hu : ((s.pk.noteMargin d).lowerFloor d f).die d = { s.pk.die d with pendingFloor := f } := by
    simp [Pack.lowerFloor, hd, h1, h2]
  refine ⟨{ s with pk := (s.pk.noteMargin d).lowerFloor d f }, by simp [execMargin, hr], rfl, by rw [hu], by rw [hu], by rw [hu],
    by rw [Pack.noteMargin_eq]; rfl, fun r y hy hyd hst => ?_⟩
  obtain ⟨n, hn, -, hc, hv⟩ := Pack.noteMargin_tells hy hyd hst
  exact ⟨n, hn, hc, hv⟩

/-! ### Temperature (R462) -/

/-- What a stop for the temperature makes of a residency that was `y`. -/
def Resid.HeldFrom (y z : Resid) : Prop :=
  (y.pre = none → z.thermal = true) ∧ (y.pre = none → y.st = .resident → z.pre = some 0 ∧ z.preHold = true)

theorem Pack.holdThermal_ne (p : Pack) {r k : Nat} (h : k ≠ r) : (p.holdThermal k).resid? r = p.resid? r := by
  unfold Pack.holdThermal Pack.requestPreempt; split
  · rfl
  · split
    · rfl
    · rw [Pack.resid?_modResid_ne _ _ h.symm, Pack.resid?_modResid_ne _ _ h.symm]

/-- A residency on its way to a stop stays as it is; one at work is pre-empted and held. -/
theorem Pack.holdThermal_held {p : Pack} {r : Nat} {x y : Resid} (hx : p.resid? r = some x) (h : x = y ∨ y.HeldFrom x) :
    ∃ z, (p.holdThermal r).resid? r = some z ∧ y.HeldFrom z := by
  by_cases hp : x.pre = none
  · refine ⟨_, by simp [Pack.holdThermal, Pack.requestPreempt, hx, hp]; rfl, fun _ => rfl, fun hy hst => ?_⟩
    obtain rfl | h := h
    · simp [hst]
    · exact absurd (hp.symm.trans (h.2 hy hst).1) (by simp)
  · refine ⟨x, by simp [Pack.holdThermal, hx, Option.isSome_iff_ne_none, hp], ?_⟩
    obtain rfl | h := h
    · exact ⟨fun e => absurd e hp, fun e => absurd e hp⟩
    · exact h

theorem Pack.foldl_holdThermal_kept (l : List Nat) (p : Pack) :
    (l.foldl Pack.holdThermal p).dies = p.dies ∧ (l.foldl Pack.holdThermal p).pending = p.pending := by
  refine List.foldlRecOn l _ (motive := fun q : Pack => q.dies = p.dies ∧ q.pending = p.pending) ⟨rfl, rfl⟩ fun q hq r _ => ?_
  unfold Pack.holdThermal; split
  · exact hq
  · split <;> exact hq

theorem Pack.mem_residentOn {p : Pack} {d : DieId} {r : Nat} {y : Resid} (hy : p.resid? r = some y) (hd : y.die = d)
    (hst : y.st = .starting ∨ y.st = .resident ∨ y.st = .saving) : r ∈ p.residentOn d := by
  have hlt : r < p.resids.length := (List.getElem?_eq_some_iff.1 hy).1
  simp only [Pack.residentOn, List.mem_filter, List.mem_range]
  refine ⟨hlt, ?_⟩
  obtain h | h | h := hst <;> simp [hy, hd, h]

/-- The VIs of a list of residencies. -/
theorem Pack.vi_mem_of_resid {p : Pack} {l : List Nat} {r : Nat} {y : Resid} (hy : p.resid? r = some y) (hr : r ∈ l) :
    y.vi ∈ (l.filterMap fun r => (p.resid? r).map (·.vi)).eraseDups := by
  rw [List.mem_eraseDups, List.mem_filterMap]
  exact ⟨r, hr, by rw [hy]; rfl⟩

/-- The record of a stop for the temperature (R462). -/
def thermalRecord (d : DieId) (v : Fin 64) : PendRec := { fr := { vi := v, die := d, kind := 3, cause := Cause.margin, cls := 2 } }

/-- At 105 °C every residency of the die is pre-empted and held, and its VI is told. -/
theorem execThermalStop_holds {s : State} {d : DieId} (h1 : (s.pk.die d).thermalStop = false) (h2 : (s.pk.die d).ready = true) :
    ∃ u, execThermalStop d s = .next u ∧ u.mem = s.mem ∧ (u.pk.die d).thermalStop = true ∧ 1050 ≤ (u.pk.die d).tj.toNat ∧
      ∀ r y, s.pk.resid? r = some y → y.die = d → (y.st = .starting ∨ y.st = .resident ∨ y.st = .saving) →
        (∃ k ∈ u.pk.pending, k.fr.cause = Cause.margin ∧ k.fr.kind = 3 ∧ k.fr.vi = y.vi) ∧
        ∃ z, u.pk.resid? r = some z ∧ (y.pre = none → z.thermal = true) ∧
          (y.pre = none → y.st = .resident → z.pre = some 0 ∧ z.preHold = true) := by
  obtain ⟨t, ht⟩ : ∃ t : W16, t = (Config.freeValue s.freeCount).setWidth 16 := ⟨_, rfl⟩
  obtain ⟨p1, hp1⟩ : ∃ p, p = s.pk.modDie d fun y => { y with thermalStop := true, tj := if t.toNat < 1050 then 1050 else t } :=
    ⟨_, rfl⟩
  obtain ⟨p2, hp2⟩ : ∃ p, p = (s.pk.residentOn d).foldl Pack.holdThermal p1 := ⟨_, rfl⟩
  obtain ⟨vis, hvis⟩ : ∃ l, l = ((s.pk.residentOn d).filterMap fun r => (s.pk.resid? r).map (·.vi)).eraseDups := ⟨_, rfl⟩
  have hdie : p2.die d = p1.die d := by
    simp only [Pack.die, hp2, (Pack.foldl_holdThermal_kept _ p1).1]
  have hrun : execThermalStop d s = .next { s with
      pk := Pack.recap { p2 with pending := p2.pending ++ vis.map (thermalRecord d) }, freeCount := s.freeCount + 1 } := by
    rw [← Pack.foldl_note (thermalRecord d), hp2, hvis, hp1, ht]
    simp [execThermalStop, h1, h2, thermalRecord]
  refine ⟨_, hrun, rfl, ?_, ?_, fun r y hy hd hst => ?_⟩
  · simp only [Pack.recap_die]
    change (p2.die d).thermalStop = true
    rw [hdie, hp1, Pack.die_modDie]
  · simp only [Pack.recap_die]
    change 1050 ≤ (p2.die d).tj.toNat
    rw [hdie, hp1, Pack.die_modDie]
    dsimp only; split
    · decide
    · omega
  · have hr := Pack.mem_residentOn hy hd hst
    refine ⟨⟨thermalRecord d y.vi, List.mem_append_right _ (List.mem_map_of_mem (hvis ▸ Pack.vi_mem_of_resid hy hr)), rfl, rfl, rfl⟩, ?_⟩
    rw [Pack.recap_resid?]
    change ∃ z, p2.resid? r = some z ∧ y.HeldFrom z
    have hy1 : p1.resid? r = some y := by rw [hp1]; exact hy
    rw [hp2]
    exact Pack.resid?_foldl (P := fun x => x = y) (fun q k hk => q.holdThermal_ne hk) (fun q x hx h => Pack.holdThermal_held hx h)
      _ p1 y hy1 (.inl ⟨rfl, hr⟩)

theorem Pack.releaseThermal_ne (p : Pack) {r k : Nat} (h : k ≠ r) : (p.releaseThermal k).resid? r = p.resid? r := by
  unfold Pack.releaseThermal Pack.toPlacement; split
  · rfl
  · split
    · rfl
    · split <;> rw [Pack.resid?_modResid_ne _ _ h.symm]

/-- A residency that the temperature has stopped returns to placement, once. -/
theorem Pack.releaseThermal_saved {p : Pack} {r : Nat} {x : Resid} (hx : p.resid? r = some x)
    (h : (x.thermal = true ∧ x.st = .stopped ∧ x.stopCause = none) ∨ (x.st = .saved ∧ x.thermal = false)) :
    ∃ z, (p.releaseThermal r).resid? r = some z ∧ z.st = .saved ∧ z.thermal = false := by
  obtain ⟨h1, h2, h3⟩ | h := h
  · exact ⟨_, by simp [Pack.releaseThermal, Pack.toPlacement, hx, h1, h2, h3]; rfl, rfl, rfl⟩
  · exact ⟨x, by simp [Pack.releaseThermal, hx, h.2], h⟩

theorem Pack.foldl_releaseThermal_dies (l : List Nat) (p : Pack) : (l.foldl Pack.releaseThermal p).dies = p.dies := by
  refine List.foldlRecOn l _ (motive := fun q : Pack => q.dies = p.dies) rfl fun q hq r _ => ?_
  unfold Pack.releaseThermal; split
  · exact hq
  · split
    · exact hq
    · split <;> exact hq

/-- Below 95 °C what the temperature has stopped returns to placement. -/
theorem execThermalResume_releases {s : State} {d : DieId} (h : (s.pk.die d).thermalStop = true) :
    ∃ u, execThermalResume d s = .next u ∧ u.mem = s.mem ∧ (u.pk.die d).thermalStop = false ∧ (u.pk.die d).tj.toNat < 950 ∧
      ∀ r y, s.pk.resid? r = some y → y.die = d → y.thermal = true → y.st = .stopped → y.stopCause = none →
        ∃ z, u.pk.resid? r = some z ∧ z.st = .saved ∧ z.thermal = false := by
  obtain ⟨t, ht⟩ : ∃ t : W16, t = (Config.freeValue s.freeCount).setWidth 16 := ⟨_, rfl⟩
  obtain ⟨p, hp⟩ : ∃ p, p = (s.pk.modDie d fun y => { y with thermalStop := false, tj := if t.toNat < 950 then t else 949 }).recap :=
    ⟨_, rfl⟩
  have hdie : ((p.residsOn d).foldl Pack.releaseThermal p).die d = p.die d := by simp only [Pack.die, Pack.foldl_releaseThermal_dies]
  have hrun : execThermalResume d s = .next { s with pk := (p.residsOn d).foldl Pack.releaseThermal p, freeCount := s.freeCount + 1 } := by
    rw [hp, ht]; simp [execThermalResume, h, Pack.residsOn]
  refine ⟨_, hrun, rfl, ?_, ?_, fun r y hy hd h1 h2 h3 => ?_⟩
  · rw [hdie, hp, Pack.recap_die, Pack.die_modDie]; rfl
  · rw [hdie, hp, Pack.recap_die, Pack.die_modDie]
    change (if t.toNat < 950 then t else 949 : W16).toNat < 950
    split
    · assumption
    · decide
  · have hyp : p.resid? r = some y := by rw [hp]; exact hy
    exact Pack.resid?_foldl (fun q k hk => q.releaseThermal_ne hk) (fun q x hx h => Pack.releaseThermal_saved hx h) _ p y hyp
      (.inl ⟨⟨h1, h2, h3⟩, Pack.mem_residsOn hyp hd⟩)

/-! ### Retention (R460) -/

theorem execRetentionEntry_idle {s : State} {t : TileId} (h1 : (s.pk.die t.die).ready = true)
    (h2 : bit (s.pk.die t.die).mret t.n.val = true) (h3 : (s.pk.tile t).ret = .active) (h4 : (s.pk.tile t).res = none)
    (h5 : s.pk.claimedSoon t = false) : execRetentionEntry t s =
      .next { s with pk := s.pk.modTile t fun y => { y with ret := .entering, retCycles := 0 } } := by
  simp [execRetentionEntry, h1, h2, h3, h4, h5, Pack.setRet]

theorem execRetentionExit_needed {s : State} {t : TileId} (h1 : (s.pk.tile t).ret = .retained)
    (h2 : bit (s.pk.die t.die).mret t.n.val = false ∨ s.pk.claimedSoon t = true ∨ s.pk.waitingOn t.die ≠ []) :
    execRetentionExit t s = .next { s with pk := s.pk.modTile t fun y => { y with ret := .exiting, retCycles := 0 } } := by
  rw [execRetentionExit, if_pos]
  · rfl
  · obtain h | h | h := h2 <;> simp [h1, h]

theorem clocksAndMargins : ClocksAndMargins := by
  intro s t d n f
  exact ⟨execClockStretch_counts s t n, fun c => execStretchExcess_caps, execMargin_announces, execThermalStop_holds,
    execThermalResume_releases, execRetentionEntry_idle, execRetentionExit_needed⟩

/-! ### Bring-up (R456) -/

theorem stageType_cases {k ty : Nat} (h : stageType k = some ty) : k = 1 ∨ k = 3 ∨ k = 5 := by
  unfold stageType at h; split at h <;> simp_all

/-- The image of a stage that loads one is accepted, or fails the stage (R403, R456). -/
theorem execDieBoot_image {s : State} {d : DieId} {k ty : Nat} (hf : (s.pk.die d).fail = 0) (hk : (s.pk.die d).stage.toNat = k)
    (ht : stageType (k + 1) = some ty) (h v : List Byte) : execDieBoot d (.image h v) s =
      if fwAccepted ty h v then .next (s.bootWork d (k + 1) (some ((fwHeader h).extractLsb' 1024 512)))
      else .next (s.bootFail d (k + 1) 1) := by
  have h6 : ¬ 6 < k + 1 := by have := stageType_cases ht; omega
  simp [execDieBoot, hf, hk, h6, ht]

/-- The code of the stage after stage k. -/
theorem stage_succ {x : BitVec 4} {k : Nat} (h : x.toNat = k) : BitVec.ofNat 4 (k + 1) = x + 1 := by
  subst h; simp [BitVec.ofNat_add]

/-- What firmware records of the plain (R457) leaves the other registers of each die. -/
theorem Pack.joinPlain_field {α : Type} (F : Die → α) (hF : ∀ x n r, F { x with plainNum := n, reach := r } = F x) (p : Pack)
    (d e : DieId) (free : W128) : F ((p.joinPlain d free).die e) = F (p.die e) := by
  have hb (q : Pack) (c : DieId) : F ((q.bringPlain c).die e) = F (q.die e) := by
    unfold Pack.bringPlain
    rw [Pack.die_modDie_ite]; split
    · split
      · rfl
      · exact hF _ _ _
    · rfl
  unfold Pack.joinPlain; split
  · exact hb p d
  · exact List.foldlRecOn allDies _ (motive := fun q : Pack => F (q.die e) = F (p.die e)) rfl fun q hq c _ => (hb q c).trans hq

theorem Pack.joinPlain_ringUp (p : Pack) (d : DieId) (free : W128) : (p.joinPlain d free).ringUp = p.ringUp := by
  unfold Pack.joinPlain; split
  · rfl
  · exact List.foldlRecOn allDies _ (motive := fun q : Pack => q.ringUp = p.ringUp) rfl fun q hq c _ => hq

theorem Pack.joinRing_die (p : Pack) (d e : DieId) : (p.joinRing d).die e = p.die e := rfl

/-- A stage whose image is accepted takes the die to the next one, and the fifth puts it on the ring. -/
theorem State.bootWork_loads (s : State) (d : DieId) {k ty : Nat} (ht : stageType k = some ty) (g : BitVec 512) :
    (s.bootWork d k (some g)).mem = s.mem ∧ ((s.bootWork d k (some g)).pk.die d).stage = BitVec.ofNat 4 k ∧
      ((s.bootWork d k (some g)).pk.die d).fail = (s.pk.die d).fail ∧
      ((s.bootWork d k (some g)).pk.die d).digests = (s.pk.die d).digests ++ [g] ∧
      (k = 5 → bit (s.bootWork d k (some g)).pk.ringUp d.val = true) := by
  obtain rfl | rfl | rfl := stageType_cases ht
  · simp [State.bootWork]
  · simp [State.bootWork]
  · let p := (s.pk.modDie d fun x => { x with stage := BitVec.ofNat 4 5, digests := x.digests ++ [g] }).joinRing d
    have hp : p.die d = { s.pk.die d with stage := BitVec.ofNat 4 5, digests := (s.pk.die d).digests ++ [g] } :=
      (Pack.joinRing_die _ d d).trans (Pack.die_modDie s.pk d _)
    have hF {α : Type} (F : Die → α) (hF : ∀ x n r, F { x with plainNum := n, reach := r } = F x) :=
      (p.joinPlain_field F hF d d (Config.freeValue s.freeCount)).trans (congrArg F hp)
    refine ⟨rfl, hF Die.stage fun _ _ _ => rfl, hF Die.fail fun _ _ _ => rfl, hF Die.digests fun _ _ _ => rfl, fun _ => ?_⟩
    have hup : (s.bootWork d 5 (some g)).pk.ringUp = withBit s.pk.ringUp d.val true := p.joinPlain_ringUp d _
    rw [hup, bit_withBit, if_pos rfl]
    simp [d.isLt]

theorem Pack.dieUp_die (p : Pack) (d : DieId) : (p.dieUp d).die d = { p.die d with ready := true } :=
  (Pack.enqueueRing_die _ d d 0 (.up d)).trans (Pack.die_modDie _ d _)

theorem Pack.dieUp_bodies {p : Pack} {d : DieId} (h : p.ringRoom d = true) :
    ((p.dieUp d).ring.queues.get d).map (·.body) = (p.ring.queues.get d).map (·.body) ++ [.up d] := by
  unfold Pack.dieUp; dsimp only
  rw [Pack.enqueueRing_bodies (by exact h), Pack.modDie_ring]

/-- The last stage makes the die ready, and announces it (R456). -/
theorem execDieBoot_up {s : State} {d : DieId} (hf : (s.pk.die d).fail = 0) (hk : (s.pk.die d).stage = 5)
    (hr : s.pk.ringRoom d = true) : ∃ t, execDieBoot d .pass s = .next t ∧ t.mem = s.mem ∧ (t.pk.die d).stage = 6 ∧
      (t.pk.die d).ready = true ∧ t.pk.ringUp = s.pk.ringUp ∧
      (t.pk.ring.queues.get d).map (·.body) = (s.pk.ring.queues.get d).map (·.body) ++ [.up d] := by
  refine ⟨s.bootWork d 6 none, by simp [execDieBoot, hf, hk, stageType], rfl, ?_, ?_, rfl, Pack.dieUp_bodies hr⟩
  · simp [State.bootWork, Pack.dieUp_die]
  · simp [State.bootWork, Pack.dieUp_die]

theorem execDieBoot_failed {s : State} {d : DieId} (h : (s.pk.die d).fail ≠ 0) (b : BootInput) : execDieBoot d b s = .next s := by
  have hb : ((s.pk.die d).fail != 0) = true := bne_iff_ne.2 h
  simp only [execDieBoot, hb, Bool.true_or, if_true]

/-! ### Gating (R254) -/

/-- A die of the ring announces its gating before it leaves. -/
theorem execPowerGating_onRing {s : State} {d : DieId} (h : s.pk.onRing d = true) :
    ∃ t, execPowerGating d none s = .next t ∧ t.mem = s.mem ∧ (t.pk.die d).gated = true ∧ (t.pk.die d).ready = true ∧
      (s.pk.ringRoom d = true →
        (t.pk.ring.queues.get d).map (·.body) = (s.pk.ring.queues.get d).map (·.body) ++ [.gone d none]) := by
  have hr : (s.pk.die d).ready = true := by simp only [Pack.onRing, Bool.and_eq_true] at h; exact h.2
  refine ⟨{ s with pk := (s.pk.modDie d fun x => { x with gated := true }).enqueueRing d 0 (.gone d none) },
    by simp [execPowerGating, h], rfl, by simp, by simp [hr], fun hroom => ?_⟩
  exact Pack.enqueueRing_bodies (p := s.pk.modDie d fun x => { x with gated := true }) hroom 0 _

/-- Any other leaves at once, and keeps its elapsed count. -/
theorem execPowerGating_offRing {s : State} {d : DieId} (h : s.pk.onRing d = false) :
    ∃ t, execPowerGating d none s = .next t ∧ t.mem = s.mem ∧ (t.pk.die d).gated = true ∧ (t.pk.die d).ready = false ∧
      (t.pk.die d).stage = 0 ∧ (t.pk.die d).elap = (s.pk.die d).elap := by
  refine ⟨{ s with pk := (s.pk.modDie d fun x => { x with gated := true }).downDie d }, by simp [execPowerGating, h], rfl, ?_⟩
  simp [Pack.downDie_die, Die.afterReset]

theorem Pack.gateTile_ring (p : Pack) (t : TileId) : (p.gateTile t).ring = p.ring := (regsKept_stopAll _ _ _ p).ring

/-- A gated tile is a fenced one (log 62). -/
theorem Pack.gateTile_tile (p : Pack) (t : TileId) :
    ((p.gateTile t).tile t).fenced = true ∧ ((p.gateTile t).tile t).res = none ∧ ((p.gateTile t).tile t).store = [] := by
  unfold Pack.gateTile
  rw [Pack.tile_modTile]
  exact ⟨rfl, rfl, rfl⟩

theorem execPowerGating_tile {s : State} {d : DieId} {n : Fin 64} (h : (s.pk.tile ⟨d, n⟩).fenced = false) :
    ∃ t, execPowerGating d (some n) s = .next t ∧ t.mem = s.mem ∧ (t.pk.tile ⟨d, n⟩).fenced = true ∧
      (t.pk.tile ⟨d, n⟩).res = none ∧ (t.pk.tile ⟨d, n⟩).store = [] ∧
      (s.pk.ringRoom d = true →
        (t.pk.ring.queues.get d).map (·.body) = (s.pk.ring.queues.get d).map (·.body) ++ [.gone d (some n)]) := by
  obtain ⟨h1, h2, h3⟩ := s.pk.gateTile_tile ⟨d, n⟩
  refine ⟨{ s with pk := (s.pk.gateTile ⟨d, n⟩).enqueueRing d 0 (.gone d (some n)) }, by simp [execPowerGating, h], rfl, h1, h2, h3,
    fun hroom => ?_⟩
  have hg := s.pk.gateTile_ring ⟨d, n⟩
  rw [Pack.enqueueRing_bodies (by rw [Pack.ringRoom, hg]; exact hroom), hg]

theorem diesComeUp : DiesComeUp := by
  intro s d h v n
  refine ⟨fun hf => ⟨fun k ty ht hk ha => ?_, fun k ty ht hk ha => ?_, execDieBoot_up hf⟩, execDieBoot_failed,
    execPowerGating_onRing, execPowerGating_offRing, execPowerGating_tile⟩
  · obtain ⟨h1, h2, h3, h4, h5⟩ := s.bootWork_loads d ht ((fwHeader h).extractLsb' 1024 512)
    refine ⟨_, (execDieBoot_image hf hk ht h v).trans (if_pos ha), h1, h2.trans (stage_succ hk), h3.trans hf, h4, fun h => h5 ?_⟩
    rw [h]
  · refine ((execDieBoot_image hf hk ht h v).trans (if_neg (by simp [ha]))).trans (next_pk (Pack.modDie_congr ?_))
    rw [stage_succ hk]
    rfl

/-- Settles O47: the clocks and margins, then bring-up and gating. -/
theorem clocksAndBringUp : Obligations.ClocksAndBringUp := ⟨clocksAndMargins, diesComeUp⟩

end Sys2Proof.Machine

/-! PROOF. Loads and accumulator reads at their firing (O23). -/

namespace Sys2Proof.Machine

/-- A load on clean operands whose address passes its checks is posted where the tile has room for it (R278). -/
theorem fireLoad_posts {i : Instr} {s s1 : State} {l r : Token} (g : Given i s l r) (hl : l.kind = .data) (cl : l.poison = false)
    (hn : (formOf i).needsR = false) {role : Role} {n : Nat} {pl : Place} {va : VA}
    (hr : Reaches s (slotOf i) ((slotOf i).mode.getLsbD 0) role l.val n pl va s1)
    (room : pl.isS = true ∨ s1.pk.outstanding s1.cur.tile < 4096) (kind : AccKind) (v : Bool) :
    fireLoad (formOf i) (slotOf i) kind role n v s = (s1.answer i { lsid := some (.loaded s1.nextId) }).post
      (s1.mkAccess (formOf i) (slotOf i) kind va pl n v 0) := by
  obtain ⟨k, ha, rfl⟩ := hr
  rw [fireLoad, fireMemory_left g hl cl hn, State.withPlace_ok ha, if_neg]
  · rfl
  · simpa [Decidable.or_iff_not_imp_left] using room

/-- One to G waits while 4096 of its tile are outstanding (R278). -/
theorem fireLoad_waits {i : Instr} {s s1 : State} {l r : Token} (g : Given i s l r) (hl : l.kind = .data) (cl : l.poison = false)
    (hn : (formOf i).needsR = false) {role : Role} {n : Nat} {pl : Place} {va : VA}
    (hr : Reaches s (slotOf i) ((slotOf i).mode.getLsbD 0) role l.val n pl va s1)
    (hg : pl.isS = false) (full : 4096 ≤ s1.pk.outstanding s1.cur.tile) (kind : AccKind) (v : Bool) :
    fireLoad (formOf i) (slotOf i) kind role n v s = s1.putBack := by
  obtain ⟨k, ha, rfl⟩ := hr
  rw [fireLoad, fireMemory_left g hl cl hn, State.withPlace_ok ha, if_pos]
  simpa [hg] using full

/-- An accumulator index in range, outside state saved in place, is read (R208). -/
theorem execAccrd_posts {f : Slot} {s : State} {a : W128} {r : Token} (g : Given (.accrd f) s (dataTok a) r)
    (hm : f.mode.toNat < 4) (ha : lane0 a < 16384) (hb : s.pk.accBreach s.cur.tile f.mode.toNat = false) :
    execAccrd f s = .next ((s.answer (.accrd f) { lsid := some (.loaded s.nextId) }).post
      (s.mkAccess (formOf (.accrd f)) f .ld 0 (.acc (Fin.ofNat 4 f.mode.toNat) (lane0 a)) 16 false 0)) := by
  have hf : fld f.mode 1 0 = f.mode.toNat := by simp [fld, Nat.mod_eq_of_lt hm]
  have hv : (Fin.ofNat 4 f.mode.toNat).val = f.mode.toNat := Nat.mod_eq_of_lt hm
  refine congrArg _ ((fireMemory_left (i := .accrd f) g rfl rfl rfl false _).trans ?_)
  simp only [hf, hv, dataTok_val, if_neg (Nat.not_le.2 ha), hb]
  rfl

/-- Settles O23, instruction by instruction: the loads by what `fireLoad` does. -/
theorem loadsPostTheirAccess : Obligations.LoadsPostTheirAccess := by
  unfold Obligations.LoadsPostTheirAccess
  intro posted room f s s1 a r pl va
  exact ⟨fun g hroom hr => congrArg _ (fireLoad_posts g rfl rfl rfl hr hroom _ _),
    fun g hroom hr => congrArg _ (fireLoad_posts g rfl rfl rfl hr hroom _ _),
    fun g hroom hr => congrArg _ (fireLoad_posts g rfl rfl rfl hr hroom _ _),
    execAccrd_posts,
    fun g hg full hr => congrArg _ (fireLoad_waits g rfl rfl rfl hr hg full _ _)⟩

end Sys2Proof.Machine

/-! PROOF. The engine instructions at their firing (O28). -/

namespace Sys2Proof.Machine

/-! ### Fields of the low bits -/

/-- A field of a word's low bits is that field of the word. -/
theorem fld_low {w n hi lo : Nat} (x : BitVec w) (h1 : lo ≤ hi) (h2 : hi < n) : fld (x.extractLsb' 0 n) hi lo = fld x hi lo := by
  obtain ⟨k, rfl⟩ : ∃ k, n = lo + k := ⟨n - lo, by omega⟩
  have hd : 2 ^ (hi + 1 - lo) ∣ 2 ^ k := Nat.pow_dvd_pow 2 (by omega)
  simp only [fld, BitVec.extractLsb'_toNat, Nat.shiftRight_zero, Nat.pow_add, Nat.mod_mul_right_div_self, Nat.mod_mod_of_dvd _ hd]

theorem ofNat_fld {w : Nat} (x : BitVec w) (lo n : Nat) : BitVec.ofNat n (fld x (lo + n - 1) lo) = x.extractLsb' lo n := by
  apply BitVec.eq_of_toNat_eq
  rcases Nat.eq_zero_or_pos n with rfl | hn
  · simp [Nat.mod_one]
  · have : lo + n - 1 + 1 - lo = n := by omega
    simp [fld, this, Nat.shiftRight_eq_div_pow]

theorem Pfire.limitsOk_low (b : W128) : Pfire.limitsOk (b.extractLsb' 0 32) = (fld b 7 4 == 0 && fld b 3 0 != 0) := by
  have hs : Pfire.sides (b.extractLsb' 0 32) = BitVec.ofNat 4 (fld b 3 0) := by
    rw [← fld_low (n := 32) b (by omega) (by omega)]; exact (ofNat_fld _ 0 4).symm
  have hlt : fld b 3 0 < 16 := Nat.mod_lt _ (by decide)
  have h0 : (BitVec.ofNat 4 (fld b 3 0) != 0) = (fld b 3 0 != 0) := by
    rw [Bool.eq_iff_iff, bne_iff_ne, bne_iff_ne, ne_eq, ne_eq, ← BitVec.toNat_inj]
    simp [Nat.mod_eq_of_lt hlt]
  rw [Pfire.limitsOk, hs, h0, fld_low b (by omega) (by omega)]

/-! ### Blocks -/

/-- A block whose address fails its checks gives a fault token with its address (R304). -/
theorem State.withBlock_fault {i : Instr} {s : State} {role : Role} {fetch : Bool} {va : VA} {n : Nat} {e : XErr} {k : WalkNote}
    (h : s.blockCheck role fetch va n = (some e, k)) (body : State → State) :
    s.withBlock (slotOf i) (formOf i) role fetch va n body = (s.afterWalk k).faults i e.cause e.sub va := by
  simp only [State.withBlock, h]
  rfl

section
variable {i : Instr} {s : State} {l r : Token} {k : WalkNote}

/-- An instruction that names a block gives its command once the block's address has passed. -/
theorem fireBlock_gives (g : Given i s l r) (hl : l.kind = .data) (cl : l.poison = false) (hn : (formOf i).needsR = false)
    {fetch : Bool} (h : s.blockCheck .load fetch (l.val.extractLsb' 0 80) 64 = (none, k)) (cmd : VA → EngineCmd) :
    fireBlock (formOf i) (slotOf i) fetch s (fun va s1 => s1.giveCmd (slotOf i) (formOf i) (cmd va)) =
      (s.afterWalk k).answer i { lsid := some (.engine (cmd (l.val.extractLsb' 0 80)) (Fin.ofNat 8 (slotOf i).aux.toNat)) } :=
  (fireBlock_given g hl cl hn fetch _).trans (State.withBlock_ok h _)

theorem fireBlock_faults (g : Given i s l r) (hl : l.kind = .data) (cl : l.poison = false) (hn : (formOf i).needsR = false)
    {fetch : Bool} {e : XErr} (h : s.blockCheck .load fetch (l.val.extractLsb' 0 80) 64 = (some e, k)) (body : VA → State → State) :
    fireBlock (formOf i) (slotOf i) fetch s body = (s.afterWalk k).faults i e.cause e.sub (l.val.extractLsb' 0 80) :=
  (fireBlock_given g hl cl hn fetch body).trans (State.withBlock_fault h _)

end

/-! ### Commands -/

theorem engineCommands : EngineCommands := by
  unfold EngineCommands
  intro issued f s l r a b hc
  obtain ⟨hk, hp⟩ := hc
  refine ⟨fun g => congrArg _ (firePlain_data (i := .strm f) g rfl rfl rfl rfl 2 5 _),
    fun g => congrArg _ (fireDesc_given (i := .send f) g rfl rfl rfl _),
    fun g => congrArg _ (fireDesc_given (i := .mma f) g rfl rfl rfl _),
    fun g => congrArg _ (fireTrigDesc_given (i := .mmald f) g hk hp rfl rfl _),
    fun g => congrArg _ (fireTrig_given (i := .accz f) g hk hp rfl _),
    fun g => congrArg _ (fireDesc_given (i := .accdrn f) g rfl rfl rfl _),
    fun g => ?_,
    fun g => congrArg _ (fireTrig_given (i := .cfgsw f) g hk hp rfl _),
    fun g => ?_⟩
  · rw [← Pfire.limitsOk_low]
    exact congrArg _ (fireTrigDesc_given (i := .pfire f) g hk hp rfl rfl _)
  · rw [← ofNat_fld a 32 3, ← ofNat_fld a 35 3]
    exact congrArg _ (fireDesc_given (i := .cfgwr f) g rfl rfl rfl _)

/-- The 16-bit mask of OMCLAIM and OMREL, in a word whose other low bits are 0 (R213). -/
theorem mask_checked (s : State) (i : Instr) (b : W128) (v : W16 → LsidVal) :
    (if fld (b.extractLsb' 0 32) 31 16 == 0 then s.answer i { lsid := some (v ((b.extractLsb' 0 32).extractLsb' 0 16)) }
      else s.faults i Cause.blockForm 4) =
    if fld b 31 16 = 0 then s.answer i { lsid := some (v (b.extractLsb' 0 16)) } else s.faults i Cause.blockForm 4 := by
  have h : (b.extractLsb' 0 32).extractLsb' 0 16 = b.extractLsb' 0 16 := BitVec.extractLsb'_extractLsb'_of_le (by decide)
  simp only [fld_low b (show 16 ≤ 31 by omega) (show 31 < 32 by omega), h, beq_iff_eq]

theorem execEngqSet_checked {f : Slot} {s : State} {l : Token} {b : W128} (g : Given (.engqSet f) s l (dataTok b))
    (hc : CleanTrigger l) : execEngqSet f s = .next
      (if s.level = false then s.faults (.engqSet f) Cause.priv 0
       else if lane0 b < 3 then s.answer (.engqSet f) { lsid := some (.engqSet (f.mode.extractLsb' 0 2) (BitVec.ofNat 2 (lane0 b))) }
       else s.faults (.engqSet f) Cause.blockForm 4) := by
  refine congrArg _ ((fireTrigR_given (i := .engqSet f) g hc.1 hc.2 rfl rfl _).trans ?_)
  cases s.level <;> rfl

theorem blockAndQueueInstructions : BlockAndQueueInstructions := by
  unfold BlockAndQueueInstructions
  intro issued f s l r a b hc va
  obtain ⟨hk, hp⟩ := hc
  exact ⟨fun k h => ⟨fun g => congrArg _ (fireBlock_gives (i := .strmpb f) g rfl rfl rfl h .strmpb),
      fun g => congrArg _ (fireBlock_gives (i := .sendpb f) g rfl rfl rfl h .sendpb)⟩,
    fun k h g => congrArg _ (fireBlock_gives (i := .cfgld f) g rfl rfl rfl h .cfgld),
    fun e k h => ⟨fun g => congrArg _ (fireBlock_faults (i := .strmpb f) g rfl rfl rfl h _),
      fun g => congrArg _ (fireBlock_faults (i := .sendpb f) g rfl rfl rfl h _)⟩,
    fun g => congrArg _ ((fireTrigDesc_given (i := .omclaim f) g hk hp rfl rfl _).trans (mask_checked s (.omclaim f) b (.omClaim (f.mode.getLsbD 0)))),
    fun g => congrArg _ ((fireTrigDesc_given (i := .omrel f) g hk hp rfl rfl _).trans (mask_checked s (.omrel f) b .omRel)),
    fun g => congrArg _ (fireTrig_given (i := .engq f) g hk hp rfl _),
    fun g => execEngqSet_checked g ⟨hk, hp⟩⟩

/-- Settles O28: the commands, then blocks, slots and queues. -/
theorem engineInstructions : Obligations.EngineInstructions := ⟨engineCommands, blockAndQueueInstructions⟩

end Sys2Proof.Machine

/-! PROOF. The matrix and the stream engine (O56, O57): each claim fails in a state that its hypotheses admit. -/

namespace Sys2Proof.Machine

/-- A machine with one residency, which has tile (0, 0) of die 0 alone; the tile is as given. -/
def soleTile (x : Tile) : State :=
  { pk := { dies := (Vector.replicate 8 {}).set 0 { tiles := (Vector.replicate 64 {}).set 0 { x with res := some 0 } }
            resids := [{ swarm := 0, die := 0, st := .resident }] } }

/-! ### The matrix engine (R211, R296) -/

/-- A started ACCZ of context 0. -/
def startedAccz : Op := { id := 1, ctx := 0, cmd := .accz 0, ctr := 0, started := true }

/-- It alone in the matrix queue, and the counter that counts it at 0. -/
def acczUncounted : State := soleTile { matrixQ := [startedAccz] }

/-- A counter that stands at 0 stays there as the operation completes. -/
theorem acczUncounted_counter {u : State} (h : exec (.engineOpComplete ⟨0, 0⟩ startedAccz.id) acczUncounted = .next u) :
    (u.pk.ctx ⟨0, 0⟩ startedAccz.ctx).cur.cnt.get startedAccz.ctr = 0 := by
  have hx : (match exec (.engineOpComplete ⟨0, 0⟩ startedAccz.id) acczUncounted with
      | .next v => (v.pk.ctx ⟨0, 0⟩ startedAccz.ctx).cur.cnt.get startedAccz.ctr == 0
      | _ => false) = true := by decide +kernel
  rw [h] at hx
  exact eq_of_beq hx

/-- Refutes O56: the claim takes 1 from the counter of a completed ACCZ modulo 64, so that 0 would become 63; the model's
counter stays at 0, and no hypothesis says that the counter counts the operation. -/
theorem not_matrixEngine : ¬ Obligations.MatrixEngine := by
  unfold Obligations.MatrixEngine
  intro h
  obtain ⟨-, -, completes, -⟩ := h acczUncounted ⟨0, 0⟩ startedAccz 0 0
  obtain ⟨u, hu, -, -, -, -, -, hcount, -⟩ := completes (by decide +kernel) (by decide +kernel) rfl rfl rfl rfl rfl rfl
    (by decide +kernel) rfl (by decide +kernel) (by decide +kernel)
  rw [acczUncounted_counter hu] at hcount
  exact absurd hcount (by decide +kernel)

/-! ### The stream engine (R194, R310) -/

/-- A copy of one byte into operand slot 0. -/
def byteToSlot : StreamCmd := { kind := 2, n := [1] }

/-- It has started, and has read its byte. -/
def byteRead : Op :=
  { id := 1, ctx := 0, cmd := .strm byteToSlot, ctr := 0, started := true, snap := some (.strm byteToSlot), held := [(0, dataTok 0)] }

/-- An operation of the same identity whose block has not been read, with a fill outstanding. -/
def namesake : Op := { id := 1, ctx := 0, cmd := .strmpb 0, ctr := 0, fills := [(0, [], false)] }

/-- The copy behind its namesake: the port is offered to the copy. -/
def twoOfOneName : State := soleTile { streamQ := [namesake, byteRead] }

/-- The fill goes to the first operation of the identity, so that none has gone on to element 1 with one fill. -/
theorem twoOfOneName_fills {u : State} (h : exec (.memoryPortSlot ⟨0, 0⟩) twoOfOneName = .next u) :
    ∀ y ∈ (u.pk.tile ⟨0, 0⟩).streamQ, y.pos = 1 → y.fills.length ≠ 1 := by
  have hx : (match exec (.memoryPortSlot ⟨0, 0⟩) twoOfOneName with
      | .next v => decide (∀ y ∈ (v.pk.tile ⟨0, 0⟩).streamQ, y.pos = 1 → y.fills.length ≠ 1)
      | _ => false) = true := by decide +kernel
  rw [h] at hx
  exact of_decide_eq_true hx

/-- Refutes O57: the claim on a cycle of the memory port does not ask that the operation offered be the one its queue finds by
its identity, where the model makes the fill. Behind a namesake that has a fill, the copy's element goes to the namesake. -/
theorem not_streamEngine : ¬ Obligations.StreamEngine := by
  unfold Obligations.StreamEngine
  intro h
  obtain ⟨-, -, -, -, port, -⟩ := h twoOfOneName ⟨0, 0⟩ byteRead byteToSlot {} ⟨0, 0⟩ 0 0 0 ⟨0, 0, 0⟩ 0 0
  obtain ⟨u, hu, -, -, -, y, hy, -, hpos, hfills⟩ := (port [] [dataTok 0] (by decide +kernel) rfl rfl rfl (by decide +kernel) rfl rfl).1
    rfl (by decide) (by decide +kernel) (by decide) (by decide +kernel)
  exact twoOfOneName_fills hu y hy hpos (by rw [hfills]; rfl)

end Sys2Proof.Machine
